-- ==== Sys2Proof/Word.lean ====
section
/-! DEFINITION. The plain data of the codec block: bytes (symbols), register words, bit strings, and the node of
the Huffman arena (spec/00_scope.md R6, R11; spec/10_state.md R59). -/

namespace Sys2Proof

/-- A symbol, a byte of the buffer memory: 8 bits (R6). -/
abbrev Byte := BitVec 8

/-- A register of the block: 32 bits (R6). -/
abbrev Word := BitVec 32

/-- A bit string, first bit first (R11). -/
abbrev Bits := List Bool

/-- A node of the arena (R59): a leaf with its symbol and 32-bit freq, or an internal node with its freq and the
arena indices of its two children. -/
inductive Node where
  | leaf (sym : Byte) (freq : Word)
  | internal (freq : Word) (left right : Nat)
deriving DecidableEq, Repr

/-- The freq field of a node, whichever kind it is (R52). -/
def Node.freq : Node → Word
  | .leaf _ f => f
  | .internal f _ _ => f

end Sys2Proof
end

