-- ==== Sys2Proof/Config.lean ====
section
/-! DEFINITION. What an implementation fixes (spec/00_scope.md R8) and the FREE VALUES: constants without a body, so
that nothing can be proved of the values they give. A free value is applied to the number of the event that draws it
(State.draws) and to an address or an index inside that event. -/

namespace Sys2Proof

/-- The open parameters of R8. They are held in State, so that every statement about every state is a statement about
every parameter; no step changes them. BUF_SIZE is 1 .. 2^32, held as BUF_SIZE - 1 in 32 bits; REG_BASE is a multiple
of 4, held as the quotient. Notes: notes/assumptions/1.md. -/
structure Params where
  bufSizeLessOne : BitVec 32
  regBaseWords   : Nat
deriving DecidableEq, Repr

/-- BUF_SIZE (R8). -/
def Params.bufSize (p : Params) : Nat := p.bufSizeLessOne.toNat + 1

/-- REG_BASE (R8). -/
def Params.regBase (p : Params) : Nat := 4 * p.regBaseWords

namespace Config

/-- What the buffer memory holds at an address after power-up, before anything has written it: unspecified, "a model
draws every byte" (R322). -/
opaque powerUpByte : Nat → Byte

/-- The byte a havoc leaves (R14, R77, R321): event number, address. -/
opaque freeByte : Nat → Nat → Byte

/-- A drawn 32-bit value: event number, index. A register read while BUSY = 1 (R65), a counter of a table left
unspecified by an error (R62). -/
opaque freeWord : Nat → Nat → Word

/-- The nodes of an arena left unspecified by an error (R62): event number. -/
opaque freeNodes : Nat → List Node

/-- The root of an arena left unspecified by an error (R62): event number. -/
opaque freeRoot : Nat → Option Nat

/-- A code of a code table left unspecified by an error (R62): event number, symbol. -/
opaque freeCode : Nat → Nat → Bits

end Config

end Sys2Proof
end

