-- ==== Sys2Proof/Syntax.lean ====
section
/-! DEFINITION. The command words as syntax: one constructor per row of spec/opcode_table.json (spec/30_encoding.md
R91, R94), and the four fields of a command word (R90). No command carries an operand: every operand is read from the
operand registers at the command step (R96). -/

namespace Sys2Proof

/-- The 24 commands of R94. -/
inductive Instr where
  | nop
  | freq
  | tbuild
  | cgen
  | henc
  | tser
  | tdes
  | hdec
  | hdecL
  | bpack
  | bunpack
  | hcomp
  | hdecomp
  | hdecompL
  | rleCOpt
  | rleCBin
  | rleCTxt
  | rleD
  | rleDBin
  | rleDTxt
  | lzC
  | lzD
  | lzbC
  | lzbD
deriving DecidableEq, Repr

/-- Every command once, in the order of R94. -/
def Instr.all : List Instr :=
  [.nop, .freq, .tbuild, .cgen, .henc, .tser, .tdes, .hdec, .hdecL, .bpack, .bunpack, .hcomp,
    .hdecomp, .hdecompL, .rleCOpt, .rleCBin, .rleCTxt, .rleD, .rleDBin, .rleDTxt, .lzC, .lzD, .lzbC, .lzbD]

/-- The fields of a 32-bit command word (R90): OP in bits 7:0, M in bits 9:8, L in bit 10, reserved in bits 31:11. -/
structure CmdFields where
  op       : BitVec 8
  m        : BitVec 2
  l        : Bool
  reserved : BitVec 21
deriving DecidableEq, Repr

end Sys2Proof
end

