-- ==== Sys2Proof/WellFormed.lean ====
section
/-! DEFINITION. When the fields of a command word are a legal command (spec/30_encoding.md R91 to R93, R95): one check
per rule, so that each can fail by itself. -/

namespace Sys2Proof

/-- The OP values of R91. -/
def legalOps : List (BitVec 8) :=
  [0x01, 0x10, 0x11, 0x12, 0x13, 0x14, 0x15, 0x16, 0x18, 0x19, 0x1C, 0x1D, 0x20, 0x21, 0x30, 0x31, 0x32, 0x33]

/-- The reserved bits 31:11 are 0 (R90). -/
def CmdFields.reservedClear (f : CmdFields) : Bool := f.reserved == 0

/-- OP is one of R91. -/
def CmdFields.opKnown (f : CmdFields) : Bool := legalOps.contains f.op

/-- L = 1 only with OP = HDEC or OP = HDECOMP (R92). -/
def CmdFields.legacyFits (f : CmdFields) : Bool := !f.l || f.op == 0x16 || f.op == 0x1D

/-- M is not 0 only with OP = RLE_C or OP = RLE_D (R93). -/
def CmdFields.methodFits (f : CmdFields) : Bool := f.m == 0 || f.op == 0x20 || f.op == 0x21

/-- M = 3 is illegal (R93). -/
def CmdFields.methodNotThree (f : CmdFields) : Bool := f.m != 3

/-- The fields are those of a legal command word (R95). -/
def CmdFields.legal (f : CmdFields) : Bool :=
  f.reservedClear && f.opKnown && f.legacyFits && f.methodFits && f.methodNotThree

end Sys2Proof
end

