-- ==== Sys2Proof/Decode.lean ====
section
/-! DEFINITION. Decoding a command word, total on every 32-bit word and rejecting by name, and after it the encoder
(spec/30_encoding.md R90 to R95, spec/40_control.md R111). Both read the one table Instr.fields. The word reaches the
block as the value of a CMD write, so no byte order enters (R85). -/

namespace Sys2Proof

/-- Why a word is no command (R95); the block itself reports ILLEGAL_CMD for each (R111). -/
inductive Reject where
  /-- a bit of 31:11 is 1 (R90) -/
  | reservedBit
  /-- OP is not in R91 -/
  | unknownOp
  /-- L = 1 outside HDEC and HDECOMP (R92) -/
  | strayLegacyBit
  /-- M is not 0 outside RLE_C and RLE_D (R93) -/
  | strayMethod
  /-- M = 3 with RLE_C or RLE_D (R93) -/
  | methodThree
deriving DecidableEq, Repr

/-- The fields each command is written with (R91 to R93). -/
def Instr.fields : Instr → CmdFields
  | .nop      => ⟨0x01, 0, false, 0⟩
  | .freq     => ⟨0x10, 0, false, 0⟩
  | .tbuild   => ⟨0x11, 0, false, 0⟩
  | .cgen     => ⟨0x12, 0, false, 0⟩
  | .henc     => ⟨0x13, 0, false, 0⟩
  | .tser     => ⟨0x14, 0, false, 0⟩
  | .tdes     => ⟨0x15, 0, false, 0⟩
  | .hdec     => ⟨0x16, 0, false, 0⟩
  | .hdecL    => ⟨0x16, 0, true, 0⟩
  | .bpack    => ⟨0x18, 0, false, 0⟩
  | .bunpack  => ⟨0x19, 0, false, 0⟩
  | .hcomp    => ⟨0x1C, 0, false, 0⟩
  | .hdecomp  => ⟨0x1D, 0, false, 0⟩
  | .hdecompL => ⟨0x1D, 0, true, 0⟩
  | .rleCOpt  => ⟨0x20, 0, false, 0⟩
  | .rleCBin  => ⟨0x20, 1, false, 0⟩
  | .rleCTxt  => ⟨0x20, 2, false, 0⟩
  | .rleD     => ⟨0x21, 0, false, 0⟩
  | .rleDBin  => ⟨0x21, 1, false, 0⟩
  | .rleDTxt  => ⟨0x21, 2, false, 0⟩
  | .lzC      => ⟨0x30, 0, false, 0⟩
  | .lzD      => ⟨0x31, 0, false, 0⟩
  | .lzbC     => ⟨0x32, 0, false, 0⟩
  | .lzbD     => ⟨0x33, 0, false, 0⟩

/-- The fields of a word (R90). -/
def splitWord (w : Word) : CmdFields where
  op := w.extractLsb' 0 8
  m := w.extractLsb' 8 2
  l := w.getLsbD 10
  reserved := w.extractLsb' 11 21

/-- The word of some fields (R90). -/
def joinFields (f : CmdFields) : Word := f.reserved ++ BitVec.ofBool f.l ++ f.m ++ f.op

/-- The name of the first check of R90 to R93 that fields outside the table fail. -/
def whyIllegal (f : CmdFields) : Reject :=
  if f.reserved ≠ 0 then .reservedBit
  else if !legalOps.contains f.op then .unknownOp
  else if f.l && f.op ≠ 0x16 && f.op ≠ 0x1D then .strayLegacyBit
  else if f.op ≠ 0x20 && f.op ≠ 0x21 then .strayMethod
  else .methodThree

/-- Decode(w) of R94: the command whose fields the word has, else the reason it is illegal. -/
def decode (w : Word) : Except Reject Instr :=
  match Instr.all.find? (fun i => i.fields = splitWord w) with
  | some i => .ok i
  | none => .error (whyIllegal (splitWord w))

/-- The word of a command (R94). -/
def encode (i : Instr) : Word := joinFields i.fields

/-- Decoding with the bits numbered as spec/opcode_table.json numbers them; bits from nbits up are 0, and a number
that does not fit the 32-bit CMD register is no command word. -/
def decodeTableWord (nbits w : Nat) : Option Instr :=
  let v := w % 2 ^ nbits
  if v < 2 ^ 32 then
    match decode (BitVec.ofNat 32 v) with
    | .ok i => some i
    | .error _ => none
  else none

end Sys2Proof
end

