-- ==== Sys2Proof/Machine/State.lean ====
section
/-! DEFINITION. The state of the codec block as plain data: every register, flag and table of spec/10_state.md, the
buffer memory, and the host beside it (spec/20_memory.md R83: two agents) as the list of its pending operations.
State.reset is spec/10_state.md R66. -/

namespace Sys2Proof.Machine

/-- The command latch SEQ (R21). STATUS.BUSY is 1 exactly when it is pending, so BUSY is not stored again. -/
inductive Seq where
  | idle
  | pending (w : Word)
deriving DecidableEq, Repr

/-- The error kinds of R280, codes 1 to 9 in this order. -/
inductive CodecError where
  | illegalCmd
  | range
  | sequence
  | missingMetadata
  | malformedPayload
  | corruptTree
  | dstOverflow
  | mdaOverflow
  | noCode
deriving DecidableEq, Repr

/-- The values of RLE_METHOD (R44); 3 never occurs. -/
inductive MethodTag where
  | none
  | binary
  | text
deriving DecidableEq, Repr

/-- An error with its position: the E(pos) of `raise E(pos)` (R14). -/
structure Raise where
  err : CodecError
  pos : Nat
deriving DecidableEq, Repr

/-- CTRL, STATUS (but BUSY), CMD, the command latch and the two window selectors (R25 to R27, R50, R54). -/
structure Control where
  irqEn   : Bool
  done    : Bool
  err     : Bool
  cmdOvf  : Bool
  errCode : Option CodecError
  cmd     : Word
  seq     : Seq
  nodeSel : BitVec 9
  codeSel : BitVec 8
deriving DecidableEq, Repr

/-- The operand registers (R28 to R31, R33 to R35, R37 to R39). -/
structure Operands where
  srcAddr   : Word
  srcLen    : Word
  dstAddr   : Word
  dstCap    : Word
  mdaAddr   : Word
  mdaCap    : Word
  mdaInLen  : Word
  expectLen : Word
  window    : BitVec 13
  lookahead : BitVec 8
deriving DecidableEq, Repr

/-- The result registers (R32, R36, R40 to R45). -/
structure Results where
  dstLen    : Word
  mdaOutLen : Word
  errPos    : Word
  statOrig  : Word
  statEnc   : Word
  statRatio : Word
  rleMethod : MethodTag
  padBits   : BitVec 3
deriving DecidableEq, Repr

/-- The frequency table FT: 256 counters by symbol (R58). -/
abbrev FreqTable := Vector Word 256

/-- The code table CT: a bit string by symbol, the empty one where the symbol has no code (R60). -/
abbrev CodeTable := Vector Bits 256

/-- The node arena and its root (R59). -/
structure Arena where
  nodes : List Node
  root  : Option Nat
deriving DecidableEq, Repr

/-- The tables and their validity flags (R58 to R61). -/
structure Tables where
  ft    : FreqTable
  arena : Arena
  ct    : CodeTable
  fv    : Bool
  tv    : Bool
  cv    : Bool
deriving DecidableEq, Repr

/-- The buffer memory (R70): the bytes that have been written, by address. -/
abbrev Memory := List Host.Cell

/-- What the host can do to the block (R71, R97, R98, R320, R344). A register access names the host address and how
many bytes wide the access is. -/
inductive HostOp where
  /-- `W`: a register write -/
  | writeReg (addr size : Nat) (v : Word)
  /-- `R`: a register read -/
  | readReg (addr size : Nat)
  /-- `M`: buffer-memory bytes written -/
  | writeMem (addr : Nat) (bytes : List Byte)
  /-- `D`: buffer-memory bytes read -/
  | readMem (addr n : Nat)
  /-- `WAIT`: read STATUS until BUSY = 0 -/
  | wait
  /-- the platform's reset input -/
  | hardReset
deriving DecidableEq, Repr

/-- What the host received from a read. -/
inductive HostRead where
  | reg (addr : Nat) (v : Word)
  | mem (addr : Nat) (bytes : List Byte)
deriving DecidableEq, Repr

/-- The two agents (R83). -/
inductive Agent where
  | host
  | engine
deriving DecidableEq, Repr

/-- The host's side: the operations it has still to do, the order in which the agents move (one entry a step; R83,
R345: any interleaving), and what its reads gave, newest first. The model's own fields: notes/assumptions/4.md. -/
structure HostSide where
  prog  : List HostOp
  turns : List Agent
  seen  : List HostRead
deriving DecidableEq, Repr

/-- The whole machine. `draws` counts the events that drew free values (the model's own field). -/
structure State where
  params : Params
  ctl    : Control
  opnd   : Operands
  res    : Results
  tbl    : Tables
  mem    : Memory
  host   : HostSide
  draws  : Nat
deriving DecidableEq, Repr

/-- Why the machine stops with a fault; each is raised by a host access only, never by a command. -/
inductive Fault where
  /-- A host read or write of a buffer byte inside a region of the pending command while BUSY = 1: "is a fault in the
  model" (R340). Raised by HostOp.writeMem and HostOp.readMem. Safe: the hardware goes on with unspecified data. -/
  | regionHazard
  /-- A host access to a buffer address at or above BUF_SIZE, which does not exist (R70). Raised by HostOp.writeMem and
  HostOp.readMem. Safe: the block gives it no meaning. -/
  | noSuchBufferAddress
deriving DecidableEq, Repr

/-- What the model gives no meaning to. -/
inductive Refusal where
  /-- An instruction without a meaning yet. Raised by exec alone. Safe. -/
  | notModelled (mnemonic : String)
  /-- A host access inside the register block that is not an aligned 32-bit access: "a model refuses it" (R23).
  Raised by HostOp.writeReg and HostOp.readReg. Safe. -/
  | notAlignedWordAccess
  /-- A host register access outside the 0x800 bytes at REG_BASE (R23, R81): it does not reach this block. Raised by
  HostOp.writeReg and HostOp.readReg. Safe. -/
  | outsideRegisterBlock
deriving DecidableEq, Repr

/-- CTRL, STATUS, CMD, SEQ and the selectors after reset (R66). -/
def Control.reset : Control where
  irqEn := false
  done := false
  err := false
  cmdOvf := false
  errCode := none
  cmd := 0
  seq := .idle
  nodeSel := 0
  codeSel := 0

/-- The operand registers after reset (R66): all 0, but WINDOW = 4096 and LOOKAHEAD = 18. -/
def Operands.reset : Operands where
  srcAddr := 0
  srcLen := 0
  dstAddr := 0
  dstCap := 0
  mdaAddr := 0
  mdaCap := 0
  mdaInLen := 0
  expectLen := 0
  window := 4096
  lookahead := 18

/-- The result registers after reset (R66): all 0. -/
def Results.reset : Results where
  dstLen := 0
  mdaOutLen := 0
  errPos := 0
  statOrig := 0
  statEnc := 0
  statRatio := 0
  rleMethod := .none
  padBits := 0

/-- The tables after reset (R66): FT and CT all 0, the arena empty, the flags 0. -/
def Tables.reset : Tables where
  ft := Vector.replicate 256 0
  arena := ⟨[], none⟩
  ct := Vector.replicate 256 []
  fv := false
  tv := false
  cv := false

/-- The machine right after reset (R66, R320), with no host operation pending. BUF_SIZE = 0x10000 and REG_BASE = 0 are
the model's choice among the parameters of R8 (notes/assumptions/1.md); no byte of the buffer memory has been written
(R322). -/
def State.reset : State where
  params := ⟨0xFFFF, 0⟩
  ctl := Control.reset
  opnd := Operands.reset
  res := Results.reset
  tbl := Tables.reset
  mem := []
  host := ⟨[], [], []⟩
  draws := 0

end Sys2Proof.Machine
end

