-- ==== Sys2Proof/Machine/Memory.lean ====
section
/-! DEFINITION. The buffer memory (spec/20_memory.md R70 to R76): a list of written bytes, addresses strictly rising.
An address with no entry holds no written byte; Memory.absent is that one definition, and what a read of such an
address gives is the free value Config.powerUpByte (State.byteAt). -/

namespace Sys2Proof.Machine

/-- What an unlisted address holds: no written byte. So no entry can equal it, and every list of strictly rising
addresses is the one list of its contents. -/
def Memory.absent : Option Byte := none

/-- The byte written at an address, if any. -/
def Memory.read : Memory → Nat → Option Byte
  | [], _ => Memory.absent
  | (x, b) :: rest, a => if x = a then some b else Memory.read rest a

/-- The cells of a byte string placed from an address on (R72: stream byte k at address A + k). -/
def Memory.cellsFrom : Nat → List Byte → List Host.Cell
  | _, [] => []
  | a, b :: bs => (a, b) :: Memory.cellsFrom (a + 1) bs

/-- MemWrite(addr, n, v) of R13: the n = bs.length bytes from a on are replaced, all others stay. -/
def Memory.write (m : Memory) (a : Nat) (bs : List Byte) : Memory :=
  m.filter (fun c => c.1 < a) ++ (Memory.cellsFrom a bs ++ m.filter (fun c => a + bs.length ≤ c.1))

/-- The canonical form: addresses strictly rising. -/
def Memory.wf : Memory → Bool
  | [] => true
  | [_] => true
  | (x, _) :: (y, c) :: rest => decide (x < y) && Memory.wf ((y, c) :: rest)

/-- havoc of the n bytes from a on (R14): each holds the free byte of this event at its address. -/
def Memory.havoc (m : Memory) (event a n : Nat) : Memory :=
  Memory.write m a ((List.range' a n).map (Config.freeByte event))

/-- The byte the buffer memory holds at an address: the written one, else the power-up byte (R322). -/
def State.byteAt (s : State) (a : Nat) : Byte :=
  match Memory.read s.mem a with
  | some b => b
  | none => Config.powerUpByte a

/-- MemRead(addr, n) of R13. -/
def State.memRead (s : State) (a n : Nat) : List Byte := (List.range' a n).map s.byteAt

end Sys2Proof.Machine
end

