-- ==== Sys2Proof/Machine/Operands.lean ====
section
/-! DEFINITION. Which regions each command uses, where they lie, the checks made on them, and the input strings read
from them (spec/20_memory.md R73, R74, R76; spec/30_encoding.md R96). -/

namespace Sys2Proof.Machine

/-- A half-open address range [base, base + len) of the buffer memory, in mathematical integers (R73). -/
structure Region where
  base : Nat
  len  : Nat
deriving DecidableEq, Repr

/-- How a command uses the metadata area: not, as MDI or as MDO (R73). -/
inductive MetaUse where
  | none
  | input
  | output
deriving DecidableEq, Repr

/-- The regions a command uses (R73). -/
structure Uses where
  src  : Bool
  dst  : Bool
  mda : MetaUse
deriving DecidableEq, Repr

/-- The table of R73. -/
def usesOf : Instr → Uses
  | .nop => ⟨false, false, .none⟩
  | .freq => ⟨true, false, .none⟩
  | .tbuild => ⟨false, false, .none⟩
  | .cgen => ⟨false, false, .none⟩
  | .henc => ⟨true, true, .none⟩
  | .tser => ⟨false, false, .output⟩
  | .tdes => ⟨false, false, .input⟩
  | .hdec => ⟨true, true, .none⟩
  | .hdecL => ⟨true, true, .none⟩
  | .bpack => ⟨true, true, .none⟩
  | .bunpack => ⟨true, true, .none⟩
  | .hcomp => ⟨true, true, .output⟩
  | .hdecomp => ⟨true, true, .input⟩
  | .hdecompL => ⟨true, true, .input⟩
  | .rleCOpt => ⟨true, true, .none⟩
  | .rleCBin => ⟨true, true, .none⟩
  | .rleCTxt => ⟨true, true, .none⟩
  | .rleD => ⟨true, true, .none⟩
  | .rleDBin => ⟨true, true, .none⟩
  | .rleDTxt => ⟨true, true, .none⟩
  | .lzC => ⟨true, true, .none⟩
  | .lzD => ⟨true, true, .none⟩
  | .lzbC => ⟨true, true, .none⟩
  | .lzbD => ⟨true, true, .none⟩

/-- SRC (R73). -/
def State.srcRegion (s : State) : Region := ⟨s.opnd.srcAddr.toNat, s.opnd.srcLen.toNat⟩

/-- DST (R73). -/
def State.dstRegion (s : State) : Region := ⟨s.opnd.dstAddr.toNat, s.opnd.dstCap.toNat⟩

/-- MDI (R73). -/
def State.mdiRegion (s : State) : Region := ⟨s.opnd.mdaAddr.toNat, s.opnd.mdaInLen.toNat⟩

/-- MDO (R73). -/
def State.mdoRegion (s : State) : Region := ⟨s.opnd.mdaAddr.toNat, s.opnd.mdaCap.toNat⟩

/-- The metadata region a command uses, if it uses one. -/
def State.metaRegion (s : State) : MetaUse → Option Region
  | .none => none
  | .input => some s.mdiRegion
  | .output => some s.mdoRegion

/-- The regions a command uses, as lists of none or one (R73). -/
def State.regionsOf (s : State) (u : Uses) : List Region :=
  (if u.src then [s.srcRegion] else []) ++ (if u.dst then [s.dstRegion] else []) ++ (s.metaRegion u.mda).toList

/-- The bounds check of R74: a zero-length region passes. -/
def Region.inBuffer (r : Region) (bufSize : Nat) : Bool := r.len == 0 || decide (r.base + r.len ≤ bufSize)

/-- Two ranges are disjoint (R74). -/
def Region.disjoint (r q : Region) : Bool :=
  r.len == 0 || q.len == 0 || decide (r.base + r.len ≤ q.base) || decide (q.base + q.len ≤ r.base)

/-- The address lies in the region. -/
def Region.holds (r : Region) (a : Nat) : Bool := decide (r.base ≤ a) && decide (a < r.base + r.len)

/-- The region checks of R74 in their order: the ERR_POS of the first that fails, none if all pass. -/
def State.rangeError (s : State) (u : Uses) : Option Nat :=
  let size := s.params.bufSize
  let fits : Option Region → Bool := fun r => match r with | some q => q.inBuffer size | none => true
  let apart : Option Region → Option Region → Bool := fun r q => match r, q with | some x, some y => x.disjoint y | _, _ => true
  let src := if u.src then some s.srcRegion else none
  let dst := if u.dst then some s.dstRegion else none
  let mda := s.metaRegion u.mda
  if !fits src then some 1
  else if !fits dst then some 2
  else if !fits mda then some 3
  else if !apart src dst then some 0x12
  else if !apart src mda then some 0x13
  else if !apart dst mda then some 0x23
  else none

/-- `in` of R76: the input string of the command. -/
def State.input (s : State) : List Byte := s.memRead s.opnd.srcAddr.toNat s.opnd.srcLen.toNat

/-- `md` of R76: the metadata string of the command. -/
def State.metadata (s : State) : List Byte := s.memRead s.opnd.mdaAddr.toNat s.opnd.mdaInLen.toNat

/-- The capacity of the output region as a number (R31). -/
def State.dstCap (s : State) : Nat := s.opnd.dstCap.toNat

/-- The capacity of the metadata output region as a number (R34). -/
def State.mdaCap (s : State) : Nat := s.opnd.mdaCap.toNat

end Sys2Proof.Machine
end

