-- ==== Sys2Proof/Machine/Flags.lean ====
section
/-! DEFINITION. Every flag of the block and how it is computed: STATUS and its word (spec/10_state.md R26), the
interrupt line (spec/60_exceptions.md R294), the table-validity flags with their clear and set table (spec/10_state.md
R61), and access to the 256-entry tables by symbol. -/

namespace Sys2Proof.Machine

/-- STATUS.BUSY (R21, R26): 1 exactly while a command is pending. -/
def State.busy (s : State) : Bool :=
  match s.ctl.seq with
  | .pending _ => true
  | .idle => false

/-- IRQ = IRQ_EN AND (DONE OR ERR) (R294). -/
def State.irq (s : State) : Bool := s.ctl.irqEn && (s.ctl.done || s.ctl.err)

/-- code(E) of R280. -/
def CodecError.code : CodecError → BitVec 8
  | .illegalCmd => 1
  | .range => 2
  | .sequence => 3
  | .missingMetadata => 4
  | .malformedPayload => 5
  | .corruptTree => 6
  | .dstOverflow => 7
  | .mdaOverflow => 8
  | .noCode => 9

/-- STATUS.ERRCODE (R26): 0 when there is none. -/
def State.errCodeBits (s : State) : BitVec 8 :=
  match s.ctl.errCode with
  | some e => e.code
  | none => 0

/-- A Boolean as one bit at a place of a register. -/
def bitAt (place : Nat) (b : Bool) : Word := if b then BitVec.ofNat 32 (2 ^ place) else 0

/-- The word a STATUS read gives (R26). -/
def State.statusWord (s : State) : Word :=
  bitAt 0 s.busy ||| bitAt 1 s.ctl.done ||| bitAt 2 s.ctl.err ||| bitAt 3 s.ctl.cmdOvf |||
    (s.errCodeBits.setWidth 32 <<< 8)

/-- The value of RLE_METHOD (R44). -/
def MethodTag.bits : MethodTag → BitVec 2
  | .none => 0
  | .binary => 1
  | .text => 2

/-- The entry of a table at a symbol. -/
def tblGet {α : Type} (t : Vector α 256) (s : Byte) : α := t[s.toNat]'s.isLt

/-- The table with the entry at a symbol replaced. -/
def tblSet {α : Type} (t : Vector α 256) (s : Byte) (x : α) : Vector α 256 := t.set s.toNat x s.isLt

/-- The tables a command writes, which are those a failure leaves unspecified (R62), and the flags it clears when its
execution phase starts (R61). -/
structure TableUse where
  writesFt    : Bool
  writesArena : Bool
  writesCt    : Bool
  clearsFv    : Bool
  clearsTv    : Bool
  clearsCv    : Bool
deriving DecidableEq, Repr

/-- A command that writes no table and clears no flag (R61). -/
def TableUse.nothing : TableUse := ⟨false, false, false, false, false, false⟩

/-- Tables written (R58 to R60) and flags cleared (R61) by each command. -/
def tableUseOf : Instr → TableUse
  | .freq => ⟨true, false, false, true, true, true⟩
  | .tbuild => ⟨false, true, false, false, true, true⟩
  | .cgen => ⟨false, false, true, false, false, true⟩
  | .tdes => ⟨false, true, false, false, true, true⟩
  | .hcomp => ⟨true, true, true, true, true, true⟩
  | .hdecomp => ⟨false, true, false, false, true, true⟩
  | .hdecompL => ⟨false, true, false, false, true, true⟩
  | .nop => .nothing
  | .henc => .nothing
  | .tser => .nothing
  | .hdec => .nothing
  | .hdecL => .nothing
  | .bpack => .nothing
  | .bunpack => .nothing
  | .rleCOpt => .nothing
  | .rleCBin => .nothing
  | .rleCTxt => .nothing
  | .rleD => .nothing
  | .rleDBin => .nothing
  | .rleDTxt => .nothing
  | .lzC => .nothing
  | .lzD => .nothing
  | .lzbC => .nothing
  | .lzbD => .nothing

/-- The flags a command clears are 0 (R61). -/
def Tables.cleared (t : Tables) (u : TableUse) : Tables :=
  { t with fv := t.fv && !u.clearsFv, tv := t.tv && !u.clearsTv, cv := t.cv && !u.clearsCv }

/-- The validity flag a command needs is 1 (R61, R283): FV for TBUILD, TV for CGEN, TSER, HDEC and HDEC.L, CV for HENC;
the others need none. -/
def neededFlag (t : Tables) : Instr → Bool
  | .tbuild => t.fv
  | .cgen => t.tv
  | .tser => t.tv
  | .hdec => t.tv
  | .hdecL => t.tv
  | .henc => t.cv
  | .nop => true
  | .freq => true
  | .tdes => true
  | .bpack => true
  | .bunpack => true
  | .hcomp => true
  | .hdecomp => true
  | .hdecompL => true
  | .rleCOpt => true
  | .rleCBin => true
  | .rleCTxt => true
  | .rleD => true
  | .rleDBin => true
  | .rleDTxt => true
  | .lzC => true
  | .lzD => true
  | .lzbC => true
  | .lzbD => true

/-- The metadata a command needs is present (R285): a tree for TDES, HDECOMP and HDECOMP.L, the method tag for RLE_D,
whose M = 0 word never has one; the others need none. -/
def metadataPresent (o : Operands) : Instr → Bool
  | .tdes => o.mdaInLen != 0
  | .hdecomp => o.mdaInLen != 0
  | .hdecompL => o.mdaInLen != 0
  | .rleD => false
  | .nop => true
  | .freq => true
  | .tbuild => true
  | .cgen => true
  | .henc => true
  | .tser => true
  | .hdec => true
  | .hdecL => true
  | .bpack => true
  | .bunpack => true
  | .hcomp => true
  | .rleCOpt => true
  | .rleCBin => true
  | .rleCTxt => true
  | .rleDBin => true
  | .rleDTxt => true
  | .lzC => true
  | .lzD => true
  | .lzbC => true
  | .lzbD => true

end Sys2Proof.Machine
end

