-- ==== Sys2Proof/Machine/Ops.lean ====
section
/-! DEFINITION. The operations every command shares: emission with its overflow checks (spec/20_memory.md R78, R79),
the write-out of a result (R77), the check phase (spec/40_control.md R112), completion (R116), RAISING AN ERROR as one
operation (spec/60_exceptions.md R288), the return from it by the host's STATUS write (R291), acceptance of a command
(spec/10_state.md R27) and reset (spec/70_reset_and_hazards.md R320 to R322). -/

namespace Sys2Proof.Machine

/-! ### Emission -/

/-- Emit(b, pos) of R78 onto the output list, with the capacity as a number. -/
def emit (cap : Nat) (b : Byte) (pos : Nat) (out : List Byte) : Except Raise (List Byte) :=
  if out.length = cap then .error ⟨.dstOverflow, pos⟩ else .ok (out ++ [b])

/-- EmitStr(s, pos) of R78. -/
def emitStr (cap : Nat) : List Byte → Nat → List Byte → Except Raise (List Byte)
  | [], _, out => .ok out
  | b :: bs, pos, out =>
    match emit cap b pos out with
    | .ok out' => emitStr cap bs pos out'
    | .error r => .error r

/-- A list of byte strings emitted in order, each with its position. -/
def emitTokens (cap : Nat) : List (Nat × List Byte) → List Byte → Except Raise (List Byte)
  | [], out => .ok out
  | (pos, bs) :: rest, out =>
    match emitStr cap bs pos out with
    | .ok out' => emitTokens cap rest out'
    | .error r => .error r

/-- The self-referential copy of an LZ77 match: len symbols from off behind the end of the output so far, one at a
time (R240, R246). -/
def emitCopy (cap off pos : Nat) : Nat → List Byte → Except Raise (List Byte)
  | 0, out => .ok out
  | len + 1, out =>
    match emit cap (out.getD (out.length - off) 0) pos out with
    | .ok out' => emitCopy cap off pos len out'
    | .error r => .error r

/-- EmitMeta(b, len(mdo)) of R79, with the capacity as a number. -/
def emitMeta (cap : Nat) (b : Byte) (mdo : List Byte) : Except Raise (List Byte) :=
  if mdo.length = cap then .error ⟨.mdaOverflow, mdo.length⟩ else .ok (mdo ++ [b])

/-- EmitMeta of each byte of a string in order. -/
def emitMetaStr (cap : Nat) : List Byte → List Byte → Except Raise (List Byte)
  | [], mdo => .ok mdo
  | b :: bs, mdo =>
    match emitMeta cap b mdo with
    | .ok mdo' => emitMetaStr cap bs mdo'
    | .error r => .error r

/-! ### Results -/

/-- The output of a successful command: the bytes at DST_ADDR and their number in DST_LEN (R77). -/
def State.writeOut (s : State) (out : List Byte) : State :=
  { s with
    mem := Memory.write s.mem s.opnd.dstAddr.toNat out
    res := { s.res with dstLen := BitVec.ofNat 32 out.length } }

/-- The metadata output of a successful command: the bytes at MDA_ADDR and their number in MDA_OUT_LEN (R77). -/
def State.writeMeta (s : State) (mdo : List Byte) : State :=
  { s with
    mem := Memory.write s.mem s.opnd.mdaAddr.toNat mdo
    res := { s.res with mdaOutLen := BitVec.ofNat 32 mdo.length } }

/-- PAD_BITS (R45). -/
def State.setPad (s : State) (pad : BitVec 3) : State := { s with res := { s.res with padBits := pad } }

/-- RLE_METHOD (R44). -/
def State.setMethod (s : State) (m : MethodTag) : State := { s with res := { s.res with rleMethod := m } }

/-- The tables with their flags. -/
def State.setTables (s : State) (t : Tables) : State := { s with tbl := t }

/-! ### Completion and errors -/

/-- Complete(success) of R116. -/
def State.completeSuccess (s : State) : State :=
  { s with
    ctl := { s.ctl with seq := .idle, done := true, errCode := none }
    res := { s.res with errPos := 0 } }

/-- Complete(error E, pos) of R116. -/
def State.completeError (s : State) (r : Raise) : State :=
  { s with
    ctl := { s.ctl with seq := .idle, err := true, errCode := some r.err }
    res := { s.res with errPos := BitVec.ofNat 32 r.pos } }

/-- A frequency table an error leaves unspecified: 256 drawn counters (R62). -/
def drawnFreqTable (event : Nat) : FreqTable := Vector.ofFn fun i => Config.freeWord event i.val

/-- An arena an error leaves unspecified: drawn nodes, at most 511, and a drawn root (R62). -/
def drawnArena (event : Nat) : Arena := ⟨(Config.freeNodes event).take 511, Config.freeRoot event⟩

/-- A code table an error leaves unspecified: drawn codes of at most 255 bits (R62). -/
def drawnCodeTable (event : Nat) : CodeTable := Vector.ofFn fun i => (Config.freeCode event i.val).take 255

/-- The tables after an execution-phase error: those the command writes are drawn, the flags it cleared stay 0 (R62,
R114). -/
def Tables.failed (t : Tables) (u : TableUse) (event : Nat) : Tables :=
  { t.cleared u with
    ft := if u.writesFt then drawnFreqTable event else t.ft
    arena := if u.writesArena then drawnArena event else t.arena
    ct := if u.writesCt then drawnCodeTable event else t.ct }

/-- The memory with the output regions of a command havocked: DST if it uses DST, MDO if it uses MDO (R77). -/
def State.havocOutputs (s : State) (u : Uses) : Memory :=
  let m := if u.dst then Memory.havoc s.mem s.draws s.dstRegion.base s.dstRegion.len else s.mem
  match u.mda with
  | .output => Memory.havoc m s.draws s.mdoRegion.base s.mdoRegion.len
  | _ => m

/-- What an error in the execution phase of a command does before completion (R77, R114, R288): the output regions
drawn, DST_LEN 0 and, where MDO is used, MDA_OUT_LEN 0, the tables it writes drawn and the flags it clears 0.
Notes: notes/assumptions/7.md. -/
def State.failEffects (s : State) (i : Instr) : State :=
  { s with
    mem := s.havocOutputs (usesOf i)
    res := { s.res with
      dstLen := 0
      mdaOutLen := if (usesOf i).mda = .output then 0 else s.res.mdaOutLen }
    tbl := s.tbl.failed (tableUseOf i) s.draws
    draws := s.draws + 1 }

/-- `raise E(pos)` (R288), the error entry of this block, in one operation. In the check phase (executing = none) only
STATUS and ERR_POS change; in the execution phase of a command (executing = some i) the effects of R114 come first.
Nothing is saved, and no mode or mask changes. -/
def State.takeError (s : State) (executing : Option Instr) (r : Raise) : State :=
  match executing with
  | none => s.completeError r
  | some i => (s.failEffects i).completeError r

/-- The return from an error (R291) and the acknowledgement of a completion: a host write of v to STATUS clears each of
DONE, ERR and CMD_OVF whose bit is 1 in v and changes nothing else (R26). -/
def State.writeStatus (s : State) (v : Word) : State :=
  { s with ctl := { s.ctl with
      done := s.ctl.done && !v.getLsbD 1
      err := s.ctl.err && !v.getLsbD 2
      cmdOvf := s.ctl.cmdOvf && !v.getLsbD 3 } }

/-! ### The command frame -/

/-- The check phase of a legal command (R112), after legality: regions, needed flag, metadata. The first error. -/
def State.checkPhase (s : State) (i : Instr) : Option Raise :=
  match s.rangeError (usesOf i) with
  | some pos => some ⟨.range, pos⟩
  | none =>
    if !neededFlag s.tbl i then some ⟨.sequence, 0⟩
    else if !metadataPresent s.opnd i then some ⟨.missingMetadata, 0⟩
    else none

/-- The command step of a legal command (R110, R112 to R116): check phase, execution phase, completion. `body` is the
execution phase: the state with every result written, or the error raised. -/
def command (i : Instr) (body : State → Except Raise State) (s : State) : Host.Outcome State Fault Refusal :=
  match s.checkPhase i with
  | some r => .next (s.takeError none r)
  | none =>
    match body s with
    | .ok t => .next t.completeSuccess
    | .error r => .next (s.takeError (some i) r)

/-! ### Acceptance and reset -/

/-- A CMD write accepted (R27). -/
def State.acceptCommand (s : State) (w : Word) : State :=
  { s with
    ctl := { s.ctl with cmd := w, seq := .pending w, done := false, err := false, errCode := none }
    res := { s.res with errPos := 0 } }

/-- A host write of w to CMD (R27): accepted when BUSY = 0, else dropped with CMD_OVF = 1. -/
def State.writeCmd (s : State) (w : Word) : State :=
  if s.busy then { s with ctl := { s.ctl with cmdOvf := true } } else s.acceptCommand w

/-- The bytes of a region that lie in the buffer (R321). -/
def Region.clipped (r : Region) (bufSize : Nat) : Region := ⟨r.base, min r.len (bufSize - r.base)⟩

/-- The havoc of the output regions of an aborted command, each clipped to the buffer (R321). -/
def State.abortOutputs (s : State) (u : Uses) : Memory :=
  let size := s.params.bufSize
  let dst := s.dstRegion.clipped size
  let mdo := s.mdoRegion.clipped size
  let m := if u.dst then Memory.havoc s.mem s.draws dst.base dst.len else s.mem
  match u.mda with
  | .output => Memory.havoc m s.draws mdo.base mdo.len
  | _ => m

/-- The memory and the draw count after a reset: unchanged, unless a legal command is pending (R321, R322). -/
def State.abortPending (s : State) : State :=
  match s.ctl.seq with
  | .idle => s
  | .pending w =>
    match decode w with
    | .ok i => { s with mem := s.abortOutputs (usesOf i), draws := s.draws + 1 }
    | .error _ => s

/-- A reset of the block, soft (R321) or by the reset input (R320): a pending command is aborted, every register, flag
and table takes its value of R66, and the rest of the buffer memory stays (R322). Notes: notes/assumptions/6.md. -/
def State.resetBlock (s : State) : State :=
  { s.abortPending with
    ctl := Control.reset
    opnd := Operands.reset
    res := Results.reset
    tbl := Tables.reset }

end Sys2Proof.Machine
end

