-- ==== Sys2Proof/Machine/Control.lean ====
section
/-! DEFINITION. NOP and the StatsReporter (spec/40_control.md R118 to R122). -/

namespace Sys2Proof.Machine

/-- Ratio(o, e) of R121: hundredths of a percent, rounded half away from zero, 0 for an empty input. -/
def ratio (o e : Nat) : Int :=
  if o = 0 then 0
  else
    let num : Int := ((o : Int) - (e : Int)) * 10000
    let q := num.natAbs / o
    let r := num.natAbs % o
    let q' := if 2 * r ≥ o then q + 1 else q
    if num < 0 then -(q' : Int) else (q' : Int)

/-- Stats(in, out) of R120, from the two lengths. -/
def State.setStats (s : State) (inLen outLen : Nat) : State :=
  { s with res := { s.res with
      statOrig := BitVec.ofNat 32 inLen
      statEnc := BitVec.ofNat 32 outLen
      statRatio := BitVec.ofInt 32 (ratio inLen outLen) } }

/-- NOP (R118): nothing but completion. -/
def execNop (s : State) : Host.Outcome State Fault Refusal := command .nop (fun t => .ok t) s

end Sys2Proof.Machine
end

