-- ==== Sys2Proof/Machine/BitPacker.lean ====
section
/-! DEFINITION. The bit-packer and bit-unpacker (spec/41_bitpacker.md R130 to R134). -/

namespace Sys2Proof.Machine

/-- PackByte(g) of R133: the byte of a group of bits, the first bit most significant (R130). -/
def packByte (g : Bits) : Byte := BitVec.ofNat 8 (g.foldl (fun acc b => 2 * acc + b.toNat) 0)

/-- The number of zero bits that pad n bits to a whole number of bytes (R130). -/
def padFor (n : Nat) : Nat := (8 - n % 8) % 8

/-- Pack(bits) of R130: the bytes and the number of pad bits. -/
def pack (bits : Bits) : List Byte × Nat :=
  let pad := padFor bits.length
  let b := bits ++ List.replicate pad false
  ((List.range ((bits.length + pad) / 8)).map fun j => packByte ((b.drop (8 * j)).take 8), pad)

/-- The 8 bits of a byte, most significant first (R131). -/
def unpackByte (x : Byte) : Bits := (List.range 8).map fun t => x.getLsbD (7 - t)

/-- Unpack(bytes) of R131. -/
def unpack (bytes : List Byte) : Bits := bytes.flatMap unpackByte

/-- The loop of BPACK (R133): input left, its offset, the bits of the group begun, the output so far. Answers the bits
of the last, incomplete group and the output. -/
def bpackLoop (cap : Nat) : List Byte → Nat → Bits → List Byte → Except Raise (Bits × List Byte)
  | [], _, group, out => .ok (group, out)
  | x :: xs, k, group, out =>
    if x ≠ 0x30 ∧ x ≠ 0x31 then .error ⟨.malformedPayload, k⟩
    else
      let group' := group ++ [x == 0x31]
      if group'.length = 8 then
        match emit cap (packByte group') (k - 7) out with
        | .ok out' => bpackLoop cap xs (k + 1) [] out'
        | .error r => .error r
      else bpackLoop cap xs (k + 1) group' out

/-- BPACK on an input string (R133): the output and PAD_BITS. -/
def bpackOutput (cap : Nat) (inp : List Byte) : Except Raise (List Byte × BitVec 3) :=
  match bpackLoop cap inp 0 [] [] with
  | .error r => .error r
  | .ok (group, out) =>
    let pad := BitVec.ofNat 3 (padFor inp.length)
    match group with
    | [] => .ok (out, pad)
    | _ :: _ =>
      match emitStr cap (pack group).1 (inp.length - group.length) out with
      | .ok out' => .ok (out', pad)
      | .error r => .error r

/-- BUNPACK on an input string (R134): for each byte at offset k its eight ASCII digits, each emitted at k. -/
def bunpackTokens : List Byte → Nat → List (Nat × List Byte)
  | [], _ => []
  | x :: xs, k => (k, (unpackByte x).map fun b => if b then 0x31 else 0x30) :: bunpackTokens xs (k + 1)

/-- BPACK (R133). -/
def execBpack (s : State) : Host.Outcome State Fault Refusal :=
  command .bpack (fun t =>
    match bpackOutput t.dstCap t.input with
    | .ok (out, pad) => .ok ((t.writeOut out).setPad pad)
    | .error r => .error r) s

/-- BUNPACK (R134). -/
def execBunpack (s : State) : Host.Outcome State Fault Refusal :=
  command .bunpack (fun t =>
    match emitTokens t.dstCap (bunpackTokens t.input 0) [] with
    | .ok out => .ok (t.writeOut out)
    | .error r => .error r) s

end Sys2Proof.Machine
end

