-- ==== Sys2Proof/Machine/Huffman.lean ====
section
/-! DEFINITION. The Huffman codec (spec/42_huffman.md R150 to R166): frequency counter, tree builder, code-table
generator, encoder, tree serializer and parser, decoders, and the composite commands. Recursions over the arena carry
fuel; notes/assumptions/8.md says why it never runs out. -/

namespace Sys2Proof.Machine

/-- The most nodes an arena holds: 256 leaves and 255 internal nodes (R6). -/
def maxNodes : Nat := 511

/-! ### Frequency counter -/

/-- The frequency table of an input string (R150). -/
def countFreq (inp : List Byte) : FreqTable :=
  inp.foldl (fun ft b => tblSet ft b (tblGet ft b + 1)) (Vector.replicate 256 0)

/-- FREQ (R150). -/
def execFreq (s : State) : Host.Outcome State Fault Refusal :=
  command .freq (fun t =>
    .ok (t.setTables { t.tbl.cleared (tableUseOf .freq) with ft := countFreq t.input, fv := true })) s

/-! ### Tree builder -/

/-- The leaves of a frequency table in ascending symbol order (R151). -/
def seedLeaves (ft : FreqTable) : List Node :=
  (List.range 256).filterMap fun k =>
    let s : Byte := BitVec.ofNat 8 k
    if tblGet ft s = 0 then none else some (.leaf s (tblGet ft s))

/-- The freq of the node at an index, 0 where there is none. -/
def freqAt (nodes : List Node) (i : Nat) : Word :=
  match nodes[i]? with
  | some n => n.freq
  | none => 0

/-- The pair (freq(nodes[a]), a) is below the pair of b (R151). -/
def keyBelow (nodes : List Node) (a b : Nat) : Bool :=
  decide (freqAt nodes a < freqAt nodes b) || (freqAt nodes a == freqAt nodes b && decide (a < b))

/-- The index of a list with the least pair, none for the empty list (R151). -/
def leastOf (nodes : List Node) : List Nat → Option Nat
  | [] => none
  | i :: rest =>
    match leastOf nodes rest with
    | none => some i
    | some j => if keyBelow nodes j i then some j else some i

/-- The merge loop of R151: the two least of the live nodes become the children, the first removed on the left, of a new
node. The fuel is the number of live nodes. -/
def mergeLoop : Nat → List Node → List Nat → List Node × List Nat
  | 0, nodes, live => (nodes, live)
  | fuel + 1, nodes, live =>
    match leastOf nodes live with
    | none => (nodes, live)
    | some a =>
      let live1 := live.erase a
      match leastOf nodes live1 with
      | none => (nodes, live)
      | some c =>
        let merged := Node.internal (freqAt nodes a + freqAt nodes c) a c
        mergeLoop fuel (nodes ++ [merged]) (live1.erase c ++ [nodes.length])

/-- BuildTree(FT) of R151. -/
def buildTree (ft : FreqTable) : Arena :=
  let leaves := seedLeaves ft
  let built := mergeLoop leaves.length leaves (List.range leaves.length)
  ⟨built.1, built.2.head?⟩

/-- TBUILD (R152). -/
def execTbuild (s : State) : Host.Outcome State Fault Refusal :=
  command .tbuild (fun t =>
    .ok (t.setTables { t.tbl.cleared (tableUseOf .tbuild) with arena := buildTree t.tbl.ft, tv := true })) s

/-! ### Code-table generator -/

/-- Walk(i, path) of R153, pre-order, into a code table. -/
def walkCodes (nodes : List Node) : Nat → Nat → Bits → CodeTable → CodeTable
  | 0, _, _, ct => ct
  | fuel + 1, i, path, ct =>
    match nodes[i]? with
    | some (.leaf s _) => tblSet ct s path
    | some (.internal _ l r) =>
      walkCodes nodes fuel r (path ++ [true]) (walkCodes nodes fuel l (path ++ [false]) ct)
    | none => ct

/-- DeriveCodes(nodes, ROOT) of R153; a single leaf has the code "0". -/
def deriveCodes (a : Arena) : CodeTable :=
  let empty : CodeTable := Vector.replicate 256 []
  match a.root with
  | none => empty
  | some r =>
    match a.nodes[r]? with
    | some (.leaf s _) => tblSet empty s [false]
    | _ => walkCodes a.nodes a.nodes.length r [] empty

/-- CGEN (R154). -/
def execCgen (s : State) : Host.Outcome State Fault Refusal :=
  command .cgen (fun t =>
    .ok (t.setTables { t.tbl.cleared (tableUseOf .cgen) with ct := deriveCodes t.tbl.arena, cv := true })) s

/-! ### Encoder -/

/-- The bits of one code appended to the pending bits, a byte emitted at each eighth (R155). -/
def encodeCode (cap k : Nat) : Bits → Bits → List Byte → Except Raise (Bits × List Byte)
  | [], acc, out => .ok (acc, out)
  | b :: bs, acc, out =>
    let acc' := acc ++ [b]
    if acc'.length = 8 then
      match emit cap (packByte acc') k out with
      | .ok out' => encodeCode cap k bs [] out'
      | .error r => .error r
    else encodeCode cap k bs acc' out

/-- The loop of HENC (R155): input left, its offset, pending bits, output so far. -/
def encodeLoop (ct : CodeTable) (cap : Nat) : List Byte → Nat → Bits → List Byte → Except Raise (Bits × List Byte)
  | [], _, acc, out => .ok (acc, out)
  | x :: xs, k, acc, out =>
    match tblGet ct x with
    | [] => .error ⟨.noCode, k⟩
    | c :: cs =>
      match encodeCode cap k (c :: cs) acc out with
      | .ok (acc', out') => encodeLoop ct cap xs (k + 1) acc' out'
      | .error r => .error r

/-- HENC on an input string (R155): the output and PAD_BITS. -/
def encodeOutput (ct : CodeTable) (cap : Nat) (inp : List Byte) : Except Raise (List Byte × BitVec 3) :=
  match encodeLoop ct cap inp 0 [] [] with
  | .error r => .error r
  | .ok (acc, out) =>
    let pad := (8 - acc.length) % 8
    match acc with
    | [] => .ok (out, BitVec.ofNat 3 pad)
    | _ :: _ =>
      match emit cap (packByte (acc ++ List.replicate pad false)) (inp.length - 1) out with
      | .ok out' => .ok (out', BitVec.ofNat 3 pad)
      | .error r => .error r

/-- HENC (R155). -/
def execHenc (s : State) : Host.Outcome State Fault Refusal :=
  command .henc (fun t =>
    match encodeOutput t.tbl.ct t.dstCap t.input with
    | .ok (out, pad) => .ok ((t.writeOut out).setPad pad)
    | .error r => .error r) s

/-! ### Tree serialization -/

/-- The four bytes of a freq field, most significant first (R72, R156). -/
def wordBytes (f : Word) : List Byte :=
  [f.extractLsb' 24 8, f.extractLsb' 16 8, f.extractLsb' 8 8, f.extractLsb' 0 8]

/-- The record of a leaf (R156). -/
def leafRecord (s : Byte) (f : Word) : List Byte := [0x01, s] ++ wordBytes f ++ [0x00, 0x00]

/-- The record of an internal node, without its children (R156). -/
def internalRecord (f : Word) : List Byte := [0x02] ++ wordBytes f

/-- Ser(i) of R157. -/
def serializeNode (nodes : List Node) (cap : Nat) : Nat → Nat → List Byte → Except Raise (List Byte)
  | 0, _, mdo => .ok mdo
  | fuel + 1, i, mdo =>
    match nodes[i]? with
    | some (.leaf s f) => emitMetaStr cap (leafRecord s f) mdo
    | some (.internal f l r) =>
      match emitMetaStr cap (internalRecord f) mdo with
      | .ok mdo1 =>
        match serializeNode nodes cap fuel l mdo1 with
        | .ok mdo2 => serializeNode nodes cap fuel r mdo2
        | .error e => .error e
      | .error e => .error e
    | none => .ok mdo

/-- The metadata output of TSER (R157). -/
def serializeTree (a : Arena) (cap : Nat) : Except Raise (List Byte) :=
  match a.root with
  | none => emitMeta cap 0x00 []
  | some r => serializeNode a.nodes cap a.nodes.length r []

/-- TSER (R157). -/
def execTser (s : State) : Host.Outcome State Fault Refusal :=
  command .tser (fun t =>
    match serializeTree t.tbl.arena t.mdaCap with
    | .ok mdo => .ok (t.writeMeta mdo)
    | .error r => .error r) s

/-! ### Tree parsing -/

/-- The byte of a string at an index; the rule reads only indices inside the string. -/
def byteOf (md : List Byte) (k : Nat) : Byte := md.getD k 0

/-- The big-endian word at an index (R72, R158). -/
def wordOf (md : List Byte) (k : Nat) : Word :=
  byteOf md k ++ byteOf md (k + 1) ++ byteOf md (k + 2) ++ byteOf md (k + 3)

/-- A symbol is the symbol of a leaf already parsed (the set `seen` of R158). -/
def symbolSeen (nodes : List Node) (s : Byte) : Bool :=
  nodes.any fun n => match n with
    | .leaf s' _ => s' == s
    | .internal _ _ _ => false

/-- ParseNode() of R158 at offset p with the nodes so far: the index of the node, the offset after it, the nodes. -/
def parseNode (md : List Byte) : Nat → Nat → List Node → Except Raise (Nat × Nat × List Node)
  | 0, p, _ => .error ⟨.corruptTree, p⟩
  | fuel + 1, p, nodes =>
    if p ≥ md.length then .error ⟨.corruptTree, p⟩
    else if byteOf md p ≠ 0x01 ∧ byteOf md p ≠ 0x02 then .error ⟨.corruptTree, p⟩
    else if nodes.length = maxNodes then .error ⟨.corruptTree, p⟩
    else if byteOf md p = 0x01 then
      if p + 8 > md.length then .error ⟨.corruptTree, md.length⟩
      else if byteOf md (p + 6) ≠ 0x00 then .error ⟨.corruptTree, p + 6⟩
      else if byteOf md (p + 7) ≠ 0x00 then .error ⟨.corruptTree, p + 7⟩
      else if symbolSeen nodes (byteOf md (p + 1)) then .error ⟨.corruptTree, p + 1⟩
      else .ok (nodes.length, p + 8, nodes ++ [.leaf (byteOf md (p + 1)) (wordOf md (p + 2))])
    else
      if p + 5 > md.length then .error ⟨.corruptTree, md.length⟩
      else
        let f := wordOf md (p + 1)
        match parseNode md fuel (p + 5) (nodes ++ [.internal f 0 0]) with
        | .error e => .error e
        | .ok (l, p1, nodes1) =>
          match parseNode md fuel p1 nodes1 with
          | .error e => .error e
          | .ok (r, p2, nodes2) => .ok (nodes.length, p2, nodes2.set nodes.length (.internal f l r))

/-- ParseTree(md) of R158. -/
def parseTree (md : List Byte) : Except Raise Arena :=
  if byteOf md 0 = 0x00 then
    if md.length ≠ 1 then .error ⟨.corruptTree, 1⟩ else .ok ⟨[], none⟩
  else
    match parseNode md (maxNodes + 1) 0 [] with
    | .error e => .error e
    | .ok (root, p, nodes) =>
      if p ≠ md.length then .error ⟨.corruptTree, p⟩ else .ok ⟨nodes, some root⟩

/-- TDES (R159). -/
def execTdes (s : State) : Host.Outcome State Fault Refusal :=
  command .tdes (fun t =>
    match parseTree t.metadata with
    | .ok a => .ok (t.setTables { t.tbl.cleared (tableUseOf .tdes) with arena := a, tv := true })
    | .error r => .error r) s

/-! ### Decoders -/

/-- The inner loop of R160: from node i down to a leaf, one bit a step. The bits left and the number of bits consumed so
far go along; inLen is len(in). -/
def descend (nodes : List Node) (inLen : Nat) : Bits → Nat → Nat → Except Raise (Byte × Bits × Nat)
  | [], i, p =>
    match nodes[i]? with
    | some (.leaf s _) => .ok (s, [], p)
    | some (.internal _ _ _) => .error ⟨.malformedPayload, inLen⟩
    | none => .error ⟨.malformedPayload, p / 8⟩
  | b :: bs, i, p =>
    match nodes[i]? with
    | some (.leaf s _) => .ok (s, b :: bs, p)
    | some (.internal _ l r) => descend nodes inLen bs (if b then r else l) (p + 1)
    | none => .error ⟨.malformedPayload, p / 8⟩

/-- One symbol of R160: its value, the bits left and the bits consumed. -/
def decodeSymbol (a : Arena) (inLen : Nat) (bits : Bits) (p : Nat) : Except Raise (Byte × Bits × Nat) :=
  match a.root with
  | none => .error ⟨.malformedPayload, 0⟩
  | some root =>
    match a.nodes[root]? with
    | some (.leaf s _) =>
      match bits with
      | [] => .error ⟨.malformedPayload, inLen⟩
      | true :: _ => .error ⟨.malformedPayload, p / 8⟩
      | false :: bs => .ok (s, bs, p + 1)
    | _ => descend a.nodes inLen bits root p

/-- The outer loop of R160, n symbols to go: the bits left, the bits consumed and the output. -/
def decodeCountLoop (a : Arena) (inLen cap : Nat) : Nat → Bits → Nat → List Byte → Except Raise (Bits × Nat × List Byte)
  | 0, bits, p, out => .ok (bits, p, out)
  | n + 1, bits, p, out =>
    match decodeSymbol a inLen bits p with
    | .error e => .error e
    | .ok (s, bits', p') =>
      match emit cap s ((p' - 1) / 8) out with
      | .error e => .error e
      | .ok out' => decodeCountLoop a inLen cap n bits' p' out'

/-- DecodeCount(in, N) of R160 with the tree given. -/
def decodeCount (a : Arena) (cap : Nat) (inp : List Byte) (n : Nat) : Except Raise (List Byte) :=
  match decodeCountLoop a inp.length cap n (unpack inp) 0 [] with
  | .error e => .error e
  | .ok (left, p, out) =>
    if left.length ≥ 8 then .error ⟨.malformedPayload, (p + 7) / 8⟩
    else if left.any id then .error ⟨.malformedPayload, p / 8⟩
    else .ok out

/-- The loop of R161 from node i, the offset p of the next bit going along. -/
def decodeLegacyLoop (nodes : List Node) (root cap : Nat) : Bits → Nat → Nat → List Byte → Except Raise (List Byte)
  | [], _, _, out => .ok out
  | b :: bs, i, p, out =>
    match nodes[root]? with
    | some (.leaf s _) =>
      match emit cap s (p / 8) out with
      | .ok out' => decodeLegacyLoop nodes root cap bs i (p + 1) out'
      | .error e => .error e
    | _ =>
      match nodes[i]? with
      | some (.internal _ l r) =>
        let j := if b then r else l
        match nodes[j]? with
        | some (.leaf s _) =>
          match emit cap s (p / 8) out with
          | .ok out' => decodeLegacyLoop nodes root cap bs root (p + 1) out'
          | .error e => .error e
        | _ => decodeLegacyLoop nodes root cap bs j (p + 1) out
      | _ => .error ⟨.malformedPayload, p / 8⟩

/-- DecodeLegacy(in) of R161 with the tree given. -/
def decodeLegacy (a : Arena) (cap : Nat) (inp : List Byte) : Except Raise (List Byte) :=
  match a.root with
  | none => .error ⟨.malformedPayload, 0⟩
  | some root => decodeLegacyLoop a.nodes root cap (unpack inp) root 0 []

/-- The payload of HDEC and HDECOMP (R162, R165): an empty input gives an empty output. -/
def countPayload (a : Arena) (cap : Nat) (inp : List Byte) (n : Nat) : Except Raise (List Byte) :=
  if inp.length = 0 then .ok [] else decodeCount a cap inp n

/-- The payload of HDEC.L and HDECOMP.L (R163, R166): an empty input gives an empty output. -/
def legacyPayload (a : Arena) (cap : Nat) (inp : List Byte) : Except Raise (List Byte) :=
  if inp.length = 0 then .ok [] else decodeLegacy a cap inp

/-- HDEC (R162). -/
def execHdec (s : State) : Host.Outcome State Fault Refusal :=
  command .hdec (fun t =>
    match countPayload t.tbl.arena t.dstCap t.input t.opnd.expectLen.toNat with
    | .ok out => .ok (t.writeOut out)
    | .error r => .error r) s

/-- HDEC.L (R163). -/
def execHdecL (s : State) : Host.Outcome State Fault Refusal :=
  command .hdecL (fun t =>
    match legacyPayload t.tbl.arena t.dstCap t.input with
    | .ok out => .ok (t.writeOut out)
    | .error r => .error r) s

/-! ### Composite commands -/

/-- HCOMP (R164): the payload before the tree, so DST_OVERFLOW before MDA_OVERFLOW. -/
def execHcomp (s : State) : Host.Outcome State Fault Refusal :=
  command .hcomp (fun t =>
    let ft := countFreq t.input
    let a := buildTree ft
    let ct := deriveCodes a
    match encodeOutput ct t.dstCap t.input with
    | .error r => .error r
    | .ok (out, pad) =>
      match serializeTree a t.mdaCap with
      | .error r => .error r
      | .ok mdo =>
        .ok (((((t.writeOut out).setPad pad).writeMeta mdo).setTables ⟨ft, a, ct, true, true, true⟩).setStats
          t.input.length out.length)) s

/-- HDECOMP (R165): the tree before the payload, so CORRUPT_TREE before MALFORMED_PAYLOAD. -/
def execHdecomp (s : State) : Host.Outcome State Fault Refusal :=
  command .hdecomp (fun t =>
    match parseTree t.metadata with
    | .error r => .error r
    | .ok a =>
      match countPayload a t.dstCap t.input t.opnd.expectLen.toNat with
      | .error r => .error r
      | .ok out =>
        .ok ((t.writeOut out).setTables { t.tbl.cleared (tableUseOf .hdecomp) with arena := a, tv := true })) s

/-- HDECOMP.L (R166). -/
def execHdecompL (s : State) : Host.Outcome State Fault Refusal :=
  command .hdecompL (fun t =>
    match parseTree t.metadata with
    | .error r => .error r
    | .ok a =>
      match legacyPayload a t.dstCap t.input with
      | .error r => .error r
      | .ok out =>
        .ok ((t.writeOut out).setTables { t.tbl.cleared (tableUseOf .hdecompL) with arena := a, tv := true })) s

end Sys2Proof.Machine
end

