-- ==== Sys2Proof/Machine/Rle.lean ====
section
/-! DEFINITION. The RLE codec (spec/43_rle.md R200 to R214) and the decimal spelling of spec/00_scope.md R11. -/

namespace Sys2Proof.Machine

/-! ### ASCII -/

/-- '~' (R205). -/
def tilde : Byte := 0x7E

/-- '0'..'9' (R205). -/
def isDigit (b : Byte) : Bool := decide (0x30 ≤ b) && decide (b ≤ 0x39)

/-- '1'..'9', the first digit of a count or of a number (R212, R250). -/
def isFirstDigit (b : Byte) : Bool := decide (0x31 ≤ b) && decide (b ≤ 0x39)

/-- The ASCII digit of a number below 10. -/
def digitByte (d : Nat) : Byte := BitVec.ofNat 8 (0x30 + d)

/-- The decimal digits of v, with fuel at least their number less one. -/
def decDigits : Nat → Nat → List Byte
  | 0, v => [digitByte (v % 10)]
  | fuel + 1, v => if v < 10 then [digitByte v] else decDigits fuel (v / 10) ++ [digitByte (v % 10)]

/-- dec(v) of R11. -/
def dec (v : Nat) : List Byte := decDigits v v

/-- The number some digits spell, most significant first (R212, R250). -/
def digitsValue (ds : List Byte) : Nat := ds.foldl (fun v d => 10 * v + (d.toNat - 0x30)) 0

/-! ### Run scanner -/

/-- A run: start offset, symbol, count (R200). -/
structure Run where
  start : Nat
  sym   : Byte
  count : Nat
deriving DecidableEq, Repr

/-- The runs of the rest of an input, the run (i, s, c) being open (R200). -/
def runsFrom (cap : Nat) (i : Nat) (s : Byte) (c : Nat) : List Byte → List Run
  | [] => [⟨i, s, c⟩]
  | x :: xs =>
    if x = s ∧ c < cap then runsFrom cap i s (c + 1) xs
    else ⟨i, s, c⟩ :: runsFrom cap (i + c) x 1 xs

/-- Runs(in, cap) of R200. -/
def runs (cap : Nat) : List Byte → List Run
  | [] => []
  | x :: xs => runsFrom cap 0 x 1 xs

/-! ### Encoders -/

/-- The count bound of the binary scheme (R6). -/
def binCap : Nat := 255

/-- The count bound of the text scheme (R6). -/
def txtCap : Nat := 999

/-- The two bytes of a run in the binary scheme (R202). -/
def binToken (r : Run) : List Byte := [r.sym, BitVec.ofNat 8 r.count]

/-- The special symbols (R204). -/
def isSpecial (s : Byte) : Bool := s == 0x20 || s == 0x0A || s == 0x09 || s == 0x0D || s == 0x30

/-- TxtToken(s, c) of R205. -/
def txtToken (s : Byte) (c : Nat) : List Byte :=
  let thr := if isSpecial s then 3 else 4
  if c ≥ thr ∧ !isDigit s then [tilde] ++ dec c ++ [s]
  else if s = tilde then (List.replicate c [tilde, tilde]).flatten
  else List.replicate c s

/-- BinEncode(in) of R202, each run's bytes with the position they are emitted at. -/
def binTokens (inp : List Byte) : List (Nat × List Byte) := (runs binCap inp).map fun r => (r.start, binToken r)

/-- TxtEncode(in) of R206, each run's bytes with the position they are emitted at. -/
def txtTokens (inp : List Byte) : List (Nat × List Byte) :=
  (runs txtCap inp).map fun r => (r.start, txtToken r.sym r.count)

/-- The bytes of a list of tokens. -/
def tokenBytes (ts : List (Nat × List Byte)) : List Byte := ts.flatMap Prod.snd

/-- Select(in) of R208: binary when its payload is not longer. -/
def selectRle (inp : List Byte) : List (Nat × List Byte) × MethodTag :=
  if (tokenBytes (binTokens inp)).length ≤ (tokenBytes (txtTokens inp)).length then (binTokens inp, .binary)
  else (txtTokens inp, .text)

/-- RLE_C.BIN (R203). -/
def execRleCBin (s : State) : Host.Outcome State Fault Refusal :=
  command .rleCBin (fun t =>
    match emitTokens t.dstCap (binTokens t.input) [] with
    | .ok out => .ok (((t.writeOut out).setMethod .binary).setStats t.input.length out.length)
    | .error r => .error r) s

/-- RLE_C.TXT (R207). -/
def execRleCTxt (s : State) : Host.Outcome State Fault Refusal :=
  command .rleCTxt (fun t =>
    match emitTokens t.dstCap (txtTokens t.input) [] with
    | .ok out => .ok (((t.writeOut out).setMethod .text).setStats t.input.length out.length)
    | .error r => .error r) s

/-- RLE_C.OPT (R209). -/
def execRleCOpt (s : State) : Host.Outcome State Fault Refusal :=
  command .rleCOpt (fun t =>
    match emitTokens t.dstCap (selectRle t.input).1 [] with
    | .ok out => .ok (((t.writeOut out).setMethod (selectRle t.input).2).setStats t.input.length out.length)
    | .error r => .error r) s

/-! ### Decoders -/

/-- BinDecode of R210: input left, its offset, output so far. -/
def binDecode (cap : Nat) : List Byte → Nat → List Byte → Except Raise (List Byte)
  | [], _, out => .ok out
  | [_], p, _ => .error ⟨.malformedPayload, p⟩
  | s :: c :: rest, p, out =>
    if c = 0 then .error ⟨.malformedPayload, p⟩
    else
      match emitStr cap (List.replicate c.toNat s) p out with
      | .ok out' => binDecode cap rest (p + 2) out'
      | .error r => .error r

/-- A run token after its '~' (R212): one to three digits, the first not '0', then the symbol byte. The count, the
symbol and the input after it; none where it is malformed. -/
def countRun (rest : List Byte) : Option (Nat × Byte × List Byte) :=
  let ds := rest.takeWhile isDigit
  match ds with
  | [] => none
  | d :: _ =>
    if !isFirstDigit d then none
    else if ds.length > 3 then none
    else
      match rest.drop ds.length with
      | [] => none
      | sym :: rest' => some (digitsValue ds, sym, rest')

/-- TxtDecode of R212: input left, its offset, output so far. Each round consumes a byte or more, so the length of the
input is fuel enough. -/
def txtDecode (cap : Nat) : Nat → List Byte → Nat → List Byte → Except Raise (List Byte)
  | _, [], _, out => .ok out
  | 0, _ :: _, p, _ => .error ⟨.malformedPayload, p⟩
  | fuel + 1, x :: rest, p, out =>
    if x ≠ tilde then
      match emit cap x p out with
      | .ok out' => txtDecode cap fuel rest (p + 1) out'
      | .error r => .error r
    else if rest.head? = some tilde then
      match emit cap tilde p out with
      | .ok out' => txtDecode cap fuel rest.tail (p + 2) out'
      | .error r => .error r
    else
      match countRun rest with
      | none => .error ⟨.malformedPayload, p⟩
      | some (c, sym, rest') =>
        match emitStr cap (List.replicate c sym) p out with
        | .ok out' => txtDecode cap fuel rest' (p + 1 + (rest.length - rest'.length)) out'
        | .error r => .error r

/-- RLE_D.BIN (R211). -/
def execRleDBin (s : State) : Host.Outcome State Fault Refusal :=
  command .rleDBin (fun t =>
    match binDecode t.dstCap t.input 0 [] with
    | .ok out => .ok (t.writeOut out)
    | .error r => .error r) s

/-- RLE_D.TXT (R213). -/
def execRleDTxt (s : State) : Host.Outcome State Fault Refusal :=
  command .rleDTxt (fun t =>
    match txtDecode t.dstCap t.input.length t.input 0 [] with
    | .ok out => .ok (t.writeOut out)
    | .error r => .error r) s

/-- RLE_D, the word with M = 0 (R214): its metadata check always fails, so it has no execution phase. -/
def execRleD (s : State) : Host.Outcome State Fault Refusal := command .rleD (fun t => .ok t) s

end Sys2Proof.Machine
end

