-- ==== Sys2Proof/Machine/Lz77.lean ====
section
/-! DEFINITION. The LZ77 codec (spec/44_lz77.md R240 to R251). -/

namespace Sys2Proof.Machine

/-- '<', ',' and '>' of the bracket notation (R248). -/
def lessThan : Byte := 0x3C
def comma : Byte := 0x2C
def greaterThan : Byte := 0x3E

/-- A token (R240): a literal, or a match of `len` symbols from `off` behind, with or without a next symbol. -/
inductive Token where
  | literal (sym : Byte)
  | matched (off len : Nat) (next : Option Byte)
deriving DecidableEq, Repr

/-- The two serializations (R242). -/
inductive LzForm where
  | compact
  | bracket
deriving DecidableEq, Repr

/-! ### Window and matcher -/

/-- The effective window W' (R242). -/
def effectiveWindow (form : LzForm) (w : Nat) : Nat :=
  match form with
  | .compact => min w 4095
  | .bracket => w

/-- maxLen(i), with n - i the symbols left (R242). -/
def maxMatch (form : LzForm) (la left : Nat) : Nat :=
  match form with
  | .compact => min (min la left) 15
  | .bracket => min la left

/-- The sliding-window buffer at position i (R243): in[max(0, i - W') .. i - 1]. It is a function of the input, and no
state of its own (R63). -/
def slidingWindow (inp : List Byte) (w i : Nat) : List Byte := (inp.take i).drop (i - w)

/-- How many symbols two strings share at their starts, at most `bound` (the inner loop of R243). -/
def commonPrefix : Nat → List Byte → List Byte → Nat
  | 0, _, _ => 0
  | bound + 1, a :: as, b :: bs => if a = b then commonPrefix bound as bs + 1 else 0
  | _ + 1, _, _ => 0

/-- The scan of R243 over the candidates j, leftmost first: (best_len, best_off). -/
def scanWindow (inp : List Byte) (i bound : Nat) : List Nat → Nat × Nat → Nat × Nat
  | [], best => best
  | j :: js, best =>
    let k := commonPrefix bound (inp.drop j) (inp.drop i)
    scanWindow inp i bound js (if k > best.1 then (k, i - j) else best)

/-- Longest(i) of R243: (len, off). The candidates are the positions of the window, leftmost to rightmost. -/
def longest (form : LzForm) (w la : Nat) (inp : List Byte) (i : Nat) : Nat × Nat :=
  let w' := effectiveWindow form w
  let candidates := List.range' (i - w') (slidingWindow inp w' i).length
  scanWindow inp i (maxMatch form la (inp.length - i)) candidates (0, 0)

/-- The least length that becomes a match (R244). -/
def minMatch : Nat := 3

/-- Tokenize of R244 from position i. Each round advances by a symbol or more, so the input length is fuel enough. -/
def tokenizeFrom (form : LzForm) (w la : Nat) (inp : List Byte) : Nat → Nat → List (Nat × Token)
  | 0, _ => []
  | fuel + 1, i =>
    match inp[i]? with
    | none => []
    | some x =>
      let best := longest form w la inp i
      if best.1 ≥ minMatch then
        match form, inp[i + best.1]? with
        | .compact, some y => (i, .matched best.2 best.1 (some y)) :: tokenizeFrom form w la inp fuel (i + best.1 + 1)
        | _, _ => (i, .matched best.2 best.1 none) :: tokenizeFrom form w la inp fuel (i + best.1)
      else (i, .literal x) :: tokenizeFrom form w la inp fuel (i + 1)

/-- Tokenize(in, compact) of R244. -/
def tokenize (form : LzForm) (w la : Nat) (inp : List Byte) : List (Nat × Token) :=
  tokenizeFrom form w la inp inp.length 0

/-! ### Serializations -/

/-- The two bytes of (off << 4) OR len, most significant first (R241). -/
def offLenBytes (off len : Nat) : List Byte :=
  let v : BitVec 16 := (BitVec.ofNat 16 off <<< 4) ||| (BitVec.ofNat 16 len &&& 0xF)
  [v.extractLsb' 8 8, v.extractLsb' 0 8]

/-- The compact form of a token (R241). -/
def compactBytes : Token → List Byte
  | .literal s => [0x00, s]
  | .matched off len (some nx) => [0x01] ++ offLenBytes off len ++ [nx]
  | .matched off len none => [0x02] ++ offLenBytes off len ++ [0x00]

/-- The bracket form of a token (R248); Tokenize gives a match no next symbol in this form (R244). -/
def bracketBytes : Token → List Byte
  | .literal s => if s = lessThan then [lessThan, lessThan] else [s]
  | .matched off len _ => [lessThan] ++ dec off ++ [comma] ++ dec len ++ [greaterThan]

/-- LZ_C on an input string: each token's bytes with its position (R245). -/
def compactTokens (w la : Nat) (inp : List Byte) : List (Nat × List Byte) :=
  (tokenize .compact w la inp).map fun t => (t.1, compactBytes t.2)

/-- LZB_C on an input string: each token's bytes with its position (R249). -/
def bracketTokens (w la : Nat) (inp : List Byte) : List (Nat × List Byte) :=
  (tokenize .bracket w la inp).map fun t => (t.1, bracketBytes t.2)

/-- LZ_C (R245). -/
def execLzC (s : State) : Host.Outcome State Fault Refusal :=
  command .lzC (fun t =>
    match emitTokens t.dstCap (compactTokens t.opnd.window.toNat t.opnd.lookahead.toNat t.input) [] with
    | .ok out => .ok ((t.writeOut out).setStats t.input.length out.length)
    | .error r => .error r) s

/-- LZB_C (R249). -/
def execLzbC (s : State) : Host.Outcome State Fault Refusal :=
  command .lzbC (fun t =>
    match emitTokens t.dstCap (bracketTokens t.opnd.window.toNat t.opnd.lookahead.toNat t.input) [] with
    | .ok out => .ok ((t.writeOut out).setStats t.input.length out.length)
    | .error r => .error r) s

/-! ### Decoders -/

/-- CompactDecode of R246: input left, its offset, output so far. -/
def compactDecode (cap : Nat) : List Byte → Nat → List Byte → Except Raise (List Byte)
  | [], _, out => .ok out
  | f :: rest, p, out =>
    if f = 0x00 then
      match rest with
      | s :: rest1 =>
        match emit cap s p out with
        | .ok out' => compactDecode cap rest1 (p + 2) out'
        | .error r => .error r
      | [] => .error ⟨.malformedPayload, p⟩
    else if f = 0x01 ∨ f = 0x02 then
      match rest with
      | x :: y :: z :: rest3 =>
        let off := x.toNat * 16 + y.toNat / 16
        let len := y.toNat % 16
        if off = 0 ∨ len = 0 ∨ off > out.length then .error ⟨.malformedPayload, p⟩
        else if f = 0x02 ∧ z ≠ 0x00 then .error ⟨.malformedPayload, p⟩
        else
          match emitCopy cap off p len out with
          | .error r => .error r
          | .ok out1 =>
            if f = 0x01 then
              match emit cap z p out1 with
              | .ok out2 => compactDecode cap rest3 (p + 4) out2
              | .error r => .error r
            else compactDecode cap rest3 (p + 4) out1
      | _ => .error ⟨.malformedPayload, p⟩
    else .error ⟨.malformedPayload, p⟩

/-- Num(q, maxd, maxv) of R250 on the input from q: the value and the input after it, none where it fails. -/
def number (maxd maxv : Nat) (rest : List Byte) : Option (Nat × List Byte) :=
  let ds := rest.takeWhile isDigit
  match ds with
  | [] => none
  | d :: _ =>
    if !isFirstDigit d then none
    else if ds.length > maxd then none
    else if digitsValue ds > maxv then none
    else some (digitsValue ds, rest.drop ds.length)

/-- A bracket token after its '<' (R250): offset, length and the input after its '>'; none where it is malformed. -/
def bracketMatch (rest : List Byte) : Option (Nat × Nat × List Byte) :=
  match number 4 4096 rest with
  | none => none
  | some (off, rest1) =>
    match rest1 with
    | [] => none
    | c :: rest2 =>
      if c ≠ comma then none
      else
        match number 3 255 rest2 with
        | none => none
        | some (len, rest3) =>
          match rest3 with
          | [] => none
          | g :: rest4 => if g ≠ greaterThan then none else some (off, len, rest4)

/-- BracketDecode of R250: input left, its offset, output so far. Each round consumes a byte or more, so the input
length is fuel enough. -/
def bracketDecode (cap : Nat) : Nat → List Byte → Nat → List Byte → Except Raise (List Byte)
  | _, [], _, out => .ok out
  | 0, _ :: _, p, _ => .error ⟨.malformedPayload, p⟩
  | fuel + 1, x :: rest, p, out =>
    if x ≠ lessThan then
      match emit cap x p out with
      | .ok out' => bracketDecode cap fuel rest (p + 1) out'
      | .error r => .error r
    else if rest.head? = some lessThan then
      match emit cap lessThan p out with
      | .ok out' => bracketDecode cap fuel rest.tail (p + 2) out'
      | .error r => .error r
    else
      match bracketMatch rest with
      | none => .error ⟨.malformedPayload, p⟩
      | some (off, len, rest') =>
        if off > out.length then .error ⟨.malformedPayload, p⟩
        else
          match emitCopy cap off p len out with
          | .ok out' => bracketDecode cap fuel rest' (p + 1 + (rest.length - rest'.length)) out'
          | .error r => .error r

/-- LZ_D (R247). -/
def execLzD (s : State) : Host.Outcome State Fault Refusal :=
  command .lzD (fun t =>
    match compactDecode t.dstCap t.input 0 [] with
    | .ok out => .ok (t.writeOut out)
    | .error r => .error r) s

/-- LZB_D (R251). -/
def execLzbD (s : State) : Host.Outcome State Fault Refusal :=
  command .lzbD (fun t =>
    match bracketDecode t.dstCap t.input.length t.input 0 [] with
    | .ok out => .ok (t.writeOut out)
    | .error r => .error r) s

end Sys2Proof.Machine
end

