-- ==== Sys2Proof/Machine/Dispatch.lean ====
section
/-! DEFINITION. exec: one arm per command, each one call of its meaning. -/

namespace Sys2Proof.Machine

def exec (i : Instr) (s : State) : Host.Outcome State Fault Refusal :=
  match i with
  | .nop => Sys2Proof.Machine.execNop s
  | .freq => Sys2Proof.Machine.execFreq s
  | .tbuild => Sys2Proof.Machine.execTbuild s
  | .cgen => Sys2Proof.Machine.execCgen s
  | .henc => Sys2Proof.Machine.execHenc s
  | .tser => Sys2Proof.Machine.execTser s
  | .tdes => Sys2Proof.Machine.execTdes s
  | .hdec => Sys2Proof.Machine.execHdec s
  | .hdecL => Sys2Proof.Machine.execHdecL s
  | .bpack => Sys2Proof.Machine.execBpack s
  | .bunpack => Sys2Proof.Machine.execBunpack s
  | .hcomp => Sys2Proof.Machine.execHcomp s
  | .hdecomp => Sys2Proof.Machine.execHdecomp s
  | .hdecompL => Sys2Proof.Machine.execHdecompL s
  | .rleCOpt => Sys2Proof.Machine.execRleCOpt s
  | .rleCBin => Sys2Proof.Machine.execRleCBin s
  | .rleCTxt => Sys2Proof.Machine.execRleCTxt s
  | .rleD => Sys2Proof.Machine.execRleD s
  | .rleDBin => Sys2Proof.Machine.execRleDBin s
  | .rleDTxt => Sys2Proof.Machine.execRleDTxt s
  | .lzC => Sys2Proof.Machine.execLzC s
  | .lzD => Sys2Proof.Machine.execLzD s
  | .lzbC => Sys2Proof.Machine.execLzbC s
  | .lzbD => Sys2Proof.Machine.execLzbD s

end Sys2Proof.Machine
end

