-- ==== Sys2Proof/Machine/Registers.lean ====
section
/-! DEFINITION. The register block as the host sees it (spec/10_state.md R22 to R57, R64, R65): the map of offsets, the
word each register reads as, and what a write to it does. -/

namespace Sys2Proof.Machine

/-- The registers of R24. -/
inductive Reg where
  | id
  | ctrl
  | status
  | cmd
  | srcAddr
  | srcLen
  | dstAddr
  | dstCap
  | dstLen
  | mdaAddr
  | mdaCap
  | mdaInLen
  | mdaOutLen
  | expectLen
  | window
  | lookahead
  | errPos
  | statOrig
  | statEnc
  | statRatio
  | rleMethod
  | padBits
  | tblState
  | numSyms
  | treeRoot
  | nodeCount
  | nodeSel
  | nodeInfo
  | nodeFreq
  | nodeLink
  | codeSel
  | codeLen
  | codeW (k : Fin 8)
  | freq (s : Byte)
deriving DecidableEq, Repr

/-- The offset of a register from REG_BASE (R24). -/
def Reg.offset : Reg → Nat
  | .id => 0x000
  | .ctrl => 0x004
  | .status => 0x008
  | .cmd => 0x00C
  | .srcAddr => 0x010
  | .srcLen => 0x014
  | .dstAddr => 0x018
  | .dstCap => 0x01C
  | .dstLen => 0x020
  | .mdaAddr => 0x024
  | .mdaCap => 0x028
  | .mdaInLen => 0x02C
  | .mdaOutLen => 0x030
  | .expectLen => 0x034
  | .window => 0x038
  | .lookahead => 0x03C
  | .errPos => 0x040
  | .statOrig => 0x044
  | .statEnc => 0x048
  | .statRatio => 0x04C
  | .rleMethod => 0x050
  | .padBits => 0x054
  | .tblState => 0x058
  | .numSyms => 0x05C
  | .treeRoot => 0x060
  | .nodeCount => 0x064
  | .nodeSel => 0x068
  | .nodeInfo => 0x06C
  | .nodeFreq => 0x070
  | .nodeLink => 0x074
  | .codeSel => 0x078
  | .codeLen => 0x07C
  | .codeW k => 0x080 + 4 * k.val
  | .freq s => 0x400 + 4 * s.toNat

/-- The registers with one name each. -/
def Reg.named : List Reg :=
  [.id, .ctrl, .status, .cmd, .srcAddr, .srcLen, .dstAddr, .dstCap, .dstLen, .mdaAddr, .mdaCap, .mdaInLen,
    .mdaOutLen, .expectLen, .window, .lookahead, .errPos, .statOrig, .statEnc, .statRatio, .rleMethod, .padBits,
    .tblState, .numSyms, .treeRoot, .nodeCount, .nodeSel, .nodeInfo, .nodeFreq, .nodeLink, .codeSel, .codeLen]

/-- The register at an offset, none where the offset is reserved (R23, R24). -/
def Reg.ofOffset (off : Nat) : Option Reg :=
  if off % 4 ≠ 0 then none
  else if 0x400 ≤ off ∧ off < 0x800 then some (.freq (BitVec.ofNat 8 ((off - 0x400) / 4)))
  else if 0x080 ≤ off ∧ off < 0x0A0 then some (.codeW (Fin.ofNat 8 ((off - 0x080) / 4)))
  else Reg.named.find? fun r => r.offset == off

/-! ### Reading -/

/-- The number of symbols with a count above 0 (R47). -/
def numSyms (ft : FreqTable) : Nat := ft.toList.countP fun c => c != 0

/-- TREE_ROOT (R48). -/
def treeRootWord (a : Arena) : Word :=
  match a.root with
  | none => 0x80000000
  | some r => (BitVec.ofNat 9 r).setWidth 32

/-- The node NODE_SEL shows, if there is one (R51 to R53). -/
def State.selectedNode (s : State) : Option Node := s.tbl.arena.nodes[s.ctl.nodeSel.toNat]?

/-- NODE_INFO (R51). -/
def State.nodeInfoWord (s : State) : Word :=
  match s.selectedNode with
  | none => 0
  | some (.leaf sym _) => bitAt 31 true ||| bitAt 30 true ||| sym.setWidth 32
  | some (.internal _ _ _) => bitAt 31 true

/-- NODE_FREQ (R52). -/
def State.nodeFreqWord (s : State) : Word :=
  match s.selectedNode with
  | none => 0
  | some n => n.freq

/-- NODE_LINK (R53): LEFT in bits 8:0, RIGHT in bits 24:16. -/
def State.nodeLinkWord (s : State) : Word :=
  match s.selectedNode with
  | some (.internal _ l r) => (BitVec.ofNat 9 l).setWidth 32 ||| ((BitVec.ofNat 9 r).setWidth 32 <<< 16)
  | _ => 0

/-- The code CODE_SEL shows (R55, R56). -/
def State.selectedCode (s : State) : Bits := tblGet s.tbl.ct s.ctl.codeSel

/-- CODE_W k (R56): bit j of the code is bit 31 - (j mod 32) of CODE_W (j div 32); bits from len on read 0. -/
def codeWord (bits : Bits) (k : Nat) : Word :=
  BitVec.ofNat 32 ((List.range 32).foldl (fun acc t => 2 * acc + (bits.getD (32 * k + t) false).toNat) 0)

/-- TBL_STATE (R46). -/
def tblStateWord (t : Tables) : Word := bitAt 0 t.fv ||| bitAt 1 t.tv ||| bitAt 2 t.cv

/-- CTRL (R25): SRST reads 0. -/
def State.ctrlWord (s : State) : Word := bitAt 1 s.ctl.irqEn

/-- The value of each register (R22, R25 to R57). -/
def State.regValue (s : State) : Reg → Word
  | .id => 0x43444331
  | .ctrl => s.ctrlWord
  | .status => s.statusWord
  | .cmd => s.ctl.cmd
  | .srcAddr => s.opnd.srcAddr
  | .srcLen => s.opnd.srcLen
  | .dstAddr => s.opnd.dstAddr
  | .dstCap => s.opnd.dstCap
  | .dstLen => s.res.dstLen
  | .mdaAddr => s.opnd.mdaAddr
  | .mdaCap => s.opnd.mdaCap
  | .mdaInLen => s.opnd.mdaInLen
  | .mdaOutLen => s.res.mdaOutLen
  | .expectLen => s.opnd.expectLen
  | .window => s.opnd.window.setWidth 32
  | .lookahead => s.opnd.lookahead.setWidth 32
  | .errPos => s.res.errPos
  | .statOrig => s.res.statOrig
  | .statEnc => s.res.statEnc
  | .statRatio => s.res.statRatio
  | .rleMethod => s.res.rleMethod.bits.setWidth 32
  | .padBits => s.res.padBits.setWidth 32
  | .tblState => tblStateWord s.tbl
  | .numSyms => BitVec.ofNat 32 (numSyms s.tbl.ft)
  | .treeRoot => treeRootWord s.tbl.arena
  | .nodeCount => (BitVec.ofNat 10 s.tbl.arena.nodes.length).setWidth 32
  | .nodeSel => s.ctl.nodeSel.setWidth 32
  | .nodeInfo => s.nodeInfoWord
  | .nodeFreq => s.nodeFreqWord
  | .nodeLink => s.nodeLinkWord
  | .codeSel => s.ctl.codeSel.setWidth 32
  | .codeLen => BitVec.ofNat 32 s.selectedCode.length
  | .codeW k => codeWord s.selectedCode k.val
  | .freq sym => tblGet s.tbl.ft sym

/-- The registers that read as unspecified values while BUSY = 1 (R65). -/
def Reg.drawnWhileBusy : Reg → Bool
  | .dstLen => true
  | .mdaOutLen => true
  | .errPos => true
  | .statOrig => true
  | .statEnc => true
  | .statRatio => true
  | .rleMethod => true
  | .padBits => true
  | .tblState => true
  | .numSyms => true
  | .treeRoot => true
  | .nodeCount => true
  | .nodeInfo => true
  | .nodeFreq => true
  | .nodeLink => true
  | .codeLen => true
  | .codeW _ => true
  | .freq _ => true
  | .id => false
  | .ctrl => false
  | .status => false
  | .cmd => false
  | .srcAddr => false
  | .srcLen => false
  | .dstAddr => false
  | .dstCap => false
  | .mdaAddr => false
  | .mdaCap => false
  | .mdaInLen => false
  | .expectLen => false
  | .window => false
  | .lookahead => false
  | .nodeSel => false
  | .codeSel => false

/-- A host read of a register: its value, or while BUSY = 1 a drawn word for those of R65. -/
def State.hostReadsReg (s : State) (r : Reg) : Word × State :=
  if s.busy && r.drawnWhileBusy then (Config.freeWord s.draws 0, { s with draws := s.draws + 1 })
  else (s.regValue r, s)

/-! ### Writing -/

/-- A write to WINDOW stores 1 .. 4096, any other is ignored (R38). -/
def windowWrite (old : BitVec 13) (v : Word) : BitVec 13 :=
  if 1 ≤ v.toNat ∧ v.toNat ≤ 4096 then v.setWidth 13 else old

/-- A write to LOOKAHEAD stores 1 .. 255, any other is ignored (R39). -/
def lookaheadWrite (old : BitVec 8) (v : Word) : BitVec 8 :=
  if 1 ≤ v.toNat ∧ v.toNat ≤ 255 then v.setWidth 8 else old

/-- The operand registers after a write; a register that is no operand register changes none of them (R28 to R39). -/
def Operands.written (o : Operands) (r : Reg) (v : Word) : Operands :=
  match r with
  | .srcAddr => { o with srcAddr := v }
  | .srcLen => { o with srcLen := v }
  | .dstAddr => { o with dstAddr := v }
  | .dstCap => { o with dstCap := v }
  | .mdaAddr => { o with mdaAddr := v }
  | .mdaCap => { o with mdaCap := v }
  | .mdaInLen => { o with mdaInLen := v }
  | .expectLen => { o with expectLen := v }
  | .window => { o with window := windowWrite o.window v }
  | .lookahead => { o with lookahead := lookaheadWrite o.lookahead v }
  | _ => o

/-- A write to CTRL (R25): SRST = 1 resets whatever the other bits are; else IRQ_EN takes bit 1. -/
def State.writeCtrl (s : State) (v : Word) : State :=
  if v.getLsbD 0 then s.resetBlock else { s with ctl := { s.ctl with irqEn := v.getLsbD 1 } }

/-- A host write to a register. CTRL, STATUS, CMD and the selectors are written at any time (R25 to R27, R50, R54); an
operand register only while BUSY = 0 (R64); a write to a read-only register is ignored (R23). -/
def State.hostWritesReg (s : State) (r : Reg) (v : Word) : State :=
  match r with
  | .ctrl => s.writeCtrl v
  | .status => s.writeStatus v
  | .cmd => s.writeCmd v
  | .nodeSel => { s with ctl := { s.ctl with nodeSel := v.setWidth 9 } }
  | .codeSel => { s with ctl := { s.ctl with codeSel := v.setWidth 8 } }
  | r => if s.busy then s else { s with opnd := s.opnd.written r v }

end Sys2Proof.Machine
end

