-- ==== Sys2Proof/Machine/HostPort.lean ====
section
/-! DEFINITION. The host's operations (spec/10_state.md R23; spec/20_memory.md R71, R83; spec/30_encoding.md R97, R98;
spec/70_reset_and_hazards.md R340 to R344) and the placing of a command word for the host of the model. -/

namespace Sys2Proof.Machine

/-! ### Reaching the register block -/

/-- Where a register access of `size` bytes at a host address goes (R23): an offset below 0x800, or the refusal. -/
def regAccess (p : Params) (addr size : Nat) : Except Refusal Nat :=
  if addr < p.regBase ∨ p.regBase + 0x800 ≤ addr then .error .outsideRegisterBlock
  else if size ≠ 4 ∨ (addr - p.regBase) % 4 ≠ 0 then .error .notAlignedWordAccess
  else .ok (addr - p.regBase)

/-- What the host received, the newest first. -/
def State.received (s : State) (x : HostRead) : State := { s with host := { s.host with seen := x :: s.host.seen } }

/-- The host reads the register at an offset; a reserved offset reads 0 (R23). -/
def State.hostReadsOffset (s : State) (addr off : Nat) : State :=
  match Reg.ofOffset off with
  | some r => (s.hostReadsReg r).2.received (.reg addr (s.hostReadsReg r).1)
  | none => s.received (.reg addr 0)

/-- The host writes the register at an offset; a write to a reserved offset is ignored (R23). -/
def State.hostWritesOffset (s : State) (off : Nat) (v : Word) : State :=
  match Reg.ofOffset off with
  | some r => s.hostWritesReg r v
  | none => s

/-! ### Reaching the buffer memory -/

/-- The regions of the pending command: none when idle or when the word is illegal (R73, R340). -/
def State.pendingRegions (s : State) : List Region :=
  match s.ctl.seq with
  | .idle => []
  | .pending w =>
    match decode w with
    | .ok i => s.regionsOf (usesOf i)
    | .error _ => []

/-- Why a host access to the n buffer bytes from a on stops, if it does (R70, R340). -/
def State.hostMemFault (s : State) (a n : Nat) : Option Fault :=
  if n ≠ 0 ∧ s.params.bufSize < a + n then some .noSuchBufferAddress
  else if s.pendingRegions.any (fun r => !r.disjoint ⟨a, n⟩) then some .regionHazard
  else none

/-! ### One host operation -/

/-- One operation of the host, already taken off its list. WAIT reads STATUS and stays while BUSY = 1 (R98). -/
def hostOperation (op : HostOp) (s : State) : Host.Outcome State Fault Refusal :=
  match op with
  | .writeReg addr size v =>
    match regAccess s.params addr size with
    | .ok off => .next (s.hostWritesOffset off v)
    | .error r => .refused r
  | .readReg addr size =>
    match regAccess s.params addr size with
    | .ok off => .next (s.hostReadsOffset addr off)
    | .error r => .refused r
  | .writeMem a bs =>
    match s.hostMemFault a bs.length with
    | some f => .fault f
    | none => .next { s with mem := Memory.write s.mem a bs }
  | .readMem a n =>
    match s.hostMemFault a n with
    | some f => .fault f
    | none => .next (s.received (.mem a (s.memRead a n)))
  | .wait =>
    let t := s.hostReadsOffset (s.params.regBase + Reg.status.offset) Reg.status.offset
    .next (if s.busy then { t with host := { t.host with prog := .wait :: t.host.prog } } else t)
  | .hardReset => .next s.resetBlock

/-- The host's turn: its next operation, nothing when it has none left. -/
def hostTurn (s : State) : Host.Outcome State Fault Refusal :=
  match s.host.prog with
  | [] => .next s
  | op :: rest => hostOperation op { s with host := { s.host with prog := rest } }

/-! ### The host notation of R97 and R98 -/

/-- `W REG, v`. -/
def opW (p : Params) (r : Reg) (v : Word) : HostOp := .writeReg (p.regBase + r.offset) 4 v

/-- `R REG`. -/
def opR (p : Params) (r : Reg) : HostOp := .readReg (p.regBase + r.offset) 4

/-- `CMD X`. -/
def opCmd (p : Params) (i : Instr) : HostOp := opW p .cmd (encode i)

/-- `RUN X`. -/
def opRun (p : Params) (i : Instr) : List HostOp := [opCmd p i, .wait]

/-- `CLR`. -/
def opClr (p : Params) : HostOp := opW p .status 0xE

/-- `SRST`. -/
def opSrst (p : Params) : HostOp := opW p .ctrl 1

/-! ### Whose turn it is -/

/-- The agent that moves in the next step: the one the list of turns names; when the list is empty the engine if a
command is pending, so that a pending command is not passed over for ever (R345), else the host. -/
def State.nextAgent (s : State) : Agent :=
  match s.host.turns with
  | a :: _ => a
  | [] => if s.busy then .engine else .host

/-- The turn is used up. -/
def State.passTurn (s : State) : State := { s with host := { s.host with turns := s.host.turns.tail } }

/-- The state in which w has been accepted as a command and the engine moves next. -/
def State.placeCommand (s : State) (w : Word) : State :=
  let t := s.acceptCommand w
  { t with host := { t.host with turns := .engine :: t.host.turns } }

end Sys2Proof.Machine
end

