-- ==== Sys2Proof/Machine/Engine.lean ====
section
/-! DEFINITION. The engine's one step (spec/40_control.md R110, R111). -/

namespace Sys2Proof.Machine

/-- The command step on the pending word: the command it decodes to, or ILLEGAL_CMD(0) (R111). -/
def commandStep (w : Word) (s : State) : Host.Outcome State Fault Refusal :=
  match decode w with
  | .ok i => exec i s
  | .error _ => .next (s.takeError none ⟨.illegalCmd, 0⟩)

/-- The engine's turn: enabled exactly when a command is pending (R110), nothing otherwise. -/
def engineTurn (s : State) : Host.Outcome State Fault Refusal :=
  match s.ctl.seq with
  | .pending w => commandStep w s
  | .idle => .next s

/-- One step of the whole: the agent whose turn it is moves (R83). -/
def agentStep (s : State) : Host.Outcome State Fault Refusal :=
  match s.nextAgent with
  | .engine => engineTurn s.passTurn
  | .host => hostTurn s.passTurn

end Sys2Proof.Machine
end

