-- ==== Sys2Proof/Machine/Step.lean ====
section
/-! DEFINITION. The step of the machine: one host operation or one command step (spec/20_memory.md R83), and the placing
of a command word where the next step runs it. -/

namespace Sys2Proof.Machine

/-- One step. -/
def step (s : State) : Host.Outcome State Fault Refusal := Sys2Proof.Machine.agentStep s

/-- s with the command word accepted (R27) and the engine's turn next, so that the next step performs it. The word has
the low nbits bits of w; all above are 0. Notes: notes/assumptions/5.md. -/
def State.withFetchWord (s : State) (nbits w : Nat) : State :=
  Sys2Proof.Machine.State.placeCommand s (BitVec.ofNat 32 (w % 2 ^ nbits))

end Sys2Proof.Machine
end

