-- ==== Sys2Proof/Safety.lean ====
section
/-! DEFINITION. The terms statements are made in: runs and when they are safe, the invariants of the machine, and the
objects of spec/ that the machine holds only in encoded form (a Huffman tree, the replay of LZ77 tokens, the tokens of
the RLE text scheme), each written from its rule and not from the machine's definitions. -/

namespace Sys2Proof.Machine

/-! ### Runs -/

/-- The state after n steps, if no step stops. -/
def after : Nat → State → Option State
  | 0, s => some s
  | n + 1, s =>
    match step s with
    | .next t => after n t
    | .fault _ => none
    | .refused _ => none

/-- A run of n steps in which the host keeps to its interface (R23, R340, R344): no step faults or is refused. -/
def SafeRun (n : Nat) (s : State) : Prop := ∃ t, after n s = some t

/-- The launch premises of R325: the block has just been reset. -/
def Launched (s : State) : Prop :=
  s.ctl = Control.reset ∧ s.opnd = Operands.reset ∧ s.res = Results.reset ∧ s.tbl = Tables.reset

/-- The end of a run of R326: the host has nothing left to do and no command is pending. -/
def RunOver (s : State) : Prop := s.ctl.seq = .idle ∧ s.host.prog = []

/-! ### What a command leaves -/

/-- t is s after a command that ended with DONE (R116), the operand registers, the parameters, the host's side, the
selectors, IRQ_EN, CMD and CMD_OVF as they were, and nothing drawn. -/
def Completed (s t : State) : Prop :=
  t.ctl = { s.ctl with seq := .idle, done := true, errCode := none } ∧ t.params = s.params ∧ t.opnd = s.opnd ∧
    t.host = s.host ∧ t.draws = s.draws

/-- The state an error of the check phase leaves (R112, R288): only STATUS and ERR_POS change. -/
def checkFailed (s : State) (e : CodecError) (pos : Nat) : State :=
  { s with
    ctl := { s.ctl with seq := .idle, err := true, errCode := some e }
    res := { s.res with errPos := BitVec.ofNat 32 pos } }

/-- exec of i at s ends with the error e at the position pos (R288). -/
def Raises (s : State) (i : Instr) (e : CodecError) (pos : Nat) : Prop :=
  ∃ t, exec i s = .next t ∧ t.ctl.err = true ∧ t.ctl.errCode = some e ∧ t.res.errPos = BitVec.ofNat 32 pos

/-- From s to t exactly the bytes bs were stored, from address a on; every other address reads as before. -/
def Stored (s t : State) (a : Word) (bs : List Byte) : Prop :=
  t.memRead a.toNat bs.length = bs ∧
    ∀ x, (x < a.toNat ∨ a.toNat + bs.length ≤ x) → t.byteAt x = s.byteAt x

/-- From s to t exactly two byte strings were stored; every other address reads as before. -/
def StoredTwo (s t : State) (a : Word) (bs : List Byte) (b : Word) (cs : List Byte) : Prop :=
  t.memRead a.toNat bs.length = bs ∧ t.memRead b.toNat cs.length = cs ∧
    ∀ x, (x < a.toNat ∨ a.toNat + bs.length ≤ x) → (x < b.toNat ∨ b.toNat + cs.length ≤ x) → t.byteAt x = s.byteAt x

/-! ### Where an output overflows -/

/-- Of chunks emitted in order, each with the input offset of its run or token, the first that does not fit in cap bytes
is the one at this offset (R78). -/
def MisfitAt (cap : Nat) (chunks : List (Nat × List Byte)) (pos : Nat) : Prop :=
  ∃ before chunk after, chunks = before ++ chunk :: after ∧ (before.flatMap Prod.snd).length ≤ cap ∧
    cap < ((before ++ [chunk]).flatMap Prod.snd).length ∧ pos = chunk.1

/-- The symbol at offset k is the one whose code completes output byte number cap, counted from 0 and with the padding
of the last byte counted to the last symbol (R155). -/
def CompletesByte (code : Byte → Bits) (inp : List Byte) (cap k : Nat) : Prop :=
  k < inp.length ∧ ((inp.take k).flatMap code).length < 8 * (cap + 1) ∧
    (8 * (cap + 1) ≤ ((inp.take (k + 1)).flatMap code).length ∨ k + 1 = inp.length)

/-! ### Invariants -/

/-- What every step keeps of the registers and the memory: the memory is in canonical form inside the buffer; STATUS is
as R26 says (BUSY implies not DONE and not ERR, never both, a code exactly with what raised it); CMD shows the pending
word (R27); WINDOW and LOOKAHEAD are in range (R38, R39). -/
structure RegisterInv (s : State) : Prop where
  memRising   : Memory.wf s.mem = true
  memInBuffer : ∀ c ∈ s.mem, c.1 < s.params.bufSize
  busyClear   : s.busy = true → s.ctl.done = false ∧ s.ctl.err = false ∧ s.ctl.errCode = none ∧ s.res.errPos = 0
  cmdPending  : ∀ w, s.ctl.seq = .pending w → s.ctl.cmd = w
  notBoth     : ¬ (s.ctl.done = true ∧ s.ctl.err = true)
  doneClear   : s.ctl.done = true → s.ctl.errCode = none ∧ s.res.errPos = 0
  errHasCode  : s.ctl.err = true → s.ctl.errCode ≠ none
  windowRange : 1 ≤ s.opnd.window.toNat ∧ s.opnd.window.toNat ≤ 4096
  lookRange   : 1 ≤ s.opnd.lookahead.toNat

/-! ### Huffman trees -/

/-- A Huffman tree as the tree it is (R59). -/
inductive HTree where
  | leaf (sym : Byte) (freq : Word)
  | node (freq : Word) (left right : HTree)
deriving DecidableEq, Repr

/-- The freq field of the root. -/
def HTree.freq : HTree → Word
  | .leaf _ f => f
  | .node f _ _ => f

/-- The symbols of the leaves, left to right. -/
def HTree.symbols : HTree → List Byte
  | .leaf s _ => [s]
  | .node _ l r => l.symbols ++ r.symbols

/-- The number of nodes. -/
def HTree.size : HTree → Nat
  | .leaf _ _ => 1
  | .node _ l r => 1 + l.size + r.size

/-- Every internal node's freq is the sum of its children's (R59, R152). -/
def HTree.sumsUp : HTree → Prop
  | .leaf _ _ => True
  | .node f l r => f = l.freq + r.freq ∧ l.sumsUp ∧ r.sumsUp

/-- The paths to the leaves, 0 (false) for a left edge and 1 (true) for a right edge (R153). -/
def HTree.paths : HTree → List (Byte × Bits)
  | .leaf s _ => [(s, [])]
  | .node _ l r => l.paths.map (fun p => (p.1, false :: p.2)) ++ r.paths.map (fun p => (p.1, true :: p.2))

/-- The codes: the paths, but "0" for a tree that is a single leaf (R153). -/
def HTree.codes : HTree → List (Byte × Bits)
  | .leaf s _ => [(s, [false])]
  | .node f l r => (HTree.node f l r).paths

/-- The code of a symbol, empty where it has none. -/
def HTree.codeOf (t : HTree) (s : Byte) : Bits :=
  match t.codes.find? (fun p => p.1 = s) with
  | some p => p.2
  | none => []

/-- A 32-bit field, most significant byte first (R72). -/
def bigEndian (f : Word) : List Byte :=
  [BitVec.ofNat 8 (f.toNat / 2 ^ 24), BitVec.ofNat 8 (f.toNat / 2 ^ 16), BitVec.ofNat 8 (f.toNat / 2 ^ 8),
    BitVec.ofNat 8 f.toNat]

/-- The byte string of the grammar of R156. -/
def HTree.serialized : HTree → List Byte
  | .leaf s f => [0x01, s] ++ bigEndian f ++ [0x00, 0x00]
  | .node f l r => [0x02] ++ bigEndian f ++ l.serialized ++ r.serialized

/-- The arena of a tree in pre-order from an index on (R158). -/
def HTree.preorder : HTree → Nat → List Node
  | .leaf s f, _ => [.leaf s f]
  | .node f l r, i =>
    .internal f (i + 1) (i + 1 + l.size) :: (l.preorder (i + 1) ++ r.preorder (i + 1 + l.size))

/-- The tree stands in an arena at an index, and these are the indices it takes, root first. -/
inductive HTree.At (nodes : List Node) : Nat → HTree → List Nat → Prop where
  | leaf {i : Nat} {s : Byte} {f : Word} : nodes[i]? = some (.leaf s f) → HTree.At nodes i (.leaf s f) [i]
  | node {i l r : Nat} {f : Word} {tl tr : HTree} {il ir : List Nat} :
      nodes[i]? = some (.internal f l r) → HTree.At nodes l tl il → HTree.At nodes r tr ir →
      HTree.At nodes i (.node f tl tr) (i :: (il ++ ir))

/-- The arena holds exactly this tree: from the root, every index is reached by one path (R59). -/
def Arena.Holds (a : Arena) (t : HTree) : Prop :=
  ∃ root is, a.root = some root ∧ HTree.At a.nodes root t is ∧ is.Perm (List.range a.nodes.length)

/-- A valid arena (R59): empty, or a tree whose leaves have different symbols. -/
def Arena.Valid (a : Arena) : Prop :=
  (a.root = none ∧ a.nodes = []) ∨ ∃ t : HTree, a.Holds t ∧ t.symbols.Nodup

/-- The arena holds this tree, with different leaf symbols, or none for the empty tree. -/
def Arena.Shows (a : Arena) : Option HTree → Prop
  | none => a.root = none
  | some t => a.Holds t ∧ t.symbols.Nodup

/-- The byte string of a tree or of the empty tree (R156). -/
def treeBytes : Option HTree → List Byte
  | none => [0x00]
  | some t => t.serialized

/-- The arena of a byte string of a tree (R158). -/
def treeArena : Option HTree → Arena
  | none => ⟨[], none⟩
  | some t => ⟨t.preorder 0, some 0⟩

/-- The symbols of a tree, none for the empty tree. -/
def treeSymbols : Option HTree → List Byte
  | none => []
  | some t => t.symbols

/-- The code of a symbol, empty where it has none. -/
def treeCode : Option HTree → Byte → Bits
  | none, _ => []
  | some t, x => t.codeOf x

/-- What every step keeps of the tables: the bounds of R62, a valid arena while TV = 1 (R59), and while CV = 1 the code
table of the tree in the arena (R61, R153). -/
structure TableInv (s : State) : Prop where
  nodesBound : s.tbl.arena.nodes.length ≤ 511
  codesBound : ∀ sym : Byte, (tblGet s.tbl.ct sym).length ≤ 255
  treeValid  : s.tbl.tv = true → s.tbl.arena.Valid
  codesOfTree : s.tbl.cv = true → s.tbl.tv = true ∧
    (s.tbl.arena.root = none → ∀ sym : Byte, tblGet s.tbl.ct sym = []) ∧
    ∀ t : HTree, s.tbl.arena.Holds t → ∀ sym : Byte, tblGet s.tbl.ct sym = t.codeOf sym

/-! ### Byte strings that are no tree -/

/-- One record of the grammar of R156, without children. -/
inductive TreeRecord where
  | leaf (sym : Byte) (freq : Word)
  | node (freq : Word)
deriving DecidableEq, Repr

/-- The bytes of a record (R156). -/
def TreeRecord.bytes : TreeRecord → List Byte
  | .leaf s f => [0x01, s] ++ bigEndian f ++ [0x00, 0x00]
  | .node f => [0x02] ++ bigEndian f

/-- The symbol of a record, if it is a leaf's. -/
def TreeRecord.symbol : TreeRecord → Option Byte
  | .leaf s _ => some s
  | .node _ => none

/-- How many nodes are still wanted after these records, n being wanted before them; none when a record stands where no
node is wanted. -/
def wanted : Nat → List TreeRecord → Option Nat
  | n, [] => some n
  | 0, _ :: _ => none
  | n + 1, .leaf _ _ :: rs => wanted n rs
  | n + 1, .node _ :: rs => wanted (n + 2) rs

/-- What is wrong at the place where a node is wanted after q nodes with these symbols, p bytes before it and `rest` from
it on, and the position R158 gives it: no record, the 512th node, a record cut off (at the end of the string), a link of
a leaf that is not null, a symbol for the second time. -/
inductive BadRecord (seen : List Byte) (q p : Nat) : List Byte → Nat → Prop where
  | missing : BadRecord seen q p [] p
  | noRecord {x more} : x ≠ 0x01 → x ≠ 0x02 → BadRecord seen q p (x :: more) p
  | tooMany {rest} : q = 511 → BadRecord seen q p rest p
  | leafCut {more} : q < 511 → more.length < 7 → BadRecord seen q p (0x01 :: more) (p + 1 + more.length)
  | nodeCut {more} : q < 511 → more.length < 4 → BadRecord seen q p (0x02 :: more) (p + 1 + more.length)
  | leftLink {s f x y more} : q < 511 → x ≠ 0x00 →
      BadRecord seen q p ([0x01, s] ++ bigEndian f ++ x :: y :: more) (p + 6)
  | rightLink {s f y more} : q < 511 → y ≠ 0x00 →
      BadRecord seen q p ([0x01, s] ++ bigEndian f ++ 0x00 :: y :: more) (p + 7)
  | twice {s f more} : q < 511 → s ∈ seen → BadRecord seen q p ((TreeRecord.leaf s f).bytes ++ more) (p + 1)

/-- The byte string is no tree, and R158 finds it out at this position: bytes after the empty tree; or, after records
without a fault, bytes after the last node wanted or a bad record where one is wanted. -/
inductive CorruptAt : List Byte → Nat → Prop where
  | afterEmpty {x more} : CorruptAt (0x00 :: x :: more) 1
  | trailing {rs x more} : wanted 1 rs = some 0 → (rs.filterMap TreeRecord.symbol).Nodup → rs.length ≤ 511 →
      CorruptAt (rs.flatMap TreeRecord.bytes ++ x :: more) (rs.flatMap TreeRecord.bytes).length
  | record {rs k rest pos} : wanted 1 rs = some (k + 1) → (rs.filterMap TreeRecord.symbol).Nodup → rs.length ≤ 511 →
      (rs = [] → rest.head? ≠ some 0x00) →
      BadRecord (rs.filterMap TreeRecord.symbol) rs.length (rs.flatMap TreeRecord.bytes).length rest pos →
      CorruptAt (rs.flatMap TreeRecord.bytes ++ rest) pos

/-! ### Decoding with a tree -/

/-- Bits that are the codes of symbols of the tree, in order, and then `rest`. -/
def HTree.Spells (t : HTree) (bits : Bits) (ds : List Byte) (rest : Bits) : Prop :=
  (∀ x ∈ ds, x ∈ t.symbols) ∧ bits = ds.flatMap t.codeOf ++ rest

/-- No code of the tree begins these bits. -/
def HTree.Stuck (t : HTree) (rest : Bits) : Prop := ∀ x ∈ t.symbols, ¬ t.codeOf x <+: rest

/-- How many bits the codes of these symbols take. -/
def HTree.bitsOf (t : HTree) (ds : List Byte) : Nat := (ds.flatMap t.codeOf).length

/-- The result of count mode on an input, for n symbols and a capacity (R160, R162): the symbols, or the error with its
position. A single leaf has the code "0", so a 1 bit is not its code. -/
inductive CountDecodes (tree : Option HTree) (inp : List Byte) (n cap : Nat) : Except Raise (List Byte) → Prop where
  | absent : inp = [] → CountDecodes tree inp n cap (.ok [])
  | noTree : tree = none → inp ≠ [] → CountDecodes tree inp n cap (.error ⟨.malformedPayload, 0⟩)
  | done {t ds rest} : tree = some t → t.Spells (unpack inp) ds rest → ds.length = n → n ≤ cap → rest.length < 8 →
      true ∉ rest → CountDecodes tree inp n cap (.ok ds)
  | unusedByte {t ds rest} : tree = some t → t.Spells (unpack inp) ds rest → ds.length = n → n ≤ cap →
      8 ≤ rest.length → CountDecodes tree inp n cap (.error ⟨.malformedPayload, (t.bitsOf ds + 7) / 8⟩)
  | padding {t ds rest} : tree = some t → t.Spells (unpack inp) ds rest → ds.length = n → n ≤ cap → rest.length < 8 →
      true ∈ rest → CountDecodes tree inp n cap (.error ⟨.malformedPayload, t.bitsOf ds / 8⟩)
  | short {t ds rest} : inp ≠ [] → tree = some t → t.Spells (unpack inp) ds rest → ds.length < n → ds.length ≤ cap →
      t.Stuck rest → (t.size = 1 → rest = []) → CountDecodes tree inp n cap (.error ⟨.malformedPayload, inp.length⟩)
  | oneBit {t ds rest} : tree = some t → t.size = 1 → t.Spells (unpack inp) ds (true :: rest) → ds.length < n →
      ds.length ≤ cap → CountDecodes tree inp n cap (.error ⟨.malformedPayload, t.bitsOf ds / 8⟩)
  | overflow {t ds x rest} : tree = some t → t.Spells (unpack inp) ds (t.codeOf x ++ rest) → x ∈ t.symbols →
      ds.length = cap → cap < n →
      CountDecodes tree inp n cap (.error ⟨.dstOverflow, (t.bitsOf (ds ++ [x]) - 1) / 8⟩)

/-- The result of legacy mode on an input, for a capacity (R161, R163): every complete code gives its symbol, the bits
left at the end give nothing, and a single leaf gives its symbol for every bit. -/
inductive LegacyDecodes (tree : Option HTree) (inp : List Byte) (cap : Nat) : Except Raise (List Byte) → Prop where
  | absent : inp = [] → LegacyDecodes tree inp cap (.ok [])
  | noTree : tree = none → inp ≠ [] → LegacyDecodes tree inp cap (.error ⟨.malformedPayload, 0⟩)
  | leaf {s f} : tree = some (.leaf s f) → 8 * inp.length ≤ cap →
      LegacyDecodes tree inp cap (.ok (List.replicate (8 * inp.length) s))
  | leafOverflow {s f} : tree = some (.leaf s f) → cap < 8 * inp.length →
      LegacyDecodes tree inp cap (.error ⟨.dstOverflow, cap / 8⟩)
  | walked {t out rest} : tree = some t → t.size ≠ 1 → t.Spells (unpack inp) out rest → out.length ≤ cap →
      t.Stuck rest → LegacyDecodes tree inp cap (.ok out)
  | overflow {t out x rest} : tree = some t → t.size ≠ 1 → t.Spells (unpack inp) out (t.codeOf x ++ rest) →
      x ∈ t.symbols → out.length = cap →
      LegacyDecodes tree inp cap (.error ⟨.dstOverflow, (t.bitsOf (out ++ [x]) - 1) / 8⟩)

/-! ### Runs of symbols -/

/-- A split of a string into runs (R200, R201): counts 1 .. cap that spell the string, and two consecutive runs have
different symbols unless the first has count cap. -/
def RunSplit (cap : Nat) (inp : List Byte) (rs : List (Byte × Nat)) : Prop :=
  rs.flatMap (fun r => List.replicate r.2 r.1) = inp ∧ (∀ r ∈ rs, 1 ≤ r.2 ∧ r.2 ≤ cap) ∧
    ∀ k r q, rs[k]? = some r → rs[k + 1]? = some q → r.1 ≠ q.1 ∨ r.2 = cap

/-- The ASCII decimal spelling of a number (R11). -/
def decimal (v : Nat) : List Byte := (Nat.toDigits 10 v).map fun c => BitVec.ofNat 8 c.toNat

/-- A digit '0'..'9'. -/
abbrev IsDigitByte (s : Byte) : Prop := 0x30 ≤ s.toNat ∧ s.toNat ≤ 0x39

/-- The two bytes of a run in the binary scheme (R202). -/
def binaryForm (r : Byte × Nat) : List Byte := [r.1, BitVec.ofNat 8 r.2]

/-- The bytes of a run in the text scheme, from the prose of R205: run-encoded at count 4, or 3 for the five special
symbols, but never for a digit; else literal, tildes doubled. -/
def textForm (r : Byte × Nat) : List Byte :=
  if (4 ≤ r.2 ∨ (3 ≤ r.2 ∧ r.1 ∈ ([0x20, 0x0A, 0x09, 0x0D, 0x30] : List Byte))) ∧ ¬ IsDigitByte r.1 then
    [0x7E] ++ decimal r.2 ++ [r.1]
  else if r.1 = 0x7E then List.replicate (2 * r.2) 0x7E
  else List.replicate r.2 r.1

/-- The chunks of a list of runs in a form, the first run starting at offset i (R202, R206). -/
def runChunks (form : Byte × Nat → List Byte) : Nat → List (Byte × Nat) → List (Nat × List Byte)
  | _, [] => []
  | i, r :: rs => (i, form r) :: runChunks form (i + r.2) rs

/-- A token of the text scheme as its decoder takes it (R212). -/
inductive TextToken where
  | literal (s : Byte)
  | escaped
  | run (c : Nat) (s : Byte)
deriving DecidableEq, Repr

/-- The tokens R212 accepts: a literal is no tilde, a run has count 1 .. 999 and a symbol that is no digit. -/
def TextToken.Fits : TextToken → Prop
  | .literal s => s ≠ 0x7E
  | .escaped => True
  | .run c s => 1 ≤ c ∧ c ≤ 999 ∧ ¬ IsDigitByte s

/-- The bytes of a token. A run of one tilde is spelled "~1~". -/
def TextToken.bytes : TextToken → List Byte
  | .literal s => [s]
  | .escaped => [0x7E, 0x7E]
  | .run c s => [0x7E] ++ decimal c ++ [s]

/-- What a token decodes to. -/
def TextToken.meaning : TextToken → List Byte
  | .literal s => [s]
  | .escaped => [0x7E]
  | .run c s => List.replicate c s

/-! ### LZ77 tokens -/

/-- len symbols copied one at a time from off behind the end (R240). -/
def copyBack (off : Nat) : Nat → List Byte → List Byte
  | 0, o => o
  | len + 1, o => copyBack off len (o ++ (o[o.length - off]?).toList)

/-- Replay of one token (R240), defined when a match's offset lies inside the output. -/
def replayOne (o : List Byte) : Token → Option (List Byte)
  | .literal s => some (o ++ [s])
  | .matched off len next => if 1 ≤ off ∧ off ≤ o.length then some (copyBack off len o ++ next.toList) else none

/-- Replay of a list of tokens onto an output (R240). -/
def replay : List Token → List Byte → Option (List Byte)
  | [], o => some o
  | t :: ts, o =>
    match replayOne o t with
    | some o' => replay ts o'
    | none => none

/-- The input symbols a token covers. -/
def Token.span : Token → Nat
  | .literal _ => 1
  | .matched _ len next => len + next.toList.length

/-- The chunks of a list of tokens in a form, the first token starting at offset i (R245, R249). -/
def tokenChunks (form : Token → List Byte) : Nat → List Token → List (Nat × List Byte)
  | _, [] => []
  | i, t :: ts => (i, form t) :: tokenChunks form (i + t.span) ts

/-- The tokens of the greedy loop from position i on (R244): Longest(i) where its length is 3 or more, with the symbol
after it in the compact form where there is one, else the symbol at i. -/
def GreedyTokens (form : LzForm) (w la : Nat) (inp : List Byte) : Nat → List Token → Prop
  | i, [] => i = inp.length
  | i, .literal s :: ts =>
    inp[i]? = some s ∧ (longest form w la inp i).1 < 3 ∧ GreedyTokens form w la inp (i + 1) ts
  | i, .matched off len next :: ts =>
    i < inp.length ∧ longest form w la inp i = (len, off) ∧ 3 ≤ len ∧
      next = (match form with | .compact => inp[i + len]? | .bracket => none) ∧
      GreedyTokens form w la inp (i + len + next.toList.length) ts

/-- A byte string begins with a token of a form that can be replayed onto this output. -/
def BeginsToken (form : Token → List Byte) (fits : Token → Prop) (out bs : List Byte) : Prop :=
  ∃ (tok : Token) (more : List Byte), fits tok ∧ (replayOne out tok).isSome = true ∧ bs = form tok ++ more

/-- The tokens the compact form can carry (R241, R246): offset 1 .. 4095, length 1 .. 15. -/
def CompactFits : Token → Prop
  | .literal _ => True
  | .matched off len _ => 1 ≤ off ∧ off ≤ 4095 ∧ 1 ≤ len ∧ len ≤ 15

/-- The compact bytes of a token (R241), by arithmetic on the 16-bit word off * 16 + len. -/
def compactForm : Token → List Byte
  | .literal s => [0x00, s]
  | .matched off len next =>
    [if next.isSome then 0x01 else 0x02, BitVec.ofNat 8 ((off * 16 + len) / 256), BitVec.ofNat 8 (off * 16 + len),
      next.getD 0x00]

/-- The tokens the bracket form can carry (R248, R250): no next symbol, offset 1 .. 4096, length 1 .. 255. -/
def BracketFits : Token → Prop
  | .literal _ => True
  | .matched off len next => next = none ∧ 1 ≤ off ∧ off ≤ 4096 ∧ 1 ≤ len ∧ len ≤ 255

/-- The bracket bytes of a token (R248). -/
def bracketForm : Token → List Byte
  | .literal s => if s = 0x3C then [0x3C, 0x3C] else [s]
  | .matched off len _ => [0x3C] ++ decimal off ++ [0x2C] ++ decimal len ++ [0x3E]

end Sys2Proof.Machine
end

