-- ==== Sys2Proof/Certificates/Slice0/Obligations.lean ====
section
/-! DEFINITION. The statements about the machine, each from the numbered rules of spec/ it names. A statement about every
state holds in states no run reaches as well; where an invariant is needed it is a premise. -/

open Sys2Proof Sys2Proof.Machine

/-! ## Command words -/

/-- Words written out from R90 to R94 decode to their commands (R94); one for each family. -/
def Obligations.WrittenWordsDecode : Prop :=
  decode 0x00000001 = .ok .nop ∧ decode 0x00000018 = .ok .bpack ∧ decode 0x00000013 = .ok .henc ∧
  decode 0x00000416 = .ok .hdecL ∧ decode 0x0000041D = .ok .hdecompL ∧ decode 0x00000120 = .ok .rleCBin ∧
  decode 0x00000221 = .ok .rleDTxt ∧ decode 0x00000030 = .ok .lzC ∧ decode 0x00000033 = .ok .lzbD ∧
  decode 0x00000000 = .error .unknownOp ∧ decode 0x00000417 = .error .unknownOp ∧
  decode 0x00000413 = .error .strayLegacyBit ∧ decode 0x00000320 = .error .methodThree ∧
  decode 0x00000130 = .error .strayMethod ∧ decode 0x80000001 = .error .reservedBit

/-- R94: a word is legal exactly when it is one of the 24 values, and Decode gives its mnemonic. -/
def Obligations.LegalWordsAreExactlyTheTable : Prop :=
  ∀ (w : Word) (i : Instr), decode w = .ok i ↔
    (w, i) ∈ ([(0x01, .nop), (0x10, .freq), (0x11, .tbuild), (0x12, .cgen), (0x13, .henc), (0x14, .tser), (0x15, .tdes),
      (0x16, .hdec), (0x416, .hdecL), (0x18, .bpack), (0x19, .bunpack), (0x1C, .hcomp), (0x1D, .hdecomp),
      (0x41D, .hdecompL), (0x20, .rleCOpt), (0x120, .rleCBin), (0x220, .rleCTxt), (0x21, .rleD), (0x121, .rleDBin),
      (0x221, .rleDTxt), (0x30, .lzC), (0x31, .lzD), (0x32, .lzbC), (0x33, .lzbD)] : List (Word × Instr))

/-- Decode and encode agree on every word and every command: no bit of a word is dropped. -/
def Obligations.DecodeAndEncodeAgree : Prop :=
  ∀ (w : Word) (i : Instr), decode w = .ok i ↔ encode i = w

/-! ## The step -/

/-- In the engine's turn with a command pending, the step is exec of the command its word decodes to, at the state
whose turn has been used up (R110); nothing else of the state differs there. The list of turns is the model's
(notes/assumptions/4.md). -/
def Obligations.StepRunsTheDecodedCommand : Prop :=
  ∀ (s : State) (w : Word) (i : Instr), s.nextAgent = .engine → s.ctl.seq = .pending w → decode w = .ok i →
    step s = exec i { s with host := { s.host with turns := s.host.turns.tail } }

/-- R111: an illegal word raises ILLEGAL_CMD(0) before any other check, whatever the operand registers hold; only STATUS
and ERR_POS change. That a step is a turn of the engine, and that it uses up one entry of the list of turns, is the
model's (notes/assumptions/4.md). -/
def Obligations.IllegalWordRaisesIllegalCmd : Prop :=
  ∀ (s : State) (w : Word), s.nextAgent = .engine → s.ctl.seq = .pending w → (∀ i, decode w ≠ .ok i) →
    step s = .next (checkFailed { s with host := { s.host with turns := s.host.turns.tail } } .illegalCmd 0)

/-- Whose step it is. A pending command has its step once the host's turns before it are over, at whatever time that
is, and at once where no order of turns is given (R345). In the engine's turn with no command pending nothing happens
(R110). In the host's turn the host does the next operation of its program (R83, R97); WAIT is a STATUS read, and it
stays the next operation while BUSY = 1 and is over once BUSY = 0 (R98); a host with no operation left does nothing.
The list of turns, the program as a list and the engine's going first when no order is given are the model's
(notes/assumptions/4.md), and so is host.seen, which keeps what a read gave (notes/assumptions/12.md). -/
def Obligations.PendingCommandHasItsStep : Prop :=
  (∀ (s : State) (w : Word) (i : Instr), s.ctl.seq = .pending w → decode w = .ok i → s.host.prog = [] →
    (∀ (k : Nat) (rest : List Agent), s.host.turns = List.replicate k .host ++ .engine :: rest →
      ∀ t, exec i { s with host := { s.host with turns := rest } } = .next t → after (k + 1) s = some t) ∧
    (s.host.turns = [] → step s = exec i s)) ∧
  (∀ (s : State) (rest : List Agent), s.host.turns = .engine :: rest → s.ctl.seq = .idle →
    step s = .next { s with host := { s.host with turns := rest } }) ∧
  (∀ (s : State) (rest : List Agent),
    s.host.turns = .host :: rest ∨ (s.host.turns = [] ∧ rest = [] ∧ s.ctl.seq = .idle) →
    (s.host.prog = [] → step s = .next { s with host := { s.host with turns := rest } }) ∧
    (∀ (op : HostOp) (ops : List HostOp), s.host.prog = op :: ops →
      step s = hostOperation op { s with host := { s.host with turns := rest, prog := ops } }) ∧
    (∀ ops : List HostOp, s.host.prog = .wait :: ops →
      step s = .next { s with host := { s.host with
        turns := rest
        prog := if (s.regValue .status).getLsbD 0 then .wait :: ops else ops
        seen := .reg (s.params.regBase + 0x008) (s.regValue .status) :: s.host.seen } }))

/-! ## The check phase and errors -/

/-- R73: the commands that use SRC, DST, MDI and MDO are those of its table. R74: the region checks in their order, each
with its ERR_POS, before every other check of a legal command; a check on a region the command does not use is
skipped. -/
def Obligations.RegionChecksRaiseRangeInOrder : Prop :=
  (∀ i : Instr,
    ((usesOf i).src = true ↔ i ∈ [Instr.freq, .henc, .hdec, .hdecL, .bpack, .bunpack, .hcomp, .hdecomp, .hdecompL,
      .rleCOpt, .rleCBin, .rleCTxt, .rleD, .rleDBin, .rleDTxt, .lzC, .lzD, .lzbC, .lzbD]) ∧
    ((usesOf i).dst = true ↔ i ∈ [Instr.henc, .hdec, .hdecL, .bpack, .bunpack, .hcomp, .hdecomp, .hdecompL,
      .rleCOpt, .rleCBin, .rleCTxt, .rleD, .rleDBin, .rleDTxt, .lzC, .lzD, .lzbC, .lzbD]) ∧
    ((usesOf i).mda = .input ↔ i ∈ [Instr.tdes, .hdecomp, .hdecompL]) ∧
    ((usesOf i).mda = .output ↔ i ∈ [Instr.tser, .hcomp])) ∧
  ∀ (i : Instr) (s : State),
    let size := s.params.bufSize
    let a := s.opnd.srcAddr.toNat
    let m := s.opnd.srcLen.toNat
    let b := s.opnd.dstAddr.toNat
    let n := s.opnd.dstCap.toNat
    let c := s.opnd.mdaAddr.toNat
    let k := if (usesOf i).mda = .input then s.opnd.mdaInLen.toNat else s.opnd.mdaCap.toNat
    let src := (usesOf i).src = true
    let dst := (usesOf i).dst = true
    let mda := (usesOf i).mda ≠ .none
    let apart : Nat → Nat → Nat → Nat → Prop := fun x lx y ly => lx = 0 ∨ ly = 0 ∨ x + lx ≤ y ∨ y + ly ≤ x
    let c1 := src → m = 0 ∨ a + m ≤ size
    let c2 := dst → n = 0 ∨ b + n ≤ size
    let c3 := mda → k = 0 ∨ c + k ≤ size
    let c4 := src → dst → apart a m b n
    let c5 := src → mda → apart a m c k
    let c6 := dst → mda → apart b n c k
    (¬ c1 → exec i s = .next (checkFailed s .range 1)) ∧
    (c1 → ¬ c2 → exec i s = .next (checkFailed s .range 2)) ∧
    (c1 → c2 → ¬ c3 → exec i s = .next (checkFailed s .range 3)) ∧
    (c1 → c2 → c3 → ¬ c4 → exec i s = .next (checkFailed s .range 0x12)) ∧
    (c1 → c2 → c3 → c4 → ¬ c5 → exec i s = .next (checkFailed s .range 0x13)) ∧
    (c1 → c2 → c3 → c4 → c5 → ¬ c6 → exec i s = .next (checkFailed s .range 0x23)) ∧
    (c1 → c2 → c3 → c4 → c5 → c6 → s.rangeError (usesOf i) = none)

/-- R283: SEQUENCE, after the region checks, when the needed flag is 0: FV for TBUILD, TV for CGEN, TSER, HDEC and
HDEC.L, CV for HENC. After the region checks TDES, HDECOMP and HDECOMP.L raise MISSING_METADATA when MDA_IN_LEN = 0. -/
def Obligations.InvalidTableRaisesSequence : Prop :=
  ∀ (i : Instr) (s : State), s.rangeError (usesOf i) = none →
    (((i = .tbuild ∧ s.tbl.fv = false) ∨ (i ∈ [Instr.cgen, .tser, .hdec, .hdecL] ∧ s.tbl.tv = false) ∨
        (i = .henc ∧ s.tbl.cv = false)) →
      exec i s = .next (checkFailed s .sequence 0)) ∧
    (i ∈ [Instr.tdes, .hdecomp, .hdecompL] → s.opnd.mdaInLen = 0 →
      exec i s = .next (checkFailed s .missingMetadata 0))

/-- R214: RLE_D with no method tag raises MISSING_METADATA(0) once its region checks pass, also on an empty input, and
writes nothing but STATUS and ERR_POS; where a region check fails it raises RANGE. -/
def Obligations.RleDWithoutTagRaisesMissingMetadata : Prop :=
  ∀ s : State,
    (s.rangeError ⟨true, true, .none⟩ = none → exec .rleD s = .next (checkFailed s .missingMetadata 0)) ∧
    (∀ pos, s.rangeError ⟨true, true, .none⟩ = some pos → exec .rleD s = .next (checkFailed s .range pos)) ∧
    exec .rleD (State.reset.acceptCommand 0x21) =
      .next (checkFailed (State.reset.acceptCommand 0x21) .missingMetadata 0)

/-- R290: a command that raises no error completes with DONE = 1, ERRCODE = 0 and ERR_POS = 0, and every accepted word
completes with exactly one of DONE and ERR, the latch idle. -/
def Obligations.EveryCommandCompletesWithDoneOrErr : Prop :=
  ∀ (s : State) (w : Word), s.ctl.done = false → s.ctl.err = false →
    ∃ t, commandStep w s = .next t ∧ t.ctl.seq = .idle ∧ t.busy = false ∧
      ((t.ctl.done = true ∧ t.ctl.err = false ∧ t.errCodeBits = 0 ∧ t.res.errPos = 0) ∨
       (t.ctl.done = false ∧ t.ctl.err = true ∧ t.errCodeBits ≠ 0))

/-- What an error in the execution phase leaves (R77, R114, R288): DST_LEN 0 and, for a command with MDO, MDA_OUT_LEN
0; the output regions drawn, every other byte as before; the flags the command clears 0, a table it does not write as
before, and one it writes within the bounds of R62; every other result register as before. That DST_LEN is 0 also
after TSER and TDES is the reading of notes/assumptions/7.md; that a drawn byte is a free value numbered by a count of
draws is the model's (notes/assumptions/3.md); that DONE stays as it was, which is 0 while a command is pending, where
R288 lists DONE = 0, is the reading of notes/assumptions/13.md. -/
def Obligations.ExecutionErrorLeavesNoResult : Prop :=
  ∀ (i : Instr) (s t : State), s.checkPhase i = none → exec i s = .next t → t.ctl.errCode ≠ none →
    t.ctl.seq = .idle ∧ t.ctl.err = true ∧ t.ctl.done = s.ctl.done ∧ t.res.dstLen = 0 ∧
    t.res.mdaOutLen = (if (usesOf i).mda = .output then 0 else s.res.mdaOutLen) ∧
    t.res.statOrig = s.res.statOrig ∧ t.res.statEnc = s.res.statEnc ∧ t.res.statRatio = s.res.statRatio ∧
    t.res.rleMethod = s.res.rleMethod ∧ t.res.padBits = s.res.padBits ∧
    (t.tbl.fv = true ↔ s.tbl.fv = true ∧ i ≠ .hcomp) ∧
    (t.tbl.tv = true ↔ s.tbl.tv = true ∧ i ∉ [Instr.tdes, .hcomp, .hdecomp, .hdecompL]) ∧
    (t.tbl.cv = true ↔ s.tbl.cv = true ∧ i ∉ [Instr.tdes, .hcomp, .hdecomp, .hdecompL]) ∧
    (i ≠ .hcomp → t.tbl.ft = s.tbl.ft ∧ t.tbl.ct = s.tbl.ct) ∧
    (i ∉ [Instr.tdes, .hcomp, .hdecomp, .hdecompL] → t.tbl.arena = s.tbl.arena) ∧
    (i ∈ [Instr.tdes, .hcomp, .hdecomp, .hdecompL] → t.tbl.arena.nodes.length ≤ 511) ∧
    (i = .hcomp → ∀ sym : Byte, (tblGet t.tbl.ct sym).length ≤ 255) ∧
    t.opnd = s.opnd ∧
    ∀ x, t.byteAt x =
      (if (usesOf i).dst = true ∧ s.opnd.dstAddr.toNat ≤ x ∧ x < s.opnd.dstAddr.toNat + s.opnd.dstCap.toNat ∨
          (usesOf i).mda = .output ∧ s.opnd.mdaAddr.toNat ≤ x ∧ x < s.opnd.mdaAddr.toNat + s.opnd.mdaCap.toNat
        then Config.freeByte s.draws x else s.byteAt x)

/-! ## Frames -/

/-- No command writes an operand register, CTRL, CMD, CMD_OVF or a selector (R20, R116), and none touches the host's
side. The last clause, that a command does not clear DONE or ERR (both are 0 while a command is pending, R27), where
R288 lists DONE = 0, is the reading of notes/assumptions/13.md. -/
def Obligations.CommandsLeaveOperandsAndControl : Prop :=
  ∀ (i : Instr) (s t : State), exec i s = .next t →
    t.params = s.params ∧ t.opnd = s.opnd ∧ t.host = s.host ∧
    t.ctl = { s.ctl with seq := .idle, done := t.ctl.done, err := t.ctl.err, errCode := t.ctl.errCode } ∧
    (s.ctl.done = true → t.ctl.done = true) ∧ (s.ctl.err = true → t.ctl.err = true)

/-- What each command stores to memory (R77): after DONE the bytes from DST_ADDR up to DST_LEN where it uses DST and
from MDA_ADDR up to MDA_OUT_LEN where it uses MDO, no others; after an error of the check phase none. -/
def Obligations.CommandsStoreOnlyTheirOutput : Prop :=
  ∀ (i : Instr) (s t : State), exec i s = .next t →
    (s.checkPhase i ≠ none → ∀ x, t.byteAt x = s.byteAt x) ∧
    (t.ctl.errCode = none → ∀ x,
      ¬ ((usesOf i).dst = true ∧ s.opnd.dstAddr.toNat ≤ x ∧ x < s.opnd.dstAddr.toNat + t.res.dstLen.toNat) →
      ¬ ((usesOf i).mda = .output ∧ s.opnd.mdaAddr.toNat ≤ x ∧ x < s.opnd.mdaAddr.toNat + t.res.mdaOutLen.toNat) →
      t.byteAt x = s.byteAt x) ∧
    ((usesOf i).dst = false → (usesOf i).mda ≠ .output → ∀ x, t.byteAt x = s.byteAt x)

/-- The tables and flags each command that ends with DONE may change, and to what the flags change (R58 to R61). -/
def Obligations.TablesChangeOnlyAsTheirRuleSays : Prop :=
  ∀ (i : Instr) (s t : State), exec i s = .next t → t.ctl.errCode = none →
    (i ∉ [Instr.freq, .hcomp] → t.tbl.ft = s.tbl.ft ∧ t.tbl.fv = s.tbl.fv) ∧
    (i ∉ [Instr.tbuild, .tdes, .hcomp, .hdecomp, .hdecompL] → t.tbl.arena = s.tbl.arena) ∧
    (i ∉ [Instr.cgen, .hcomp] → t.tbl.ct = s.tbl.ct) ∧
    (i ∈ [Instr.freq, .hcomp] → t.tbl.fv = true) ∧
    (i ∈ [Instr.tbuild, .tdes, .hcomp, .hdecomp, .hdecompL] → t.tbl.tv = true) ∧
    (i ∈ [Instr.cgen, .hcomp] → t.tbl.cv = true) ∧
    (i = .freq → t.tbl.tv = false) ∧
    (i ∈ [Instr.freq, .tbuild, .tdes, .hdecomp, .hdecompL] → t.tbl.cv = false) ∧
    (i ∉ [Instr.freq, .tbuild, .tdes, .hcomp, .hdecomp, .hdecompL] → t.tbl.tv = s.tbl.tv) ∧
    (i ∉ [Instr.freq, .tbuild, .tdes, .cgen, .hcomp, .hdecomp, .hdecompL] → t.tbl.cv = s.tbl.cv)

/-- R119, R120: the StatsReporter runs at the end of the six compress commands and of no other command: the input
length, the payload length, and the ratio of the two; the metadata is not counted. -/
def Obligations.OnlyCompressCommandsReportStats : Prop :=
  ∀ (i : Instr) (s t : State), exec i s = .next t →
    (i ∈ [Instr.hcomp, .rleCOpt, .rleCBin, .rleCTxt, .lzC, .lzbC] ∧ t.ctl.errCode = none →
      t.res.statOrig = s.opnd.srcLen ∧ t.res.statEnc = t.res.dstLen ∧
      t.res.statRatio = BitVec.ofInt 32 (ratio s.opnd.srcLen.toNat t.res.dstLen.toNat)) ∧
    (i ∉ [Instr.hcomp, .rleCOpt, .rleCBin, .rleCTxt, .lzC, .lzbC] ∨ t.ctl.errCode ≠ none →
      t.res.statOrig = s.res.statOrig ∧ t.res.statEnc = s.res.statEnc ∧ t.res.statRatio = s.res.statRatio)

/-- Which commands change DST_LEN, MDA_OUT_LEN, RLE_METHOD and PAD_BITS when they end with DONE (R32, R36, R44, R45),
and that an error of the check phase changes none of them (R112). -/
def Obligations.ResultRegistersChangeOnlyAsTheirRuleSays : Prop :=
  ∀ (i : Instr) (s t : State), exec i s = .next t →
    (t.ctl.errCode = none →
      ((usesOf i).dst = false → t.res.dstLen = s.res.dstLen) ∧
      ((usesOf i).mda ≠ .output → t.res.mdaOutLen = s.res.mdaOutLen) ∧
      (i ∉ [Instr.rleCOpt, .rleCBin, .rleCTxt] → t.res.rleMethod = s.res.rleMethod) ∧
      (i ∉ [Instr.bpack, .henc, .hcomp] → t.res.padBits = s.res.padBits)) ∧
    (s.checkPhase i ≠ none → t.res = { s.res with errPos := t.res.errPos } ∧ t.tbl = s.tbl ∧ t.draws = s.draws)

/-! ## The register block -/

/-- A write to an operand register while BUSY = 0 is read back, and every other register reads as before. R38, R39: a
write to WINDOW (offset 0x038) stores 1 .. 4096 and a write to LOOKAHEAD (offset 0x03C) 1 .. 255; any other write is
ignored and the register keeps its value; the bits above read 0; after reset they read 4096 and 18. -/
def Obligations.OperandWritesAreReadBack : Prop :=
  (∀ (s : State) (r q : Reg) (v : Word), s.busy = false →
    r ∈ [Reg.srcAddr, .srcLen, .dstAddr, .dstCap, .mdaAddr, .mdaCap, .mdaInLen, .expectLen] →
    (s.hostWritesReg r v).regValue q = (if q = r then v else s.regValue q)) ∧
  (∀ (s : State) (q : Reg) (v : Word), s.busy = false →
    (s.hostWritesReg .window v).regValue q =
      (if q = .window ∧ 1 ≤ v.toNat ∧ v.toNat ≤ 4096 then v else s.regValue q) ∧
    (s.hostWritesReg .lookahead v).regValue q =
      (if q = .lookahead ∧ 1 ≤ v.toNat ∧ v.toNat ≤ 255 then v else s.regValue q)) ∧
  (∀ s : State, (s.regValue .window).toNat < 2 ^ 13 ∧ (s.regValue .lookahead).toNat < 2 ^ 8) ∧
  Reg.window.offset = 0x38 ∧ Reg.lookahead.offset = 0x3C ∧
  State.reset.regValue .window = 4096 ∧ State.reset.regValue .lookahead = 18

/-- R64: while BUSY = 1 writes to the operand registers are ignored, so the command step reads the values held at
acceptance; a CMD write is dropped as R27 says. Writes to CTRL, STATUS, NODE_SEL and CODE_SEL are taken at any time:
CTRL without SRST stores IRQ_EN in bit 1 and reads it there with SRST and all other bits 0 (R25), a STATUS write
clears CMD_OVF, NODE_SEL stores and reads v[8:0] (R50), CODE_SEL v[7:0] (R54). R65: while BUSY = 1 the registers of
results and tables read as drawn words and nothing else changes but the count of draws; the others return their
values. While BUSY = 0 every read returns the register's value and has no effect. The form of a draw, a whole word and
a count, is the model's (notes/assumptions/3.md, notes/assumptions/11.md). -/
def Obligations.BusyIgnoresWritesAndDrawsReads : Prop :=
  (∀ (s : State) (v : Word), s.busy = true →
    (∀ r ∈ [Reg.srcAddr, .srcLen, .dstAddr, .dstCap, .mdaAddr, .mdaCap, .mdaInLen, .expectLen, .window, .lookahead],
      s.hostWritesReg r v = s) ∧
    (v.getLsbD 0 = true → (s.hostWritesReg .ctrl v).busy = false) ∧
    s.hostWritesReg .cmd v = { s with ctl := { s.ctl with cmdOvf := true } }) ∧
  (∀ (s : State) (v : Word),
    (v.getLsbD 0 = false → s.hostWritesReg .ctrl v = { s with ctl := { s.ctl with irqEn := v.getLsbD 1 } } ∧
      (s.hostWritesReg .ctrl v).regValue .ctrl = v &&& 2) ∧
    (s.regValue .ctrl).toNat = 2 * s.ctl.irqEn.toNat ∧
    (s.hostWritesReg .status v).ctl.cmdOvf = (s.ctl.cmdOvf && !v.getLsbD 3) ∧
    s.hostWritesReg .nodeSel v = { s with ctl := { s.ctl with nodeSel := v.setWidth 9 } } ∧
    ((s.hostWritesReg .nodeSel v).regValue .nodeSel).toNat = v.toNat % 2 ^ 9 ∧
    s.hostWritesReg .codeSel v = { s with ctl := { s.ctl with codeSel := v.setWidth 8 } } ∧
    ((s.hostWritesReg .codeSel v).regValue .codeSel).toNat = v.toNat % 2 ^ 8) ∧
  (∀ (s : State) (r : Reg),
    ((s.busy = false ∨ r ∈ [Reg.id, .ctrl, .status, .cmd, .srcAddr, .srcLen, .dstAddr, .dstCap, .mdaAddr, .mdaCap,
        .mdaInLen, .expectLen, .window, .lookahead, .nodeSel, .codeSel]) →
      s.hostReadsReg r = (s.regValue r, s)) ∧
    (s.busy = true → r ∉ [Reg.id, .ctrl, .status, .cmd, .srcAddr, .srcLen, .dstAddr, .dstCap, .mdaAddr, .mdaCap,
        .mdaInLen, .expectLen, .window, .lookahead, .nodeSel, .codeSel] →
      s.hostReadsReg r = (Config.freeWord s.draws 0, { s with draws := s.draws + 1 })))

/-- R22: ID reads 0x43444331 at all times, at offset 0, and ignores writes. And what R23 says of accesses: one inside
the block that is not an aligned 32-bit access is refused; a reserved offset reads 0 and ignores writes; a read-only
register ignores writes; a register is reached at its offset. That a read is kept in host.seen is the model's
(notes/assumptions/12.md). -/
def Obligations.IdAndAccessesOutsideTheMap : Prop :=
  (Reg.id.offset = 0 ∧ ∀ (s : State) (v : Word), s.hostReadsReg .id = (0x43444331, s) ∧ s.hostWritesReg .id v = s) ∧
  (∀ (s : State) (addr size : Nat) (v : Word), s.params.regBase ≤ addr → addr < s.params.regBase + 0x800 →
    (size ≠ 4 ∨ addr % 4 ≠ 0) →
      hostOperation (.writeReg addr size v) s = .refused .notAlignedWordAccess ∧
      hostOperation (.readReg addr size) s = .refused .notAlignedWordAccess) ∧
  (∀ (s : State) (off : Nat) (v : Word), off % 4 = 0 → off < 0x800 → (∀ r : Reg, r.offset ≠ off) →
      hostOperation (.writeReg (s.params.regBase + off) 4 v) s = .next s ∧
      hostOperation (.readReg (s.params.regBase + off) 4) s =
        .next { s with host := { s.host with seen := .reg (s.params.regBase + off) 0 :: s.host.seen } }) ∧
  (∀ (s : State) (r : Reg) (v : Word),
      hostOperation (.writeReg (s.params.regBase + r.offset) 4 v) s = .next (s.hostWritesReg r v) ∧
      hostOperation (.readReg (s.params.regBase + r.offset) 4) s =
        .next { (s.hostReadsReg r).2 with host := { s.host with
          seen := .reg (s.params.regBase + r.offset) (s.hostReadsReg r).1 :: s.host.seen } }) ∧
  (∀ (s : State) (r : Reg) (v : Word), r ∉ [Reg.ctrl, .status, .cmd, .srcAddr, .srcLen, .dstAddr, .dstCap, .mdaAddr,
      .mdaCap, .mdaInLen, .expectLen, .window, .lookahead, .nodeSel, .codeSel] → s.hostWritesReg r v = s)

/-- R26: the fields of STATUS as the host reads them, reserved bits 0, and what a write clears; ERRCODE is not cleared
by clearing ERR. -/
def Obligations.StatusFieldsAndWriteOneToClear : Prop :=
  (∀ s : State, (s.regValue .status).getLsbD 0 = s.busy ∧ (s.regValue .status).getLsbD 1 = s.ctl.done ∧
    (s.regValue .status).getLsbD 2 = s.ctl.err ∧ (s.regValue .status).getLsbD 3 = s.ctl.cmdOvf ∧
    (s.regValue .status).extractLsb' 4 4 = 0 ∧ (s.regValue .status).extractLsb' 8 8 = s.errCodeBits ∧
    (s.regValue .status).extractLsb' 16 16 = 0) ∧
  (∀ (s : State) (v : Word), s.hostWritesReg .status v =
    { s with ctl := { s.ctl with
        done := if v.getLsbD 1 then false else s.ctl.done
        err := if v.getLsbD 2 then false else s.ctl.err
        cmdOvf := if v.getLsbD 3 then false else s.ctl.cmdOvf } })

/-- R27: a CMD write while BUSY = 0 is accepted whatever the word is: CMD reads back the word, BUSY = 1, DONE, ERR,
ERRCODE and ERR_POS are 0 and the latch is pending, and nothing else changes; while BUSY = 1 only CMD_OVF is set. After
reset CMD reads 0. -/
def Obligations.CmdWriteIsAcceptedOrDropped : Prop :=
  (∀ (s : State) (w : Word), s.busy = false →
    (s.hostWritesReg .cmd w).regValue .cmd = w ∧ (s.hostWritesReg .cmd w).ctl.seq = .pending w ∧
    (s.hostWritesReg .cmd w).regValue .status = bitAt 0 true ||| bitAt 3 s.ctl.cmdOvf ∧
    s.hostWritesReg .cmd w =
      { s with
        ctl := { s.ctl with cmd := w, seq := .pending w, done := false, err := false, errCode := none }
        res := { s.res with errPos := 0 } }) ∧
  (∀ (s : State) (w : Word), s.busy = true →
    s.hostWritesReg .cmd w = { s with ctl := { s.ctl with cmdOvf := true } }) ∧
  State.reset.regValue .cmd = 0

/-- The windows on the tables. R56: bit j of the selected symbol's code is bit 31 - (j mod 32) of CODE_W (j div 32), at
offset 0x080 + 4k, and bits at j >= len read 0; a code "0110" reads CODE_W0 = 0x60000000; a write is ignored. NODE_INFO,
NODE_FREQ and NODE_LINK show a leaf, an internal node, or nothing where NODE_SEL names no node; TREE_ROOT, NODE_COUNT,
TBL_STATE and CODE_LEN show the root, the number of nodes, the flags and the length of the code. -/
def Obligations.TableWindowsShowTheTables : Prop :=
  (∀ (s : State) (k : Fin 8) (j : Nat) (v : Word), j < 32 →
    (Reg.codeW k).offset = 0x080 + 4 * k.val ∧ s.hostWritesReg (.codeW k) v = s ∧
    (s.regValue (.codeW k)).getLsbD (31 - j) = (tblGet s.tbl.ct s.ctl.codeSel).getD (32 * k.val + j) false) ∧
  (∀ s : State, tblGet s.tbl.ct s.ctl.codeSel = [false, true, true, false] → s.regValue (.codeW 0) = 0x60000000) ∧
  (∀ s : State,
    (∀ sym f, s.tbl.arena.nodes[s.ctl.nodeSel.toNat]? = some (.leaf sym f) →
      (s.regValue .nodeInfo).toNat = 2 ^ 31 + 2 ^ 30 + sym.toNat ∧ s.regValue .nodeFreq = f ∧
      s.regValue .nodeLink = 0) ∧
    (∀ f l r, s.tbl.arena.nodes[s.ctl.nodeSel.toNat]? = some (.internal f l r) → l < 2 ^ 9 → r < 2 ^ 9 →
      (s.regValue .nodeInfo).toNat = 2 ^ 31 ∧ s.regValue .nodeFreq = f ∧
      (s.regValue .nodeLink).toNat = l + 2 ^ 16 * r) ∧
    (s.tbl.arena.nodes.length ≤ s.ctl.nodeSel.toNat →
      s.regValue .nodeInfo = 0 ∧ s.regValue .nodeFreq = 0 ∧ s.regValue .nodeLink = 0) ∧
    (s.tbl.arena.root = none → s.regValue .treeRoot = 0x80000000) ∧
    (∀ r, s.tbl.arena.root = some r → r < 2 ^ 9 → (s.regValue .treeRoot).toNat = r) ∧
    (s.tbl.arena.nodes.length ≤ 511 → (s.regValue .nodeCount).toNat = s.tbl.arena.nodes.length) ∧
    (s.regValue .tblState).toNat = s.tbl.fv.toNat + 2 * s.tbl.tv.toNat + 4 * s.tbl.cv.toNat ∧
    ((tblGet s.tbl.ct s.ctl.codeSel).length ≤ 255 →
      (s.regValue .codeLen).toNat = (tblGet s.tbl.ct s.ctl.codeSel).length))

/-! ## Reset and the interrupt -/

/-- The reset values of R24 and R66 as the host reads them: in the state after reset, after a soft reset of any state,
and after the reset input in any state. That the reset input acts on the buffer memory as a soft reset does is the
reading of notes/assumptions/6.md; that the parameters and the host's side stay is that of notes/assumptions/17.md. -/
def Obligations.ResetValuesAreThoseOfTheTable : Prop :=
  let atReset : State → Prop := fun t => ∀ r : Reg, t.regValue r =
    (if r = .id then 0x43444331 else if r = .window then 4096 else if r = .lookahead then 18
      else if r = .treeRoot then 0x80000000 else 0)
  atReset State.reset ∧ State.reset.irq = false ∧ State.reset.busy = false ∧
  (∀ (s : State) (v : Word), v.getLsbD 0 = true →
    atReset (s.hostWritesReg .ctrl v) ∧ (s.hostWritesReg .ctrl v).params = s.params ∧
    (s.hostWritesReg .ctrl v).host = s.host ∧ hostOperation .hardReset s = .next (s.hostWritesReg .ctrl v))

/-- R321: a CTRL write with SRST = 1, at any time and whatever its other bits are, sets every register, flag and table
to its reset value; a byte of the buffer changes only if it lies in DST or MDO of an aborted command and inside the
buffer; with no command pending, or an illegal word, the memory stays. That a drawn byte is a free value numbered by a
count of draws is the model's (notes/assumptions/3.md). -/
def Obligations.SoftResetAbortsAndResets : Prop :=
  ∀ (s : State) (v : Word), v.getLsbD 0 = true →
    let t := s.hostWritesReg .ctrl v
    t.ctl = Control.reset ∧ t.opnd = Operands.reset ∧ t.res = Results.reset ∧ t.tbl = Tables.reset ∧
    t.irq = false ∧
    (s.ctl.seq = .idle → t.mem = s.mem) ∧
    (∀ w, s.ctl.seq = .pending w → (∀ i, decode w ≠ .ok i) → t.mem = s.mem) ∧
    (∀ w i x, s.ctl.seq = .pending w → decode w = .ok i → t.byteAt x =
      (if x < s.params.bufSize ∧
          ((usesOf i).dst = true ∧ s.opnd.dstAddr.toNat ≤ x ∧ x < s.opnd.dstAddr.toNat + s.opnd.dstCap.toNat ∨
            (usesOf i).mda = .output ∧ s.opnd.mdaAddr.toNat ≤ x ∧ x < s.opnd.mdaAddr.toNat + s.opnd.mdaCap.toNat)
        then Config.freeByte s.draws x else s.byteAt x))

/-- The interrupt line (R294): IRQ_EN and (DONE or ERR). Completion of any word makes it follow IRQ_EN; acceptance, the
clearing of DONE and ERR, masking and reset clear it; CMD_OVF does not drive it. -/
def Obligations.InterruptFollowsCompletion : Prop :=
  (∀ s : State, s.irq = (s.ctl.irqEn && (s.ctl.done || s.ctl.err))) ∧
  (∀ (s t : State) (w : Word), commandStep w s = .next t → t.irq = s.ctl.irqEn) ∧
  (∀ (s : State) (w : Word), s.busy = false → (s.hostWritesReg .cmd w).irq = false) ∧
  (∀ (s : State) (v : Word), v.getLsbD 1 = true → v.getLsbD 2 = true → (s.hostWritesReg .status v).irq = false) ∧
  (∀ (s : State) (v : Word), v.getLsbD 0 = false →
    (s.hostWritesReg .ctrl v).irq = (v.getLsbD 1 && (s.ctl.done || s.ctl.err))) ∧
  (∀ (s : State) (w : Word), s.busy = true → (s.hostWritesReg .cmd w).irq = s.irq) ∧
  (∀ (s : State) (v : Word), v.getLsbD 0 = true → (s.hostWritesReg .ctrl v).irq = false) ∧ State.reset.irq = false

/-- R340: while BUSY = 1 a host read or write of a buffer byte inside a region of the pending command is a fault; an
access outside those regions is safe: it reads the bytes, or stores exactly them, and the command does not see it.
While BUSY = 0, or with an illegal word pending, which uses no region, every access inside the buffer is safe; one
beyond BUF_SIZE is a fault (R70; that it is one is the model's, notes/assumptions/10.md). That a read is kept in
host.seen is the model's (notes/assumptions/12.md). -/
def Obligations.HostAccessToPendingRegionsFaults : Prop :=
  let safe : State → Nat → List Byte → Prop := fun s a bs =>
    (∃ t, hostOperation (.writeMem a bs) s = .next t ∧ t = { s with mem := t.mem } ∧
      t.memRead a bs.length = bs ∧ ∀ x, (x < a ∨ a + bs.length ≤ x) → t.byteAt x = s.byteAt x) ∧
    hostOperation (.readMem a bs.length) s =
      .next { s with host := { s.host with seen := .mem a (s.memRead a bs.length) :: s.host.seen } }
  (∀ (s : State) (w : Word) (i : Instr) (a : Nat) (bs : List Byte),
    s.ctl.seq = .pending w → decode w = .ok i → a + bs.length ≤ s.params.bufSize →
    let inside : Nat → Prop := fun x =>
      ((usesOf i).src = true ∧ s.opnd.srcAddr.toNat ≤ x ∧ x < s.opnd.srcAddr.toNat + s.opnd.srcLen.toNat) ∨
      ((usesOf i).dst = true ∧ s.opnd.dstAddr.toNat ≤ x ∧ x < s.opnd.dstAddr.toNat + s.opnd.dstCap.toNat) ∨
      ((usesOf i).mda = .input ∧ s.opnd.mdaAddr.toNat ≤ x ∧ x < s.opnd.mdaAddr.toNat + s.opnd.mdaInLen.toNat) ∨
      ((usesOf i).mda = .output ∧ s.opnd.mdaAddr.toNat ≤ x ∧ x < s.opnd.mdaAddr.toNat + s.opnd.mdaCap.toNat)
    ((∃ x, a ≤ x ∧ x < a + bs.length ∧ inside x) →
      hostOperation (.writeMem a bs) s = .fault .regionHazard ∧
      hostOperation (.readMem a bs.length) s = .fault .regionHazard) ∧
    ((∀ x, a ≤ x → x < a + bs.length → ¬ inside x) →
      safe s a bs ∧ ∀ t, hostOperation (.writeMem a bs) s = .next t →
        ((usesOf i).src = true → t.input = s.input) ∧ ((usesOf i).mda = .input → t.metadata = s.metadata))) ∧
  (∀ (s : State) (a : Nat) (bs : List Byte), a + bs.length ≤ s.params.bufSize →
    (s.ctl.seq = .idle ∨ ∃ w, s.ctl.seq = .pending w ∧ ∀ i, decode w ≠ .ok i) → safe s a bs) ∧
  (∀ (s : State) (a : Nat) (bs : List Byte), bs ≠ [] → s.params.bufSize < a + bs.length →
    hostOperation (.writeMem a bs) s = .fault .noSuchBufferAddress ∧
    hostOperation (.readMem a bs.length) s = .fault .noSuchBufferAddress)

/-! ## NOP, StatsReporter, BitPacker -/

/-- R118: NOP changes nothing but completion, from every state; it is dropped while BUSY like any CMD write; from reset,
RUN NOP leaves STATUS = 0x00000002 and every register but STATUS and CMD (which R27 makes read the word) at its reset
value. That withFetchWord stands for the CMD write of a word and the engine's turn after it is the model's
(notes/assumptions/5.md). -/
def Obligations.NopOnlyCompletes : Prop :=
  (∀ s : State, exec .nop s = .next
    { s with
      ctl := { s.ctl with seq := .idle, done := true, errCode := none }
      res := { s.res with errPos := 0 } }) ∧
  (∀ s : State, s.busy = true → s.hostWritesReg .cmd 0x1 = { s with ctl := { s.ctl with cmdOvf := true } }) ∧
  (∃ t, step (State.reset.withFetchWord 32 0x1) = .next t ∧ t.regValue .status = 0x2 ∧ t.regValue .cmd = 0x1 ∧
    ∀ r : Reg, r ≠ .status → r ≠ .cmd → t.regValue r = State.reset.regValue r)

/-- Ratio (R121, R122): for o > 0 the integer nearest to (o - e) * 10000 / o, an exact half away from zero; 0 for o =
0; at most 10000; 10000 for e = 0 and, while o < 20000, only for e = 0 (R122 says so of every o; from o = 20000 on
R121 gives 10000 for a small e too: notes/assumptions/18.md); negative only when e > o; at least -20000 when e <= 3 o.
-/
def Obligations.RatioIsTheRoundedPercentage : Prop :=
  (∀ e : Nat, ratio 0 e = 0) ∧
  ∀ o e : Nat, 0 < o →
    let x : Int := ((o : Int) - e) * 10000
    2 * (ratio o e * o - x).natAbs ≤ o ∧
    (2 * (ratio o e * o - x).natAbs = o → x.natAbs ≤ (ratio o e * o).natAbs) ∧
    ratio o e ≤ 10000 ∧ (ratio o e = 10000 → o < 20000 → e = 0) ∧ (e = 0 → ratio o e = 10000) ∧
    (ratio o e < 0 → o < e) ∧ (o < e → ratio o e ≤ 0) ∧ ratio o o = 0 ∧ (e ≤ 3 * o → -20000 ≤ ratio o e)

/-- R132, R130: for every bit string b, Unpack(first(Pack(b))) = b followed by as many zeros as second(Pack(b)) says;
the output has ceil(N / 8) bytes and the pad is 0..7. -/
def Obligations.UnpackOfPackAddsOnlyThePadding : Prop :=
  ∀ b : Bits, unpack (pack b).1 = b ++ List.replicate (pack b).2 false ∧
    (pack b).1.length = (b.length + 7) / 8 ∧ (pack b).2 ≤ 7

/-- BPACK (R133): a string of ASCII bits that fits is packed, ceil(SRC_LEN / 8) bytes with the pad in PAD_BITS; the
first byte that is no bit is MALFORMED_PAYLOAD at its offset, when the groups before it fit; a group of bits that does
not fit is DST_OVERFLOW at the offset of its first bit, whatever comes after it. -/
def Obligations.BpackPacksAsciiBits : Prop :=
  ∀ s : State, s.checkPhase .bpack = none →
    (∀ bits : Bits, s.input = bits.map (fun b => if b then 0x31 else 0x30) →
      (bits.length + 7) / 8 ≤ s.opnd.dstCap.toNat →
      ∃ t, exec .bpack s = .next t ∧ Completed s t ∧ Stored s t s.opnd.dstAddr (pack bits).1 ∧ t.tbl = s.tbl ∧
        t.res = { s.res with
          dstLen := BitVec.ofNat 32 ((bits.length + 7) / 8), padBits := BitVec.ofNat 3 (pack bits).2, errPos := 0 }) ∧
    (∀ (k : Nat) (x : Byte), s.input[k]? = some x → x ≠ 0x30 → x ≠ 0x31 →
      (∀ y ∈ s.input.take k, y = 0x30 ∨ y = 0x31) →
      k / 8 ≤ s.opnd.dstCap.toNat →
      ∃ t, exec .bpack s = .next t ∧ t.ctl.errCode = some .malformedPayload ∧ t.res.errPos = BitVec.ofNat 32 k ∧
        t.res.dstLen = 0) ∧
    (8 * s.opnd.dstCap.toNat < s.opnd.srcLen.toNat →
      (∀ y ∈ s.input.take (8 * s.opnd.dstCap.toNat + 8), y = 0x30 ∨ y = 0x31) →
      Raises s .bpack .dstOverflow (8 * s.opnd.dstCap.toNat))

/-- BUNPACK (R134): where eight bytes for each input byte fit, DST holds the ASCII bits, most significant first; else
DST_OVERFLOW at the input byte whose expansion does not fit. -/
def Obligations.BunpackSpellsEveryBit : Prop :=
  ∀ s : State, s.checkPhase .bunpack = none →
    (8 * s.opnd.srcLen.toNat ≤ s.opnd.dstCap.toNat →
      ∃ t out, exec .bunpack s = .next t ∧ Completed s t ∧ Stored s t s.opnd.dstAddr out ∧ t.tbl = s.tbl ∧
        out.length = 8 * s.opnd.srcLen.toNat ∧
        (∀ k b, k < s.opnd.srcLen.toNat → b < 8 →
          out[8 * k + b]? = some (if (s.byteAt (s.opnd.srcAddr.toNat + k)).getLsbD (7 - b) then 0x31 else 0x30)) ∧
        t.res = { s.res with dstLen := BitVec.ofNat 32 (8 * s.opnd.srcLen.toNat), errPos := 0 }) ∧
    (s.opnd.dstCap.toNat < 8 * s.opnd.srcLen.toNat →
      ∃ t, exec .bunpack s = .next t ∧ t.ctl.errCode = some .dstOverflow ∧
        t.res.errPos = BitVec.ofNat 32 (s.opnd.dstCap.toNat / 8))

/-! ## Huffman -/

/-- FREQ (R150): every FREQ register counts its symbol in the input, NUM_SYMS counts the symbols that occur, FV is set
and TV and CV are cleared, and nothing else changes. -/
def Obligations.FreqCountsEverySymbol : Prop :=
  ∀ s : State, s.checkPhase .freq = none →
    ∃ t, exec .freq s = .next t ∧ Completed s t ∧
      (∀ sym : Byte, (t.regValue (.freq sym)).toNat = s.input.count sym) ∧
      (t.regValue .numSyms).toNat = ((List.range 256).filter fun k => BitVec.ofNat 8 k ∈ s.input).length ∧
      t.tbl = { s.tbl with ft := t.tbl.ft, fv := true, tv := false, cv := false } ∧
      t.mem = s.mem ∧ t.res = { s.res with errPos := 0 }

/-- TBUILD (R151, R152): for k counted symbols an arena of 2k - 1 nodes, the leaves at 0 .. k-1 in ascending symbol
order with their counts, the root last, a valid tree in which every freq is the sum of its children's, the two
children of each internal node being the two least pairs (freq, index) not merged before it, the least on the left;
the empty arena for k = 0. TV is set and CV cleared, and nothing else changes. -/
def Obligations.TbuildBuildsATreeOverTheCountedSymbols : Prop :=
  ∀ s : State, s.checkPhase .tbuild = none →
    let syms : List Byte := ((List.range 256).map (BitVec.ofNat 8)).filter fun sym => tblGet s.tbl.ft sym ≠ 0
    ∃ t, exec .tbuild s = .next t ∧ Completed s t ∧ t.mem = s.mem ∧ t.res = { s.res with errPos := 0 } ∧
      t.tbl = { s.tbl with arena := t.tbl.arena, tv := true, cv := false } ∧
      (syms = [] → t.tbl.arena = ⟨[], none⟩) ∧
      (syms ≠ [] →
        t.tbl.arena.nodes.length = 2 * syms.length - 1 ∧ t.tbl.arena.root = some (2 * syms.length - 2) ∧
        (∀ (k : Nat) (sym : Byte), syms[k]? = some sym →
          t.tbl.arena.nodes[k]? = some (Node.leaf sym (tblGet s.tbl.ft sym))) ∧
        (∀ m f l r, t.tbl.arena.nodes[m]? = some (Node.internal f l r) →
          let unmerged : Nat → Prop := fun b => b < m ∧ ∀ (m' : Nat) (f' : Word) (l' r' : Nat), m' < m →
            t.tbl.arena.nodes[m']? = some (Node.internal f' l' r') → b ≠ l' ∧ b ≠ r'
          let freq : Nat → Nat := fun a => (freqAt t.tbl.arena.nodes a).toNat
          let below : Nat → Nat → Prop := fun a b => freq a < freq b ∨ (freq a = freq b ∧ a < b)
          unmerged l ∧ unmerged r ∧ l ≠ r ∧ (∀ b, unmerged b → b ≠ l → below l b) ∧
            (∀ b, unmerged b → b ≠ l → b ≠ r → below r b)) ∧
        ∃ tree : HTree, t.tbl.arena.Holds tree ∧ tree.sumsUp ∧ tree.symbols.Perm syms)

/-- CGEN (R153, R154): for a valid tree in the arena, every symbol's code is its path ("0" for a single leaf), no code
is a prefix of another symbol's, CV is set, and nothing else changes; for the empty arena no symbol has a code. -/
def Obligations.CgenGivesThePrefixFreeCodesOfTheTree : Prop :=
  ∀ s : State, s.checkPhase .cgen = none →
    (∀ tree : HTree, s.tbl.arena.Holds tree → tree.symbols.Nodup →
      ∃ t, exec .cgen s = .next t ∧ Completed s t ∧ t.mem = s.mem ∧ t.res = { s.res with errPos := 0 } ∧
        t.tbl = { s.tbl with ct := t.tbl.ct, cv := true } ∧
        (∀ sym : Byte, tblGet t.tbl.ct sym = tree.codeOf sym) ∧
        (∀ sym : Byte, tree.codeOf sym ≠ [] ↔ sym ∈ tree.symbols) ∧
        (∀ x y : Byte, x ≠ y → tree.codeOf x ≠ [] → ¬ tree.codeOf x <+: tree.codeOf y)) ∧
    (s.tbl.arena = ⟨[], none⟩ →
      ∃ t, exec .cgen s = .next t ∧ Completed s t ∧ t.tbl.cv = true ∧ ∀ sym : Byte, tblGet t.tbl.ct sym = [])

/-- HENC (R155): where every input symbol has a code and the packed codes fit, DST holds Pack of the codes in order
and PAD_BITS its pad; the first symbol without a code is NO_CODE at its offset, when the bytes before it fit; where
the packed codes do not fit, DST_OVERFLOW at the symbol whose bit completes the byte that does not, if all symbols up
to it have codes. -/
def Obligations.HencPacksTheCodesInOrder : Prop :=
  ∀ s : State, s.checkPhase .henc = none →
    let bits := s.input.flatMap (tblGet s.tbl.ct)
    ((∀ x ∈ s.input, tblGet s.tbl.ct x ≠ []) → (bits.length + 7) / 8 ≤ s.opnd.dstCap.toNat →
      ∃ t, exec .henc s = .next t ∧ Completed s t ∧ Stored s t s.opnd.dstAddr (pack bits).1 ∧ t.tbl = s.tbl ∧
        t.res = { s.res with
          dstLen := BitVec.ofNat 32 ((bits.length + 7) / 8), padBits := BitVec.ofNat 3 (pack bits).2, errPos := 0 }) ∧
    (∀ (k : Nat) (x : Byte), s.input[k]? = some x → tblGet s.tbl.ct x = [] →
      (∀ y ∈ s.input.take k, tblGet s.tbl.ct y ≠ []) →
      ((s.input.take k).flatMap (tblGet s.tbl.ct)).length / 8 ≤ s.opnd.dstCap.toNat →
      ∃ t, exec .henc s = .next t ∧ t.ctl.errCode = some .noCode ∧ t.res.errPos = BitVec.ofNat 32 k) ∧
    (∀ k : Nat, (∀ y ∈ s.input.take (k + 1), tblGet s.tbl.ct y ≠ []) →
      CompletesByte (tblGet s.tbl.ct) s.input s.opnd.dstCap.toNat k →
      8 * s.opnd.dstCap.toNat < ((s.input.take (k + 1)).flatMap (tblGet s.tbl.ct)).length →
      Raises s .henc .dstOverflow k)

/-- TSER (R156, R157): the byte string of the tree in the arena, [0x00] for the empty arena, where it fits; else
MDA_OVERFLOW at the offset of the first byte that does not fit. -/
def Obligations.TserWritesTheSerializedTree : Prop :=
  ∀ s : State, s.checkPhase .tser = none → ∀ mdo : List Byte,
    ((s.tbl.arena.root = none ∧ mdo = [0x00]) ∨ ∃ tree : HTree, s.tbl.arena.Holds tree ∧ mdo = tree.serialized) →
    (mdo.length ≤ s.opnd.mdaCap.toNat →
      ∃ t, exec .tser s = .next t ∧ Completed s t ∧ Stored s t s.opnd.mdaAddr mdo ∧ t.tbl = s.tbl ∧
        t.res = { s.res with mdaOutLen := BitVec.ofNat 32 mdo.length, errPos := 0 }) ∧
    (s.opnd.mdaCap.toNat < mdo.length →
      ∃ t, exec .tser s = .next t ∧ t.ctl.errCode = some .mdaOverflow ∧ t.res.errPos = s.opnd.mdaCap)

/-- ParseTree (R156, R158) accepts exactly the byte strings of the grammar with different leaf symbols, and gives the
arena in pre-order; everything else is CORRUPT_TREE at the position of the first thing that is wrong. -/
def Obligations.ParseTreeAcceptsExactlyTheGrammar : Prop :=
  ∀ md : List Byte, md ≠ [] →
    (∀ a : Arena, parseTree md = .ok a ↔
      (md = [0x00] ∧ a = ⟨[], none⟩) ∨
        ∃ tree : HTree, tree.symbols.Nodup ∧ md = tree.serialized ∧ a = ⟨tree.preorder 0, some 0⟩) ∧
    (∀ r : Raise, parseTree md = .error r → r.err = .corruptTree ∧ r.pos ≤ md.length ∧ CorruptAt md r.pos)

/-- TDES (R158, R159) loads a serialized tree in pre-order with the root at index 0, sets TV and clears CV, and changes
nothing else; [0x00] loads the empty tree. Where ParseTree of the metadata raises, it ends with CORRUPT_TREE at that
position. -/
def Obligations.TdesLoadsTheTreeInPreorder : Prop :=
  ∀ s : State, s.checkPhase .tdes = none →
    (∀ a : Arena,
      ((s.metadata = [0x00] ∧ a = ⟨[], none⟩) ∨
        ∃ tree : HTree, tree.symbols.Nodup ∧ s.metadata = tree.serialized ∧ a = ⟨tree.preorder 0, some 0⟩) →
      exec .tdes s = .next
        { s with
          ctl := { s.ctl with seq := .idle, done := true, errCode := none }
          res := { s.res with errPos := 0 }
          tbl := { s.tbl with arena := a, tv := true, cv := false } }) ∧
    (∀ r : Raise, parseTree s.metadata = .error r → Raises s .tdes .corruptTree r.pos)

/-- HDEC in count mode (R160, R162): the packed codes of a tree's symbols decode to exactly EXPECT_LEN symbols,
padding ignored; an input of length 0 gives an empty output, whatever EXPECT_LEN and the tree; and every input and
tree, the empty one included, ends as R160 says: the symbols, MALFORMED_PAYLOAD at its position (a stream that ends in
a code, a 1 bit for a single leaf, an unused byte, padding that is not zero, an empty tree), or DST_OVERFLOW at the
symbol that does not fit. -/
def Obligations.HdecRecoversThePackedSymbols : Prop :=
  ∀ s : State, s.checkPhase .hdec = none →
    let gives : List Byte → Prop := fun out =>
      ∃ t, exec .hdec s = .next t ∧ Completed s t ∧ Stored s t s.opnd.dstAddr out ∧ t.tbl = s.tbl ∧
        t.res = { s.res with dstLen := BitVec.ofNat 32 out.length, errPos := 0 }
    (∀ (tree : HTree) (ds : List Byte), s.tbl.arena.Holds tree → tree.symbols.Nodup → (∀ x ∈ ds, x ∈ tree.symbols) →
      s.input = (pack (ds.flatMap tree.codeOf)).1 → s.opnd.expectLen.toNat = ds.length →
      ds.length ≤ s.opnd.dstCap.toNat → gives ds) ∧
    (s.opnd.srcLen = 0 → gives []) ∧
    (∀ tree : Option HTree, s.tbl.arena.Shows tree →
      (∀ out, CountDecodes tree s.input s.opnd.expectLen.toNat s.opnd.dstCap.toNat (.ok out) → gives out) ∧
      (∀ r, CountDecodes tree s.input s.opnd.expectLen.toNat s.opnd.dstCap.toNat (.error r) →
        Raises s .hdec r.err r.pos))

/-- HDEC.L in legacy mode (R161, R163): the bits of the input, codes of symbols and then bits that complete no code,
give those symbols; a single-leaf tree gives its symbol for every bit; an input of length 0 gives an empty output
whatever the tree; any other with the empty tree is MALFORMED_PAYLOAD(0); a symbol that does not fit is DST_OVERFLOW
at the input byte with the last bit of its code. -/
def Obligations.HdecLegacyDecodesEveryCompleteCode : Prop :=
  ∀ s : State, s.checkPhase .hdecL = none →
    let gives : List Byte → Prop := fun out =>
      ∃ t, exec .hdecL s = .next t ∧ Completed s t ∧ Stored s t s.opnd.dstAddr out ∧ t.tbl = s.tbl ∧
        t.res = { s.res with dstLen := BitVec.ofNat 32 out.length, errPos := 0 }
    (s.opnd.srcLen = 0 → gives []) ∧
    (∀ tree : Option HTree, s.tbl.arena.Shows tree →
      (∀ out, LegacyDecodes tree s.input s.opnd.dstCap.toNat (.ok out) → gives out) ∧
      (∀ r, LegacyDecodes tree s.input s.opnd.dstCap.toNat (.error r) → Raises s .hdecL r.err r.pos))

/-- HCOMP (R164): the tree is the one TBUILD gives from the counts of the input, its leaves are the symbols of the
input, and where both outputs fit DST holds the packed codes of the input with that tree and MDO its byte string; all
three tables become valid. For the empty input DST_LEN = 0 and MDO holds [0x00]. Where the codes do not fit,
DST_OVERFLOW at the symbol that completes the byte that does not, whatever MDA_CAP is; where they fit and the byte
string does not, MDA_OVERFLOW at the first byte of it that does not. The codes take at most 32 bytes a symbol and the
byte string at most 3323, so with that much room it completes. -/
def Obligations.HcompWritesTheCodesAndTheirTree : Prop :=
  ∀ s : State, s.checkPhase .hcomp = none →
    ∃ (ft : FreqTable) (u : State) (tree : Option HTree),
      (∀ sym : Byte, (tblGet ft sym).toNat = s.input.count sym) ∧
      exec .tbuild { s with tbl := { s.tbl with ft := ft, fv := true } } = .next u ∧ u.ctl.errCode = none ∧
      u.tbl.arena.Shows tree ∧ (∀ x, x ∈ treeSymbols tree ↔ x ∈ s.input) ∧
      let bits := s.input.flatMap (treeCode tree)
      let out := (pack bits).1
      let mdo := treeBytes tree
      (s.input = [] → u.tbl.arena = ⟨[], none⟩ ∧ out = [] ∧ mdo = [0x00]) ∧
      out.length ≤ 32 * s.opnd.srcLen.toNat ∧ mdo.length ≤ 3323 ∧
      (out.length ≤ s.opnd.dstCap.toNat → mdo.length ≤ s.opnd.mdaCap.toNat →
        ∃ t, exec .hcomp s = .next t ∧ Completed s t ∧ StoredTwo s t s.opnd.dstAddr out s.opnd.mdaAddr mdo ∧
          t.res = { s.res with
            dstLen := BitVec.ofNat 32 out.length, mdaOutLen := BitVec.ofNat 32 mdo.length, errPos := 0,
            padBits := BitVec.ofNat 3 (pack bits).2, statOrig := s.opnd.srcLen, statEnc := BitVec.ofNat 32 out.length,
            statRatio := BitVec.ofInt 32 (ratio s.opnd.srcLen.toNat out.length) } ∧
          t.tbl = ⟨ft, u.tbl.arena, t.tbl.ct, true, true, true⟩ ∧
          ∀ sym : Byte, tblGet t.tbl.ct sym = treeCode tree sym) ∧
      (s.opnd.dstCap.toNat < out.length →
        ∃ k, CompletesByte (treeCode tree) s.input s.opnd.dstCap.toNat k ∧ Raises s .hcomp .dstOverflow k) ∧
      (out.length ≤ s.opnd.dstCap.toNat → s.opnd.mdaCap.toNat < mdo.length →
        Raises s .hcomp .mdaOverflow s.opnd.mdaCap.toNat)

/-- HDECOMP (R165): the serialized tree and the packed codes of its symbols give exactly EXPECT_LEN symbols; the arena
holds the tree in pre-order, TV = 1 and CV = 0. With a tree, the empty one included, an input of length 0 gives an
empty output whatever EXPECT_LEN is, and every input ends as R160 says, errors included. Where ParseTree of the
metadata raises, it ends with CORRUPT_TREE at that position, whatever the input is. -/
def Obligations.HdecompDecodesWithItsTree : Prop :=
  ∀ s : State, s.checkPhase .hdecomp = none →
    (∀ tree : Option HTree, (treeSymbols tree).Nodup → s.metadata = treeBytes tree →
      let gives : List Byte → Prop := fun out =>
        ∃ t, exec .hdecomp s = .next t ∧ Completed s t ∧ Stored s t s.opnd.dstAddr out ∧
          t.tbl = { s.tbl with arena := treeArena tree, tv := true, cv := false } ∧
          t.res = { s.res with dstLen := BitVec.ofNat 32 out.length, errPos := 0 }
      (∀ ds : List Byte, (∀ x ∈ ds, x ∈ treeSymbols tree) → s.input = (pack (ds.flatMap (treeCode tree))).1 →
        s.opnd.expectLen.toNat = ds.length → ds.length ≤ s.opnd.dstCap.toNat → gives ds) ∧
      (s.opnd.srcLen = 0 → gives []) ∧
      (∀ out, CountDecodes tree s.input s.opnd.expectLen.toNat s.opnd.dstCap.toNat (.ok out) → gives out) ∧
      (∀ r, CountDecodes tree s.input s.opnd.expectLen.toNat s.opnd.dstCap.toNat (.error r) →
        Raises s .hdecomp r.err r.pos)) ∧
    (∀ r : Raise, parseTree s.metadata = .error r → Raises s .hdecomp .corruptTree r.pos)

/-- HDECOMP.L (R166): the same with every bit of the stream read, EXPECT_LEN not; bits at the end that complete no code
are dropped, and padding that completes codes appends their symbols; with the empty tree any input but the empty one is
MALFORMED_PAYLOAD(0). Where ParseTree of the metadata raises, it ends with CORRUPT_TREE at that position, whatever the
input is. -/
def Obligations.HdecompLegacyDecodesEveryCompleteCode : Prop :=
  ∀ s : State, s.checkPhase .hdecompL = none →
    (∀ tree : Option HTree, (treeSymbols tree).Nodup → s.metadata = treeBytes tree →
      let gives : List Byte → Prop := fun out =>
        ∃ t, exec .hdecompL s = .next t ∧ Completed s t ∧ Stored s t s.opnd.dstAddr out ∧
          t.tbl = { s.tbl with arena := treeArena tree, tv := true, cv := false } ∧
          t.res = { s.res with dstLen := BitVec.ofNat 32 out.length, errPos := 0 }
      (s.opnd.srcLen = 0 → gives []) ∧
      (∀ out, LegacyDecodes tree s.input s.opnd.dstCap.toNat (.ok out) → gives out) ∧
      (∀ r, LegacyDecodes tree s.input s.opnd.dstCap.toNat (.error r) → Raises s .hdecompL r.err r.pos)) ∧
    (∀ r : Raise, parseTree s.metadata = .error r → Raises s .hdecompL .corruptTree r.pos)

/-- R167 (a): for every input, HDECOMP of HCOMP's DST and MDO with EXPECT_LEN = STAT_ORIG reproduces the input. -/
def Obligations.HuffmanRoundTripIsExact : Prop :=
  ∀ s t u : State, exec .hcomp s = .next t → t.ctl.errCode = none →
    u.checkPhase .hdecomp = none → u.input = t.memRead s.opnd.dstAddr.toNat t.res.dstLen.toNat →
    u.metadata = t.memRead s.opnd.mdaAddr.toNat t.res.mdaOutLen.toNat → u.opnd.expectLen = t.res.statOrig →
    s.opnd.srcLen.toNat ≤ u.opnd.dstCap.toNat →
    ∃ v, exec .hdecomp u = .next v ∧ v.ctl.errCode = none ∧ v.res.dstLen = s.opnd.srcLen ∧
      v.memRead u.opnd.dstAddr.toNat v.res.dstLen.toNat = s.input

/-! ## RLE -/

/-- RLE_C.BIN (R200 to R203): symbol and count of each run of the split of the input at 255, at most 2 * SRC_LEN bytes.
Where they fit it completes and DST holds them; else DST_OVERFLOW at the start of the run whose bytes do not fit. -/
def Obligations.RleBinaryEncodesTheRuns : Prop :=
  ∀ s : State, s.checkPhase .rleCBin = none →
    ∃ rs, RunSplit 255 s.input rs ∧
      let out := rs.flatMap binaryForm
      out.length ≤ 2 * s.opnd.srcLen.toNat ∧
      (out.length ≤ s.opnd.dstCap.toNat →
        ∃ t, exec .rleCBin s = .next t ∧ Completed s t ∧ Stored s t s.opnd.dstAddr out ∧ t.tbl = s.tbl ∧
          t.res = { s.res with
            dstLen := BitVec.ofNat 32 out.length, rleMethod := .binary, errPos := 0, statOrig := s.opnd.srcLen,
            statEnc := BitVec.ofNat 32 out.length,
            statRatio := BitVec.ofInt 32 (ratio s.opnd.srcLen.toNat out.length) }) ∧
      (s.opnd.dstCap.toNat < out.length →
        ∃ pos, MisfitAt s.opnd.dstCap.toNat (runChunks binaryForm 0 rs) pos ∧ Raises s .rleCBin .dstOverflow pos)

/-- RLE_C.TXT (R204 to R207): the text form of each run of the split of the input at 999, at most 2 * SRC_LEN bytes.
Where they fit it completes and DST holds them; else DST_OVERFLOW at the start of the run whose bytes do not fit. -/
def Obligations.RleTextEncodesTheRuns : Prop :=
  ∀ s : State, s.checkPhase .rleCTxt = none →
    ∃ rs, RunSplit 999 s.input rs ∧
      let out := rs.flatMap textForm
      out.length ≤ 2 * s.opnd.srcLen.toNat ∧
      (out.length ≤ s.opnd.dstCap.toNat →
        ∃ t, exec .rleCTxt s = .next t ∧ Completed s t ∧ Stored s t s.opnd.dstAddr out ∧ t.tbl = s.tbl ∧
          t.res = { s.res with
            dstLen := BitVec.ofNat 32 out.length, rleMethod := .text, errPos := 0, statOrig := s.opnd.srcLen,
            statEnc := BitVec.ofNat 32 out.length,
            statRatio := BitVec.ofInt 32 (ratio s.opnd.srcLen.toNat out.length) }) ∧
      (s.opnd.dstCap.toNat < out.length →
        ∃ pos, MisfitAt s.opnd.dstCap.toNat (runChunks textForm 0 rs) pos ∧ Raises s .rleCTxt .dstOverflow pos)

/-- RLE_C.OPT (R208, R209): it does what the scheme with the shorter payload does, binary where they are equally long:
it completes with that payload and its method where it fits, and else ends with DST_OVERFLOW at the run of that scheme
whose bytes do not fit. -/
def Obligations.RleSelectorTakesTheShorterPayload : Prop :=
  ∀ s : State, s.checkPhase .rleCOpt = none →
    ∃ b x, RunSplit 255 s.input b ∧ RunSplit 999 s.input x ∧
      let binary : Prop := (b.flatMap binaryForm).length ≤ (x.flatMap textForm).length
      let does : Instr → MethodTag → (Byte × Nat → List Byte) → List (Byte × Nat) → Prop := fun i m form rs =>
        let out := rs.flatMap form
        exec .rleCOpt s = exec i s ∧
        (out.length ≤ s.opnd.dstCap.toNat →
          ∃ t, exec .rleCOpt s = .next t ∧ Completed s t ∧ Stored s t s.opnd.dstAddr out ∧ t.tbl = s.tbl ∧
            t.res = { s.res with
              dstLen := BitVec.ofNat 32 out.length, rleMethod := m, errPos := 0, statOrig := s.opnd.srcLen,
              statEnc := BitVec.ofNat 32 out.length,
              statRatio := BitVec.ofInt 32 (ratio s.opnd.srcLen.toNat out.length) }) ∧
        (s.opnd.dstCap.toNat < out.length →
          ∃ pos, MisfitAt s.opnd.dstCap.toNat (runChunks form 0 rs) pos ∧ Raises s .rleCOpt .dstOverflow pos)
      (binary → does .rleCBin .binary binaryForm b) ∧ (¬ binary → does .rleCTxt .text textForm x)

/-- RLE_D.BIN (R210, R211): pairs of a symbol and a count 1 .. 255 expand; an odd length is MALFORMED_PAYLOAD at the
last byte and a count 0 at its pair, after pairs that fit; a pair whose symbols do not fit is DST_OVERFLOW at its
offset, whatever comes after it. -/
def Obligations.RleBinaryDecodesPairs : Prop :=
  ∀ (s : State) (rs : List (Byte × Byte)), s.checkPhase .rleDBin = none → (∀ r ∈ rs, r.2 ≠ 0) →
    let out := rs.flatMap fun r => List.replicate r.2.toNat r.1
    out.length ≤ s.opnd.dstCap.toNat →
    (s.input = rs.flatMap (fun r => [r.1, r.2]) →
      ∃ t, exec .rleDBin s = .next t ∧ Completed s t ∧ Stored s t s.opnd.dstAddr out ∧ t.tbl = s.tbl ∧
        t.res = { s.res with dstLen := BitVec.ofNat 32 out.length, errPos := 0 }) ∧
    (∀ (x : Byte) (tail : List Byte), (tail = [x] ∨ ∃ more, tail = x :: 0 :: more) →
      s.input = rs.flatMap (fun r => [r.1, r.2]) ++ tail →
      ∃ t, exec .rleDBin s = .next t ∧ t.ctl.errCode = some .malformedPayload ∧
        t.res.errPos = BitVec.ofNat 32 (2 * rs.length)) ∧
    (∀ (x c : Byte) (more : List Byte), c ≠ 0 → s.opnd.dstCap.toNat < out.length + c.toNat →
      s.input = rs.flatMap (fun r => [r.1, r.2]) ++ x :: c :: more →
      Raises s .rleDBin .dstOverflow (2 * rs.length))

/-- RLE_D.TXT (R212, R213): a string of tokens decodes to their meanings; a '~' with no token after it is
MALFORMED_PAYLOAD at its offset, after tokens that fit; a token whose meaning does not fit is DST_OVERFLOW at its
offset, whatever comes after it. -/
def Obligations.RleTextDecodesTokens : Prop :=
  ∀ (s : State) (ts : List TextToken), s.checkPhase .rleDTxt = none → (∀ t ∈ ts, t.Fits) →
    let out := ts.flatMap TextToken.meaning
    out.length ≤ s.opnd.dstCap.toNat →
    (s.input = ts.flatMap TextToken.bytes →
      ∃ t, exec .rleDTxt s = .next t ∧ Completed s t ∧ Stored s t s.opnd.dstAddr out ∧ t.tbl = s.tbl ∧
        t.res = { s.res with dstLen := BitVec.ofNat 32 out.length, errPos := 0 }) ∧
    (∀ tail : List Byte, (∀ (tok : TextToken) (more : List Byte), tok.Fits → 0x7E :: tail ≠ tok.bytes ++ more) →
      s.input = ts.flatMap TextToken.bytes ++ 0x7E :: tail →
      ∃ t, exec .rleDTxt s = .next t ∧ t.ctl.errCode = some .malformedPayload ∧
        t.res.errPos = BitVec.ofNat 32 (ts.flatMap TextToken.bytes).length) ∧
    (∀ (tok : TextToken) (more : List Byte), tok.Fits → s.opnd.dstCap.toNat < out.length + tok.meaning.length →
      s.input = ts.flatMap TextToken.bytes ++ (tok.bytes ++ more) →
      Raises s .rleDTxt .dstOverflow (ts.flatMap TextToken.bytes).length)

/-- R215 (a): what an RLE_C command wrote, the RLE_D word of its method decodes to the input again; for RLE_C.OPT the
method is the one RLE_METHOD holds. -/
def Obligations.RleRoundTripIsExact : Prop :=
  ∀ (c d : Instr) (s t u : State),
    c ∈ [Instr.rleCBin, .rleCTxt, .rleCOpt] → exec c s = .next t → t.ctl.errCode = none →
    ((t.res.rleMethod = .binary ∧ d = .rleDBin) ∨ (t.res.rleMethod = .text ∧ d = .rleDTxt)) →
    u.checkPhase d = none → u.input = t.memRead s.opnd.dstAddr.toNat t.res.dstLen.toNat →
    s.opnd.srcLen.toNat ≤ u.opnd.dstCap.toNat →
    ∃ v, exec d u = .next v ∧ v.ctl.errCode = none ∧ v.res.dstLen = s.opnd.srcLen ∧
      v.memRead u.opnd.dstAddr.toNat v.res.dstLen.toNat = s.input

/-! ## LZ77 -/

/-- The matcher (R242, R243): with W' and maxLen of the form, the match found is a match of at most maxLen symbols
inside the window, no candidate of the window matches longer, and none further left matches as long. -/
def Obligations.LongestMatchIsTheLeftmostLongest : Prop :=
  ∀ (form : LzForm) (w la : Nat) (inp : List Byte) (i : Nat), i ≤ inp.length →
    let bound := match form with
      | .compact => min (min la (inp.length - i)) 15
      | .bracket => min la (inp.length - i)
    let window := match form with
      | .compact => min w 4095
      | .bracket => w
    let matches_ : Nat → Nat → Prop := fun j len => ∀ k, k < len → inp[j + k]? = inp[i + k]?
    let len := (longest form w la inp i).1
    let off := (longest form w la inp i).2
    len ≤ bound ∧
    (0 < len → 1 ≤ off ∧ off ≤ min window i ∧ matches_ (i - off) len) ∧
    (∀ j, i - window ≤ j → j < i → ∀ l, l ≤ bound → matches_ j l → l ≤ len) ∧
    (0 < len → ∀ j, i - window ≤ j → j < i - off → ¬ matches_ j len)

/-- LZ_C (R241, R244, R245, R252): the tokens are those of the greedy loop, the compact form can carry them, they
replay to the input and take at most 2 * SRC_LEN bytes. Where their bytes fit it completes and DST holds them; else
DST_OVERFLOW at the start of the token whose bytes do not fit. -/
def Obligations.LzCompactOutputReplaysToTheInput : Prop :=
  ∀ s : State, s.checkPhase .lzC = none →
    ∃ ts, GreedyTokens .compact s.opnd.window.toNat s.opnd.lookahead.toNat s.input 0 ts ∧
      (∀ tok ∈ ts, CompactFits tok) ∧ replay ts [] = some s.input ∧
      let out := ts.flatMap compactForm
      out.length ≤ 2 * s.opnd.srcLen.toNat ∧
      (out.length ≤ s.opnd.dstCap.toNat →
        ∃ t, exec .lzC s = .next t ∧ Completed s t ∧ Stored s t s.opnd.dstAddr out ∧ t.tbl = s.tbl ∧
          t.res = { s.res with
            dstLen := BitVec.ofNat 32 out.length, errPos := 0, statOrig := s.opnd.srcLen,
            statEnc := BitVec.ofNat 32 out.length,
            statRatio := BitVec.ofInt 32 (ratio s.opnd.srcLen.toNat out.length) }) ∧
      (s.opnd.dstCap.toNat < out.length →
        ∃ pos, MisfitAt s.opnd.dstCap.toNat (tokenChunks compactForm 0 ts) pos ∧ Raises s .lzC .dstOverflow pos)

/-- LZB_C (R244, R248, R249, R252): the tokens are those of the greedy loop, they replay to the input and take at most
ceil(8 * SRC_LEN / 3) bytes, and with WINDOW in range the bracket form can carry them. Where their bytes fit it
completes and DST holds them; else DST_OVERFLOW at the start of the token whose bytes do not fit. -/
def Obligations.LzBracketOutputReplaysToTheInput : Prop :=
  ∀ s : State, s.checkPhase .lzbC = none →
    ∃ ts, GreedyTokens .bracket s.opnd.window.toNat s.opnd.lookahead.toNat s.input 0 ts ∧
      (s.opnd.window.toNat ≤ 4096 → ∀ tok ∈ ts, BracketFits tok) ∧ replay ts [] = some s.input ∧
      let out := ts.flatMap bracketForm
      out.length ≤ (8 * s.opnd.srcLen.toNat + 2) / 3 ∧
      (out.length ≤ s.opnd.dstCap.toNat →
        ∃ t, exec .lzbC s = .next t ∧ Completed s t ∧ Stored s t s.opnd.dstAddr out ∧ t.tbl = s.tbl ∧
          t.res = { s.res with
            dstLen := BitVec.ofNat 32 out.length, errPos := 0, statOrig := s.opnd.srcLen,
            statEnc := BitVec.ofNat 32 out.length,
            statRatio := BitVec.ofInt 32 (ratio s.opnd.srcLen.toNat out.length) }) ∧
      (s.opnd.dstCap.toNat < out.length →
        ∃ pos, MisfitAt s.opnd.dstCap.toNat (tokenChunks bracketForm 0 ts) pos ∧ Raises s .lzbC .dstOverflow pos)

/-- LZ_D (R240, R246, R247): the compact form of tokens whose replay is defined decodes to that replay, overlapping
copies included. After such tokens, bytes that begin no token (a token cut off, an unknown flag, a zero offset or
length, an offset before the start of the output, a flag-2 token whose fourth byte is not 0) are MALFORMED_PAYLOAD at
their offset, and a token whose output does not fit is DST_OVERFLOW at its offset, whatever comes after it. -/
def Obligations.LzCompactDecoderReplaysTokens : Prop :=
  ∀ (s : State) (ts : List Token) (out : List Byte), s.checkPhase .lzD = none → (∀ t ∈ ts, CompactFits t) →
    replay ts [] = some out → out.length ≤ s.opnd.dstCap.toNat →
    (s.input = ts.flatMap compactForm →
      ∃ t, exec .lzD s = .next t ∧ Completed s t ∧ Stored s t s.opnd.dstAddr out ∧ t.tbl = s.tbl ∧
        t.res = { s.res with dstLen := BitVec.ofNat 32 out.length, errPos := 0 }) ∧
    (∀ bad : List Byte, bad ≠ [] → ¬ BeginsToken compactForm CompactFits out bad →
      s.input = ts.flatMap compactForm ++ bad →
      Raises s .lzD .malformedPayload (ts.flatMap compactForm).length) ∧
    (∀ (tok : Token) (more out' : List Byte), CompactFits tok → replayOne out tok = some out' →
      s.opnd.dstCap.toNat < out'.length → s.input = ts.flatMap compactForm ++ (compactForm tok ++ more) →
      Raises s .lzD .dstOverflow (ts.flatMap compactForm).length)

/-- LZB_D (R240, R250, R251): the bracket form of tokens whose replay is defined decodes to that replay. After such
tokens, bytes that begin no token (a lone '<', a missing comma or '>', a leading zero, too many digits, an offset or
length that is too large, an offset before the start of the output) are MALFORMED_PAYLOAD at the offset of their '<',
and a token whose output does not fit is DST_OVERFLOW at its offset, whatever comes after it. -/
def Obligations.LzBracketDecoderReplaysTokens : Prop :=
  ∀ (s : State) (ts : List Token) (out : List Byte), s.checkPhase .lzbD = none → (∀ t ∈ ts, BracketFits t) →
    replay ts [] = some out → out.length ≤ s.opnd.dstCap.toNat →
    (s.input = ts.flatMap bracketForm →
      ∃ t, exec .lzbD s = .next t ∧ Completed s t ∧ Stored s t s.opnd.dstAddr out ∧ t.tbl = s.tbl ∧
        t.res = { s.res with dstLen := BitVec.ofNat 32 out.length, errPos := 0 }) ∧
    (∀ bad : List Byte, bad ≠ [] → ¬ BeginsToken bracketForm BracketFits out bad →
      s.input = ts.flatMap bracketForm ++ bad →
      Raises s .lzbD .malformedPayload (ts.flatMap bracketForm).length) ∧
    (∀ (tok : Token) (more out' : List Byte), BracketFits tok → replayOne out tok = some out' →
      s.opnd.dstCap.toNat < out'.length → s.input = ts.flatMap bracketForm ++ (bracketForm tok ++ more) →
      Raises s .lzbD .dstOverflow (ts.flatMap bracketForm).length)

/-- R252 (a): for every input and every WINDOW and LOOKAHEAD in range, LZ_D of LZ_C's output and LZB_D of LZB_C's output
give the input. -/
def Obligations.LzRoundTripIsExact : Prop :=
  ∀ (c d : Instr) (s t u : State), (c, d) ∈ [(Instr.lzC, Instr.lzD), (.lzbC, .lzbD)] → exec c s = .next t →
    t.ctl.errCode = none → 1 ≤ s.opnd.window.toNat → s.opnd.window.toNat ≤ 4096 → 1 ≤ s.opnd.lookahead.toNat →
    u.checkPhase d = none → u.input = t.memRead s.opnd.dstAddr.toNat t.res.dstLen.toNat →
    s.opnd.srcLen.toNat ≤ u.opnd.dstCap.toNat →
    ∃ v, exec d u = .next v ∧ v.ctl.errCode = none ∧ v.res.dstLen = s.opnd.srcLen ∧
      v.memRead u.opnd.dstAddr.toNat v.res.dstLen.toNat = s.input

/-! ## Whole-machine rules -/

/-- R117: the result of a command that models a source call depends on the operand registers and the bytes of the
regions read, never on tables, results or other memory an earlier command left. -/
def Obligations.CallsAreIndependentOfEarlierCommands : Prop :=
  ∀ (i : Instr) (s s' t t' : State),
    i ∈ [Instr.hcomp, .hdecomp, .hdecompL, .rleCOpt, .rleCBin, .rleCTxt, .rleD, .rleDBin, .rleDTxt, .lzC, .lzD, .lzbC,
      .lzbD, .bpack, .bunpack] →
    s.params = s'.params → s.opnd = s'.opnd → s.input = s'.input →
    (i ∈ [Instr.hdecomp, .hdecompL] → s.metadata = s'.metadata) →
    exec i s = .next t → exec i s' = .next t' →
    t.ctl.errCode = t'.ctl.errCode ∧ t.res.errPos = t'.res.errPos ∧
    (t.ctl.errCode = none →
      t.res.dstLen = t'.res.dstLen ∧
      t.memRead s.opnd.dstAddr.toNat t.res.dstLen.toNat = t'.memRead s.opnd.dstAddr.toNat t.res.dstLen.toNat ∧
      (i = .hcomp → t.res.mdaOutLen = t'.res.mdaOutLen ∧
        t.memRead s.opnd.mdaAddr.toNat t.res.mdaOutLen.toNat = t'.memRead s.opnd.mdaAddr.toNat t.res.mdaOutLen.toNat) ∧
      (i ∈ [Instr.hcomp, .rleCOpt, .rleCBin, .rleCTxt, .lzC, .lzbC] →
        t.res.statOrig = t'.res.statOrig ∧ t.res.statEnc = t'.res.statEnc ∧ t.res.statRatio = t'.res.statRatio) ∧
      (i ∈ [Instr.rleCOpt, .rleCBin, .rleCTxt] → t.res.rleMethod = t'.res.rleMethod))

/-- Every step keeps the invariant of the registers and the memory: R26's invariants of STATUS, CMD and the latch,
WINDOW and LOOKAHEAD in range, and the memory in its canonical form inside the buffer. -/
def Obligations.StepKeepsRegisterInvariant : Prop :=
  ∀ s t : State, RegisterInv s → step s = .next t → RegisterInv t

/-- Every step keeps the invariant of the tables: the bounds of R62, a valid arena while TV = 1 (R59), the code table of
that tree while CV = 1 (R61). -/
def Obligations.StepKeepsTableInvariant : Prop :=
  ∀ s t : State, TableInv s → step s = .next t → TableInv t

/-- Both invariants hold right after reset, and after a soft reset of a state that has the first. -/
def Obligations.ResetHasBothInvariants : Prop :=
  RegisterInv State.reset ∧ TableInv State.reset ∧
    ∀ s : State, RegisterInv s → RegisterInv s.resetBlock ∧ TableInv s.resetBlock
end

