-- ==== Sys2Proof/Laws/State.lean ====
section
/-! SUPPORT. One lemma per field per update of the state, so that no later proof unfolds a record update. -/

namespace Sys2Proof.Machine

@[simp] theorem State.writeOut_params (s : State) (out : List Byte) : (s.writeOut out).params = s.params := rfl
@[simp] theorem State.writeOut_ctl (s : State) (out : List Byte) : (s.writeOut out).ctl = s.ctl := rfl
@[simp] theorem State.writeOut_opnd (s : State) (out : List Byte) : (s.writeOut out).opnd = s.opnd := rfl
@[simp] theorem State.writeOut_res (s : State) (out : List Byte) : (s.writeOut out).res = { s.res with dstLen := BitVec.ofNat 32 out.length } := rfl
@[simp] theorem State.writeOut_tbl (s : State) (out : List Byte) : (s.writeOut out).tbl = s.tbl := rfl
@[simp] theorem State.writeOut_mem (s : State) (out : List Byte) : (s.writeOut out).mem = Memory.write s.mem s.opnd.dstAddr.toNat out := rfl
@[simp] theorem State.writeOut_host (s : State) (out : List Byte) : (s.writeOut out).host = s.host := rfl
@[simp] theorem State.writeOut_draws (s : State) (out : List Byte) : (s.writeOut out).draws = s.draws := rfl

@[simp] theorem State.writeMeta_params (s : State) (mdo : List Byte) : (s.writeMeta mdo).params = s.params := rfl
@[simp] theorem State.writeMeta_ctl (s : State) (mdo : List Byte) : (s.writeMeta mdo).ctl = s.ctl := rfl
@[simp] theorem State.writeMeta_opnd (s : State) (mdo : List Byte) : (s.writeMeta mdo).opnd = s.opnd := rfl
@[simp] theorem State.writeMeta_res (s : State) (mdo : List Byte) : (s.writeMeta mdo).res = { s.res with mdaOutLen := BitVec.ofNat 32 mdo.length } := rfl
@[simp] theorem State.writeMeta_tbl (s : State) (mdo : List Byte) : (s.writeMeta mdo).tbl = s.tbl := rfl
@[simp] theorem State.writeMeta_mem (s : State) (mdo : List Byte) : (s.writeMeta mdo).mem = Memory.write s.mem s.opnd.mdaAddr.toNat mdo := rfl
@[simp] theorem State.writeMeta_host (s : State) (mdo : List Byte) : (s.writeMeta mdo).host = s.host := rfl
@[simp] theorem State.writeMeta_draws (s : State) (mdo : List Byte) : (s.writeMeta mdo).draws = s.draws := rfl

@[simp] theorem State.setPad_params (s : State) (pad : BitVec 3) : (s.setPad pad).params = s.params := rfl
@[simp] theorem State.setPad_ctl (s : State) (pad : BitVec 3) : (s.setPad pad).ctl = s.ctl := rfl
@[simp] theorem State.setPad_opnd (s : State) (pad : BitVec 3) : (s.setPad pad).opnd = s.opnd := rfl
@[simp] theorem State.setPad_res (s : State) (pad : BitVec 3) : (s.setPad pad).res = { s.res with padBits := pad } := rfl
@[simp] theorem State.setPad_tbl (s : State) (pad : BitVec 3) : (s.setPad pad).tbl = s.tbl := rfl
@[simp] theorem State.setPad_mem (s : State) (pad : BitVec 3) : (s.setPad pad).mem = s.mem := rfl
@[simp] theorem State.setPad_host (s : State) (pad : BitVec 3) : (s.setPad pad).host = s.host := rfl
@[simp] theorem State.setPad_draws (s : State) (pad : BitVec 3) : (s.setPad pad).draws = s.draws := rfl

@[simp] theorem State.setMethod_params (s : State) (m : MethodTag) : (s.setMethod m).params = s.params := rfl
@[simp] theorem State.setMethod_ctl (s : State) (m : MethodTag) : (s.setMethod m).ctl = s.ctl := rfl
@[simp] theorem State.setMethod_opnd (s : State) (m : MethodTag) : (s.setMethod m).opnd = s.opnd := rfl
@[simp] theorem State.setMethod_res (s : State) (m : MethodTag) : (s.setMethod m).res = { s.res with rleMethod := m } := rfl
@[simp] theorem State.setMethod_tbl (s : State) (m : MethodTag) : (s.setMethod m).tbl = s.tbl := rfl
@[simp] theorem State.setMethod_mem (s : State) (m : MethodTag) : (s.setMethod m).mem = s.mem := rfl
@[simp] theorem State.setMethod_host (s : State) (m : MethodTag) : (s.setMethod m).host = s.host := rfl
@[simp] theorem State.setMethod_draws (s : State) (m : MethodTag) : (s.setMethod m).draws = s.draws := rfl

@[simp] theorem State.setTables_params (s : State) (t : Tables) : (s.setTables t).params = s.params := rfl
@[simp] theorem State.setTables_ctl (s : State) (t : Tables) : (s.setTables t).ctl = s.ctl := rfl
@[simp] theorem State.setTables_opnd (s : State) (t : Tables) : (s.setTables t).opnd = s.opnd := rfl
@[simp] theorem State.setTables_res (s : State) (t : Tables) : (s.setTables t).res = s.res := rfl
@[simp] theorem State.setTables_tbl (s : State) (t : Tables) : (s.setTables t).tbl = t := rfl
@[simp] theorem State.setTables_mem (s : State) (t : Tables) : (s.setTables t).mem = s.mem := rfl
@[simp] theorem State.setTables_host (s : State) (t : Tables) : (s.setTables t).host = s.host := rfl
@[simp] theorem State.setTables_draws (s : State) (t : Tables) : (s.setTables t).draws = s.draws := rfl

@[simp] theorem State.setStats_params (s : State) (n k : Nat) : (s.setStats n k).params = s.params := rfl
@[simp] theorem State.setStats_ctl (s : State) (n k : Nat) : (s.setStats n k).ctl = s.ctl := rfl
@[simp] theorem State.setStats_opnd (s : State) (n k : Nat) : (s.setStats n k).opnd = s.opnd := rfl
@[simp] theorem State.setStats_res (s : State) (n k : Nat) : (s.setStats n k).res = { s.res with
    statOrig := BitVec.ofNat 32 n, statEnc := BitVec.ofNat 32 k, statRatio := BitVec.ofInt 32 (ratio n k) } := rfl
@[simp] theorem State.setStats_tbl (s : State) (n k : Nat) : (s.setStats n k).tbl = s.tbl := rfl
@[simp] theorem State.setStats_mem (s : State) (n k : Nat) : (s.setStats n k).mem = s.mem := rfl
@[simp] theorem State.setStats_host (s : State) (n k : Nat) : (s.setStats n k).host = s.host := rfl
@[simp] theorem State.setStats_draws (s : State) (n k : Nat) : (s.setStats n k).draws = s.draws := rfl

@[simp] theorem State.completeSuccess_params (s : State) : (s.completeSuccess).params = s.params := rfl
@[simp] theorem State.completeSuccess_ctl (s : State) : (s.completeSuccess).ctl = { s.ctl with seq := .idle, done := true, errCode := none } := rfl
@[simp] theorem State.completeSuccess_opnd (s : State) : (s.completeSuccess).opnd = s.opnd := rfl
@[simp] theorem State.completeSuccess_res (s : State) : (s.completeSuccess).res = { s.res with errPos := 0 } := rfl
@[simp] theorem State.completeSuccess_tbl (s : State) : (s.completeSuccess).tbl = s.tbl := rfl
@[simp] theorem State.completeSuccess_mem (s : State) : (s.completeSuccess).mem = s.mem := rfl
@[simp] theorem State.completeSuccess_host (s : State) : (s.completeSuccess).host = s.host := rfl
@[simp] theorem State.completeSuccess_draws (s : State) : (s.completeSuccess).draws = s.draws := rfl

@[simp] theorem State.completeError_params (s : State) (r : Raise) : (s.completeError r).params = s.params := rfl
@[simp] theorem State.completeError_ctl (s : State) (r : Raise) : (s.completeError r).ctl = { s.ctl with seq := .idle, err := true, errCode := some r.err } := rfl
@[simp] theorem State.completeError_opnd (s : State) (r : Raise) : (s.completeError r).opnd = s.opnd := rfl
@[simp] theorem State.completeError_res (s : State) (r : Raise) : (s.completeError r).res = { s.res with errPos := BitVec.ofNat 32 r.pos } := rfl
@[simp] theorem State.completeError_tbl (s : State) (r : Raise) : (s.completeError r).tbl = s.tbl := rfl
@[simp] theorem State.completeError_mem (s : State) (r : Raise) : (s.completeError r).mem = s.mem := rfl
@[simp] theorem State.completeError_host (s : State) (r : Raise) : (s.completeError r).host = s.host := rfl
@[simp] theorem State.completeError_draws (s : State) (r : Raise) : (s.completeError r).draws = s.draws := rfl

@[simp] theorem State.failEffects_params (s : State) (i : Instr) : (s.failEffects i).params = s.params := rfl
@[simp] theorem State.failEffects_ctl (s : State) (i : Instr) : (s.failEffects i).ctl = s.ctl := rfl
@[simp] theorem State.failEffects_opnd (s : State) (i : Instr) : (s.failEffects i).opnd = s.opnd := rfl
@[simp] theorem State.failEffects_res (s : State) (i : Instr) : (s.failEffects i).res = { s.res with
    dstLen := 0, mdaOutLen := if (usesOf i).mda = .output then 0 else s.res.mdaOutLen } := rfl
@[simp] theorem State.failEffects_tbl (s : State) (i : Instr) : (s.failEffects i).tbl = s.tbl.failed (tableUseOf i) s.draws := rfl
@[simp] theorem State.failEffects_mem (s : State) (i : Instr) : (s.failEffects i).mem = s.havocOutputs (usesOf i) := rfl
@[simp] theorem State.failEffects_host (s : State) (i : Instr) : (s.failEffects i).host = s.host := rfl
@[simp] theorem State.failEffects_draws (s : State) (i : Instr) : (s.failEffects i).draws = s.draws + 1 := rfl

@[simp] theorem State.writeStatus_params (s : State) (v : Word) : (s.writeStatus v).params = s.params := rfl
@[simp] theorem State.writeStatus_ctl (s : State) (v : Word) : (s.writeStatus v).ctl = { s.ctl with
    done := s.ctl.done && !v.getLsbD 1, err := s.ctl.err && !v.getLsbD 2, cmdOvf := s.ctl.cmdOvf && !v.getLsbD 3 } := rfl
@[simp] theorem State.writeStatus_opnd (s : State) (v : Word) : (s.writeStatus v).opnd = s.opnd := rfl
@[simp] theorem State.writeStatus_res (s : State) (v : Word) : (s.writeStatus v).res = s.res := rfl
@[simp] theorem State.writeStatus_tbl (s : State) (v : Word) : (s.writeStatus v).tbl = s.tbl := rfl
@[simp] theorem State.writeStatus_mem (s : State) (v : Word) : (s.writeStatus v).mem = s.mem := rfl
@[simp] theorem State.writeStatus_host (s : State) (v : Word) : (s.writeStatus v).host = s.host := rfl
@[simp] theorem State.writeStatus_draws (s : State) (v : Word) : (s.writeStatus v).draws = s.draws := rfl

@[simp] theorem State.acceptCommand_params (s : State) (w : Word) : (s.acceptCommand w).params = s.params := rfl
@[simp] theorem State.acceptCommand_ctl (s : State) (w : Word) : (s.acceptCommand w).ctl = { s.ctl with
    cmd := w, seq := .pending w, done := false, err := false, errCode := none } := rfl
@[simp] theorem State.acceptCommand_opnd (s : State) (w : Word) : (s.acceptCommand w).opnd = s.opnd := rfl
@[simp] theorem State.acceptCommand_res (s : State) (w : Word) : (s.acceptCommand w).res = { s.res with errPos := 0 } := rfl
@[simp] theorem State.acceptCommand_tbl (s : State) (w : Word) : (s.acceptCommand w).tbl = s.tbl := rfl
@[simp] theorem State.acceptCommand_mem (s : State) (w : Word) : (s.acceptCommand w).mem = s.mem := rfl
@[simp] theorem State.acceptCommand_host (s : State) (w : Word) : (s.acceptCommand w).host = s.host := rfl
@[simp] theorem State.acceptCommand_draws (s : State) (w : Word) : (s.acceptCommand w).draws = s.draws := rfl

@[simp] theorem State.passTurn_params (s : State) : (s.passTurn).params = s.params := rfl
@[simp] theorem State.passTurn_ctl (s : State) : (s.passTurn).ctl = s.ctl := rfl
@[simp] theorem State.passTurn_opnd (s : State) : (s.passTurn).opnd = s.opnd := rfl
@[simp] theorem State.passTurn_res (s : State) : (s.passTurn).res = s.res := rfl
@[simp] theorem State.passTurn_tbl (s : State) : (s.passTurn).tbl = s.tbl := rfl
@[simp] theorem State.passTurn_mem (s : State) : (s.passTurn).mem = s.mem := rfl
@[simp] theorem State.passTurn_host (s : State) : (s.passTurn).host = { s.host with turns := s.host.turns.tail } := rfl
@[simp] theorem State.passTurn_draws (s : State) : (s.passTurn).draws = s.draws := rfl

@[simp] theorem State.received_params (s : State) (x : HostRead) : (s.received x).params = s.params := rfl
@[simp] theorem State.received_ctl (s : State) (x : HostRead) : (s.received x).ctl = s.ctl := rfl
@[simp] theorem State.received_opnd (s : State) (x : HostRead) : (s.received x).opnd = s.opnd := rfl
@[simp] theorem State.received_res (s : State) (x : HostRead) : (s.received x).res = s.res := rfl
@[simp] theorem State.received_tbl (s : State) (x : HostRead) : (s.received x).tbl = s.tbl := rfl
@[simp] theorem State.received_mem (s : State) (x : HostRead) : (s.received x).mem = s.mem := rfl
@[simp] theorem State.received_host (s : State) (x : HostRead) : (s.received x).host = { s.host with seen := x :: s.host.seen } := rfl
@[simp] theorem State.received_draws (s : State) (x : HostRead) : (s.received x).draws = s.draws := rfl

@[simp] theorem State.resetBlock_ctl (s : State) : s.resetBlock.ctl = Control.reset := rfl
@[simp] theorem State.resetBlock_opnd (s : State) : s.resetBlock.opnd = Operands.reset := rfl
@[simp] theorem State.resetBlock_res (s : State) : s.resetBlock.res = Results.reset := rfl
@[simp] theorem State.resetBlock_tbl (s : State) : s.resetBlock.tbl = Tables.reset := rfl
@[simp] theorem State.resetBlock_mem (s : State) : s.resetBlock.mem = s.abortPending.mem := rfl
@[simp] theorem State.resetBlock_draws (s : State) : s.resetBlock.draws = s.abortPending.draws := rfl
@[simp] theorem State.abortPending_params (s : State) : s.abortPending.params = s.params := by
  unfold State.abortPending
  split
  · rfl
  · split <;> rfl
@[simp] theorem State.abortPending_ctl (s : State) : s.abortPending.ctl = s.ctl := by
  unfold State.abortPending
  split
  · rfl
  · split <;> rfl
@[simp] theorem State.abortPending_opnd (s : State) : s.abortPending.opnd = s.opnd := by
  unfold State.abortPending
  split
  · rfl
  · split <;> rfl
@[simp] theorem State.abortPending_res (s : State) : s.abortPending.res = s.res := by
  unfold State.abortPending
  split
  · rfl
  · split <;> rfl
@[simp] theorem State.abortPending_tbl (s : State) : s.abortPending.tbl = s.tbl := by
  unfold State.abortPending
  split
  · rfl
  · split <;> rfl
@[simp] theorem State.abortPending_host (s : State) : s.abortPending.host = s.host := by
  unfold State.abortPending
  split
  · rfl
  · split <;> rfl
@[simp] theorem State.resetBlock_params (s : State) : s.resetBlock.params = s.params := s.abortPending_params
@[simp] theorem State.resetBlock_host (s : State) : s.resetBlock.host = s.host := s.abortPending_host

@[simp] theorem State.takeError_none (s : State) (r : Raise) : s.takeError none r = s.completeError r := rfl
@[simp] theorem State.takeError_some (s : State) (i : Instr) (r : Raise) :
    s.takeError (some i) r = (s.failEffects i).completeError r := rfl

/-- BUSY is the latch (R21). -/
theorem State.busy_iff (s : State) : s.busy = true ↔ ∃ w, s.ctl.seq = .pending w := by
  unfold State.busy
  cases s.ctl.seq <;> simp

end Sys2Proof.Machine
end

