-- ==== Sys2Proof/Laws/Memory.lean ====
section
/-! SUPPORT. The laws of the buffer memory: a read after a write, and that every operation keeps the canonical form. -/

namespace Sys2Proof.Machine

/-- Addresses strictly rising, as a list fact. -/
theorem Memory.wf_iff (m : Memory) : Memory.wf m = true ↔ m.Pairwise (fun c d => c.1 < d.1) := by
  rw [← List.isChain_iff_pairwise]
  induction m with
  | nil => simp [Memory.wf]
  | cons c m ih =>
    cases m with
    | nil => simp [Memory.wf]
    | cons d m => simp [Memory.wf, ih]

theorem Memory.cellsFrom_length (a : Nat) (bs : List Byte) : (Memory.cellsFrom a bs).length = bs.length := by
  induction bs generalizing a with
  | nil => rfl
  | cons b bs ih => simp [Memory.cellsFrom, ih]

theorem Memory.mem_cellsFrom {a : Nat} {bs : List Byte} {c : Host.Cell} (h : c ∈ Memory.cellsFrom a bs) :
    a ≤ c.1 ∧ c.1 < a + bs.length := by
  induction bs generalizing a with
  | nil => simp [Memory.cellsFrom] at h
  | cons b bs ih =>
    simp only [Memory.cellsFrom, List.mem_cons] at h
    rcases h with rfl | h
    · simp
    · have := ih h
      simp only [List.length_cons]
      omega

theorem Memory.cellsFrom_rising (a : Nat) (bs : List Byte) :
    (Memory.cellsFrom a bs).Pairwise (fun c d => c.1 < d.1) := by
  induction bs generalizing a with
  | nil => simp [Memory.cellsFrom]
  | cons b bs ih =>
    simp only [Memory.cellsFrom, List.pairwise_cons]
    refine ⟨fun c hc => ?_, ih _⟩
    have := Memory.mem_cellsFrom hc
    omega

/-- A write keeps the canonical form. -/
theorem Memory.wf_write {m : Memory} (h : Memory.wf m = true) (a : Nat) (bs : List Byte) :
    Memory.wf (Memory.write m a bs) = true := by
  rw [Memory.wf_iff] at h ⊢
  unfold Memory.write
  rw [List.pairwise_append, List.pairwise_append]
  refine ⟨h.filter _, ⟨Memory.cellsFrom_rising _ _, h.filter _, ?_⟩, ?_⟩
  · intro c hc d hd
    have := Memory.mem_cellsFrom hc
    simp only [List.mem_filter, decide_eq_true_eq] at hd
    omega
  · intro c hc d hd
    simp only [List.mem_filter, decide_eq_true_eq] at hc
    rcases List.mem_append.mp hd with hd | hd
    · have := Memory.mem_cellsFrom hd
      omega
    · simp only [List.mem_filter, decide_eq_true_eq] at hd
      omega

/-- A havoc keeps the canonical form. -/
theorem Memory.wf_havoc {m : Memory} (h : Memory.wf m = true) (e a n : Nat) :
    Memory.wf (Memory.havoc m e a n) = true := Memory.wf_write h a _

/-- A cell of a written memory is an old one outside the bytes written, or one of those. -/
theorem Memory.mem_write {m : Memory} {a : Nat} {bs : List Byte} {c : Host.Cell} (h : c ∈ Memory.write m a bs) :
    c ∈ m ∨ (a ≤ c.1 ∧ c.1 < a + bs.length) := by
  unfold Memory.write at h
  simp only [List.mem_append, List.mem_filter] at h
  rcases h with h | h | h
  · exact .inl h.1
  · exact .inr (Memory.mem_cellsFrom h)
  · exact .inl h.1

theorem Memory.read_append (m k : Memory) (x : Nat) :
    Memory.read (m ++ k) x = match Memory.read m x with
      | some b => some b
      | none => Memory.read k x := by
  induction m with
  | nil => rfl
  | cons c m ih =>
    obtain ⟨y, b⟩ := c
    simp only [List.cons_append, Memory.read]
    split
    · rfl
    · exact ih

theorem Memory.read_filter (m : Memory) (p : Nat → Bool) (x : Nat) :
    Memory.read (m.filter fun c => p c.1) x = if p x then Memory.read m x else none := by
  induction m with
  | nil => simp [Memory.read, Memory.absent]
  | cons c m ih =>
    obtain ⟨y, b⟩ := c
    simp only [List.filter_cons, Memory.read]
    by_cases hy : y = x
    · subst hy
      cases hp : p y <;> simp [Memory.read, hp, ih]
    · cases hp : p y <;> simp [Memory.read, hy, ih]

theorem Memory.read_cellsFrom (a : Nat) (bs : List Byte) (x : Nat) :
    Memory.read (Memory.cellsFrom a bs) x = if a ≤ x then bs[x - a]? else none := by
  induction bs generalizing a with
  | nil => simp [Memory.cellsFrom, Memory.read, Memory.absent]
  | cons b bs ih =>
    simp only [Memory.cellsFrom, Memory.read, ih]
    by_cases hx : a = x
    · simp [hx]
    · by_cases hl : a ≤ x
      · have h1 : a + 1 ≤ x := by omega
        have h2 : x - a = (x - (a + 1)) + 1 := by omega
        simp [hx, hl, h1, h2]
      · have h1 : ¬ a + 1 ≤ x := by omega
        simp [hx, hl, h1]

/-- A read after a write: the byte written inside, the old one outside. -/
theorem Memory.read_write (m : Memory) (a : Nat) (bs : List Byte) (x : Nat) :
    Memory.read (Memory.write m a bs) x =
      if a ≤ x ∧ x < a + bs.length then bs[x - a]? else Memory.read m x := by
  unfold Memory.write
  rw [Memory.read_append, Memory.read_append, Memory.read_cellsFrom]
  rw [Memory.read_filter m (fun y => decide (y < a)), Memory.read_filter m (fun y => decide (a + bs.length ≤ y))]
  by_cases h1 : a ≤ x
  · by_cases h2 : x < a + bs.length
    · have h3 : ¬ x < a := by omega
      have h4 : x - a < bs.length := by omega
      simp [h1, h2, h3, h4]
    · have h3 : ¬ x < a := by omega
      have h4 : bs[x - a]? = none := List.getElem?_eq_none (by omega)
      have h5 : a + bs.length ≤ x := by omega
      simp [h1, h2, h3, h4, h5]
  · have h3 : x < a := by omega
    have h5 : ¬ a + bs.length ≤ x := by omega
    simp only [h1, h3, h5, decide_true, decide_false, if_true, if_false, false_and]
    cases Memory.read m x <;> simp

/-- The byte of the buffer after a write, whatever the rest of the state. -/
theorem State.byteAt_of_write (s t : State) (a : Nat) (bs : List Byte) (h : t.mem = Memory.write s.mem a bs) (x : Nat) :
    t.byteAt x = if a ≤ x ∧ x < a + bs.length then bs.getD (x - a) 0 else s.byteAt x := by
  unfold State.byteAt
  rw [h, Memory.read_write]
  by_cases hx : a ≤ x ∧ x < a + bs.length
  · have hb : bs[x - a]? = some (bs[x - a]'(by omega)) := List.getElem?_eq_getElem (by omega)
    simp [hx, hb]
  · simp [hx]

/-- The bytes a command wrote are read back. -/
theorem State.memRead_of_write (s t : State) (a : Nat) (bs : List Byte) (h : t.mem = Memory.write s.mem a bs) :
    t.memRead a bs.length = bs := by
  unfold State.memRead
  apply List.ext_getElem
  · simp
  · intro k h1 h2
    rw [List.getElem_map, List.getElem_range', State.byteAt_of_write s t a bs h]
    have : a ≤ a + 1 * k ∧ a + 1 * k < a + bs.length := by omega
    simp [h2]

@[simp] theorem State.memRead_length (s : State) (a n : Nat) : (s.memRead a n).length = n := by
  simp [State.memRead]

/-- The input string has SRC_LEN bytes (R76). -/
@[simp] theorem State.input_length (s : State) : s.input.length = s.opnd.srcLen.toNat := by
  simp [State.input]

/-- The metadata string has MDA_IN_LEN bytes (R76). -/
@[simp] theorem State.metadata_length (s : State) : s.metadata.length = s.opnd.mdaInLen.toNat := by
  simp [State.metadata]

/-- Reset memory is in canonical form. -/
theorem Memory.wf_reset : Memory.wf State.reset.mem = true := rfl

/-- The outputs of a failing command are havocked in canonical form. -/
theorem State.wf_havocOutputs {s : State} (h : Memory.wf s.mem = true) (u : Uses) :
    Memory.wf (s.havocOutputs u) = true := by
  unfold State.havocOutputs
  cases u.dst <;> cases u.mda <;>
    simp only [Bool.false_eq_true, if_false, if_true] <;>
    first | exact h | exact Memory.wf_havoc h _ _ _ | exact Memory.wf_havoc (Memory.wf_havoc h _ _ _) _ _ _

/-- The outputs of an aborted command are havocked in canonical form. -/
theorem State.wf_abortOutputs {s : State} (h : Memory.wf s.mem = true) (u : Uses) :
    Memory.wf (s.abortOutputs u) = true := by
  unfold State.abortOutputs
  cases u.dst <;> cases u.mda <;>
    simp only [Bool.false_eq_true, if_false, if_true] <;>
    first | exact h | exact Memory.wf_havoc h _ _ _ | exact Memory.wf_havoc (Memory.wf_havoc h _ _ _) _ _ _

/-- A reset keeps the canonical form. -/
theorem State.wf_resetBlock {s : State} (h : Memory.wf s.mem = true) : Memory.wf s.resetBlock.mem = true := by
  simp only [State.resetBlock_mem]
  unfold State.abortPending
  split
  · exact h
  · split
    · exact State.wf_abortOutputs h _
    · exact h

end Sys2Proof.Machine
end

