-- ==== Sys2Proof/Laws/Ops.lean ====
section
/-! SUPPORT. What each shared operation of Machine/Ops.lean can do, said once: later proofs cite these and unfold
nothing. -/

namespace Sys2Proof.Machine

/-! ### Emission -/

/-- Emitting a string: it fits and is appended, or the overflow is raised at the position given (R78). -/
theorem emitStr_eq (cap : Nat) (bs : List Byte) (pos : Nat) (out : List Byte) (h : out.length ≤ cap) :
    emitStr cap bs pos out =
      if out.length + bs.length ≤ cap then .ok (out ++ bs) else .error ⟨.dstOverflow, pos⟩ := by
  induction bs generalizing out with
  | nil => simp [emitStr, h]
  | cons b bs ih =>
    unfold emitStr emit
    by_cases hc : out.length = cap
    · have : ¬ out.length + (b :: bs).length ≤ cap := by simp only [List.length_cons]; omega
      rw [if_pos hc, if_neg this]
    · have h' : (out ++ [b]).length ≤ cap := by simp only [List.length_append, List.length_singleton]; omega
      simp only [hc, if_false]
      rw [ih _ h', show (out ++ [b]).length + bs.length = out.length + (b :: bs).length by
        simp only [List.length_append, List.length_cons, List.length_nil]; omega, List.append_assoc]
      rfl

/-- The position of the first token whose bytes do not all fit. -/
def overflowAt (cap : Nat) : List (Nat × List Byte) → Nat → Nat
  | [], _ => 0
  | (pos, bs) :: rest, used => if used + bs.length ≤ cap then overflowAt cap rest (used + bs.length) else pos

/-- Emitting tokens: they fit and are appended, or DST_OVERFLOW is raised at the first token that does not (R78). -/
theorem emitTokens_eq (cap : Nat) (ts : List (Nat × List Byte)) (out : List Byte) (h : out.length ≤ cap) :
    emitTokens cap ts out =
      if out.length + (ts.flatMap Prod.snd).length ≤ cap then .ok (out ++ ts.flatMap Prod.snd)
      else .error ⟨.dstOverflow, overflowAt cap ts out.length⟩ := by
  induction ts generalizing out with
  | nil => simp [emitTokens, h]
  | cons t ts ih =>
    obtain ⟨pos, bs⟩ := t
    simp only [emitTokens, overflowAt, emitStr_eq cap bs pos out h]
    by_cases hb : out.length + bs.length ≤ cap
    · have h' : (out ++ bs).length ≤ cap := by simpa using hb
      simp only [hb, if_true]
      rw [ih _ h']
      have e : (out ++ bs).length + (ts.flatMap Prod.snd).length =
          out.length + (((pos, bs) :: ts).flatMap Prod.snd).length := by
        simp only [List.length_append, List.flatMap_cons]; omega
      rw [e]
      simp [List.flatMap_cons]
    · have hn : ¬ out.length + (((pos, bs) :: ts).flatMap Prod.snd).length ≤ cap := by
        simp only [List.flatMap_cons, List.length_append]; omega
      rw [if_neg hb, if_neg hb, if_neg hn]

/-- Emitting metadata: it fits and is appended, or the overflow is raised at the offset of the first byte that does not
(R79). -/
theorem emitMetaStr_eq (cap : Nat) (bs mdo : List Byte) (h : mdo.length ≤ cap) :
    emitMetaStr cap bs mdo =
      if mdo.length + bs.length ≤ cap then .ok (mdo ++ bs) else .error ⟨.mdaOverflow, cap⟩ := by
  induction bs generalizing mdo with
  | nil => simp [emitMetaStr, h]
  | cons b bs ih =>
    unfold emitMetaStr emitMeta
    by_cases hc : mdo.length = cap
    · have : ¬ mdo.length + (b :: bs).length ≤ cap := by simp only [List.length_cons]; omega
      rw [if_pos hc, if_neg this, hc]
    · have h' : (mdo ++ [b]).length ≤ cap := by simp only [List.length_append, List.length_singleton]; omega
      simp only [hc, if_false]
      rw [ih _ h', show (mdo ++ [b]).length + bs.length = mdo.length + (b :: bs).length by
        simp only [List.length_append, List.length_cons, List.length_nil]; omega, List.append_assoc]
      rfl

/-- The bytes a self-referential copy appends (R240). -/
def copied (off : Nat) : Nat → List Byte → List Byte
  | 0, out => out
  | len + 1, out => copied off len (out ++ [out.getD (out.length - off) 0])

theorem copied_length (off len : Nat) (out : List Byte) : (copied off len out).length = out.length + len := by
  induction len generalizing out with
  | zero => rfl
  | succ len ih => simp only [copied, ih, List.length_append, List.length_singleton]; omega

/-- A match copy: it fits and is appended, or the overflow is raised at the position of its token (R246, R250). -/
theorem emitCopy_eq (cap off pos len : Nat) (out : List Byte) (h : out.length ≤ cap) :
    emitCopy cap off pos len out =
      if out.length + len ≤ cap then .ok (copied off len out) else .error ⟨.dstOverflow, pos⟩ := by
  induction len generalizing out with
  | zero => simp [emitCopy, copied, h]
  | succ len ih =>
    unfold emitCopy emit
    by_cases hc : out.length = cap
    · have : ¬ out.length + (len + 1) ≤ cap := by omega
      rw [if_pos hc, if_neg this]
    · have h' : (out ++ [out.getD (out.length - off) 0]).length ≤ cap := by
        simp only [List.length_append, List.length_singleton]; omega
      simp only [hc, if_false]
      rw [ih _ h', show (out ++ [out.getD (out.length - off) 0]).length + len = out.length + (len + 1) by
        simp only [List.length_append, List.length_singleton]; omega]
      rfl

/-! ### The command frame -/

/-- Everything a command can do: an error of its check phase, its result, or an error of its execution phase (R110,
R112 to R116). -/
theorem command_cases {i : Instr} {body : State → Except Raise State} {s t : State}
    (h : command i body s = .next t) :
    (∃ r, s.checkPhase i = some r ∧ t = s.completeError r) ∨
    (∃ u, s.checkPhase i = none ∧ body s = .ok u ∧ t = u.completeSuccess) ∨
    (∃ r, s.checkPhase i = none ∧ body s = .error r ∧ t = (s.failEffects i).completeError r) := by
  unfold command at h
  split at h
  · next r hc =>
    cases h
    exact .inl ⟨r, hc, rfl⟩
  · next hc =>
    split at h
    · next u hb =>
      cases h
      exact .inr (.inl ⟨u, hc, hb, rfl⟩)
    · next r hb =>
      cases h
      exact .inr (.inr ⟨r, hc, hb, rfl⟩)

/-- A command whose check phase raises. -/
theorem command_checkError {i : Instr} {s : State} {r : Raise} (body : State → Except Raise State)
    (h : s.checkPhase i = some r) : command i body s = .next (s.completeError r) := by
  simp [command, h]

/-- A command whose execution phase ends without raising. -/
theorem command_ok {i : Instr} {body : State → Except Raise State} {s u : State} (h : s.checkPhase i = none)
    (hb : body s = .ok u) : command i body s = .next u.completeSuccess := by
  simp [command, h, hb]

/-- A command whose execution phase raises. -/
theorem command_error {i : Instr} {body : State → Except Raise State} {s : State} {r : Raise}
    (h : s.checkPhase i = none) (hb : body s = .error r) :
    command i body s = .next ((s.failEffects i).completeError r) := by
  simp [command, h, hb]

/-- The check phase passes exactly when no region check fails, the needed flag is 1 and the metadata is present. -/
theorem State.checkPhase_none_iff (s : State) (i : Instr) :
    s.checkPhase i = none ↔
      s.rangeError (usesOf i) = none ∧ neededFlag s.tbl i = true ∧ metadataPresent s.opnd i = true := by
  unfold State.checkPhase
  cases s.rangeError (usesOf i) <;> cases neededFlag s.tbl i <;> cases metadataPresent s.opnd i <;> simp

/-- Every error the check phase raises is RANGE, SEQUENCE or MISSING_METADATA (R112). -/
theorem State.checkPhase_some {s : State} {i : Instr} {r : Raise} (h : s.checkPhase i = some r) :
    (∃ pos, s.rangeError (usesOf i) = some pos ∧ r = ⟨.range, pos⟩) ∨ r = ⟨.sequence, 0⟩ ∨
      r = ⟨.missingMetadata, 0⟩ := by
  unfold State.checkPhase at h
  split at h
  · next pos hp => exact .inl ⟨pos, hp, (Option.some.inj h).symm⟩
  · split at h
    · exact .inr (.inl (Option.some.inj h).symm)
    · split at h
      · exact .inr (.inr (Option.some.inj h).symm)
      · cases h

/-! ### Tables -/

@[simp] theorem tblGet_tblSet_same {α : Type} (t : Vector α 256) (s : Byte) (x : α) : tblGet (tblSet t s x) s = x := by
  simp [tblGet, tblSet]

theorem tblGet_tblSet_other {α : Type} (t : Vector α 256) {s u : Byte} (x : α) (h : s ≠ u) :
    tblGet (tblSet t s x) u = tblGet t u := by
  have : s.toNat ≠ u.toNat := fun e => h (BitVec.eq_of_toNat_eq e)
  simp [tblGet, tblSet, this]

@[simp] theorem tblGet_replicate {α : Type} (x : α) (s : Byte) : tblGet (Vector.replicate 256 x) s = x := by
  simp [tblGet]

/-- A drawn arena keeps NODE_COUNT at most 511 (R62). -/
theorem drawnArena_length (e : Nat) : (drawnArena e).nodes.length ≤ 511 := by
  simp [drawnArena, List.length_take]

/-- A drawn code has at most 255 bits (R62). -/
theorem drawnCodeTable_length (e : Nat) (s : Byte) : (tblGet (drawnCodeTable e) s).length ≤ 255 := by
  simp [tblGet, drawnCodeTable, List.length_take]

/-! ### Acceptance and reset -/

/-- A CMD write (R27): accepted, or dropped with CMD_OVF = 1. -/
theorem State.writeCmd_idle {s : State} (h : s.busy = false) (w : Word) : s.writeCmd w = s.acceptCommand w := by
  simp [State.writeCmd, h]

theorem State.writeCmd_busy {s : State} (h : s.busy = true) (w : Word) :
    s.writeCmd w = { s with ctl := { s.ctl with cmdOvf := true } } := by
  simp [State.writeCmd, h]

end Sys2Proof.Machine
end

