-- ==== Sys2Proof/Laws/Exec.lean ====
section
/-! SUPPORT. exec as the command frame around one execution phase for each command, and what an execution phase that ends
without raising can change: later proofs about every command cite these and do not split on the arms of exec. -/

namespace Sys2Proof.Machine

/-- The execution phase of each command: the body that its meaning gives the command frame. -/
def execBody : Instr → State → Except Raise State
  | .nop, t => .ok t
  | .freq, t => .ok (t.setTables { t.tbl.cleared (tableUseOf .freq) with ft := countFreq t.input, fv := true })
  | .tbuild, t => .ok (t.setTables { t.tbl.cleared (tableUseOf .tbuild) with arena := buildTree t.tbl.ft, tv := true })
  | .cgen, t => .ok (t.setTables { t.tbl.cleared (tableUseOf .cgen) with ct := deriveCodes t.tbl.arena, cv := true })
  | .henc, t =>
    match encodeOutput t.tbl.ct t.dstCap t.input with
    | .ok (out, pad) => .ok ((t.writeOut out).setPad pad)
    | .error r => .error r
  | .tser, t =>
    match serializeTree t.tbl.arena t.mdaCap with
    | .ok mdo => .ok (t.writeMeta mdo)
    | .error r => .error r
  | .tdes, t =>
    match parseTree t.metadata with
    | .ok a => .ok (t.setTables { t.tbl.cleared (tableUseOf .tdes) with arena := a, tv := true })
    | .error r => .error r
  | .hdec, t =>
    match countPayload t.tbl.arena t.dstCap t.input t.opnd.expectLen.toNat with
    | .ok out => .ok (t.writeOut out)
    | .error r => .error r
  | .hdecL, t =>
    match legacyPayload t.tbl.arena t.dstCap t.input with
    | .ok out => .ok (t.writeOut out)
    | .error r => .error r
  | .bpack, t =>
    match bpackOutput t.dstCap t.input with
    | .ok (out, pad) => .ok ((t.writeOut out).setPad pad)
    | .error r => .error r
  | .bunpack, t =>
    match emitTokens t.dstCap (bunpackTokens t.input 0) [] with
    | .ok out => .ok (t.writeOut out)
    | .error r => .error r
  | .hcomp, t =>
    match encodeOutput (deriveCodes (buildTree (countFreq t.input))) t.dstCap t.input with
    | .error r => .error r
    | .ok (out, pad) =>
      match serializeTree (buildTree (countFreq t.input)) t.mdaCap with
      | .error r => .error r
      | .ok mdo =>
        .ok (((((t.writeOut out).setPad pad).writeMeta mdo).setTables
          ⟨countFreq t.input, buildTree (countFreq t.input), deriveCodes (buildTree (countFreq t.input)), true, true,
            true⟩).setStats t.input.length out.length)
  | .hdecomp, t =>
    match parseTree t.metadata with
    | .error r => .error r
    | .ok a =>
      match countPayload a t.dstCap t.input t.opnd.expectLen.toNat with
      | .error r => .error r
      | .ok out => .ok ((t.writeOut out).setTables { t.tbl.cleared (tableUseOf .hdecomp) with arena := a, tv := true })
  | .hdecompL, t =>
    match parseTree t.metadata with
    | .error r => .error r
    | .ok a =>
      match legacyPayload a t.dstCap t.input with
      | .error r => .error r
      | .ok out => .ok ((t.writeOut out).setTables { t.tbl.cleared (tableUseOf .hdecompL) with arena := a, tv := true })
  | .rleCOpt, t =>
    match emitTokens t.dstCap (selectRle t.input).1 [] with
    | .ok out => .ok (((t.writeOut out).setMethod (selectRle t.input).2).setStats t.input.length out.length)
    | .error r => .error r
  | .rleCBin, t =>
    match emitTokens t.dstCap (binTokens t.input) [] with
    | .ok out => .ok (((t.writeOut out).setMethod .binary).setStats t.input.length out.length)
    | .error r => .error r
  | .rleCTxt, t =>
    match emitTokens t.dstCap (txtTokens t.input) [] with
    | .ok out => .ok (((t.writeOut out).setMethod .text).setStats t.input.length out.length)
    | .error r => .error r
  | .rleD, t => .ok t
  | .rleDBin, t =>
    match binDecode t.dstCap t.input 0 [] with
    | .ok out => .ok (t.writeOut out)
    | .error r => .error r
  | .rleDTxt, t =>
    match txtDecode t.dstCap t.input.length t.input 0 [] with
    | .ok out => .ok (t.writeOut out)
    | .error r => .error r
  | .lzC, t =>
    match emitTokens t.dstCap (compactTokens t.opnd.window.toNat t.opnd.lookahead.toNat t.input) [] with
    | .ok out => .ok ((t.writeOut out).setStats t.input.length out.length)
    | .error r => .error r
  | .lzD, t =>
    match compactDecode t.dstCap t.input 0 [] with
    | .ok out => .ok (t.writeOut out)
    | .error r => .error r
  | .lzbC, t =>
    match emitTokens t.dstCap (bracketTokens t.opnd.window.toNat t.opnd.lookahead.toNat t.input) [] with
    | .ok out => .ok ((t.writeOut out).setStats t.input.length out.length)
    | .error r => .error r
  | .lzbD, t =>
    match bracketDecode t.dstCap t.input.length t.input 0 [] with
    | .ok out => .ok (t.writeOut out)
    | .error r => .error r

/-- Every command is the command frame around its execution phase. -/
theorem exec_eq_command (i : Instr) (s : State) : exec i s = command i (execBody i) s := by
  cases i <;> rfl

/-- A command step answers a next state. -/
theorem exec_next (i : Instr) (s : State) : ∃ t, exec i s = .next t := by
  rw [exec_eq_command]
  unfold command
  split
  · exact ⟨_, rfl⟩
  · split <;> exact ⟨_, rfl⟩

/-- The three ways a command ends (R112 to R116): an error of the check phase, success, an error of the execution
phase. -/
theorem exec_cases {i : Instr} {s t : State} (h : exec i s = .next t) :
    (∃ r, s.checkPhase i = some r ∧ t = s.completeError r) ∨
    (∃ u, s.checkPhase i = none ∧ execBody i s = .ok u ∧ t = u.completeSuccess) ∨
    (∃ r, s.checkPhase i = none ∧ execBody i s = .error r ∧ t = (s.failEffects i).completeError r) :=
  command_cases (exec_eq_command i s ▸ h)

/-- What an execution phase leaves alone: the control registers, the operands, the parameters, the host, the draws and
ERR_POS. -/
theorem execBody_leaves {i : Instr} {s u : State} (h : execBody i s = .ok u) :
    u.ctl = s.ctl ∧ u.opnd = s.opnd ∧ u.params = s.params ∧ u.host = s.host ∧ u.draws = s.draws ∧
      u.res.errPos = s.res.errPos := by
  cases i <;> simp only [execBody] at h <;> (try split at h) <;> (try split at h) <;> cases h <;>
    exact ⟨rfl, rfl, rfl, rfl, rfl, rfl⟩

end Sys2Proof.Machine
end

