-- ==== Sys2Proof/Laws/Errors.lean ====
section
/-! SUPPORT. From what an execution phase computes to what exec answers, and from the emission operations to the terms
statements name an overflow in. -/

namespace Sys2Proof.Machine

/-- An execution phase that ends without raising completes the command (R113, R116). -/
theorem exec_of_ok {i : Instr} {s u : State} (hc : s.checkPhase i = none) (hb : execBody i s = .ok u) :
    exec i s = .next u.completeSuccess := by
  rw [exec_eq_command]
  exact command_ok hc hb

/-- An execution phase that raises ends the command with that error at that position (R288). -/
theorem raises_of_error {i : Instr} {s : State} {r : Raise} (hc : s.checkPhase i = none)
    (hb : execBody i s = .error r) : Raises s i r.err r.pos := by
  refine ⟨(s.failEffects i).completeError r, ?_, rfl, rfl, rfl⟩
  rw [exec_eq_command]
  exact command_error hc hb

/-- The position at which emitting chunks overflows is that of the first that does not fit (R78). -/
theorem misfitAt_overflowAt {cap : Nat} {chunks : List (Nat × List Byte)} (h : cap < (chunks.flatMap Prod.snd).length) :
    MisfitAt cap chunks (overflowAt cap chunks 0) := by
  have key : ∀ (rest before : List (Nat × List Byte)), (before.flatMap Prod.snd).length ≤ cap →
      cap < ((before ++ rest).flatMap Prod.snd).length →
      MisfitAt cap (before ++ rest) (overflowAt cap rest (before.flatMap Prod.snd).length) := by
    intro rest
    induction rest with
    | nil =>
      intro before hle hlt
      rw [List.append_nil] at hlt
      omega
    | cons c rest ih =>
      intro before hle hlt
      obtain ⟨pos, bs⟩ := c
      have hlen : ((before ++ [(pos, bs)]).flatMap Prod.snd).length = (before.flatMap Prod.snd).length + bs.length := by
        simp
      unfold overflowAt
      split
      · next hfit =>
        have := ih (before ++ [(pos, bs)]) (by omega) (by simpa using hlt)
        rw [hlen] at this
        simpa using this
      · next hfit => exact ⟨before, (pos, bs), rest, rfl, hle, by omega, rfl⟩
  simpa using key chunks [] (Nat.zero_le _) (by simpa using h)

/-- Emitting chunks from an empty output: all their bytes where they fit, else DST_OVERFLOW at the first chunk that does
not. -/
theorem emitTokens_cases (cap : Nat) (chunks : List (Nat × List Byte)) :
    ((chunks.flatMap Prod.snd).length ≤ cap ∧ emitTokens cap chunks [] = .ok (chunks.flatMap Prod.snd)) ∨
    (cap < (chunks.flatMap Prod.snd).length ∧
      ∃ pos, MisfitAt cap chunks pos ∧ emitTokens cap chunks [] = .error ⟨.dstOverflow, pos⟩) := by
  have e := emitTokens_eq cap chunks [] (Nat.zero_le _)
  simp only [List.length_nil, Nat.zero_add, List.nil_append] at e
  by_cases h : (chunks.flatMap Prod.snd).length ≤ cap
  · exact .inl ⟨h, by rw [e, if_pos h]⟩
  · exact .inr ⟨by omega, _, misfitAt_overflowAt (by omega), by rw [e, if_neg h]⟩

end Sys2Proof.Machine
end

