-- ==== Sys2Proof/Laws/Fuel.lean ====
section
/-! SUPPORT. The fuel of the model's recursions over strings never runs out: with the fuel a meaning gives, one more
changes nothing (notes/assumptions/8.md). -/

namespace Sys2Proof.Machine

/-- ParseNode adds a node or more, stays within the arena, and answers the index it was begun at (R158). -/
theorem parseNode_ok {md : List Byte} {fuel p i p' : Nat} {nodes nodes' : List Node}
    (hn : nodes.length ≤ maxNodes) (h : parseNode md fuel p nodes = .ok (i, p', nodes')) :
    i = nodes.length ∧ p < p' ∧ nodes.length < nodes'.length ∧ nodes'.length ≤ maxNodes := by
  induction fuel generalizing p i p' nodes nodes' with
  | zero => simp [parseNode] at h
  | succ fuel ih =>
    unfold parseNode at h
    split at h
    · cases h
    · split at h
      · cases h
      · split at h
        · cases h
        · next _ _ hmax =>
          have hlt : nodes.length < maxNodes := by omega
          split at h
          · split at h
            · cases h
            · split at h
              · cases h
              · split at h
                · cases h
                · split at h
                  · cases h
                  · cases h
                    refine ⟨rfl, by omega, ?_, ?_⟩ <;>
                      simp only [List.length_append, List.length_cons, List.length_nil] <;> omega
          · split at h
            · cases h
            · dsimp only at h
              split at h
              · cases h
              · next l p1 nodes1 h1 =>
                have e1 := ih (by simp only [List.length_append, List.length_singleton]; omega) h1
                simp only [List.length_append, List.length_singleton] at e1
                split at h
                · cases h
                · next r p2 nodes2 h2 =>
                  have e2 := ih (by omega) h2
                  cases h
                  refine ⟨rfl, by omega, ?_, ?_⟩ <;> simp only [List.length_set] <;> omega

/-- ParseNode needs no more fuel than the arena has room for nodes. -/
theorem parseNode_fuel (md : List Byte) (fuel p : Nat) (nodes : List Node) (hn : nodes.length ≤ maxNodes)
    (hf : maxNodes + 1 ≤ fuel + nodes.length) :
    parseNode md (fuel + 1) p nodes = parseNode md fuel p nodes := by
  induction fuel generalizing p nodes with
  | zero => omega
  | succ fuel ih =>
    conv_lhs => rw [parseNode]
    conv_rhs => rw [parseNode]
    dsimp only
    by_cases hmax : nodes.length = maxNodes
    · simp only [hmax, if_true]
    · have h1 : (nodes ++ [Node.internal (wordOf md (p + 1)) 0 0]).length = nodes.length + 1 := by simp
      rw [ih (p + 5) (nodes ++ [Node.internal (wordOf md (p + 1)) 0 0]) (by omega) (by omega)]
      cases hp : parseNode md fuel (p + 5) (nodes ++ [Node.internal (wordOf md (p + 1)) 0 0]) with
      | error e => rfl
      | ok v =>
        obtain ⟨l, p1, nodes1⟩ := v
        have e1 := parseNode_ok (by omega) hp
        dsimp only
        rw [ih p1 nodes1 e1.2.2.2 (by omega)]

/-- A run token leaves a string no longer than what follows its '~'. -/
theorem countRun_length {c : Nat} {sym : Byte} {rest rest' : List Byte} (h : countRun rest = some (c, sym, rest')) :
    rest'.length < rest.length := by
  unfold countRun at h
  dsimp only at h
  split at h
  · cases h
  · split at h
    · cases h
    · split at h
      · cases h
      · split at h
        · cases h
        · next hd =>
          cases h
          have := congrArg List.length hd
          simp only [List.length_drop, List.length_cons] at this
          omega

/-- TxtDecode needs no more fuel than the input has bytes. -/
theorem txtDecode_fuel (cap fuel : Nat) (rest : List Byte) (p : Nat) (out : List Byte) (h : rest.length ≤ fuel) :
    txtDecode cap (fuel + 1) rest p out = txtDecode cap fuel rest p out := by
  induction fuel generalizing rest p out with
  | zero =>
    have : rest = [] := List.length_eq_zero_iff.mp (by omega)
    subst this
    simp [txtDecode]
  | succ fuel ih =>
    cases rest with
    | nil => simp [txtDecode]
    | cons x rest =>
      have hr : rest.length ≤ fuel := by simpa using h
      conv_lhs => rw [txtDecode]
      conv_rhs => rw [txtDecode]
      split
      · split
        · exact ih _ _ _ hr
        · rfl
      · split
        · split
          · exact ih _ _ _ (by simp only [List.length_tail]; omega)
          · rfl
        · split
          · rfl
          · next c sym rest' hb =>
            have := countRun_length hb
            split
            · exact ih _ _ _ (by omega)
            · rfl

/-- A number read from a string leaves a string no longer. -/
theorem number_length {maxd maxv v : Nat} {rest rest' : List Byte} (h : number maxd maxv rest = some (v, rest')) :
    rest'.length ≤ rest.length := by
  unfold number at h
  dsimp only at h
  split at h
  · cases h
  · split at h
    · cases h
    · split at h
      · cases h
      · split at h
        · cases h
        · cases h
          simp only [List.length_drop]
          omega

/-- A bracket token leaves a string no longer than what follows its '<'. -/
theorem bracketMatch_length {off len : Nat} {rest rest' : List Byte} (h : bracketMatch rest = some (off, len, rest')) :
    rest'.length ≤ rest.length := by
  unfold bracketMatch at h
  split at h
  · cases h
  · next off1 rest1 h1 =>
    have l1 := number_length h1
    split at h
    · cases h
    · next c rest2 =>
      split at h
      · cases h
      · split at h
        · cases h
        · next len1 rest3 h3 =>
          have l3 := number_length h3
          split at h
          · cases h
          · split at h
            · cases h
            · cases h
              simp only [List.length_cons] at l1 l3
              omega

/-- BracketDecode needs no more fuel than the input has bytes. -/
theorem bracketDecode_fuel (cap fuel : Nat) (rest : List Byte) (p : Nat) (out : List Byte) (h : rest.length ≤ fuel) :
    bracketDecode cap (fuel + 1) rest p out = bracketDecode cap fuel rest p out := by
  induction fuel generalizing rest p out with
  | zero =>
    have : rest = [] := List.length_eq_zero_iff.mp (by omega)
    subst this
    simp [bracketDecode]
  | succ fuel ih =>
    cases rest with
    | nil => simp [bracketDecode]
    | cons x rest =>
      have hr : rest.length ≤ fuel := by simpa using h
      conv_lhs => rw [bracketDecode]
      conv_rhs => rw [bracketDecode]
      split
      · split
        · exact ih _ _ _ hr
        · rfl
      · split
        · split
          · exact ih _ _ _ (by simp only [List.length_tail]; omega)
          · rfl
        · split
          · rfl
          · next off len rest' hb =>
            have := bracketMatch_length hb
            split
            · rfl
            · split
              · exact ih _ _ _ (by omega)
              · rfl

/-- Tokenize needs no more fuel than there are symbols left. -/
theorem tokenizeFrom_fuel (form : LzForm) (w la : Nat) (inp : List Byte) (fuel i : Nat) (h : inp.length ≤ fuel + i) :
    tokenizeFrom form w la inp (fuel + 1) i = tokenizeFrom form w la inp fuel i := by
  induction fuel generalizing i with
  | zero =>
    have : inp[i]? = none := List.getElem?_eq_none (by omega)
    simp [tokenizeFrom, this]
  | succ fuel ih =>
    conv_lhs => rw [tokenizeFrom]
    conv_rhs => rw [tokenizeFrom]
    split
    · rfl
    · dsimp only
      split
      · next hm =>
        have hm' : 3 ≤ (longest form w la inp i).1 := hm
        rw [ih _ (by omega), ih _ (by omega)]
      · rw [ih _ (by omega)]

end Sys2Proof.Machine
end

