-- ==== Sys2Proof/Laws/Output.lean ====
section
/-! SUPPORT. Two things every proof about memory needs: no encoder or decoder gives more bytes than the capacity (R78,
R79), so that a command stores inside its region, and what a byte of the buffer reads as after a havoc (R77, R321). -/

namespace Sys2Proof.Machine

/-! ### No output is longer than its capacity -/

theorem emit_le {cap : Nat} {b : Byte} {pos : Nat} {out o : List Byte} (h : emit cap b pos out = .ok o)
    (hl : out.length ≤ cap) : o.length ≤ cap := by
  unfold emit at h
  split at h
  · cases h
  · cases h
    simp only [List.length_append, List.length_singleton]
    omega

theorem emitStr_le {cap : Nat} {bs : List Byte} {pos : Nat} {out o : List Byte} (h : emitStr cap bs pos out = .ok o)
    (hl : out.length ≤ cap) : o.length ≤ cap := by
  rw [emitStr_eq cap bs pos out hl] at h
  split at h
  · cases h
    simp only [List.length_append]
    omega
  · cases h

theorem emitTokens_le {cap : Nat} {ts : List (Nat × List Byte)} {out o : List Byte} (h : emitTokens cap ts out = .ok o)
    (hl : out.length ≤ cap) : o.length ≤ cap := by
  rw [emitTokens_eq cap ts out hl] at h
  split at h
  · cases h
    simp only [List.length_append]
    omega
  · cases h

theorem emitCopy_le {cap off pos len : Nat} {out o : List Byte} (h : emitCopy cap off pos len out = .ok o)
    (hl : out.length ≤ cap) : o.length ≤ cap := by
  rw [emitCopy_eq cap off pos len out hl] at h
  split at h
  · cases h
    rw [copied_length]
    omega
  · cases h

theorem emitMetaStr_le {cap : Nat} {bs mdo o : List Byte} (h : emitMetaStr cap bs mdo = .ok o) (hl : mdo.length ≤ cap) :
    o.length ≤ cap := by
  rw [emitMetaStr_eq cap bs mdo hl] at h
  split at h
  · cases h
    simp only [List.length_append]
    omega
  · cases h

theorem bpackLoop_le {cap : Nat} {inp : List Byte} {k : Nat} {g g' : Bits} {out o : List Byte}
    (h : bpackLoop cap inp k g out = .ok (g', o)) (hl : out.length ≤ cap) : o.length ≤ cap := by
  induction inp generalizing k g out with
  | nil => simp only [bpackLoop, Except.ok.injEq, Prod.mk.injEq] at h; rw [← h.2]; exact hl
  | cons x xs ih =>
    unfold bpackLoop at h
    split at h
    · cases h
    · simp only at h
      split at h
      · split at h
        · exact ih h (emit_le ‹_› hl)
        · cases h
      · exact ih h hl

theorem bpackOutput_le {cap : Nat} {inp out : List Byte} {pad : BitVec 3} (h : bpackOutput cap inp = .ok (out, pad)) :
    out.length ≤ cap := by
  unfold bpackOutput at h
  split at h
  · cases h
  · next hb =>
    simp only at h
    have := bpackLoop_le hb (Nat.zero_le _)
    split at h
    · cases h; exact this
    · split at h
      · cases h; exact emitStr_le ‹_› this
      · cases h

theorem encodeCode_le {cap k : Nat} {bs acc acc' : Bits} {out o : List Byte}
    (h : encodeCode cap k bs acc out = .ok (acc', o)) (hl : out.length ≤ cap) : o.length ≤ cap := by
  induction bs generalizing acc out with
  | nil => simp only [encodeCode, Except.ok.injEq, Prod.mk.injEq] at h; rw [← h.2]; exact hl
  | cons x xs ih =>
    unfold encodeCode at h
    simp only at h
    split at h
    · split at h
      · exact ih h (emit_le ‹_› hl)
      · cases h
    · exact ih h hl

theorem encodeLoop_le {ct : CodeTable} {cap : Nat} {inp : List Byte} {k : Nat} {acc acc' : Bits} {out o : List Byte}
    (h : encodeLoop ct cap inp k acc out = .ok (acc', o)) (hl : out.length ≤ cap) : o.length ≤ cap := by
  induction inp generalizing k acc out with
  | nil => simp only [encodeLoop, Except.ok.injEq, Prod.mk.injEq] at h; rw [← h.2]; exact hl
  | cons x xs ih =>
    unfold encodeLoop at h
    split at h
    · cases h
    · split at h
      · exact ih h (encodeCode_le ‹_› hl)
      · cases h

theorem encodeOutput_le {ct : CodeTable} {cap : Nat} {inp out : List Byte} {pad : BitVec 3}
    (h : encodeOutput ct cap inp = .ok (out, pad)) : out.length ≤ cap := by
  unfold encodeOutput at h
  split at h
  · cases h
  · next hb =>
    simp only at h
    have := encodeLoop_le hb (Nat.zero_le _)
    split at h
    · cases h; exact this
    · split at h
      · cases h; exact emit_le ‹_› this
      · cases h

theorem serializeNode_le {nodes : List Node} {cap fuel i : Nat} {mdo o : List Byte}
    (h : serializeNode nodes cap fuel i mdo = .ok o) (hl : mdo.length ≤ cap) : o.length ≤ cap := by
  induction fuel generalizing i mdo o with
  | zero => simp only [serializeNode, Except.ok.injEq] at h; rw [← h]; exact hl
  | succ fuel ih =>
    unfold serializeNode at h
    split at h
    · exact emitMetaStr_le h hl
    · split at h
      · split at h
        · exact ih h (ih ‹_› (emitMetaStr_le ‹_› hl))
        · cases h
      · cases h
    · cases h; exact hl

theorem serializeTree_le {a : Arena} {cap : Nat} {mdo : List Byte} (h : serializeTree a cap = .ok mdo) :
    mdo.length ≤ cap := by
  unfold serializeTree at h
  split at h
  · exact emitMetaStr_le (bs := [0x00]) (mdo := []) (by rw [emitMetaStr, h]; rfl) (Nat.zero_le _)
  · exact serializeNode_le h (Nat.zero_le _)

theorem decodeCountLoop_le {a : Arena} {inLen cap n : Nat} {bits bits' : Bits} {p p' : Nat} {out o : List Byte}
    (h : decodeCountLoop a inLen cap n bits p out = .ok (bits', p', o)) (hl : out.length ≤ cap) : o.length ≤ cap := by
  induction n generalizing bits p out with
  | zero => simp only [decodeCountLoop, Except.ok.injEq, Prod.mk.injEq] at h; rw [← h.2.2]; exact hl
  | succ n ih =>
    unfold decodeCountLoop at h
    split at h
    · cases h
    · split at h
      · cases h
      · exact ih h (emit_le ‹_› hl)

theorem countPayload_le {a : Arena} {cap : Nat} {inp : List Byte} {n : Nat} {out : List Byte}
    (h : countPayload a cap inp n = .ok out) : out.length ≤ cap := by
  unfold countPayload decodeCount at h
  split at h
  · cases h; exact Nat.zero_le _
  · split at h
    · cases h
    · split at h
      · cases h
      · split at h
        · cases h
        · cases h; exact decodeCountLoop_le ‹_› (Nat.zero_le _)

theorem decodeLegacyLoop_le {nodes : List Node} {root cap : Nat} {bits : Bits} {i p : Nat} {out o : List Byte}
    (h : decodeLegacyLoop nodes root cap bits i p out = .ok o) (hl : out.length ≤ cap) : o.length ≤ cap := by
  induction bits generalizing i p out with
  | nil => simp only [decodeLegacyLoop, Except.ok.injEq] at h; rw [← h]; exact hl
  | cons b bs ih =>
    unfold decodeLegacyLoop at h
    split at h
    · split at h
      · exact ih h (emit_le ‹_› hl)
      · cases h
    · split at h
      · simp only at h
        split at h
        · split at h
          · exact ih h (emit_le ‹_› hl)
          · cases h
        · exact ih h hl
      · cases h

theorem legacyPayload_le {a : Arena} {cap : Nat} {inp out : List Byte} (h : legacyPayload a cap inp = .ok out) :
    out.length ≤ cap := by
  unfold legacyPayload decodeLegacy at h
  split at h
  · cases h; exact Nat.zero_le _
  · split at h
    · cases h
    · exact decodeLegacyLoop_le h (Nat.zero_le _)

theorem binDecode_le {cap : Nat} (n : Nat) {inp : List Byte} (hn : inp.length ≤ n) {p : Nat} {out o : List Byte}
    (h : binDecode cap inp p out = .ok o) (hl : out.length ≤ cap) : o.length ≤ cap := by
  induction n generalizing inp p out with
  | zero =>
    rw [List.length_eq_zero_iff.mp (Nat.le_zero.mp hn)] at h
    simp only [binDecode, Except.ok.injEq] at h
    rw [← h]; exact hl
  | succ n ih =>
    unfold binDecode at h
    split at h
    · cases h; exact hl
    · cases h
    · split at h
      · cases h
      · split at h
        · exact ih (by simp only [List.length_cons] at hn; omega) h (emitStr_le ‹_› hl)
        · cases h

theorem txtDecode_le {cap fuel : Nat} {inp : List Byte} {p : Nat} {out o : List Byte}
    (h : txtDecode cap fuel inp p out = .ok o) (hl : out.length ≤ cap) : o.length ≤ cap := by
  induction fuel generalizing inp p out with
  | zero => cases inp <;> simp only [txtDecode, Except.ok.injEq, reduceCtorEq] at h; rw [← h]; exact hl
  | succ fuel ih =>
    cases inp with
    | nil => cases h; exact hl
    | cons x rest =>
      simp only [txtDecode] at h
      split at h
      · split at h
        · exact ih h (emit_le ‹_› hl)
        · cases h
      · split at h
        · split at h
          · exact ih h (emit_le ‹_› hl)
          · cases h
        · split at h
          · cases h
          · split at h
            · exact ih h (emitStr_le ‹_› hl)
            · cases h

theorem compactDecode_le {cap : Nat} (n : Nat) {inp : List Byte} (hn : inp.length ≤ n) {p : Nat} {out o : List Byte}
    (h : compactDecode cap inp p out = .ok o) (hl : out.length ≤ cap) : o.length ≤ cap := by
  induction n generalizing inp p out with
  | zero =>
    rw [List.length_eq_zero_iff.mp (Nat.le_zero.mp hn)] at h
    simp only [compactDecode, Except.ok.injEq] at h
    rw [← h]; exact hl
  | succ n ih =>
    unfold compactDecode at h
    split at h
    · cases h; exact hl
    · simp only [List.length_cons] at hn
      split at h
      · split at h
        · split at h
          · exact ih (by simp only [List.length_cons] at hn; omega) h (emit_le ‹_› hl)
          · cases h
        · cases h
      · split at h
        · split at h
          · simp only at h
            split at h
            · cases h
            · split at h
              · cases h
              · split at h
                · cases h
                · split at h
                  · split at h
                    · exact ih (by simp only [List.length_cons] at hn; omega) h (emit_le ‹_› (emitCopy_le ‹_› hl))
                    · cases h
                  · exact ih (by simp only [List.length_cons] at hn; omega) h (emitCopy_le ‹_› hl)
          · cases h
        · cases h

theorem bracketDecode_le {cap fuel : Nat} {inp : List Byte} {p : Nat} {out o : List Byte}
    (h : bracketDecode cap fuel inp p out = .ok o) (hl : out.length ≤ cap) : o.length ≤ cap := by
  induction fuel generalizing inp p out with
  | zero => cases inp <;> simp only [bracketDecode, Except.ok.injEq, reduceCtorEq] at h; rw [← h]; exact hl
  | succ fuel ih =>
    cases inp with
    | nil => cases h; exact hl
    | cons x rest =>
      simp only [bracketDecode] at h
      split at h
      · split at h
        · exact ih h (emit_le ‹_› hl)
        · cases h
      · split at h
        · split at h
          · exact ih h (emit_le ‹_› hl)
          · cases h
        · split at h
          · cases h
          · split at h
            · cases h
            · split at h
              · exact ih h (emitCopy_le ‹_› hl)
              · cases h

/-! ### What a successful execution phase stores -/

/-- The memory, the two lengths and how they bound each other after an execution phase that ends without raising: an
output at DST_ADDR where the command uses DST, a metadata output at MDA_ADDR where it uses MDO, neither longer than its
capacity (R77). -/
theorem execBody_stores {i : Instr} {s u : State} (h : execBody i s = .ok u) (hd : i ≠ .rleD) :
    ∃ out mdo : List Byte, out.length ≤ s.dstCap ∧ mdo.length ≤ s.mdaCap ∧
      ((usesOf i).dst = false → out = []) ∧ ((usesOf i).mda ≠ .output → mdo = []) ∧
      u.mem = (let m := if (usesOf i).dst then Memory.write s.mem s.opnd.dstAddr.toNat out else s.mem
        if (usesOf i).mda = .output then Memory.write m s.opnd.mdaAddr.toNat mdo else m) ∧
      u.res.dstLen = (if (usesOf i).dst then BitVec.ofNat 32 out.length else s.res.dstLen) ∧
      u.res.mdaOutLen = (if (usesOf i).mda = .output then BitVec.ofNat 32 mdo.length else s.res.mdaOutLen) := by
  cases i <;> simp only [execBody] at h
  case rleD => exact absurd rfl hd
  case nop => cases h; exact ⟨[], [], by simp [usesOf]⟩
  case freq => cases h; exact ⟨[], [], by simp [usesOf, State.setTables]⟩
  case tbuild => cases h; exact ⟨[], [], by simp [usesOf, State.setTables]⟩
  case cgen => cases h; exact ⟨[], [], by simp [usesOf, State.setTables]⟩
  case tdes =>
    split at h
    · cases h; exact ⟨[], [], by simp [usesOf, State.setTables]⟩
    · cases h
  case tser =>
    split at h
    · next mdo hm =>
      cases h
      exact ⟨[], mdo, by simp, serializeTree_le hm, by simp [usesOf, State.writeMeta]⟩
    · cases h
  case hcomp =>
    split at h
    · cases h
    · next out pad ho =>
      split at h
      · cases h
      · next mdo hm =>
        cases h
        exact ⟨out, mdo, encodeOutput_le ho, serializeTree_le hm,
          by simp [usesOf, State.writeOut, State.writeMeta, State.setPad, State.setTables, State.setStats]⟩
  case henc =>
    split at h
    · next out pad ho =>
      cases h
      exact ⟨out, [], encodeOutput_le ho, by simp, by simp [usesOf, State.writeOut, State.setPad]⟩
    · cases h
  case bpack =>
    split at h
    · next out pad ho =>
      cases h
      exact ⟨out, [], bpackOutput_le ho, by simp, by simp [usesOf, State.writeOut, State.setPad]⟩
    · cases h
  case hdecomp =>
    split at h
    · cases h
    · split at h
      · cases h
      · next out ho =>
        cases h
        exact ⟨out, [], countPayload_le ho, by simp, by simp [usesOf, State.writeOut, State.setTables]⟩
  case hdecompL =>
    split at h
    · cases h
    · split at h
      · cases h
      · next out ho =>
        cases h
        exact ⟨out, [], legacyPayload_le ho, by simp, by simp [usesOf, State.writeOut, State.setTables]⟩
  all_goals
    split at h
    · next out ho =>
      cases h
      refine ⟨out, [], ?_, by simp, by simp [usesOf, State.writeOut, State.setMethod, State.setStats]⟩
      first
        | exact countPayload_le ho
        | exact legacyPayload_le ho
        | exact emitTokens_le ho (Nat.zero_le _)
        | exact binDecode_le _ (Nat.le_refl _) ho (Nat.zero_le _)
        | exact txtDecode_le ho (Nat.zero_le _)
        | exact compactDecode_le _ (Nat.le_refl _) ho (Nat.zero_le _)
        | exact bracketDecode_le ho (Nat.zero_le _)
    · cases h

/-! ### Havoc -/

/-- A byte after a havoc: the free byte of its event inside, the old one outside. -/
theorem State.byteAt_of_havoc (s t : State) (e a n : Nat) (h : t.mem = Memory.havoc s.mem e a n) (x : Nat) :
    t.byteAt x = if a ≤ x ∧ x < a + n then Config.freeByte e x else s.byteAt x := by
  rw [State.byteAt_of_write s t a _ h]
  simp only [List.length_map, List.length_range']
  split
  · next hx =>
    have hk : x - a < ((List.range' a n).map (Config.freeByte e)).length := by simp; omega
    have hax : a + (x - a) = x := by omega
    rw [List.getD_eq_getElem?_getD, List.getElem?_eq_getElem hk]
    simp [hax]
  · rfl

/-- A byte after a havoc of up to two ranges in one event. -/
theorem State.byteAt_of_havoc_two (s t : State) (e a n b k : Nat) (da db : Bool)
    (h : t.mem = (let m := if da then Memory.havoc s.mem e a n else s.mem; if db then Memory.havoc m e b k else m))
    (x : Nat) :
    t.byteAt x =
      if (da = true ∧ a ≤ x ∧ x < a + n) ∨ (db = true ∧ b ≤ x ∧ x < b + k) then Config.freeByte e x else s.byteAt x := by
  have key : ∀ u : State, u.mem = (if da then Memory.havoc s.mem e a n else s.mem) →
      u.byteAt x = if da = true ∧ a ≤ x ∧ x < a + n then Config.freeByte e x else s.byteAt x := by
    intro u hu
    cases da
    · have hu' : u.mem = s.mem := by simpa using hu
      simp only [State.byteAt, hu', Bool.false_eq_true, false_and, if_false]
    · have hu' : u.mem = Memory.havoc s.mem e a n := by simpa using hu
      rw [State.byteAt_of_havoc s u e a n hu' x]
      simp
  cases db
  · have ht : t.mem = (if da then Memory.havoc s.mem e a n else s.mem) := by simpa using h
    rw [key t ht]
    simp
  · have ht : t.mem = Memory.havoc (if da then Memory.havoc s.mem e a n else s.mem) e b k := by simpa using h
    let u : State := { s with mem := if da then Memory.havoc s.mem e a n else s.mem }
    rw [State.byteAt_of_havoc u t e b k ht x, key u rfl]
    by_cases h1 : b ≤ x ∧ x < b + k
    · simp [h1]
    · by_cases h2 : da = true ∧ a ≤ x ∧ x < a + n <;> simp [h1, h2]

end Sys2Proof.Machine
end

