-- ==== Sys2Proof/Laws/PerInstr.lean ====
section
/-! SUPPORT. One law for each command as syntax: the fields it is written with pass every check of R90 to R93, and the
word joined from them splits into them again. -/

namespace Sys2Proof.Laws.WellFormedFields

/-- The fields of the command are legal (R95) and stand in its word where R90 puts them. -/
def Statement (i : Instr) : Prop := i.fields.legal = true ∧ splitWord (joinFields i.fields) = i.fields

theorem nop : Statement .nop := by unfold Statement; decide
theorem freq : Statement .freq := by unfold Statement; decide
theorem tbuild : Statement .tbuild := by unfold Statement; decide
theorem cgen : Statement .cgen := by unfold Statement; decide
theorem henc : Statement .henc := by unfold Statement; decide
theorem tser : Statement .tser := by unfold Statement; decide
theorem tdes : Statement .tdes := by unfold Statement; decide
theorem hdec : Statement .hdec := by unfold Statement; decide
theorem hdecL : Statement .hdecL := by unfold Statement; decide
theorem bpack : Statement .bpack := by unfold Statement; decide
theorem bunpack : Statement .bunpack := by unfold Statement; decide
theorem hcomp : Statement .hcomp := by unfold Statement; decide
theorem hdecomp : Statement .hdecomp := by unfold Statement; decide
theorem hdecompL : Statement .hdecompL := by unfold Statement; decide
theorem rleCOpt : Statement .rleCOpt := by unfold Statement; decide
theorem rleCBin : Statement .rleCBin := by unfold Statement; decide
theorem rleCTxt : Statement .rleCTxt := by unfold Statement; decide
theorem rleD : Statement .rleD := by unfold Statement; decide
theorem rleDBin : Statement .rleDBin := by unfold Statement; decide
theorem rleDTxt : Statement .rleDTxt := by unfold Statement; decide
theorem lzC : Statement .lzC := by unfold Statement; decide
theorem lzD : Statement .lzD := by unfold Statement; decide
theorem lzbC : Statement .lzbC := by unfold Statement; decide
theorem lzbD : Statement .lzbD := by unfold Statement; decide

end Sys2Proof.Laws.WellFormedFields
end

