-- ==== Sys2Proof/Tests/Slice0.lean ====
section
/-! SUPPORT. The model's own tests. Expected values are those of spec/95_test_vectors.md (the row is named) or of the
example of the rule named; the last part shows, for every statement with hypotheses, a state and operands that meet
them. -/

namespace Sys2Proof.Tests

/- One theorem after the other: their kernel evaluations would else wait for one another in a thread each. -/
set_option Elab.async false

open Sys2Proof Sys2Proof.Machine

/-! ## Small states -/

/-- A reset block with an input at 0x0000, DST at 0x1000 and the metadata area at 0x2000, as spec/95 sets them up. -/
def placed (inp : List Byte) (cap : Nat) : State :=
  { State.reset with
    opnd := { Operands.reset with
      srcLen := BitVec.ofNat 32 inp.length
      dstAddr := 0x1000
      dstCap := BitVec.ofNat 32 cap
      mdaAddr := 0x2000
      mdaCap := 3323 }
    mem := Memory.cellsFrom 0 inp }

/-- The same with a metadata input. -/
def withMeta (md : List Byte) (s : State) : State :=
  { s with
    opnd := { s.opnd with mdaInLen := BitVec.ofNat 32 md.length }
    mem := s.mem ++ Memory.cellsFrom 0x2000 md }

/-- The same with EXPECT_LEN. -/
def withExpect (n : Nat) (s : State) : State := { s with opnd := { s.opnd with expectLen := BitVec.ofNat 32 n } }

/-- The same with a tree loaded. -/
def withTree (a : Arena) (s : State) : State := { s with tbl := { s.tbl with arena := a, tv := true } }

/-- The same with the code table of that tree. -/
def withCodes (a : Arena) (s : State) : State :=
  { s with tbl := { s.tbl with arena := a, tv := true, ct := deriveCodes a, cv := true } }

/-- The same with a word pending. -/
def pendingWord (w : Word) (s : State) : State := s.acceptCommand w

/-- The output bytes a command reports. -/
def output (t : State) : List Byte := t.memRead t.opnd.dstAddr.toNat t.res.dstLen.toNat

/-- The metadata bytes a command reports. -/
def metaOutput (t : State) : List Byte := t.memRead t.opnd.mdaAddr.toNat t.res.mdaOutLen.toNat

/-- The outcome is a next state of which p holds. -/
def nextHas (o : Host.Outcome State Fault Refusal) (p : State → Bool) : Bool :=
  match o with
  | .next t => p t
  | .fault _ => false
  | .refused _ => false

theorem nextHas_elim {o : Host.Outcome State Fault Refusal} {p : State → Bool} (h : nextHas o p = true) :
    ∃ t, o = .next t ∧ p t = true := by
  cases o with
  | next t => exact ⟨t, rfl, h⟩
  | fault f => cases h
  | refused r => cases h

/-- The outcome is an error with this code and position. -/
def failsWith (o : Host.Outcome State Fault Refusal) (code : BitVec 8) (pos : Word) : Bool :=
  nextHas o fun t => t.errCodeBits == code && t.res.errPos == pos && t.ctl.err && !t.ctl.done && !t.busy

/-- The outcome is DONE with this output. -/
def yields (o : Host.Outcome State Fault Refusal) (out : List Byte) : Bool :=
  nextHas o fun t => t.ctl.done && !t.ctl.err && t.errCodeBits == 0 && output t == out

/-- "abracadabra" -/
def inputA : List Byte := [0x61, 0x62, 0x72, 0x61, 0x63, 0x61, 0x64, 0x61, 0x62, 0x72, 0x61]

/-- T_A of spec/95, the serialized tree of "abracadabra". -/
def treeA : List Byte :=
  [0x02, 0, 0, 0, 0x0B, 0x01, 0x61, 0, 0, 0, 5, 0, 0, 0x02, 0, 0, 0, 6, 0x02, 0, 0, 0, 2,
    0x01, 0x63, 0, 0, 0, 1, 0, 0, 0x01, 0x64, 0, 0, 0, 1, 0, 0, 0x02, 0, 0, 0, 4,
    0x01, 0x62, 0, 0, 0, 2, 0, 0, 0x01, 0x72, 0, 0, 0, 2, 0, 0]

/-- The arena after H2. -/
def arenaA : Arena :=
  ⟨[.leaf 0x61 5, .leaf 0x62 2, .leaf 0x63 1, .leaf 0x64 1, .leaf 0x72 2, .internal 2 2 3, .internal 4 1 4,
    .internal 6 5 6, .internal 11 0 7], some 8⟩

/-- The arena after H6. -/
def preorderA : Arena :=
  ⟨[.internal 11 1 2, .leaf 0x61 5, .internal 6 3 6, .internal 2 4 5, .leaf 0x63 1, .leaf 0x64 1, .internal 4 7 8,
    .leaf 0x62 2, .leaf 0x72 2], some 0⟩

/-! ## WellFormed refuses each ill-formed term -/

theorem test_wf_refuses_reserved_bit : CmdFields.reservedClear ⟨0x01, 0, false, 1⟩ = false ∧
    CmdFields.legal ⟨0x01, 0, false, 1⟩ = false := by decide
theorem test_wf_refuses_unknown_op : CmdFields.opKnown ⟨0x17, 0, false, 0⟩ = false ∧
    CmdFields.legal ⟨0x17, 0, false, 0⟩ = false := by decide
theorem test_wf_refuses_stray_legacy_bit : CmdFields.legacyFits ⟨0x13, 0, true, 0⟩ = false ∧
    CmdFields.legal ⟨0x13, 0, true, 0⟩ = false := by decide
theorem test_wf_refuses_stray_method : CmdFields.methodFits ⟨0x30, 1, false, 0⟩ = false ∧
    CmdFields.legal ⟨0x30, 1, false, 0⟩ = false := by decide
theorem test_wf_refuses_method_three : CmdFields.methodNotThree ⟨0x20, 3, false, 0⟩ = false ∧
    CmdFields.legal ⟨0x20, 3, false, 0⟩ = false := by decide

/-! ## Decoding, each word written out from R90 to R93: reserved(21) L(1) M(2) OP(8) -/

theorem test_decode_control : decode 0b00000000000000000000000000000001 = .ok .nop :=
  rfl
theorem test_decode_huffman_stages :
    decode 0b00000000000000000000000000010000 = .ok .freq ∧ decode 0b00000000000000000000000000010001 = .ok .tbuild ∧
    decode 0b00000000000000000000000000010010 = .ok .cgen ∧ decode 0b00000000000000000000000000010011 = .ok .henc ∧
    decode 0b00000000000000000000000000010100 = .ok .tser ∧ decode 0b00000000000000000000000000010101 = .ok .tdes ∧
    decode 0b00000000000000000000000000010110 = .ok .hdec ∧ decode 0b00000000000000000000010000010110 = .ok .hdecL :=
  ⟨rfl, rfl, rfl, rfl, rfl, rfl, rfl, rfl⟩
theorem test_decode_bitpacker :
    decode 0b00000000000000000000000000011000 = .ok .bpack ∧
    decode 0b00000000000000000000000000011001 = .ok .bunpack :=
  ⟨rfl, rfl⟩
theorem test_decode_huffman_composites :
    decode 0b00000000000000000000000000011100 = .ok .hcomp ∧ decode 0b00000000000000000000000000011101 = .ok .hdecomp ∧
    decode 0b00000000000000000000010000011101 = .ok .hdecompL :=
  ⟨rfl, rfl, rfl⟩
theorem test_decode_rle :
    decode 0b00000000000000000000000000100000 = .ok .rleCOpt ∧ decode 0b00000000000000000000000100100000 = .ok .rleCBin ∧
    decode 0b00000000000000000000001000100000 = .ok .rleCTxt ∧ decode 0b00000000000000000000000000100001 = .ok .rleD ∧
    decode 0b00000000000000000000000100100001 = .ok .rleDBin ∧
    decode 0b00000000000000000000001000100001 = .ok .rleDTxt :=
  ⟨rfl, rfl, rfl, rfl, rfl, rfl⟩
theorem test_decode_lz77 :
    decode 0b00000000000000000000000000110000 = .ok .lzC ∧ decode 0b00000000000000000000000000110001 = .ok .lzD ∧
    decode 0b00000000000000000000000000110010 = .ok .lzbC ∧
    decode 0b00000000000000000000000000110011 = .ok .lzbD :=
  ⟨rfl, rfl, rfl, rfl⟩
/-- E2, E4 to E11. -/
theorem test_decode_illegal :
    decode 0x00000000 = .error .unknownOp ∧ decode 0x00000417 = .error .unknownOp ∧
    decode 0x00000413 = .error .strayLegacyBit ∧ decode 0x00000420 = .error .strayLegacyBit ∧
    decode 0x00000320 = .error .methodThree ∧ decode 0x00000321 = .error .methodThree ∧
    decode 0x00000130 = .error .strayMethod ∧ decode 0x80000001 = .error .reservedBit ∧
    decode 0x00000801 = .error .reservedBit :=
  ⟨rfl, rfl, rfl, rfl, rfl, rfl, rfl, rfl, rfl⟩
theorem test_decode_table_word : decodeTableWord 32 0x41D = some .hdecompL ∧ decodeTableWord 32 0x320 = none := by decide

/-! ## One step -/

/-- C1. -/
theorem test_nop : nextHas (step (State.reset.withFetchWord 32 0x1)) (fun t =>
    t.regValue .status == 0x2 && t.regValue .cmd == 0x1) = true := by decide +kernel
/-- E2. -/
theorem test_illegal_word : nextHas (step (State.reset.withFetchWord 32 0)) (fun t =>
    t.regValue .status == 0x104 && t.regValue .errPos == 0) = true := by decide +kernel
/-- C2, C3. -/
theorem test_status_write_clears : nextHas (step (State.reset.withFetchWord 32 0)) (fun t =>
    (t.hostWritesReg .status 0x4).regValue .status == 0x100) = true := by decide +kernel
/-- E13, E14. -/
theorem test_legality_before_regions :
    failsWith (exec .hcomp { State.reset with opnd := { Operands.reset with srcAddr := 0xFFFFFFF0, srcLen := 0x100 } }) 2 1
      = true := by decide +kernel
/-- C6 to C14. -/
theorem test_ratio : ratio 3 1 = 6667 ∧ ratio 3 2 = 3333 ∧ ratio 1 3 = -20000 ∧ ratio 8 9 = -1250 ∧ ratio 200 201 = -50 ∧
    ratio 20000 19999 = 1 ∧ ratio 20000 20001 = -1 ∧ ratio 11 3 = 7273 ∧ ratio 0 0 = 0 := by decide
/-- B1. -/
theorem test_bpack : nextHas (exec .bpack (placed [0x30, 0x31, 0x31, 0x30, 0x31, 0x30, 0x30, 0x30, 0x30, 0x31] 0x400))
    (fun t => output t == [0x68, 0x40] && t.regValue .padBits == 6) = true := by decide +kernel
/-- B5, B6. -/
theorem test_bpack_errors : failsWith (exec .bpack (placed [0x30, 0x31, 0x32] 0x400)) 5 2 = true ∧
    failsWith (exec .bpack (placed [0x30, 0x31, 0x31, 0x30, 0x31, 0x30, 0x30, 0x30, 0x30, 0x31] 1)) 7 8 = true := by
  decide +kernel
/-- B8. -/
theorem test_bunpack : yields (exec .bunpack (placed [0xA5] 8)) [0x31, 0x30, 0x31, 0x30, 0x30, 0x31, 0x30, 0x31] = true := by
  decide +kernel
/-- B9. -/
theorem test_bunpack_overflow : failsWith (exec .bunpack (placed [0x68, 0x40] 15)) 7 1 = true := by decide +kernel
/-- H1. -/
theorem test_freq : nextHas (exec .freq (placed inputA 0)) (fun t =>
    t.regValue (.freq 0x61) == 5 && t.regValue (.freq 0x62) == 2 && t.regValue (.freq 0x72) == 2 &&
    t.regValue .numSyms == 5 && t.regValue .tblState == 1) = true := by decide +kernel
/-- H2. -/
theorem test_tbuild : nextHas (exec .tbuild { placed [] 0 with tbl := { Tables.reset with ft := countFreq inputA, fv := true } })
    (fun t => t.tbl.arena == arenaA && t.regValue .treeRoot == 8 && t.regValue .tblState == 3) = true := by decide +kernel
/-- H3. -/
theorem test_cgen : nextHas (exec .cgen (withTree arenaA (placed [] 0))) (fun t =>
    tblGet t.tbl.ct 0x61 == [false] && tblGet t.tbl.ct 0x63 == [true, false, false] &&
    tblGet t.tbl.ct 0x62 == [true, true, false] && tblGet t.tbl.ct 0x7A == [] &&
    (t.hostWritesReg .codeSel 0x62).regValue (.codeW 0) == 0xC0000000) = true := by decide +kernel
/-- H4. -/
theorem test_henc : nextHas (exec .henc (withCodes arenaA (placed inputA 3))) (fun t =>
    output t == [0x6E, 0x8A, 0xDC] && t.regValue .padBits == 1) = true := by decide +kernel
/-- HE3, with the codes of "abracadabra": 'z' has none. -/
theorem test_henc_no_code : failsWith (exec .henc (withCodes arenaA (placed [0x61, 0x62, 0x7A] 3))) 9 2 = true := by
  decide +kernel
/-- H5. -/
theorem test_tser : nextHas (exec .tser (withTree arenaA (placed [] 0))) (fun t =>
    metaOutput t == treeA && t.regValue .mdaOutLen == 60) = true := by decide +kernel
/-- H6. -/
theorem test_tdes : nextHas (exec .tdes (withMeta treeA (placed [] 0))) (fun t =>
    t.tbl.arena == preorderA && t.regValue .treeRoot == 0 && t.regValue .tblState == 2) = true := by decide +kernel
/-- R158: a symbol that stands twice is found at its second place. -/
theorem test_tdes_duplicate :
    failsWith (exec .tdes (withMeta [0x02, 0, 0, 0, 2, 0x01, 0x61, 0, 0, 0, 1, 0, 0, 0x01, 0x61, 0, 0, 0, 1, 0, 0]
      (placed [] 0))) 6 14 = true := by decide +kernel
/-- H7. -/
theorem test_hdec : yields (exec .hdec (withExpect 11 (withTree preorderA (placed [0x6E, 0x8A, 0xDC] 11)))) inputA = true := by
  decide +kernel
/-- H11. -/
theorem test_hdec_unused_byte : failsWith (exec .hdec (withExpect 0 (withTree preorderA (placed [0x6E, 0x8A, 0xDC] 11)))) 5 0
    = true := by decide +kernel
/-- H8. -/
theorem test_hdec_legacy : yields (exec .hdecL (withTree preorderA (placed [0x6E, 0x8A, 0xDC] 12))) (inputA ++ [0x61]) = true := by
  decide +kernel
/-- H12. -/
theorem test_hcomp : nextHas (exec .hcomp (placed inputA 3)) (fun t =>
    output t == [0x6E, 0x8A, 0xDC] && metaOutput t == treeA && t.regValue .padBits == 1 && t.regValue .statOrig == 11 &&
    t.regValue .statEnc == 3 && t.regValue .statRatio == 7273 && t.regValue .tblState == 7) = true := by decide +kernel
/-- HE5. -/
theorem test_hcomp_overflow : failsWith (exec .hcomp (placed inputA 1)) 7 7 = true := by decide +kernel
/-- H13. -/
theorem test_hdecomp : nextHas (exec .hdecomp (withExpect 11 (withMeta treeA (placed [0x6E, 0x8A, 0xDC] 11)))) (fun t =>
    output t == inputA && t.regValue .tblState == 2 && t.regValue .treeRoot == 0) = true := by decide +kernel
/-- H20. -/
theorem test_hdecomp_legacy : yields (exec .hdecompL (withMeta [0x01, 0x61, 0, 0, 0, 4, 0, 0] (placed [0x00] 8)))
    (List.replicate 8 0x61) = true := by decide +kernel
/-- S6. -/
theorem test_rle_optimal : nextHas (exec .rleCOpt (placed [0x61, 0x61, 0x61, 0x61] 2)) (fun t =>
    output t == [0x61, 4] && t.regValue .rleMethod == 1 && t.regValue .statRatio == 5000) = true := by decide +kernel
/-- The example of R203. -/
theorem test_rle_binary : yields (exec .rleCBin (placed [0x61, 0x61, 0x61, 0x62, 0x63, 0x63] 6))
    [0x61, 3, 0x62, 1, 0x63, 2] = true := by decide +kernel
/-- S11. -/
theorem test_rle_text : nextHas (exec .rleCTxt (placed [0x61, 0x61, 0x61, 0x61, 0x62, 0x7E] 6)) (fun t =>
    output t == [0x7E, 0x34, 0x61, 0x62, 0x7E, 0x7E] && t.regValue .rleMethod == 2) = true := by decide +kernel
/-- The corner case of R207: a run of '0' stays literal. -/
theorem test_rle_text_digits : yields (exec .rleCTxt (placed [0x30, 0x30, 0x30, 0x30] 4)) [0x30, 0x30, 0x30, 0x30] = true := by
  decide +kernel
/-- The example of R214. -/
theorem test_rle_no_tag : failsWith (step (State.reset.withFetchWord 32 0x21)) 4 0 = true := by decide +kernel
/-- The example of R211. -/
theorem test_rle_decode_binary : yields (exec .rleDBin (placed [0x61, 4] 4)) [0x61, 0x61, 0x61, 0x61] = true := by decide +kernel
/-- R210: count 0 at its pair, an odd length at the last byte. -/
theorem test_rle_decode_binary_errors : failsWith (exec .rleDBin (placed [0x61, 1, 0x62, 0] 4)) 5 2 = true ∧
    failsWith (exec .rleDBin (placed [0x61, 1, 0x62] 4)) 5 2 = true := by decide +kernel
/-- The example of R213. -/
theorem test_rle_decode_text : yields (exec .rleDTxt (placed [0x7E, 0x34, 0x61, 0x62, 0x7E, 0x7E] 6))
    [0x61, 0x61, 0x61, 0x61, 0x62, 0x7E] = true := by decide +kernel
/-- R213: "~0a" and a fourth digit. -/
theorem test_rle_decode_text_errors : failsWith (exec .rleDTxt (placed [0x62, 0x7E, 0x30, 0x61] 6)) 5 1 = true ∧
    failsWith (exec .rleDTxt (placed [0x7E, 0x31, 0x31, 0x31, 0x31, 0x61] 6)) 5 0 = true := by decide +kernel
/-- S4. -/
theorem test_lz_compact : nextHas (exec .lzC (placed [0x41, 0x42, 0x43, 0x41, 0x42, 0x43, 0x41, 0x42, 0x43] 10)) (fun t =>
    output t == [0x00, 0x41, 0x00, 0x42, 0x00, 0x43, 0x02, 0x00, 0x36, 0x00] &&
    t.res.statRatio.toInt == -1111) = true := by decide +kernel
/-- S4. -/
theorem test_lz_bracket : yields (exec .lzbC (placed [0x41, 0x42, 0x43, 0x41, 0x42, 0x43, 0x41, 0x42, 0x43] 8))
    [0x41, 0x42, 0x43, 0x3C, 0x33, 0x2C, 0x36, 0x3E] = true := by decide +kernel
/-- The example of R247. -/
theorem test_lz_decode_compact : yields (exec .lzD (placed [0x00, 0x61, 0x02, 0x00, 0x19, 0x00] 10))
    (List.replicate 10 0x61) = true := by decide +kernel
/-- R246: a flag-2 token whose fourth byte is not 0. -/
theorem test_lz_decode_compact_error : failsWith (exec .lzD (placed [0x00, 0x61, 0x02, 0x00, 0x19, 0x01] 10)) 5 2 = true := by
  decide +kernel
/-- S4. -/
theorem test_lz_decode_bracket : yields (exec .lzbD (placed [0x41, 0x42, 0x43, 0x3C, 0x33, 0x2C, 0x36, 0x3E] 9))
    [0x41, 0x42, 0x43, 0x41, 0x42, 0x43, 0x41, 0x42, 0x43] = true := by decide +kernel
/-- R250: an offset beyond the output. -/
theorem test_lz_decode_bracket_error : failsWith (exec .lzbD (placed [0x41, 0x3C, 0x32, 0x2C, 0x33, 0x3E] 9)) 5 1 = true := by
  decide +kernel
/-- R98: a host program runs a command and reads its result. -/
theorem test_host_program :
    let s := { State.reset with host := ⟨[opW State.reset.params .srcLen 1] ++ opRun State.reset.params .nop ++
      [opR State.reset.params .srcLen], [], []⟩ }
    ((after 5 s).map fun t => (t.host.seen, t.busy)) = some ([.reg 0x14 1, .reg 0x8 2], false) := by decide +kernel

/-! ## The hypotheses of the statements are met

One theorem for each statement with hypotheses, named after it; a statement with several clauses gets a witness for each,
at the boundary of its range. -/

/-- The pending states the witnesses use: a NOP, an illegal word, an RLE_C.BIN over 4 bytes. -/
def pendingNop : State := pendingWord 0x1 State.reset
def pendingIllegal : State := pendingWord 0 State.reset
def pendingRle : State := pendingWord 0x120 (placed [0x61, 0x61, 0x61, 0x61] 8)

/-- Operand registers with given regions. -/
def regions (a m b n c k : Nat) : State :=
  { State.reset with opnd := { Operands.reset with
      srcAddr := BitVec.ofNat 32 a
      srcLen := BitVec.ofNat 32 m
      dstAddr := BitVec.ofNat 32 b
      dstCap := BitVec.ofNat 32 n
      mdaAddr := BitVec.ofNat 32 c
      mdaCap := BitVec.ofNat 32 k
      mdaInLen := BitVec.ofNat 32 k } }

/-- The single-leaf tree of "aaaa" and the tree of "ab". -/
def leafTree : HTree := .leaf 0x61 4
def pairTree : HTree := .node 2 (.leaf 0x61 1) (.leaf 0x62 1)
def leafArena : Arena := ⟨leafTree.preorder 0, some 0⟩
def pairArena : Arena := ⟨pairTree.preorder 0, some 0⟩

theorem leafArena_holds : leafArena.Holds leafTree := ⟨0, [0], rfl, .leaf rfl, by decide⟩
theorem pairArena_holds : pairArena.Holds pairTree :=
  ⟨0, [0, 1, 2], rfl, .node (il := [1]) (ir := [2]) rfl (.leaf rfl) (.leaf rfl), by decide⟩

theorem illegal_zero : ∀ i, decode 0 ≠ .ok i := by
  intro i h
  have : decode 0 = .error .unknownOp := rfl
  rw [this] at h
  cases h

/-- What is left of a next state that is shown to exist: the two facts the frames ask for. -/
theorem runs_ok {o : Host.Outcome State Fault Refusal} (h : nextHas o (fun t => t.ctl.errCode == none) = true) :
    ∃ t, o = .next t ∧ t.ctl.errCode = none := by
  obtain ⟨t, ht, hp⟩ := nextHas_elim h
  exact ⟨t, ht, by simpa using hp⟩

theorem runs_error {o : Host.Outcome State Fault Refusal} (h : nextHas o (fun t => t.ctl.errCode != none) = true) :
    ∃ t, o = .next t ∧ t.ctl.errCode ≠ none := by
  obtain ⟨t, ht, hp⟩ := nextHas_elim h
  exact ⟨t, ht, by simpa using hp⟩

theorem witness_StepRunsTheDecodedCommand :
    pendingNop.nextAgent = .engine ∧ pendingNop.ctl.seq = .pending 0x1 ∧ decode 0x1 = .ok .nop := ⟨rfl, rfl, rfl⟩

theorem witness_IllegalWordRaisesIllegalCmd :
    pendingIllegal.nextAgent = .engine ∧ pendingIllegal.ctl.seq = .pending 0 ∧ ∀ i, decode 0 ≠ .ok i :=
  ⟨rfl, rfl, illegal_zero⟩

theorem witness_PendingCommandHasItsStep :
    let s := { pendingNop with host := { pendingNop.host with turns := [.host, .host, .engine] } }
    s.ctl.seq = .pending 0x1 ∧ decode 0x1 = .ok .nop ∧ s.host.prog = [] ∧
    s.host.turns = List.replicate 2 .host ++ .engine :: [] ∧
    (∃ t, exec .nop { s with host := { s.host with turns := [] } } = .next t) ∧
    pendingNop.host.prog = [] ∧ pendingNop.host.turns = [] := ⟨rfl, rfl, rfl, rfl, ⟨_, rfl⟩, rfl, rfl⟩

/-- The engine's turn with nothing pending; the host's turn with an operation and with none, by the list and by default;
WAIT with the command pending and with none. -/
theorem witness_HostTurns :
    (let s := { State.reset with host := ⟨[], [.engine], []⟩ }; s.host.turns = .engine :: [] ∧ s.ctl.seq = .idle) ∧
    (State.reset.host.turns = [] ∧ State.reset.ctl.seq = .idle ∧ State.reset.host.prog = []) ∧
    (let s := { pendingNop with host := ⟨[.wait, .hardReset], [.host], []⟩ };
      s.host.turns = .host :: [] ∧ s.host.prog = .wait :: [.hardReset] ∧ (s.regValue .status).getLsbD 0 = true) ∧
    (let s := { State.reset with host := ⟨[.wait], [], []⟩ };
      s.host.turns = [] ∧ s.ctl.seq = .idle ∧ s.host.prog = .wait :: [] ∧ (s.regValue .status).getLsbD 0 = false) := by
  decide +kernel

/-- One word over the end of the buffer for each bounds clause, one shared byte for each overlap clause, and regions that
touch without sharing for the last clause. -/
theorem witness_RegionChecksRaiseRangeInOrder :
    (let s := regions 0xFFFF 2 0 0 0 0; ¬ (s.opnd.srcLen.toNat = 0 ∨ s.opnd.srcAddr.toNat + s.opnd.srcLen.toNat ≤ s.params.bufSize)) ∧
    (let s := regions 0xFFFF 1 0x10000 1 0 0; (s.opnd.srcAddr.toNat + s.opnd.srcLen.toNat ≤ s.params.bufSize) ∧
      ¬ (s.opnd.dstCap.toNat = 0 ∨ s.opnd.dstAddr.toNat + s.opnd.dstCap.toNat ≤ s.params.bufSize)) ∧
    (regions 0 1 1 1 0x10000 1).rangeError (usesOf .hcomp) = some 3 ∧
    (regions 0 2 1 1 5 1).rangeError (usesOf .hcomp) = some 0x12 ∧
    (regions 0 2 2 1 1 1).rangeError (usesOf .hdecomp) = some 0x13 ∧
    (regions 0 1 1 2 2 1).rangeError (usesOf .hcomp) = some 0x23 ∧
    (regions 0 1 1 1 2 0xFFFE).rangeError (usesOf .hdecomp) = none := by decide +kernel

theorem witness_InvalidTableRaisesSequence :
    State.reset.rangeError (usesOf .tbuild) = none ∧ State.reset.tbl.fv = false ∧
    State.reset.rangeError (usesOf .hdec) = none ∧ State.reset.tbl.tv = false ∧
    State.reset.rangeError (usesOf .henc) = none ∧ State.reset.tbl.cv = false ∧
    State.reset.rangeError (usesOf .hdecomp) = none ∧ State.reset.opnd.mdaInLen = 0 := by decide +kernel

theorem witness_RleDWithoutTagRaisesMissingMetadata :
    State.reset.rangeError ⟨true, true, .none⟩ = none ∧
    (regions 0 0 0xFFFF 2 0 0).rangeError ⟨true, true, .none⟩ = some 2 := by decide +kernel

theorem witness_EveryCommandCompletesWithDoneOrErr : State.reset.ctl.done = false ∧ State.reset.ctl.err = false := ⟨rfl, rfl⟩

theorem witness_ExecutionErrorLeavesNoResult :
    ((placed [0x61] 4).checkPhase .rleDBin = none ∧
      ∃ t, exec .rleDBin (placed [0x61] 4) = .next t ∧ t.ctl.errCode ≠ none) ∧
    ((placed inputA 1).checkPhase .hcomp = none ∧ ∃ t, exec .hcomp (placed inputA 1) = .next t ∧ t.ctl.errCode ≠ none) :=
  ⟨⟨by decide +kernel, runs_error (by decide +kernel)⟩, by decide +kernel, runs_error (by decide +kernel)⟩

theorem witness_CommandsLeaveOperandsAndControl :
    (∃ t, exec .nop { State.reset with ctl := { Control.reset with done := true, err := true } } = .next t) := ⟨_, rfl⟩

theorem witness_CommandsStoreOnlyTheirOutput :
    (∃ t, exec .rleD State.reset = .next t ∧ State.reset.checkPhase .rleD ≠ none) ∧
    (∃ t, exec .hcomp (placed inputA 3) = .next t ∧ t.ctl.errCode = none) ∧
    (∃ t, exec .freq (placed inputA 3) = .next t ∧ t.ctl.errCode = none) ∧ (usesOf .freq).dst = false ∧
    (usesOf .freq).mda ≠ .output :=
  ⟨⟨_, rfl, by decide +kernel⟩, runs_ok (by decide +kernel), runs_ok (by decide +kernel), rfl, by decide⟩

theorem witness_TablesChangeOnlyAsTheirRuleSays :
    (∃ t, exec .freq (placed inputA 0) = .next t ∧ t.ctl.errCode = none) ∧
    (∃ t, exec .tbuild { placed [] 0 with tbl := { Tables.reset with fv := true } } = .next t ∧ t.ctl.errCode = none) ∧
    (∃ t, exec .cgen (withTree pairArena (placed [] 0)) = .next t ∧ t.ctl.errCode = none) ∧
    ∃ t, exec .hcomp (placed inputA 3) = .next t ∧ t.ctl.errCode = none :=
  ⟨runs_ok (by decide +kernel), runs_ok (by decide +kernel), runs_ok (by decide +kernel), runs_ok (by decide +kernel)⟩

theorem witness_OnlyCompressCommandsReportStats :
    (∃ t, exec .lzC (placed [0x41] 2) = .next t ∧ t.ctl.errCode = none) ∧
    (∃ t, exec .lzC (placed [0x41] 1) = .next t ∧ t.ctl.errCode ≠ none) ∧ ∃ t, exec .nop State.reset = .next t :=
  ⟨runs_ok (by decide +kernel), runs_error (by decide +kernel), _, rfl⟩

theorem witness_ResultRegistersChangeOnlyAsTheirRuleSays :
    (∃ t, exec .freq (placed [0x41] 2) = .next t ∧ t.ctl.errCode = none) ∧
    ∃ t, exec .rleD State.reset = .next t ∧ State.reset.checkPhase .rleD ≠ none :=
  ⟨runs_ok (by decide +kernel), _, rfl, by decide +kernel⟩

/-- The last unaligned address of the block and its last bytes; the first and the last reserved offset; a read-only
register. -/
theorem witness_IdAndAccessesOutsideTheMap :
    (State.reset.params.regBase ≤ 0x7FE ∧ 0x7FE < State.reset.params.regBase + 0x800 ∧ 0x7FE % 4 ≠ 0) ∧
    (0x0A0 % 4 = 0 ∧ ∀ r : Reg, r.offset ≠ 0x0A0) ∧ (0x3FC % 4 = 0 ∧ ∀ r : Reg, r.offset ≠ 0x3FC) := by
  refine ⟨by decide, ⟨rfl, ?_⟩, rfl, ?_⟩ <;> intro r <;> cases r <;> simp only [Reg.offset] <;> omega

theorem witness_OperandWritesAreReadBack :
    State.reset.busy = false ∧ (1 ≤ (4096 : Word).toNat ∧ (4096 : Word).toNat ≤ 4096) ∧
    ¬ (1 ≤ (4097 : Word).toNat ∧ (4097 : Word).toNat ≤ 4096) ∧ (1 ≤ (255 : Word).toNat ∧ (255 : Word).toNat ≤ 255) ∧
    ¬ (1 ≤ (256 : Word).toNat ∧ (256 : Word).toNat ≤ 255) ∧ ¬ (1 ≤ (0 : Word).toNat) := by decide

theorem witness_BusyIgnoresWritesAndDrawsReads :
    pendingNop.busy = true ∧ (0x2 : Word).getLsbD 0 = false ∧ (0x1 : Word).getLsbD 0 = true ∧ State.reset.busy = false ∧
    Reg.freq 0 ∉ [Reg.id, .ctrl, .status, .cmd, .srcAddr, .srcLen, .dstAddr, .dstCap, .mdaAddr, .mdaCap, .mdaInLen,
      .expectLen, .window, .lookahead, .nodeSel, .codeSel] := by decide

theorem witness_CmdWriteIsAcceptedOrDropped : State.reset.busy = false ∧ pendingNop.busy = true := ⟨rfl, rfl⟩

/-- A leaf at index 0 of one arena; the root, an internal node, of another; the first index with no node; a tree at its
greatest index. -/
theorem witness_TableWindowsShowTheTables :
    ((withTree leafArena State.reset).tbl.arena.nodes[State.reset.ctl.nodeSel.toNat]? = some (.leaf 0x61 4)) ∧
    ((withTree pairArena State.reset).tbl.arena.nodes[State.reset.ctl.nodeSel.toNat]? = some (.internal 2 1 2)) ∧
    State.reset.tbl.arena.nodes.length ≤ State.reset.ctl.nodeSel.toNat ∧ State.reset.tbl.arena.root = none ∧
    (withTree ⟨[], some 511⟩ State.reset).tbl.arena.root = some 511 ∧
    State.reset.tbl.arena.nodes.length ≤ 511 ∧
    (tblGet State.reset.tbl.ct State.reset.ctl.codeSel).length ≤ 255 ∧
    tblGet { State.reset with tbl := { Tables.reset with ct := Vector.replicate 256 [false, true, true, false] } }.tbl.ct
      State.reset.ctl.codeSel = [false, true, true, false] := by decide +kernel

theorem witness_SoftResetAbortsAndResets :
    (0x1 : Word).getLsbD 0 = true ∧ State.reset.ctl.seq = .idle ∧
    (pendingIllegal.ctl.seq = .pending 0 ∧ ∀ i, decode 0 ≠ .ok i) ∧
    (pendingRle.ctl.seq = .pending 0x120 ∧ decode 0x120 = .ok .rleCBin) :=
  ⟨rfl, rfl, ⟨rfl, illegal_zero⟩, rfl, rfl⟩

theorem witness_InterruptFollowsCompletion :
    (∃ t, commandStep 0x1 pendingNop = .next t) ∧ (∃ t, commandStep 0 pendingIllegal = .next t) ∧
    State.reset.busy = false ∧ pendingNop.busy = true ∧ (0x6 : Word).getLsbD 1 = true ∧ (0x6 : Word).getLsbD 2 = true ∧
    (0x2 : Word).getLsbD 0 = false := ⟨⟨_, rfl⟩, ⟨_, rfl⟩, rfl, rfl, rfl, rfl, rfl⟩

/-- The last byte of SRC is inside, the byte after it is not; the last byte of the buffer is not. -/
theorem witness_HostAccessToPendingRegionsFaults :
    pendingRle.ctl.seq = .pending 0x120 ∧ decode 0x120 = .ok .rleCBin ∧ 0xFFFF + 1 ≤ pendingRle.params.bufSize ∧
    (pendingRle.opnd.srcAddr.toNat ≤ 3 ∧ 3 < pendingRle.opnd.srcAddr.toNat + pendingRle.opnd.srcLen.toNat) ∧
    (∀ x, 4 ≤ x → x < 5 → ¬ ((pendingRle.opnd.srcAddr.toNat ≤ x ∧
        x < pendingRle.opnd.srcAddr.toNat + pendingRle.opnd.srcLen.toNat) ∨
      (pendingRle.opnd.dstAddr.toNat ≤ x ∧ x < pendingRle.opnd.dstAddr.toNat + pendingRle.opnd.dstCap.toNat))) ∧
    (usesOf .rleCBin).mda = .none := by
  refine ⟨rfl, rfl, by decide, by decide, ?_, rfl⟩
  intro x h4 h5
  have : x = 4 := by omega
  subst this
  decide

/-- The last byte of the buffer with no command or an illegal word pending, and one byte beyond it. -/
theorem witness_HostAccessWhileIdle :
    0xFFFF + ([0x61] : List Byte).length ≤ State.reset.params.bufSize ∧ State.reset.ctl.seq = .idle ∧
    (pendingIllegal.ctl.seq = .pending 0 ∧ ∀ i, decode 0 ≠ .ok i) ∧
    ([0x61] : List Byte) ≠ [] ∧ State.reset.params.bufSize < 0x10000 + ([0x61] : List Byte).length :=
  ⟨by decide, rfl, ⟨rfl, illegal_zero⟩, by decide, by decide⟩

theorem witness_NopOnlyCompletes : pendingNop.busy = true ∧ Reg.id ≠ .status ∧ Reg.id ≠ .cmd := by decide

/-- An exact half, and the two sides of the guard on the greatest ratio. -/
theorem witness_RatioIsTheRoundedPercentage :
    2 * (ratio 20000 1 * 20000 - ((20000 : Int) - 1) * 10000).natAbs = 20000 ∧ ratio 20000 1 = 10000 ∧
    ratio 19999 1 = 9999 ∧ ratio 7 0 = 10000 ∧ ratio 8 9 < 0 ∧ (3 : Nat) ≤ 3 * 1 := by decide

theorem witness_BpackPacksAsciiBits :
    ((placed [0x31] 1).checkPhase .bpack = none ∧ (placed [0x31] 1).input = [true].map (fun b => if b then 0x31 else 0x30) ∧
      ([true].length + 7) / 8 ≤ (placed [0x31] 1).opnd.dstCap.toNat) ∧
    ((placed [0x30, 0x32] 0).checkPhase .bpack = none ∧ (placed [0x30, 0x32] 0).input[1]? = some 0x32 ∧
      (∀ y ∈ (placed [0x30, 0x32] 0).input.take 1, y = 0x30 ∨ y = 0x31) ∧
      1 / 8 ≤ (placed [0x30, 0x32] 0).opnd.dstCap.toNat) ∧
    (let s := placed [0x30, 0x31, 0x31, 0x30, 0x31, 0x30, 0x30, 0x30, 0x30] 1;
      s.checkPhase .bpack = none ∧ 8 * s.opnd.dstCap.toNat < s.opnd.srcLen.toNat ∧
      ∀ y ∈ s.input.take (8 * s.opnd.dstCap.toNat + 8), y = 0x30 ∨ y = 0x31) := by decide +kernel

theorem witness_BunpackSpellsEveryBit :
    ((placed [0xA5] 8).checkPhase .bunpack = none ∧
      8 * (placed [0xA5] 8).opnd.srcLen.toNat ≤ (placed [0xA5] 8).opnd.dstCap.toNat) ∧
    (placed [0xA5] 7).checkPhase .bunpack = none ∧
      (placed [0xA5] 7).opnd.dstCap.toNat < 8 * (placed [0xA5] 7).opnd.srcLen.toNat := by decide +kernel

theorem witness_FreqCountsEverySymbol : (placed inputA 0).checkPhase .freq = none := by decide +kernel

/-- Counters for "ab", and no counter at all. -/
def counted (inp : List Byte) : State := { placed [] 0 with tbl := { Tables.reset with ft := countFreq inp, fv := true } }

theorem witness_TbuildBuildsATreeOverTheCountedSymbols :
    (counted []).checkPhase .tbuild = none ∧ (counted [0x61, 0x62]).checkPhase .tbuild = none ∧
    (((List.range 256).map (BitVec.ofNat 8)).filter fun sym => tblGet (counted []).tbl.ft sym ≠ 0) = [] ∧
    (((List.range 256).map (BitVec.ofNat 8)).filter fun sym => tblGet (counted [0x61, 0x62]).tbl.ft sym ≠ 0) ≠ [] := by
  decide +kernel

theorem witness_CgenGivesThePrefixFreeCodesOfTheTree :
    ((withTree pairArena (placed [] 0)).checkPhase .cgen = none ∧
      (withTree pairArena (placed [] 0)).tbl.arena.Holds pairTree ∧ pairTree.symbols.Nodup) ∧
    ((withTree leafArena (placed [] 0)).checkPhase .cgen = none ∧
      (withTree leafArena (placed [] 0)).tbl.arena.Holds leafTree ∧ leafTree.symbols.Nodup) ∧
    ((withTree ⟨[], none⟩ (placed [] 0)).checkPhase .cgen = none ∧
      (withTree ⟨[], none⟩ (placed [] 0)).tbl.arena = ⟨[], none⟩) :=
  ⟨⟨by decide +kernel, pairArena_holds, by decide⟩, ⟨by decide +kernel, leafArena_holds, by decide⟩, by decide +kernel, rfl⟩

theorem witness_HencPacksTheCodesInOrder :
    (let s := withCodes arenaA (placed inputA 3);
      s.checkPhase .henc = none ∧ (∀ x ∈ s.input, tblGet s.tbl.ct x ≠ []) ∧
      ((s.input.flatMap (tblGet s.tbl.ct)).length + 7) / 8 ≤ s.opnd.dstCap.toNat) ∧
    (let s := withCodes arenaA (placed [0x61, 0x7A] 0);
      s.checkPhase .henc = none ∧ s.input[1]? = some 0x7A ∧ tblGet s.tbl.ct 0x7A = [] ∧
      (∀ y ∈ s.input.take 1, tblGet s.tbl.ct y ≠ []) ∧
      ((s.input.take 1).flatMap (tblGet s.tbl.ct)).length / 8 ≤ s.opnd.dstCap.toNat) := by decide +kernel

/-- A byte completed inside the input (the code of the third symbol has its eighth bit), and one by the padding of the
last. -/
theorem witness_HencOverflow :
    (let s := withCodes arenaA (placed [0x62, 0x63, 0x64, 0x61] 0);
      s.checkPhase .henc = none ∧ (∀ y ∈ s.input.take 3, tblGet s.tbl.ct y ≠ []) ∧
      (2 < s.input.length ∧ ((s.input.take 2).flatMap (tblGet s.tbl.ct)).length < 8 ∧
        8 ≤ ((s.input.take 3).flatMap (tblGet s.tbl.ct)).length)) ∧
    (let s := withCodes arenaA (placed [0x61] 0);
      s.checkPhase .henc = none ∧ (∀ y ∈ s.input.take 1, tblGet s.tbl.ct y ≠ []) ∧ 0 + 1 = s.input.length ∧
      0 < ((s.input.take 1).flatMap (tblGet s.tbl.ct)).length) := by decide +kernel

/-- A metadata capacity of just the length, and one less. -/
theorem witness_TserWritesTheSerializedTree :
    (let s := { withTree leafArena (placed [] 0) with opnd := { (placed [] 0).opnd with mdaCap := 8 } };
      s.checkPhase .tser = none ∧ s.tbl.arena.Holds leafTree ∧ leafTree.serialized.length ≤ s.opnd.mdaCap.toNat) ∧
    (let s := { withTree leafArena (placed [] 0) with opnd := { (placed [] 0).opnd with mdaCap := 7 } };
      s.checkPhase .tser = none ∧ s.tbl.arena.Holds leafTree ∧ s.opnd.mdaCap.toNat < leafTree.serialized.length) ∧
    (let s := withTree ⟨[], none⟩ (placed [] 0); s.checkPhase .tser = none ∧ s.tbl.arena.root = none) :=
  ⟨⟨by decide +kernel, leafArena_holds, by decide⟩, ⟨by decide +kernel, leafArena_holds, by decide⟩, by decide +kernel, rfl⟩

theorem witness_ParseTreeAcceptsExactlyTheGrammar :
    treeA ≠ [] ∧ parseTree treeA = .ok preorderA ∧ parseTree [0x00] = .ok ⟨[], none⟩ ∧
    parseTree [0x01] = .error ⟨.corruptTree, 1⟩ := ⟨by decide, rfl, rfl, rfl⟩

/-- A string for each thing that can be wrong, but for the 512th node. -/
theorem witness_CorruptAt :
    CorruptAt [0x00, 0x00] 1 ∧ CorruptAt [0x01, 0x61, 0, 0, 0, 4, 0, 0, 0x00] 8 ∧ CorruptAt [0x02, 0, 0, 0, 4] 5 ∧
    CorruptAt [0x02, 0, 0, 0, 4, 0x00] 5 ∧ CorruptAt [0x01, 0x61, 0, 0, 0, 4, 0] 7 ∧ CorruptAt [0x02, 0, 0, 0] 4 ∧
    CorruptAt [0x01, 0x61, 0, 0, 0, 4, 1, 0] 6 ∧ CorruptAt [0x01, 0x61, 0, 0, 0, 4, 0, 1] 7 ∧
    CorruptAt [0x02, 0, 0, 0, 4, 0x01, 0x61, 0, 0, 0, 2, 0, 0, 0x01, 0x61, 0, 0, 0, 2, 0, 0] 14 :=
  ⟨.afterEmpty, .trailing (rs := [.leaf 0x61 4]) rfl (by decide) (by decide),
    .record (rs := [.node 4]) (k := 1) rfl (by decide) (by decide) (by decide) .missing,
    .record (rs := [.node 4]) (k := 1) rfl (by decide) (by decide) (by decide) (.noRecord (by decide) (by decide)),
    .record (rs := []) (k := 0) rfl (by decide) (by decide) (by decide) (.leafCut (by decide) (by decide)),
    .record (rs := []) (k := 0) rfl (by decide) (by decide) (by decide) (.nodeCut (by decide) (by decide)),
    .record (rs := []) (k := 0) rfl (by decide) (by decide) (by decide)
      (.leftLink (s := 0x61) (f := 4) (y := 0) (more := []) (by decide) (by decide)),
    .record (rs := []) (k := 0) rfl (by decide) (by decide) (by decide)
      (.rightLink (s := 0x61) (f := 4) (more := []) (by decide) (by decide)),
    .record (rs := [.node 4, .leaf 0x61 2]) (k := 0) rfl (by decide) (by decide) (by decide)
      (.twice (s := 0x61) (f := 2) (more := []) (by decide) (by decide))⟩

theorem wanted_nodes (k n : Nat) : wanted (n + 1) (List.replicate k (.node 0)) = some (n + 1 + k) := by
  induction k generalizing n with
  | zero => rfl
  | succ k ih => simpa [wanted, List.replicate_succ, Nat.add_assoc, Nat.add_comm, Nat.add_left_comm] using ih (n + 1)

/-- 511 nodes and a record after them. -/
theorem witness_CorruptAt_tooMany (k : Nat) (hk : k = 511) :
    let rs := List.replicate k (TreeRecord.node 0)
    CorruptAt (rs.flatMap TreeRecord.bytes ++ [0x02]) (rs.flatMap TreeRecord.bytes).length := by
  have hs : (List.replicate k (TreeRecord.node 0)).filterMap TreeRecord.symbol = [] := by
    rw [List.filterMap_eq_nil_iff]
    intro a ha
    rw [List.eq_of_mem_replicate ha]
    rfl
  refine .record (k := k) ?_ (by rw [hs]; exact List.nodup_nil) (by rw [List.length_replicate]; omega) (fun _ => by decide)
    (.tooMany (by rw [List.length_replicate, hk]))
  rw [wanted_nodes k 0, Nat.zero_add, Nat.add_comm]

theorem witness_TdesLoadsTheTreeInPreorder :
    ((withMeta [0x00] (placed [] 0)).checkPhase .tdes = none ∧ (withMeta [0x00] (placed [] 0)).metadata = [0x00]) ∧
    ((withMeta pairTree.serialized (placed [] 0)).checkPhase .tdes = none ∧ pairTree.symbols.Nodup ∧
      (withMeta pairTree.serialized (placed [] 0)).metadata = pairTree.serialized) := by decide +kernel

theorem witness_TdesCorruptTree :
    (withMeta [0x01] (placed [] 0)).checkPhase .tdes = none ∧
    parseTree (withMeta [0x01] (placed [] 0)).metadata = .error ⟨.corruptTree, 1⟩ := ⟨by decide +kernel, rfl⟩

/-- "ab" coded by the tree of "ab", with just room for it. -/
theorem witness_HdecRecoversThePackedSymbols :
    let s := withExpect 2 (withTree pairArena (placed [0x40] 2))
    s.checkPhase .hdec = none ∧ s.tbl.arena.Holds pairTree ∧ pairTree.symbols.Nodup ∧
    (∀ x ∈ ([0x61, 0x62] : List Byte), x ∈ pairTree.symbols) ∧
    s.input = (pack (([0x61, 0x62] : List Byte).flatMap pairTree.codeOf)).1 ∧ s.opnd.expectLen.toNat = 2 ∧
    2 ≤ s.opnd.dstCap.toNat := by
  refine ⟨by decide +kernel, pairArena_holds, by decide, by decide, by decide +kernel, by decide, by decide⟩

theorem leafTree_shown : leafArena.Shows (some leafTree) := ⟨leafArena_holds, by decide⟩
theorem pairTree_shown : pairArena.Shows (some pairTree) := ⟨pairArena_holds, by decide⟩
theorem noTree_shown : Arena.Shows ⟨[], none⟩ none := rfl

/-- Each way count mode ends, at the boundary of its range: with seven bits of padding and with eight; a stream used up to
its last bit; a capacity of just the symbols before the one missing or misfit. -/
theorem witness_CountDecodes :
    CountDecodes none [] 5 0 (.ok []) ∧ CountDecodes none [0x40] 0 9 (.error ⟨.malformedPayload, 0⟩) ∧
    CountDecodes (some pairTree) [0x00] 1 1 (.ok [0x61]) ∧
    CountDecodes (some pairTree) [0x00] 0 1 (.error ⟨.malformedPayload, 0⟩) ∧
    CountDecodes (some pairTree) [0x40] 1 1 (.error ⟨.malformedPayload, 0⟩) ∧
    CountDecodes (some pairTree) [0x00] 9 8 (.error ⟨.malformedPayload, 1⟩) ∧
    CountDecodes (some leafTree) [0x00] 9 8 (.error ⟨.malformedPayload, 1⟩) ∧
    CountDecodes (some leafTree) [0x40] 2 1 (.error ⟨.malformedPayload, 0⟩) ∧
    CountDecodes (some pairTree) [0x40] 2 1 (.error ⟨.dstOverflow, 0⟩) :=
  ⟨.absent rfl, .noTree rfl (by decide),
    .done (rest := List.replicate 7 false) rfl ⟨by decide, by decide⟩ rfl (by decide) (by decide) (by decide),
    .unusedByte (ds := []) (rest := List.replicate 8 false) rfl ⟨by decide, by decide⟩ rfl (by decide) (by decide),
    .padding (ds := [0x61]) (rest := true :: List.replicate 6 false) rfl ⟨by decide, by decide⟩ rfl (by decide) (by decide)
      (by decide),
    .short (t := pairTree) (ds := List.replicate 8 0x61) (rest := []) (by decide) rfl ⟨by decide, by decide⟩ (by decide)
      (by decide) (by unfold HTree.Stuck; decide) (fun _ => rfl),
    .short (t := leafTree) (ds := List.replicate 8 0x61) (rest := []) (by decide) rfl ⟨by decide, by decide⟩ (by decide)
      (by decide) (by unfold HTree.Stuck; decide) (fun _ => rfl),
    .oneBit (t := leafTree) (ds := [0x61]) (rest := List.replicate 6 false) rfl rfl ⟨by decide, by decide⟩ (by decide)
      (by decide),
    .overflow (t := pairTree) (ds := [0x61]) (x := 0x62) (rest := List.replicate 6 false) rfl ⟨by decide, by decide⟩
      (by decide) rfl (by decide)⟩

/-- Each way legacy mode ends, with a capacity of just the symbols and of one less. -/
theorem witness_LegacyDecodes :
    LegacyDecodes none [] 0 (.ok []) ∧ LegacyDecodes none [0x40] 9 (.error ⟨.malformedPayload, 0⟩) ∧
    LegacyDecodes (some leafTree) [0x40] 8 (.ok (List.replicate 8 0x61)) ∧
    LegacyDecodes (some leafTree) [0x40] 7 (.error ⟨.dstOverflow, 0⟩) ∧
    LegacyDecodes (some pairTree) [0x00] 8 (.ok (List.replicate 8 0x61)) ∧
    LegacyDecodes (some pairTree) [0x00] 7 (.error ⟨.dstOverflow, 0⟩) :=
  ⟨.absent rfl, .noTree rfl (by decide), .leaf (f := 4) rfl (by decide), .leafOverflow (s := 0x61) (f := 4) rfl (by decide),
    .walked (t := pairTree) (rest := []) rfl (by decide) ⟨by decide, by decide⟩ (by decide) (by unfold HTree.Stuck; decide),
    .overflow (t := pairTree) (out := List.replicate 7 0x61) (x := 0x61) (rest := []) rfl (by decide)
      ⟨by decide, by decide⟩ (by decide) rfl⟩

/-- States in which HDEC and HDEC.L, HDECOMP and HDECOMP.L see a given tree, input, EXPECT_LEN and capacity. -/
def arenaState (tree : Option HTree) (inp : List Byte) (n cap : Nat) : State :=
  withExpect n (withTree (treeArena tree) (placed inp cap))
def metaState (tree : Option HTree) (inp : List Byte) (n cap : Nat) : State :=
  withExpect n (withMeta (treeBytes tree) (placed inp cap))

/-- For HdecLegacyDecodesEveryCompleteCode and the last clauses of HdecRecoversThePackedSymbols: the trees, inputs and
numbers of the two theorems above stand in states that pass the check phase. -/
theorem witness_HdecLegacyDecodesEveryCompleteCode :
    ∀ c ∈ ([(none, [], 5, 0), (none, [0x40], 0, 9), (some pairTree, [0x00], 9, 8), (some leafTree, [0x40], 2, 1)] :
        List (Option HTree × List Byte × Nat × Nat)),
      let s := arenaState c.1 c.2.1 c.2.2.1 c.2.2.2
      s.checkPhase .hdec = none ∧ s.checkPhase .hdecL = none ∧ s.input = c.2.1 ∧ s.opnd.expectLen.toNat = c.2.2.1 ∧
      s.opnd.dstCap.toNat = c.2.2.2 ∧ s.tbl.arena = treeArena c.1 := by
  intro c hc
  rcases (by simpa using hc : c = _ ∨ c = _ ∨ c = _ ∨ c = _) with h | h | h | h <;> subst h <;> decide +kernel

/-- For HdecompDecodesWithItsTree and HdecompLegacyDecodesEveryCompleteCode, in the same way; and a metadata that is no
tree with an empty input. -/
theorem witness_HdecompDecodesWithItsTree :
    (∀ c ∈ ([(none, [], 5, 0), (none, [0x40], 0, 9), (some pairTree, [0x00], 9, 8), (some leafTree, [0x40], 2, 1)] :
        List (Option HTree × List Byte × Nat × Nat)),
      let s := metaState c.1 c.2.1 c.2.2.1 c.2.2.2
      s.checkPhase .hdecomp = none ∧ s.checkPhase .hdecompL = none ∧ s.input = c.2.1 ∧
      s.opnd.expectLen.toNat = c.2.2.1 ∧ s.opnd.dstCap.toNat = c.2.2.2 ∧ s.metadata = treeBytes c.1 ∧
      (treeSymbols c.1).Nodup) ∧
    (let s := metaState (some pairTree) [0x40] 2 2;
      s.checkPhase .hdecomp = none ∧ (∀ x ∈ ([0x61, 0x62] : List Byte), x ∈ treeSymbols (some pairTree)) ∧
      s.input = (pack (([0x61, 0x62] : List Byte).flatMap (treeCode (some pairTree)))).1 ∧ s.opnd.expectLen.toNat = 2 ∧
      2 ≤ s.opnd.dstCap.toNat) ∧
    (let s := withMeta [0x01] (placed [] 0);
      s.checkPhase .hdecomp = none ∧ s.checkPhase .hdecompL = none ∧ s.opnd.srcLen = 0) ∧
    parseTree (withMeta [0x01] (placed [] 0)).metadata = .error ⟨.corruptTree, 1⟩ := by
  refine ⟨?_, by decide +kernel, by decide +kernel, rfl⟩
  intro c hc
  rcases (by simpa using hc : c = _ ∨ c = _ ∨ c = _ ∨ c = _) with h | h | h | h <;> subst h <;> decide +kernel

/-- Just room for both outputs; no room for the codes, whatever MDA_CAP is; room for them and one byte short for the byte
string of the tree; and the empty input. -/
theorem witness_HcompWritesTheCodesAndTheirTree :
    (let s := { placed [0x61] 1 with opnd := { (placed [0x61] 1).opnd with mdaCap := 8 } };
      s.checkPhase .hcomp = none ∧ yields (exec .hcomp s) [0x00] = true) ∧
    (let s := { placed [0x61] 0 with opnd := { (placed [0x61] 0).opnd with mdaCap := 0 } };
      s.checkPhase .hcomp = none ∧ failsWith (exec .hcomp s) 7 0 = true) ∧
    (let s := { placed [0x61] 1 with opnd := { (placed [0x61] 1).opnd with mdaCap := 7 } };
      s.checkPhase .hcomp = none ∧ failsWith (exec .hcomp s) 8 7 = true) ∧
    ((placed [] 0).checkPhase .hcomp = none ∧ (placed [] 0).input = []) := by decide +kernel

/-- The output of compressing s, read back as the input of a decoder. -/
theorem roundTrip {o : Host.Outcome State Fault Refusal} {p : State → Prop} [DecidablePred p]
    (h : nextHas o (fun t => decide (t.ctl.errCode = none ∧ p t)) = true) :
    ∃ t, o = .next t ∧ t.ctl.errCode = none ∧ p t := by
  obtain ⟨t, ht, hp⟩ := nextHas_elim h
  exact ⟨t, ht, by simpa using hp⟩

theorem witness_HuffmanRoundTripIsExact :
    let s := placed [0x61, 0x62] 1
    let u := withExpect 2 (withMeta pairTree.serialized (placed [0x40] 2))
    ∃ t, exec .hcomp s = .next t ∧ t.ctl.errCode = none ∧
      (u.checkPhase .hdecomp = none ∧ u.input = t.memRead s.opnd.dstAddr.toNat t.res.dstLen.toNat ∧
        u.metadata = t.memRead s.opnd.mdaAddr.toNat t.res.mdaOutLen.toNat ∧ u.opnd.expectLen = t.res.statOrig ∧
        s.opnd.srcLen.toNat ≤ u.opnd.dstCap.toNat) := roundTrip (by decide +kernel)

/-- For RleBinaryEncodesTheRuns, RleTextEncodesTheRuns and RleSelectorTakesTheShorterPayload: just room, and one byte
short, with the run that does not fit. -/
theorem witness_RleEncoders :
    (∀ i ∈ [Instr.rleCBin, .rleCTxt, .rleCOpt], (placed [0x7E, 0x61] 4).checkPhase i = none ∧
      (placed [0x7E, 0x61] 3).checkPhase i = none ∧ (placed [0x7E, 0x61] 1).checkPhase i = none) ∧
    failsWith (exec .rleCBin (placed [0x7E, 0x61] 3)) 7 1 = true ∧
    failsWith (exec .rleCTxt (placed [0x7E, 0x61] 1)) 7 0 = true ∧
    failsWith (exec .rleCOpt (placed [0x7E, 0x61] 2)) 7 1 = true ∧
    MisfitAt 3 (runChunks binaryForm 0 [(0x7E, 1), (0x61, 1)]) 1 :=
  ⟨by decide +kernel, by decide +kernel, by decide +kernel, by decide +kernel,
    [(0, [0x7E, 1])], (1, [0x61, 1]), [], rfl, by decide, by decide, rfl⟩

/-- The longest run, and each malformed tail. -/
theorem witness_RleBinaryDecodesPairs :
    (∀ r ∈ [((0x61 : Byte), (0xFF : Byte))], r.2 ≠ 0) ∧
    (let s := placed [0x61, 0xFF] 255;
      s.checkPhase .rleDBin = none ∧ 255 ≤ s.opnd.dstCap.toNat ∧ s.input = [(0x61, 0xFF)].flatMap (fun r => [r.1, r.2])) ∧
    (let s := placed [0x61, 0xFF, 0x62] 255;
      s.checkPhase .rleDBin = none ∧ s.input = [(0x61, 0xFF)].flatMap (fun r => [r.1, r.2]) ++ [0x62]) ∧
    (let s := placed [0x61, 0xFF, 0x62, 0] 255;
      s.checkPhase .rleDBin = none ∧ s.input = [(0x61, 0xFF)].flatMap (fun r => [r.1, r.2]) ++ 0x62 :: 0 :: []) ∧
    (let s := placed [0x61, 0xFF, 0x62, 1] 255;
      s.checkPhase .rleDBin = none ∧ (1 : Byte) ≠ 0 ∧ s.opnd.dstCap.toNat < 255 + (1 : Byte).toNat ∧
      s.input = [(0x61, 0xFF)].flatMap (fun r => [r.1, r.2]) ++ 0x62 :: 1 :: []) := by
  refine ⟨fun r hr => ?_, by decide +kernel⟩
  rw [List.mem_singleton.mp hr]
  decide

/-- The longest count, one tilde spelled as a run, and a lone tilde at the end. -/
theorem witness_RleTextDecodesTokens :
    (∀ t ∈ [TextToken.run 999 0x61, .run 1 0x7E, .escaped, .literal 0x30], t.Fits) ∧
    (let s := placed [0x7E, 0x31, 0x7E] 1;
      s.checkPhase .rleDTxt = none ∧ s.input = [TextToken.run 1 0x7E].flatMap TextToken.bytes ∧
      ([TextToken.run 1 0x7E].flatMap TextToken.meaning).length ≤ s.opnd.dstCap.toNat) ∧
    (let s := placed [0x30, 0x7E] 1;
      s.checkPhase .rleDTxt = none ∧ s.input = [TextToken.literal 0x30].flatMap TextToken.bytes ++ 0x7E :: []) ∧
    (let s := placed [0x30, 0x7E, 0x32, 0x61, 0x7E] 2;
      s.checkPhase .rleDTxt = none ∧ s.opnd.dstCap.toNat < 1 + (TextToken.run 2 0x61).meaning.length ∧
      s.input = [TextToken.literal 0x30].flatMap TextToken.bytes ++ ((TextToken.run 2 0x61).bytes ++ [0x7E])) ∧
    (∀ (tok : TextToken) (more : List Byte), tok.Fits → 0x7E :: ([] : List Byte) ≠ tok.bytes ++ more) := by
  refine ⟨?_, by decide +kernel, by decide +kernel, by decide +kernel, ?_⟩
  · intro t ht
    rcases (by simpa using ht : t = .run 999 0x61 ∨ t = .run 1 0x7E ∨ t = .escaped ∨ t = .literal 0x30) with
      h | h | h | h <;> subst h <;> simp [TextToken.Fits, IsDigitByte]
  · intro tok more hf h
    cases tok with
    | literal s =>
      simp only [TextToken.bytes, TextToken.Fits, List.cons_append, List.cons.injEq] at h hf
      exact hf h.1.symm
    | escaped => simp [TextToken.bytes] at h
    | run c s => simp [TextToken.bytes] at h

theorem witness_RleRoundTripIsExact :
    let s := placed [0x61, 0x61, 0x61, 0x61] 2
    let u := placed [0x61, 4] 4
    ∃ t, exec .rleCOpt s = .next t ∧ t.ctl.errCode = none ∧
      (t.res.rleMethod = .binary ∧ u.checkPhase .rleDBin = none ∧
        u.input = t.memRead s.opnd.dstAddr.toNat t.res.dstLen.toNat ∧ s.opnd.srcLen.toNat ≤ u.opnd.dstCap.toNat) :=
  roundTrip (by decide +kernel)

theorem witness_RleRoundTripText :
    let s := placed [0x7E] 2
    let u := placed [0x7E, 0x7E] 1
    ∃ t, exec .rleCTxt s = .next t ∧ t.ctl.errCode = none ∧
      (t.res.rleMethod = .text ∧ u.checkPhase .rleDTxt = none ∧
        u.input = t.memRead s.opnd.dstAddr.toNat t.res.dstLen.toNat ∧ s.opnd.srcLen.toNat ≤ u.opnd.dstCap.toNat) :=
  roundTrip (by decide +kernel)

/-- A match of three at the leftmost of two candidates, and the end of the input. -/
theorem witness_LongestMatchIsTheLeftmostLongest :
    (let inp : List Byte := [0x41, 0x42, 0x41, 0x42, 0x41, 0x42];
      4 ≤ inp.length ∧ longest .compact 4096 18 inp 4 = (2, 4) ∧ 6 ≤ inp.length ∧ longest .bracket 4096 18 inp 6 = (0, 0)) := by
  decide +kernel

/-- For LzCompactOutputReplaysToTheInput and LzBracketOutputReplaysToTheInput: just room, and one byte short, with the
token that does not fit. -/
theorem witness_LzEncoders :
    ((placed [0x41, 0x42] 4).checkPhase .lzC = none ∧ (placed [0x41, 0x42] 3).checkPhase .lzC = none ∧
      failsWith (exec .lzC (placed [0x41, 0x42] 3)) 7 1 = true) ∧
    ((placed [0x41, 0x3C] 3).checkPhase .lzbC = none ∧ (placed [0x41, 0x3C] 2).checkPhase .lzbC = none ∧
      (placed [0x41, 0x3C] 3).opnd.window.toNat ≤ 4096 ∧ failsWith (exec .lzbC (placed [0x41, 0x3C] 2)) 7 1 = true) ∧
    MisfitAt 3 (tokenChunks compactForm 0 [.literal 0x41, .literal 0x42]) 1 :=
  ⟨by decide +kernel, by decide +kernel, [(0, [0x00, 0x41])], (1, [0x00, 0x42]), [], rfl, by decide, by decide, rfl⟩

/-- The greedy tokens of "aaaa" in both forms. -/
theorem witness_GreedyTokens :
    GreedyTokens .compact 4096 18 [0x61, 0x61, 0x61, 0x61] 0 [.literal 0x61, .matched 1 3 none] ∧
    GreedyTokens .compact 4096 3 [0x61, 0x61, 0x61, 0x61, 0x62] 0 [.literal 0x61, .matched 1 3 (some 0x62)] ∧
    GreedyTokens .bracket 4096 3 [0x61, 0x61, 0x61, 0x61, 0x62] 0 [.literal 0x61, .matched 1 3 none, .literal 0x62] := by
  simp only [GreedyTokens]; decide +kernel

/-- For LzCompactDecoderReplaysTokens and LzBracketDecoderReplaysTokens: an overlapping copy of the greatest compact
length, and one in bracket form. -/
theorem witness_LzDecoders :
    (let ts : List Token := [.literal 0x61, .matched 1 15 (some 0x62)];
      let s := placed [0x00, 0x61, 0x01, 0x00, 0x1F, 0x62] 17;
      s.checkPhase .lzD = none ∧ replay ts [] = some (List.replicate 16 0x61 ++ [0x62]) ∧ s.input = ts.flatMap compactForm ∧
      17 ≤ s.opnd.dstCap.toNat) ∧
    (∀ t ∈ [Token.literal 0x61, .matched 1 15 (some 0x62), .matched 4095 15 none], CompactFits t) ∧
    (let ts : List Token := [.literal 0x61, .matched 1 9 none];
      let s := placed [0x61, 0x3C, 0x31, 0x2C, 0x39, 0x3E] 10;
      s.checkPhase .lzbD = none ∧ replay ts [] = some (List.replicate 10 0x61) ∧ s.input = ts.flatMap bracketForm ∧
      10 ≤ s.opnd.dstCap.toNat) ∧
    (∀ t ∈ [Token.literal 0x3C, .matched 1 9 none, .matched 4096 255 none], BracketFits t) := by
  refine ⟨by decide +kernel, ?_, by decide +kernel, ?_⟩
  · intro t ht
    rcases (by simpa using ht : t = .literal 0x61 ∨ t = .matched 1 15 (some 0x62) ∨ t = .matched 4095 15 none) with
      h | h | h <;> subst h <;> simp [CompactFits]
  · intro t ht
    rcases (by simpa using ht : t = .literal 0x3C ∨ t = .matched 1 9 none ∨ t = .matched 4096 255 none) with
      h | h | h <;> subst h <;> simp [BracketFits]

/-- A token cut off, and an offset one beyond the output; a token that is one symbol too long, with anything after it. -/
theorem witness_LzDecoderErrors :
    (let s := placed [0x00, 0x61, 0x00] 9;
      s.checkPhase .lzD = none ∧ s.input = [Token.literal 0x61].flatMap compactForm ++ [0x00]) ∧
    ¬ BeginsToken compactForm CompactFits [0x61] [0x00] ∧
    (let s := placed [0x61, 0x3C] 9;
      s.checkPhase .lzbD = none ∧ s.input = [Token.literal 0x61].flatMap bracketForm ++ [0x3C]) ∧
    ¬ BeginsToken bracketForm BracketFits [0x61] [0x3C] ∧ replayOne [0x61] (.matched 2 3 none) = none ∧
    (let s := placed [0x00, 0x61, 0x02, 0x00, 0x13, 0x00, 0x07] 3;
      s.checkPhase .lzD = none ∧ replayOne [0x61] (.matched 1 3 none) = some [0x61, 0x61, 0x61, 0x61] ∧
      s.opnd.dstCap.toNat < 4 ∧
      s.input = [Token.literal 0x61].flatMap compactForm ++ (compactForm (.matched 1 3 none) ++ [0x07])) ∧
    (let s := placed [0x61, 0x3C, 0x31, 0x2C, 0x33, 0x3E, 0x3C] 3;
      s.checkPhase .lzbD = none ∧ s.opnd.dstCap.toNat < 4 ∧
      s.input = [Token.literal 0x61].flatMap bracketForm ++ (bracketForm (.matched 1 3 none) ++ [0x3C])) := by
  refine ⟨by decide +kernel, ?_, by decide +kernel, ?_, by decide, by decide +kernel, by decide +kernel⟩
  · rintro ⟨tok, more, -, -, h⟩
    cases tok <;> simp [compactForm] at h
  · rintro ⟨tok, more, -, -, h⟩
    cases tok with
    | literal s =>
      simp only [bracketForm] at h
      split at h
      · simp at h
      · next hs => exact hs (by simpa using (List.cons.inj h).1.symm)
    | matched off len next => simp [bracketForm] at h

theorem witness_LzRoundTripIsExact :
    let s := placed [0x41] 2
    let u := placed [0x00, 0x41] 1
    ∃ t, exec .lzC s = .next t ∧ t.ctl.errCode = none ∧
      (1 ≤ s.opnd.window.toNat ∧ s.opnd.window.toNat ≤ 4096 ∧ 1 ≤ s.opnd.lookahead.toNat ∧ u.checkPhase .lzD = none ∧
        u.input = t.memRead s.opnd.dstAddr.toNat t.res.dstLen.toNat ∧ s.opnd.srcLen.toNat ≤ u.opnd.dstCap.toNat) :=
  roundTrip (by decide +kernel)

theorem witness_LzRoundTripBracket :
    let s := placed [0x3C] 2
    let u := placed [0x3C, 0x3C] 1
    ∃ t, exec .lzbC s = .next t ∧ t.ctl.errCode = none ∧
      (s.opnd.window.toNat ≤ 4096 ∧ u.checkPhase .lzbD = none ∧
        u.input = t.memRead s.opnd.dstAddr.toNat t.res.dstLen.toNat ∧ s.opnd.srcLen.toNat ≤ u.opnd.dstCap.toNat) :=
  roundTrip (by decide +kernel)

/-- Two states that differ in their tables and results. -/
theorem witness_CallsAreIndependentOfEarlierCommands :
    let s := placed [0x61, 0x61] 2
    let s' := { withCodes arenaA s with res := { Results.reset with dstLen := 7, statOrig := 9 } }
    s.params = s'.params ∧ s.opnd = s'.opnd ∧ s.input = s'.input ∧ Instr.rleCBin ∉ [Instr.hdecomp, .hdecompL] ∧ s ≠ s' ∧
    (∃ t, exec .rleCBin s = .next t ∧ t.ctl.errCode = none) ∧ ∃ t, exec .rleCBin s' = .next t ∧ t.ctl.errCode = none :=
  ⟨rfl, rfl, rfl, by decide, by decide +kernel, runs_ok (by decide +kernel), runs_ok (by decide +kernel)⟩

/-- The two invariants hold of a state with a command pending, and it steps. -/
theorem witness_StepKeepsRegisterInvariant : RegisterInv pendingNop ∧ ∃ t, step pendingNop = .next t :=
  ⟨{ memRising := rfl
     memInBuffer := fun _ h => nomatch h
     busyClear := fun _ => ⟨rfl, rfl, rfl, rfl⟩
     cmdPending := fun w h => by cases h; rfl
     notBoth := by decide
     doneClear := by decide
     errHasCode := by decide
     windowRange := by decide
     lookRange := by decide }, _, rfl⟩

theorem witness_StepKeepsTableInvariant : TableInv pendingNop ∧ ∃ t, step pendingNop = .next t :=
  ⟨{ nodesBound := by decide
     codesBound := by decide +kernel
     treeValid := fun h => by cases h
     codesOfTree := fun h => by cases h }, _, rfl⟩

end Sys2Proof.Tests
end

namespace Sys2Proof.Machine

/-! ## Trees, their codes and the arena (R59, R153)

What later proofs use of a tree that stands in an arena: it is the only one, its size, and what DeriveCodes makes
of it. -/

/-! ### A tree in an arena -/

theorem HTree.size_add_one (t : HTree) : t.size + 1 = 2 * t.symbols.length := by
  induction t with
  | leaf s f => rfl
  | node f l r ihl ihr =>
    simp only [HTree.size, HTree.symbols, List.length_append]
    omega

/-- Different symbols are at most 256. -/
theorem length_le_of_nodup_symbols {l : List Byte} (h : l.Nodup) : l.length ≤ 256 := by
  calc l.length ≤ Fintype.card Byte := h.length_le_card
    _ = FinEnum.card Byte := FinEnum.card_eq_fintypeCard.symm
    _ = 256 := FinEnum.card_bitVec 8

theorem HTree.At.length_indices {nodes : List Node} {i : Nat} {t : HTree} {is : List Nat} (h : HTree.At nodes i t is) :
    is.length = t.size := by
  induction h with
  | leaf _ => rfl
  | node _ _ _ ihl ihr =>
    simp only [HTree.size, List.length_cons, List.length_append, ihl, ihr]
    omega

/-- An index of an arena is the root of one tree at most. -/
theorem HTree.At.unique {nodes : List Node} {i : Nat} {t u : HTree} {is js : List Nat} (h : HTree.At nodes i t is)
    (h' : HTree.At nodes i u js) : t = u := by
  induction h generalizing u js with
  | leaf hi =>
    cases h' with
    | leaf hi' => rw [hi] at hi'; cases hi'; rfl
    | node hi' => rw [hi] at hi'; cases hi'
  | node hi _ _ ihl ihr =>
    cases h' with
    | leaf hi' => rw [hi] at hi'; cases hi'
    | node hi' hl hr =>
      rw [hi] at hi'
      cases hi'
      rw [ihl hl, ihr hr]

/-- Nodes put at the end of an arena change no tree in it. -/
theorem HTree.At.append {nodes : List Node} {i : Nat} {t : HTree} {is : List Nat} (h : HTree.At nodes i t is)
    (more : List Node) : HTree.At (nodes ++ more) i t is := by
  have grow {i : Nat} {n : Node} (hi : nodes[i]? = some n) : (nodes ++ more)[i]? = some n := by
    rw [List.getElem?_append_left (List.getElem?_eq_some_iff.mp hi).1, hi]
  induction h with
  | leaf hi => exact .leaf (grow hi)
  | node hi _ _ ihl ihr => exact .node (grow hi) ihl ihr

theorem Arena.Holds.unique {a : Arena} {t u : HTree} (h : a.Holds t) (h' : a.Holds u) : t = u := by
  obtain ⟨root, is, hr, hat, -⟩ := h
  obtain ⟨root', js, hr', hat', -⟩ := h'
  rw [hr] at hr'
  cases hr'
  exact hat.unique hat'

theorem Arena.Holds.length_nodes {a : Arena} {t : HTree} (h : a.Holds t) : a.nodes.length = t.size := by
  obtain ⟨root, is, -, hat, hp⟩ := h
  rw [← hat.length_indices, hp.length_eq, List.length_range]

/-- A valid arena has at most 511 nodes: 256 leaves and 255 internal nodes (R6). -/
theorem Arena.Valid.length_le {a : Arena} (h : a.Valid) : a.nodes.length ≤ 511 := by
  rcases h with ⟨-, he⟩ | ⟨t, ht, hn⟩
  · simp [he]
  · have hs := t.size_add_one
    have hl := length_le_of_nodup_symbols hn
    rw [ht.length_nodes]
    omega

/-! ### The codes of a tree -/

/-- The path to the leaf of a symbol, if the tree has one (R153). -/
def HTree.pathOf (t : HTree) (x : Byte) : Option Bits := (t.paths.find? (fun p => p.1 = x)).map Prod.snd

theorem HTree.pathOf_leaf (s : Byte) (f : Word) (x : Byte) :
    (HTree.leaf s f).pathOf x = if s = x then some [] else none := by
  by_cases h : s = x <;> simp [HTree.pathOf, HTree.paths, h]

theorem HTree.pathOf_node (f : Word) (l r : HTree) (x : Byte) :
    (HTree.node f l r).pathOf x = ((l.pathOf x).map (false :: ·)).or ((r.pathOf x).map (true :: ·)) := by
  simp only [HTree.pathOf, HTree.paths, List.find?_append, List.find?_map, Option.map_or, Option.map_map]
  rfl

theorem HTree.codeOf_leaf (s : Byte) (f : Word) (x : Byte) :
    (HTree.leaf s f).codeOf x = if s = x then [false] else [] := by
  by_cases h : s = x <;> simp [HTree.codeOf, HTree.codes, h]

theorem HTree.codeOf_node (f : Word) (l r : HTree) (x : Byte) :
    (HTree.node f l r).codeOf x = ((HTree.node f l r).pathOf x).getD [] := by
  unfold HTree.codeOf HTree.codes HTree.pathOf
  cases (HTree.node f l r).paths.find? (fun p => p.1 = x) <;> rfl

/-- Exactly the symbols of a tree have a path. -/
theorem HTree.pathOf_eq_none_iff (t : HTree) (x : Byte) : t.pathOf x = none ↔ x ∉ t.symbols := by
  induction t with
  | leaf s f =>
    rw [HTree.pathOf_leaf]
    by_cases h : x = s <;> simp [HTree.symbols, h, eq_comm]
  | node f l r ihl ihr => simp [HTree.pathOf_node, HTree.symbols, ihl, ihr]

/-- A path is shorter than the number of leaves. -/
theorem HTree.length_pathOf_lt {t : HTree} {x : Byte} {p : Bits} (h : t.pathOf x = some p) :
    p.length < t.symbols.length := by
  induction t generalizing p with
  | leaf s f =>
    rw [HTree.pathOf_leaf] at h
    split at h
    · cases h
      exact Nat.one_pos
    · cases h
  | node f l r ihl ihr =>
    simp only [HTree.pathOf_node, Option.or_eq_some_iff, Option.map_eq_some_iff] at h
    have hl := l.size_add_one
    have hr := r.size_add_one
    simp only [HTree.symbols, List.length_append]
    obtain ⟨q, hq, rfl⟩ | ⟨-, q, hq, rfl⟩ := h
    · have := ihl hq
      simp only [List.length_cons]
      omega
    · have := ihr hq
      simp only [List.length_cons]
      omega

/-- A code of a tree with different symbols has at most 255 bits (R60). -/
theorem HTree.length_codeOf_le {t : HTree} (h : t.symbols.Nodup) (x : Byte) : (t.codeOf x).length ≤ 255 := by
  cases t with
  | leaf s f =>
    rw [HTree.codeOf_leaf]
    split <;> simp
  | node f l r =>
    rw [HTree.codeOf_node]
    cases hp : (HTree.node f l r).pathOf x with
    | none => simp
    | some p =>
      have := HTree.length_pathOf_lt hp
      have := length_le_of_nodup_symbols h
      simp only [Option.getD_some]
      omega

/-! ### Walk and DeriveCodes -/

/-- Walk stores under each symbol of the tree its path behind the one walked so far, and no other entry (R153). -/
theorem tblGet_walkCodes {nodes : List Node} {i : Nat} {t : HTree} {is : List Nat} (h : HTree.At nodes i t is)
    (hn : t.symbols.Nodup) {fuel : Nat} (hf : t.size ≤ fuel) (path : Bits) (ct : CodeTable) (x : Byte) :
    tblGet (walkCodes nodes fuel i path ct) x = ((t.pathOf x).map (path ++ ·)).getD (tblGet ct x) := by
  induction h generalizing fuel path ct with
  | @leaf i s f hi =>
    obtain _ | fuel := fuel
    · simp [HTree.size] at hf
    simp only [walkCodes, hi, HTree.pathOf_leaf]
    by_cases hx : s = x
    · subst hx
      simp
    · simp [hx, tblGet_tblSet_other _ _ hx]
  | @node i l r f tl tr il ir hi _ _ ihl ihr =>
    simp only [HTree.size] at hf
    obtain _ | fuel := fuel
    · omega
    obtain ⟨hnl, hnr, hd⟩ := List.nodup_append.mp hn
    simp only [walkCodes, hi]
    rw [ihr hnr (by omega), ihl hnl (by omega), HTree.pathOf_node]
    cases hl : tl.pathOf x with
    | none => cases tr.pathOf x <;> simp
    | some p =>
      have hxl : x ∈ tl.symbols := by
        by_contra hx
        simp [(tl.pathOf_eq_none_iff x).mpr hx] at hl
      have hr : tr.pathOf x = none := (tr.pathOf_eq_none_iff x).mpr fun hx => hd x hxl x hx rfl
      simp [hr]

/-- DeriveCodes of an arena that holds a tree gives the codes of that tree (R153). -/
theorem tblGet_deriveCodes {a : Arena} {t : HTree} (h : a.Holds t) (hn : t.symbols.Nodup) (x : Byte) :
    tblGet (deriveCodes a) x = t.codeOf x := by
  have hlen := h.length_nodes
  obtain ⟨root, is, hr, hat, -⟩ := h
  unfold deriveCodes
  rw [hr]
  cases hat with
  | @leaf _ s f hi =>
    simp only [hi, HTree.codeOf_leaf]
    by_cases hx : s = x
    · subst hx
      simp
    · simp [hx, tblGet_tblSet_other _ _ hx]
  | @node _ l r f tl tr il ir hi hl hr' =>
    simp only [hi, HTree.codeOf_node]
    rw [tblGet_walkCodes (.node hi hl hr') hn hlen.ge]
    cases (HTree.node f tl tr).pathOf x <;> simp

/-- DeriveCodes of the empty arena gives no symbol a code (R153). -/
theorem tblGet_deriveCodes_none {a : Arena} (h : a.root = none) (x : Byte) : tblGet (deriveCodes a) x = [] := by
  simp [deriveCodes, h]

end Sys2Proof.Machine

namespace Sys2Proof.Machine

/-! ## BuildTree gives a tree (R151)

The merge loop keeps a forest over the nodes so far; it ends with one tree or, without leaves, with none. -/

/-! ### The forest of the merge loop -/

/-- A tree that stands in an arena: the index of its root, the tree, the indices it takes. -/
structure Rooted where
  root : Nat
  tree : HTree
  idx  : List Nat

/-- The invariant of the merge loop (R151): the trees stand in the arena with their roots at the live indices, take
every index once, and have these leaf symbols. -/
structure Forest (nodes : List Node) (live : List Nat) (syms : List Byte) (ts : List Rooted) : Prop where
  stands  : ∀ x ∈ ts, HTree.At nodes x.root x.tree x.idx
  roots   : (ts.map (·.root)).Perm live
  covers  : (ts.flatMap (·.idx)).Perm (List.range nodes.length)
  symbols : (ts.flatMap (·.tree.symbols)).Perm syms

/-- A live index is the root of one of the trees, and the other trees have the other live indices as roots. -/
theorem exists_rooted_of_mem {ts : List Rooted} {live : List Nat} (h : (ts.map (·.root)).Perm live) {a : Nat}
    (ha : a ∈ live) : ∃ x us, x.root = a ∧ ts.Perm (x :: us) ∧ (us.map (·.root)).Perm (live.erase a) := by
  obtain ⟨x, hx, rfl⟩ := List.mem_map.mp (h.mem_iff.mpr ha)
  obtain ⟨l, r, rfl⟩ := List.append_of_mem hx
  refine ⟨x, l ++ r, rfl, List.perm_middle, List.Perm.cons_inv (a := x.root) ?_⟩
  exact ((List.perm_middle.map _).symm.trans h).trans (List.perm_cons_erase ha)

/-- One round of the merge loop: two trees become the subtrees of a new node at the end of the arena (R151). -/
theorem Forest.merge {nodes : List Node} {live : List Nat} {syms : List Byte} {ts : List Rooted}
    (h : Forest nodes live syms ts) {a c : Nat} (ha : a ∈ live) (hc : c ∈ live.erase a) (f : Word) :
    ∃ us, Forest (nodes ++ [.internal f a c]) ((live.erase a).erase c ++ [nodes.length]) syms us := by
  obtain ⟨x, us, rfl, hx, hus⟩ := exists_rooted_of_mem h.roots ha
  obtain ⟨y, vs, rfl, hy, hvs⟩ := exists_rooted_of_mem hus hc
  have hts : ts.Perm (x :: y :: vs) := hx.trans (hy.cons x)
  have stands : ∀ z ∈ x :: y :: vs, HTree.At nodes z.root z.tree z.idx := fun z hz => h.stands z (hts.mem_iff.mpr hz)
  have covers := (hts.flatMap_right (·.idx)).symm.trans h.covers
  have symbols := (hts.flatMap_right (·.tree.symbols)).symm.trans h.symbols
  refine ⟨⟨nodes.length, .node f x.tree y.tree, nodes.length :: (x.idx ++ y.idx)⟩ :: vs, ?_, ?_, ?_, ?_⟩
  · intro z hz
    rcases List.mem_cons.mp hz with rfl | hz
    · exact .node (by simp) ((stands x (by simp)).append _) ((stands y (by simp)).append _)
    · exact (stands z (by simp [hz])).append _
  · exact (hvs.cons nodes.length).trans (List.perm_append_singleton _ _).symm
  · have hlen : (nodes ++ [Node.internal f x.root y.root]).length = nodes.length + 1 := by simp
    rw [hlen, List.range_succ]
    refine List.Perm.trans ?_ (List.perm_append_singleton _ _).symm
    simpa [List.flatMap_cons, HTree.symbols] using covers
  · simpa [List.flatMap_cons, HTree.symbols] using symbols

theorem leastOf_mem {nodes : List Node} {live : List Nat} {a : Nat} (h : leastOf nodes live = some a) : a ∈ live := by
  induction live generalizing a with
  | nil => cases h
  | cons i rest ih =>
    unfold leastOf at h
    split at h
    · cases h
      exact List.mem_cons_self
    · next j hj =>
      split at h <;> cases h
      · exact List.mem_cons_of_mem _ (ih hj)
      · exact List.mem_cons_self

theorem leastOf_eq_none {nodes : List Node} {live : List Nat} (h : leastOf nodes live = none) : live = [] := by
  cases live with
  | nil => rfl
  | cons i rest =>
    unfold leastOf at h
    split at h
    · cases h
    · split at h <;> cases h

/-- The merge loop ends with one tree of all the leaves, or with none where there was none (R151). -/
theorem mergeLoop_forest {fuel : Nat} {nodes : List Node} {live : List Nat} {syms : List Byte} {ts : List Rooted}
    (h : Forest nodes live syms ts) (hf : live.length ≤ fuel + 1) :
    (mergeLoop fuel nodes live).2.length ≤ 1 ∧
      ∃ us, Forest (mergeLoop fuel nodes live).1 (mergeLoop fuel nodes live).2 syms us := by
  induction fuel generalizing nodes live ts with
  | zero => exact ⟨hf, ts, h⟩
  | succ fuel ih =>
    unfold mergeLoop
    split
    · next hnone => exact ⟨by simp [leastOf_eq_none hnone], ts, h⟩
    · next a hleast =>
      have ha := leastOf_mem hleast
      dsimp only
      split
      · next hnone =>
        have hl := List.length_erase_of_mem ha
        rw [leastOf_eq_none hnone, List.length_nil] at hl
        have hone : live.length ≤ 1 := by omega
        exact ⟨hone, ts, h⟩
      · next c hleast' =>
        have hc := leastOf_mem hleast'
        obtain ⟨us, hus⟩ := h.merge ha hc (freqAt nodes a + freqAt nodes c)
        refine ih hus ?_
        have hl := List.length_erase_of_mem ha
        have hl' := List.length_erase_of_mem hc
        simp only [List.length_append, List.length_singleton]
        omega

/-! ### BuildTree -/

/-- The symbols a frequency table counts, in ascending order. -/
def seedSymbols (ft : FreqTable) : List Byte :=
  ((List.range 256).map (BitVec.ofNat 8)).filter fun s => tblGet ft s ≠ 0

theorem nodup_seedSymbols (ft : FreqTable) : (seedSymbols ft).Nodup := by
  refine List.Nodup.filter _ (List.Nodup.map_on ?_ List.nodup_range)
  intro i hi j hj hij
  have hij : (BitVec.ofNat 8 i).toNat = (BitVec.ofNat 8 j).toNat := congrArg BitVec.toNat hij
  rw [List.mem_range] at hi hj
  rwa [BitVec.toNat_ofNat, BitVec.toNat_ofNat, Nat.mod_eq_of_lt hi, Nat.mod_eq_of_lt hj] at hij

theorem seedLeaves_eq (ft : FreqTable) : seedLeaves ft = (seedSymbols ft).map fun s => .leaf s (tblGet ft s) := by
  unfold seedLeaves seedSymbols
  rw [List.filter_map, List.map_map, ← List.filterMap_eq_map, List.filterMap_filter]
  congr 1
  funext k
  by_cases h : tblGet ft (BitVec.ofNat 8 k) = 0 <;> simp [h]

/-- Leaves alone are a forest of single leaves (R151). -/
theorem forest_leaves (syms : List Byte) (g : Byte → Word) :
    Forest (syms.map fun s => .leaf s (g s)) (List.range syms.length) syms
      (syms.zipIdx.map fun p => ⟨p.2, .leaf p.1 (g p.1), [p.2]⟩) where
  stands := by
    intro x hx
    obtain ⟨⟨s, k⟩, hp, rfl⟩ := List.mem_map.mp hx
    have hs : syms[k]? = some s := List.mem_zipIdx_iff_getElem?.mp hp
    exact .leaf (by simp [hs])
  roots := by
    rw [List.map_map, List.range_eq_range']
    exact .of_eq (syms.zipIdx_map_snd 0)
  covers := by
    rw [List.flatMap_map, List.length_map, List.range_eq_range', ← List.map_eq_flatMap]
    exact .of_eq (syms.zipIdx_map_snd 0)
  symbols := by
    rw [List.flatMap_map]
    refine .of_eq (Eq.trans ?_ (syms.zipIdx_map_fst 0))
    exact List.map_eq_flatMap.symm

/-- A forest of at most one live index is the empty arena or one tree. -/
theorem Forest.of_length_le_one {nodes : List Node} {live : List Nat} {syms : List Byte} {ts : List Rooted}
    (h : Forest nodes live syms ts) (hone : live.length ≤ 1) :
    (live.head? = none ∧ nodes = [] ∧ syms = []) ∨
      ∃ t : HTree, Arena.Holds ⟨nodes, live.head?⟩ t ∧ t.symbols.Perm syms := by
  obtain ⟨stands, roots, covers, symbols⟩ := h
  match ts, live with
  | [], live =>
    have hlive : live = [] := by simpa using roots
    have hsyms : syms = [] := by simpa using symbols
    have hnodes : nodes = [] := by simpa [eq_comm] using covers.length_eq
    exact .inl ⟨by simp [hlive], hnodes, hsyms⟩
  | [x], live =>
    have hlive : live = [x.root] := by simpa [eq_comm] using roots
    have holds : Arena.Holds ⟨nodes, live.head?⟩ x.tree :=
      ⟨x.root, x.idx, by simp [hlive], stands x (by simp), by simpa using covers⟩
    exact .inr ⟨x.tree, holds, by simpa using symbols⟩
  | x :: y :: ts, live =>
    have := roots.length_eq
    simp only [List.length_map, List.length_cons] at this
    omega

/-- BuildTree gives the empty arena where no symbol is counted, else a tree whose leaves are the counted symbols
(R151). -/
theorem buildTree_cases (ft : FreqTable) :
    ((buildTree ft).root = none ∧ (buildTree ft).nodes = [] ∧ seedSymbols ft = []) ∨
      ∃ t : HTree, (buildTree ft).Holds t ∧ t.symbols.Perm (seedSymbols ft) := by
  have hlen : (seedLeaves ft).length = (seedSymbols ft).length := by rw [seedLeaves_eq, List.length_map]
  have hseed := forest_leaves (seedSymbols ft) (tblGet ft)
  rw [← seedLeaves_eq, ← hlen] at hseed
  obtain ⟨hone, us, hus⟩ := mergeLoop_forest (fuel := (seedLeaves ft).length) hseed (by simp)
  exact hus.of_length_le_one hone

/-- BuildTree gives a valid arena (R59). -/
theorem buildTree_valid (ft : FreqTable) : (buildTree ft).Valid := by
  obtain ⟨hr, hn, -⟩ | ⟨t, ht, hs⟩ := buildTree_cases ft
  · exact .inl ⟨hr, hn⟩
  · exact .inr ⟨t, ht, hs.nodup_iff.mpr (nodup_seedSymbols ft)⟩

end Sys2Proof.Machine

namespace Sys2Proof.Machine

/-! ## ParseTree gives a tree (R158)

ParseNode puts a tree in pre-order behind the nodes so far, and a tree in pre-order stands in the arena. -/

/-! ### The arena of a parsed tree -/

@[simp] theorem HTree.length_preorder (t : HTree) (i : Nat) : (t.preorder i).length = t.size := by
  induction t generalizing i with
  | leaf s f => rfl
  | node f l r ihl ihr =>
    simp only [HTree.preorder, HTree.size, List.length_cons, List.length_append, ihl, ihr]
    omega

/-- A tree in pre-order stands in the arena from its first node on (R158). -/
theorem HTree.at_preorder (t : HTree) (pre post : List Node) :
    HTree.At (pre ++ t.preorder pre.length ++ post) pre.length t (List.range' pre.length t.size) := by
  induction t generalizing pre post with
  | leaf s f => exact .leaf (by simp [HTree.preorder])
  | node f l r ihl ihr =>
    have hl := ihl (pre ++ [.internal f (pre.length + 1) (pre.length + 1 + l.size)])
      (r.preorder (pre.length + 1 + l.size) ++ post)
    have hr := ihr (pre ++ .internal f (pre.length + 1) (pre.length + 1 + l.size) :: l.preorder (pre.length + 1)) post
    have hlen : pre.length + (l.size + 1) = pre.length + 1 + l.size := by omega
    simp only [List.length_append, List.length_cons, List.length_nil, HTree.length_preorder, List.append_assoc,
      List.cons_append, List.nil_append, Nat.zero_add, hlen] at hl hr
    have hidx : List.range' pre.length (HTree.node f l r).size =
        pre.length :: (List.range' (pre.length + 1) l.size ++ List.range' (pre.length + 1 + l.size) r.size) := by
      rw [HTree.size, Nat.add_assoc, Nat.add_comm, List.range'_succ, List.range'_append_1]
    rw [hidx]
    refine .node (l := pre.length + 1) (r := pre.length + 1 + l.size) (by simp [HTree.preorder]) ?_ ?_
    · simpa [HTree.preorder] using hl
    · simpa [HTree.preorder] using hr

theorem holds_treeArena (t : HTree) : (treeArena (some t)).Holds t := by
  refine ⟨0, List.range' 0 t.size, rfl, by simpa [treeArena] using t.at_preorder [] [], ?_⟩
  simp [treeArena, List.range_eq_range']

theorem treeArena_valid {o : Option HTree} (h : (treeSymbols o).Nodup) : (treeArena o).Valid := by
  cases o with
  | none => exact .inl ⟨rfl, rfl⟩
  | some t => exact .inr ⟨t, holds_treeArena t, h⟩

/-- The symbol of a node, if it is a leaf. -/
def nodeSymbol : Node → Option Byte
  | .leaf s _ => some s
  | .internal _ _ _ => none

@[simp] theorem nodeSymbol_leaf (s : Byte) (f : Word) : nodeSymbol (.leaf s f) = some s := rfl
@[simp] theorem nodeSymbol_internal (f : Word) (l r : Nat) : nodeSymbol (.internal f l r) = none := rfl

theorem HTree.symbols_preorder (t : HTree) (i : Nat) : (t.preorder i).filterMap nodeSymbol = t.symbols := by
  induction t generalizing i with
  | leaf s f => rfl
  | node f l r ihl ihr =>
    rw [HTree.preorder, List.filterMap_cons_none rfl, List.filterMap_append, ihl, ihr, HTree.symbols]

theorem symbolSeen_iff (nodes : List Node) (x : Byte) :
    symbolSeen nodes x = true ↔ x ∈ nodes.filterMap nodeSymbol := by
  simp only [symbolSeen, List.any_eq_true, List.mem_filterMap]
  refine exists_congr fun n => and_congr_right fun _ => ?_
  cases n <;> simp

/-- ParseNode answers the index it was begun at and puts one tree in pre-order behind the nodes so far, whose
leaves have symbols not seen before (R158). -/
theorem parseNode_preorder {md : List Byte} {fuel p i p' : Nat} {nodes nodes' : List Node}
    (h : parseNode md fuel p nodes = .ok (i, p', nodes')) :
    i = nodes.length ∧ ∃ t : HTree, nodes' = nodes ++ t.preorder nodes.length ∧
      ((nodes.filterMap nodeSymbol).Nodup → (nodes.filterMap nodeSymbol ++ t.symbols).Nodup) := by
  induction fuel generalizing p i p' nodes nodes' with
  | zero => cases h
  | succ fuel ih =>
    unfold parseNode at h
    iterate 3 (split at h; · cases h)
    split at h
    · iterate 3 (split at h; · cases h)
      split at h
      · cases h
      · next hseen =>
        cases h
        refine ⟨rfl, .leaf (byteOf md (p + 1)) (wordOf md (p + 2)), rfl, fun hn => ?_⟩
        rw [symbolSeen_iff] at hseen
        exact List.nodup_append_comm.mp (hn.cons hseen)
    · split at h
      · cases h
      · dsimp only at h
        split at h
        · cases h
        · next l p1 nodes1 h1 =>
          split at h
          · cases h
          · next r p2 nodes2 h2 =>
            cases h
            obtain ⟨rfl, tl, rfl, hnl⟩ := ih h1
            obtain ⟨rfl, tr, rfl, hnr⟩ := ih h2
            refine ⟨rfl, .node (wordOf md (p + 1)) tl tr, ?_, fun hn => ?_⟩
            · have hlen : nodes.length + (tl.size + 1) = nodes.length + 1 + tl.size := by omega
              simp [HTree.preorder, hlen]
            · simp only [List.filterMap_append, List.filterMap_cons, nodeSymbol_internal, List.filterMap_nil,
                List.append_nil, HTree.symbols_preorder] at hnl hnr
              simpa [HTree.symbols] using hnr (hnl hn)

theorem parseTree_eq_treeArena {md : List Byte} {a : Arena} (h : parseTree md = .ok a) :
    ∃ o : Option HTree, a = treeArena o ∧ (treeSymbols o).Nodup := by
  unfold parseTree at h
  split at h
  · split at h <;> cases h
    exact ⟨none, rfl, List.nodup_nil⟩
  · split at h
    · cases h
    · next root p nodes hp =>
      split at h <;> cases h
      obtain ⟨rfl, t, rfl, hn⟩ := parseNode_preorder hp
      exact ⟨some t, by simp [treeArena], by simpa [HTree.symbols_preorder, treeSymbols] using hn⟩

/-- ParseTree gives a valid arena (R59). -/
theorem parseTree_valid {md : List Byte} {a : Arena} (h : parseTree md = .ok a) : a.Valid := by
  obtain ⟨o, rfl, hn⟩ := parseTree_eq_treeArena h
  exact treeArena_valid hn
end Sys2Proof.Machine

namespace Sys2Proof.Machine

/-! ## Steps, tables and the invariant of the tables (O59) -/

/-! ### What a step can do -/

/-- From s to t nothing of the block changed: at most the host's side and the count of draws. -/
structure SameBlock (s t : State) : Prop where
  params : t.params = s.params
  ctl    : t.ctl = s.ctl
  opnd   : t.opnd = s.opnd
  res    : t.res = s.res
  tbl    : t.tbl = s.tbl
  mem    : t.mem = s.mem

theorem SameBlock.refl (s : State) : SameBlock s s := ⟨rfl, rfl, rfl, rfl, rfl, rfl⟩

theorem SameBlock.trans {s t u : State} (h : SameBlock s t) (k : SameBlock t u) : SameBlock s u :=
  ⟨k.params.trans h.params, k.ctl.trans h.ctl, k.opnd.trans h.opnd, k.res.trans h.res, k.tbl.trans h.tbl,
    k.mem.trans h.mem⟩

/-- A register read changes nothing of the block (R65). -/
theorem sameBlock_hostReadsReg (s : State) (r : Reg) : SameBlock s (s.hostReadsReg r).2 := by
  unfold State.hostReadsReg
  split <;> exact ⟨rfl, rfl, rfl, rfl, rfl, rfl⟩

theorem sameBlock_received (s : State) (x : HostRead) : SameBlock s (s.received x) := ⟨rfl, rfl, rfl, rfl, rfl, rfl⟩

theorem sameBlock_hostReadsOffset (s : State) (addr off : Nat) : SameBlock s (s.hostReadsOffset addr off) := by
  unfold State.hostReadsOffset
  split
  · exact (sameBlock_hostReadsReg s _).trans (sameBlock_received _ _)
  · exact sameBlock_received _ _

/-- Everything an operation of the host can do to the block: nothing, a register write, a write of buffer bytes inside
the buffer, a reset (R23, R70, R97, R320). -/
theorem hostOperation_cases {op : HostOp} {s t : State} (h : hostOperation op s = .next t) :
    SameBlock s t ∨ (∃ r v, t = s.hostWritesReg r v) ∨
      (∃ a bs, (bs.length = 0 ∨ a + bs.length ≤ s.params.bufSize) ∧ t = { s with mem := Memory.write s.mem a bs }) ∨
      t = s.resetBlock := by
  cases op with
  | writeReg addr size v =>
    simp only [hostOperation] at h
    split at h <;> cases h
    unfold State.hostWritesOffset
    split
    · exact .inr (.inl ⟨_, _, rfl⟩)
    · exact .inl (.refl s)
  | readReg addr size =>
    simp only [hostOperation] at h
    split at h <;> cases h
    exact .inl (sameBlock_hostReadsOffset _ _ _)
  | writeMem a bs =>
    simp only [hostOperation] at h
    split at h <;> cases h
    next hfault =>
      refine .inr (.inr (.inl ⟨a, bs, ?_, rfl⟩))
      unfold State.hostMemFault at hfault
      split at hfault
      · cases hfault
      · omega
  | readMem a n =>
    simp only [hostOperation] at h
    split at h <;> cases h
    exact .inl (sameBlock_received _ _)
  | wait =>
    simp only [hostOperation] at h
    cases h
    have hread := sameBlock_hostReadsOffset s (s.params.regBase + Reg.status.offset) Reg.status.offset
    split
    · exact .inl (hread.trans ⟨rfl, rfl, rfl, rfl, rfl, rfl⟩)
    · exact .inl hread
  | hardReset =>
    cases h
    exact .inr (.inr (.inr rfl))

/-- Everything a step can do (R83, R110): nothing to the block, the command step on the pending word, or one operation
of the host. -/
theorem step_cases {s t : State} (h : step s = .next t) :
    ∃ s₀, SameBlock s s₀ ∧
      (t = s₀ ∨ (∃ w, s₀.ctl.seq = .pending w ∧ commandStep w s₀ = .next t) ∨ ∃ op, hostOperation op s₀ = .next t) := by
  have hpass : SameBlock s s.passTurn := ⟨rfl, rfl, rfl, rfl, rfl, rfl⟩
  unfold step agentStep at h
  split at h
  · refine ⟨s.passTurn, hpass, ?_⟩
    unfold engineTurn at h
    split at h
    · next w hw => exact .inr (.inl ⟨w, hw, h⟩)
    · cases h
      exact .inl rfl
  · unfold hostTurn at h
    split at h
    · cases h
      exact ⟨s.passTurn, hpass, .inl rfl⟩
    · next op rest _ =>
      exact ⟨{ s.passTurn with host := { s.passTurn.host with prog := rest } },
        hpass.trans ⟨rfl, rfl, rfl, rfl, rfl, rfl⟩, .inr (.inr ⟨op, h⟩)⟩

/-- The command step runs the decoded command or raises ILLEGAL_CMD(0) (R110, R111). -/
theorem commandStep_cases {w : Word} {s t : State} (h : commandStep w s = .next t) :
    (∃ i, decode w = .ok i ∧ exec i s = .next t) ∨ t = s.completeError ⟨.illegalCmd, 0⟩ := by
  unfold commandStep at h
  split at h
  · next i hi => exact .inl ⟨i, hi, h⟩
  · cases h
    exact .inr rfl

/-- Everything a register write can do (R23, R25 to R27, R50, R54, R64): a reset, at most IRQ_EN, CMD_OVF and the
selectors, the acknowledgement of a completion, an accepted command, or the operands. -/
theorem hostWritesReg_cases (s : State) (r : Reg) (v : Word) :
    s.hostWritesReg r v = s.resetBlock ∨
    (∃ b o n c, s.hostWritesReg r v =
      { s with ctl := { s.ctl with irqEn := b, cmdOvf := o, nodeSel := n, codeSel := c } }) ∨
    s.hostWritesReg r v = s.writeStatus v ∨
    (s.busy = false ∧ s.hostWritesReg r v = s.acceptCommand v) ∨
    s.hostWritesReg r v = { s with opnd := s.opnd.written r v } := by
  unfold State.hostWritesReg
  split
  · unfold State.writeCtrl
    split
    · exact .inl rfl
    · exact .inr (.inl ⟨_, _, _, _, rfl⟩)
  · exact .inr (.inr (.inl rfl))
  · cases hb : s.busy with
    | true => exact .inr (.inl ⟨_, true, _, _, State.writeCmd_busy hb v⟩)
    | false => exact .inr (.inr (.inr (.inl ⟨rfl, State.writeCmd_idle hb v⟩)))
  · exact .inr (.inl ⟨_, _, _, _, rfl⟩)
  · exact .inr (.inl ⟨_, _, _, _, rfl⟩)
  · split
    · exact .inr (.inl ⟨_, _, _, _, rfl⟩)
    · exact .inr (.inr (.inr (.inr rfl)))

/-- A step leaves the tables, resets them, or runs a command on them. -/
theorem step_tbl {s t : State} (h : step s = .next t) :
    t.tbl = s.tbl ∨ t.tbl = Tables.reset ∨ ∃ i s₀, s₀.tbl = s.tbl ∧ exec i s₀ = .next t := by
  obtain ⟨s₀, hs, rfl | ⟨w, -, hw⟩ | ⟨op, hop⟩⟩ := step_cases h
  · exact .inl hs.tbl
  · obtain ⟨i, -, hi⟩ | rfl := commandStep_cases hw
    · exact .inr (.inr ⟨i, s₀, hs.tbl, hi⟩)
    · exact .inl hs.tbl
  · obtain hsame | ⟨r, v, rfl⟩ | ⟨a, bs, -, rfl⟩ | rfl := hostOperation_cases hop
    · exact .inl (hsame.tbl.trans hs.tbl)
    · obtain e | ⟨_, _, _, _, e⟩ | e | ⟨-, e⟩ | e := hostWritesReg_cases s₀ r v <;> rw [e]
      · exact .inr (.inl rfl)
      all_goals exact .inl hs.tbl
    · exact .inl hs.tbl
    · exact .inr (.inl rfl)

/-! ### What a command does to the tables -/

/-- The tables a command leaves when it ends with DONE (R58 to R61): one case for each command that writes a table. -/
inductive TablesAfter (s : State) : Instr → Tables → Prop where
  | counted :
      TablesAfter s .freq { s.tbl.cleared (tableUseOf .freq) with ft := countFreq s.input, fv := true }
  | built :
      TablesAfter s .tbuild { s.tbl.cleared (tableUseOf .tbuild) with arena := buildTree s.tbl.ft, tv := true }
  | coded :
      TablesAfter s .cgen { s.tbl.cleared (tableUseOf .cgen) with ct := deriveCodes s.tbl.arena, cv := true }
  | parsed {i : Instr} {a : Arena} : i ∈ [Instr.tdes, .hdecomp, .hdecompL] → parseTree s.metadata = .ok a →
      TablesAfter s i { s.tbl.cleared (tableUseOf i) with arena := a, tv := true }
  | composed :
      TablesAfter s .hcomp ⟨countFreq s.input, buildTree (countFreq s.input),
        deriveCodes (buildTree (countFreq s.input)), true, true, true⟩
  | same {i : Instr} : tableUseOf i = .nothing → TablesAfter s i s.tbl

theorem execBody_tables {i : Instr} {s u : State} (h : execBody i s = .ok u) : TablesAfter s i u.tbl := by
  cases i <;> simp only [execBody] at h
  case freq => cases h; exact .counted
  case tbuild => cases h; exact .built
  case cgen => cases h; exact .coded
  case nop => cases h; exact .same rfl
  case rleD => cases h; exact .same rfl
  case tdes =>
    split at h <;> cases h
    next a ha => exact .parsed (by decide) ha
  case hcomp =>
    split at h
    · cases h
    · split at h <;> cases h
      exact .composed
  case hdecomp =>
    split at h
    · cases h
    · next a ha =>
      split at h <;> cases h
      exact .parsed (by decide) ha
  case hdecompL =>
    split at h
    · cases h
    · next a ha =>
      split at h <;> cases h
      exact .parsed (by decide) ha
  all_goals
    split at h <;> cases h
    exact .same rfl

/-! ### The invariant of the tables -/

/-- The invariant of the tables is about the arena, the code table, TV and CV alone. -/
theorem TableInv.congr {s t : State} (h : TableInv s) (ha : t.tbl.arena = s.tbl.arena) (hc : t.tbl.ct = s.tbl.ct)
    (ht : t.tbl.tv = s.tbl.tv) (hv : t.tbl.cv = s.tbl.cv) : TableInv t := by
  obtain ⟨nodesBound, codesBound, treeValid, codesOfTree⟩ := h
  rw [← ha] at nodesBound
  rw [← hc] at codesBound
  rw [← ht, ← ha] at treeValid
  rw [← ht, ← hv, ← ha, ← hc] at codesOfTree
  exact ⟨nodesBound, codesBound, treeValid, codesOfTree⟩

theorem TableInv.of_tbl_eq {s t : State} (h : TableInv s) (e : t.tbl = s.tbl) : TableInv t :=
  h.congr (by rw [e]) (by rw [e]) (by rw [e]) (by rw [e])

/-- Tables with CV = 0 keep the invariant when they keep the bounds and the arena is valid while TV = 1. -/
theorem tableInv_of_cv_clear {t : State} (hn : t.tbl.arena.nodes.length ≤ 511)
    (hc : ∀ sym : Byte, (tblGet t.tbl.ct sym).length ≤ 255) (ht : t.tbl.tv = true → t.tbl.arena.Valid)
    (hv : t.tbl.cv = false) : TableInv t where
  nodesBound := hn
  codesBound := hc
  treeValid := ht
  codesOfTree h := by simp [hv] at h

/-- A valid arena and the codes derived from it have the invariant. -/
theorem tableInv_of_deriveCodes {t : State} (ha : t.tbl.arena.Valid) (ht : t.tbl.tv = true)
    (hc : t.tbl.ct = deriveCodes t.tbl.arena) : TableInv t where
  nodesBound := ha.length_le
  codesBound sym := by
    rw [hc]
    obtain ⟨hr, -⟩ | ⟨u, hu, hn⟩ := ha
    · simp [tblGet_deriveCodes_none hr]
    · rw [tblGet_deriveCodes hu hn]
      exact HTree.length_codeOf_le hn sym
  treeValid _ := ha
  codesOfTree _ := by
    rw [hc]
    refine ⟨ht, fun hr sym => tblGet_deriveCodes_none hr sym, fun u hu sym => ?_⟩
    obtain ⟨hr, -⟩ | ⟨u', hu', hn⟩ := ha
    · obtain ⟨root, is, hr', -⟩ := hu
      rw [hr] at hr'
      cases hr'
    · rw [hu.unique hu']
      exact tblGet_deriveCodes hu' hn sym

theorem tableInv_of_reset {t : State} (e : t.tbl = Tables.reset) : TableInv t :=
  tableInv_of_cv_clear (by simp [e, Tables.reset]) (by simp [e, Tables.reset]) (by simp [e, Tables.reset])
    (by simp [e, Tables.reset])

/-- A command that writes the arena clears TV and CV, and one that writes the code table clears CV (R61). -/
theorem tableUseOf_clears (i : Instr) :
    ((tableUseOf i).writesArena = true → (tableUseOf i).clearsTv = true) ∧
    ((tableUseOf i).writesArena = true → (tableUseOf i).clearsCv = true) ∧
    ((tableUseOf i).writesCt = true → (tableUseOf i).clearsCv = true) ∧
    ((tableUseOf i).clearsTv = true → (tableUseOf i).clearsCv = true) := by
  cases i <;> decide

/-- An error of the execution phase keeps the invariant: what it draws stays in the bounds of R62, and no flag vouches
for it. -/
theorem TableInv.failEffects {s : State} (h : TableInv s) (i : Instr) : TableInv (s.failEffects i) := by
  obtain ⟨arenaTv, arenaCv, ctCv, tvCv⟩ := tableUseOf_clears i
  cases hcv : (tableUseOf i).clearsCv with
  | false =>
    have harena : (tableUseOf i).writesArena = false := by simpa [hcv] using arenaCv
    have hct : (tableUseOf i).writesCt = false := by simpa [hcv] using ctCv
    have htv : (tableUseOf i).clearsTv = false := by simpa [hcv] using tvCv
    apply h.congr <;> simp [Tables.failed, Tables.cleared, hcv, harena, hct, htv]
  | true =>
    apply tableInv_of_cv_clear <;> simp only [State.failEffects_tbl, Tables.failed, Tables.cleared]
    · split
      · exact drawnArena_length _
      · exact h.nodesBound
    · intro sym
      split
      · exact drawnCodeTable_length _ _
      · exact h.codesBound sym
    · intro ht
      rw [Bool.and_eq_true, Bool.not_eq_true'] at ht
      have harena : (tableUseOf i).writesArena = false := by simpa [ht.2] using arenaTv
      simpa [harena] using h.treeValid ht.1
    · simp [hcv]

/-- A command that ends with DONE keeps the invariant: the arena it writes is valid, the codes it writes are those of
the arena, and no other table is vouched for. -/
theorem TableInv.of_success {i : Instr} {s u : State} (h : TableInv s) (hc : s.checkPhase i = none)
    (hb : execBody i s = .ok u) : TableInv u := by
  have hu := execBody_tables hb
  generalize ht : u.tbl = tbl at hu
  cases hu with
  | same => exact h.of_tbl_eq ht
  | counted =>
    apply tableInv_of_cv_clear <;> rw [ht]
    · exact h.nodesBound
    · exact h.codesBound
    · simp [Tables.cleared, tableUseOf]
    · simp [Tables.cleared, tableUseOf]
  | built =>
    apply tableInv_of_cv_clear <;> rw [ht]
    · exact (buildTree_valid _).length_le
    · exact h.codesBound
    · exact fun _ => buildTree_valid _
    · simp [Tables.cleared, tableUseOf]
  | coded =>
    have htv : s.tbl.tv = true := ((s.checkPhase_none_iff .cgen).mp hc).2.1
    apply tableInv_of_deriveCodes <;> rw [ht]
    · exact h.treeValid htv
    · simp [Tables.cleared, tableUseOf, htv]
    · rfl
  | @parsed i a hi ha =>
    apply tableInv_of_cv_clear <;> rw [ht]
    · exact (parseTree_valid ha).length_le
    · exact h.codesBound
    · exact fun _ => parseTree_valid ha
    · have hclears : ∀ j ∈ [Instr.tdes, .hdecomp, .hdecompL], (tableUseOf j).clearsCv = true := by decide
      simp [Tables.cleared, hclears i hi]
  | composed =>
    apply tableInv_of_deriveCodes <;> rw [ht]
    exact buildTree_valid _

/-- A command keeps the invariant of the tables. -/
theorem TableInv.exec {i : Instr} {s t : State} (h : TableInv s) (he : exec i s = .next t) : TableInv t := by
  obtain ⟨r, -, rfl⟩ | ⟨u, hc, hb, rfl⟩ | ⟨r, -, -, rfl⟩ := exec_cases he
  · exact h.of_tbl_eq rfl
  · exact (h.of_success hc hb).of_tbl_eq rfl
  · exact (h.failEffects i).of_tbl_eq rfl

/-- Settles O59, by the three ways a step can touch the tables: not at all, by a reset, by a command. -/
theorem stepKeepsTableInvariant : Obligations.StepKeepsTableInvariant := by
  unfold Obligations.StepKeepsTableInvariant
  intro s t h hstep
  obtain e | e | ⟨i, s₀, e, hi⟩ := step_tbl hstep
  · exact h.of_tbl_eq e
  · exact tableInv_of_reset e
  · exact (h.of_tbl_eq e).exec hi

end Sys2Proof.Machine

namespace Sys2Proof.Machine

/-! ## The invariant of the registers and the memory (O58, O60) -/

/-! ### The memory inside the buffer -/

/-- The memory is in canonical form and holds no cell outside a buffer of this size. -/
def Memory.Inside (m : Memory) (size : Nat) : Prop := Memory.wf m = true ∧ ∀ c ∈ m, c.1 < size

/-- A write inside the buffer keeps the memory inside it. -/
theorem Memory.Inside.write {m : Memory} {size : Nat} (h : Memory.Inside m size) {a : Nat} {bs : List Byte}
    (hbs : bs.length = 0 ∨ a + bs.length ≤ size) : Memory.Inside (Memory.write m a bs) size := by
  refine ⟨Memory.wf_write h.1 a bs, fun c hc => ?_⟩
  rcases Memory.mem_write hc with hc | hc
  · exact h.2 c hc
  · omega

theorem Memory.Inside.havoc {m : Memory} {size : Nat} (h : Memory.Inside m size) (event : Nat) {a n : Nat}
    (hn : n = 0 ∨ a + n ≤ size) : Memory.Inside (Memory.havoc m event a n) size :=
  h.write (by simpa using hn)

theorem Region.inBuffer_iff (r : Region) (size : Nat) :
    r.inBuffer size = true ↔ r.len = 0 ∨ r.base + r.len ≤ size := by
  simp [Region.inBuffer]

/-- A clipped region lies in the buffer (R321). -/
theorem Region.inBuffer_clipped (r : Region) (size : Nat) : (r.clipped size).inBuffer size = true := by
  rw [Region.inBuffer_iff]
  simp only [Region.clipped]
  omega

/-- Where no region check fails, the regions used lie in the buffer (R74). -/
theorem State.inBuffer_of_rangeError {s : State} {u : Uses} (h : s.rangeError u = none) :
    (u.dst = true → s.dstRegion.inBuffer s.params.bufSize = true) ∧
    (u.mda = .output → s.mdoRegion.inBuffer s.params.bufSize = true) := by
  constructor
  all_goals
    intro hu
    by_contra hn
    rw [Bool.not_eq_true] at hn
    simp only [State.rangeError, State.metaRegion, hu, hn, if_true, Bool.not_false] at h
    split_ifs at h

/-- The outputs of a failed command are drawn inside the buffer (R77). -/
theorem Memory.Inside.havocOutputs {s : State} (h : Memory.Inside s.mem s.params.bufSize) {u : Uses}
    (hr : s.rangeError u = none) : Memory.Inside (s.havocOutputs u) s.params.bufSize := by
  obtain ⟨hdst, hmdo⟩ := State.inBuffer_of_rangeError hr
  have hd : Memory.Inside (if u.dst then Memory.havoc s.mem s.draws s.dstRegion.base s.dstRegion.len else s.mem)
      s.params.bufSize := by
    split
    · next hu => exact h.havoc _ ((Region.inBuffer_iff _ _).mp (hdst hu))
    · exact h
  unfold State.havocOutputs
  dsimp only
  split
  · next hu => exact hd.havoc _ ((Region.inBuffer_iff _ _).mp (hmdo hu))
  · exact hd

/-- The outputs of an aborted command are drawn inside the buffer (R321). -/
theorem Memory.Inside.abortOutputs {s : State} (h : Memory.Inside s.mem s.params.bufSize) (u : Uses) :
    Memory.Inside (s.abortOutputs u) s.params.bufSize := by
  have clipped (r : Region) := (Region.inBuffer_iff _ _).mp (r.inBuffer_clipped s.params.bufSize)
  unfold State.abortOutputs
  dsimp only
  have hd : Memory.Inside (if u.dst then Memory.havoc s.mem s.draws (s.dstRegion.clipped s.params.bufSize).base
      (s.dstRegion.clipped s.params.bufSize).len else s.mem) s.params.bufSize := by
    split
    · exact h.havoc _ (clipped _)
    · exact h
  split
  · exact hd.havoc _ (clipped _)
  · exact hd

theorem Memory.Inside.resetBlock {s : State} (h : Memory.Inside s.mem s.params.bufSize) :
    Memory.Inside s.resetBlock.mem s.params.bufSize := by
  rw [State.resetBlock_mem]
  unfold State.abortPending
  split
  · exact h
  · split
    · exact h.abortOutputs _
    · exact h

/-- RLE_D never gets past its check phase (R214). -/
theorem ne_rleD_of_checkPhase {i : Instr} {s : State} (h : s.checkPhase i = none) : i ≠ .rleD := by
  rintro rfl
  simpa [metadataPresent] using ((s.checkPhase_none_iff .rleD).mp h).2.2

/-- A command that ends with DONE stores inside the buffer (R74, R77). -/
theorem Memory.Inside.of_success {i : Instr} {s u : State} (h : Memory.Inside s.mem s.params.bufSize)
    (hc : s.checkPhase i = none) (hb : execBody i s = .ok u) : Memory.Inside u.mem s.params.bufSize := by
  obtain ⟨hr, -, -⟩ := (s.checkPhase_none_iff i).mp hc
  obtain ⟨hdst, hmdo⟩ := State.inBuffer_of_rangeError hr
  obtain ⟨out, mdo, hout, hmlen, -, -, hmem, -, -⟩ := execBody_stores hb (ne_rleD_of_checkPhase hc)
  have hd : Memory.Inside (if (usesOf i).dst then Memory.write s.mem s.opnd.dstAddr.toNat out else s.mem)
      s.params.bufSize := by
    split
    · next hu =>
      have := (Region.inBuffer_iff _ _).mp (hdst hu)
      simp only [State.dstRegion] at this
      simp only [State.dstCap] at hout
      exact h.write (by omega)
    · exact h
  rw [hmem]
  dsimp only
  split
  · next hu =>
    have := (Region.inBuffer_iff _ _).mp (hmdo hu)
    simp only [State.mdoRegion] at this
    simp only [State.mdaCap] at hmlen
    exact hd.write (by omega)
  · exact hd

/-! ### The invariant of the registers -/

theorem RegisterInv.inside {s : State} (h : RegisterInv s) : Memory.Inside s.mem s.params.bufSize :=
  ⟨h.memRising, h.memInBuffer⟩

/-- The invariant of the registers is about the control and operand registers, ERR_POS and the memory. -/
theorem RegisterInv.congr {s t : State} (h : RegisterInv s) (hp : t.params = s.params) (hc : t.ctl = s.ctl)
    (ho : t.opnd = s.opnd) (hpos : t.res.errPos = s.res.errPos) (hm : Memory.Inside t.mem s.params.bufSize) :
    RegisterInv t := by
  have hb : t.busy = s.busy := by unfold State.busy; rw [hc]
  obtain ⟨-, -, busyClear, cmdPending, notBoth, doneClear, errHasCode, windowRange, lookRange⟩ := h
  obtain ⟨memRising, memInBuffer⟩ := hm
  exact ⟨memRising, by rwa [hp], by rwa [hb, hc, hpos], by rwa [hc], by rwa [hc], by rwa [hc, hpos], by rwa [hc],
    by rwa [ho], by rwa [ho]⟩

theorem RegisterInv.of_sameBlock {s t : State} (h : RegisterInv s) (e : SameBlock s t) : RegisterInv t :=
  h.congr e.params e.ctl e.opnd (by rw [e.res]) (e.mem ▸ h.inside)

/-- Completion with success keeps the invariant: ERR is 0 while a command is pending (R26, R116). -/
theorem RegisterInv.completeSuccess {s : State} (h : RegisterInv s) (hb : s.busy = true) :
    RegisterInv s.completeSuccess := by
  obtain ⟨-, herr, -, -⟩ := h.busyClear hb
  refine { h with busyClear := ?_, cmdPending := ?_, notBoth := ?_, doneClear := ?_, errHasCode := ?_ }
  all_goals simp [State.busy, herr]

/-- Completion with an error keeps the invariant: DONE is 0 while a command is pending (R26, R116). -/
theorem RegisterInv.completeError {s : State} (h : RegisterInv s) (hb : s.busy = true) (r : Raise) :
    RegisterInv (s.completeError r) := by
  obtain ⟨hdone, -, -, -⟩ := h.busyClear hb
  refine { h with busyClear := ?_, cmdPending := ?_, notBoth := ?_, doneClear := ?_, errHasCode := ?_ }
  all_goals simp [State.busy, hdone]

/-- A command accepted while idle keeps the invariant (R27). -/
theorem RegisterInv.acceptCommand {s : State} (h : RegisterInv s) (w : Word) : RegisterInv (s.acceptCommand w) := by
  refine { h with busyClear := ?_, cmdPending := ?_, notBoth := ?_, doneClear := ?_, errHasCode := ?_ }
  all_goals simp

/-- A STATUS write keeps the invariant: it only clears (R26). -/
theorem RegisterInv.writeStatus {s : State} (h : RegisterInv s) (v : Word) : RegisterInv (s.writeStatus v) := by
  have hdone : (s.writeStatus v).ctl.done = true → s.ctl.done = true := by simp +contextual
  have herr : (s.writeStatus v).ctl.err = true → s.ctl.err = true := by simp +contextual
  refine { h with
    busyClear := fun hb => ?_
    notBoth := fun ⟨hd, he⟩ => h.notBoth ⟨hdone hd, herr he⟩
    doneClear := fun hd => h.doneClear (hdone hd)
    errHasCode := fun he => h.errHasCode (herr he) }
  obtain ⟨hd, he, hcode, hpos⟩ := h.busyClear hb
  simp [hd, he, hcode, hpos]

/-- IRQ_EN, CMD_OVF and the selectors are free. -/
theorem RegisterInv.writeControl {s : State} (h : RegisterInv s) (b o : Bool) (n : BitVec 9) (c : BitVec 8) :
    RegisterInv { s with ctl := { s.ctl with irqEn := b, cmdOvf := o, nodeSel := n, codeSel := c } } :=
  ⟨h.memRising, h.memInBuffer, h.busyClear, h.cmdPending, h.notBoth, h.doneClear, h.errHasCode, h.windowRange,
    h.lookRange⟩

/-- A write to WINDOW keeps it in 1 .. 4096 (R38). -/
theorem windowWrite_range {old : BitVec 13} (h : 1 ≤ old.toNat ∧ old.toNat ≤ 4096) (v : Word) :
    1 ≤ (windowWrite old v).toNat ∧ (windowWrite old v).toNat ≤ 4096 := by
  unfold windowWrite
  split
  · next hv =>
    rw [BitVec.toNat_setWidth, Nat.mod_eq_of_lt (by omega)]
    exact hv
  · exact h

/-- A write to LOOKAHEAD keeps it above 0 (R39). -/
theorem lookaheadWrite_range {old : BitVec 8} (h : 1 ≤ old.toNat) (v : Word) : 1 ≤ (lookaheadWrite old v).toNat := by
  unfold lookaheadWrite
  split
  · next hv =>
    rw [BitVec.toNat_setWidth, Nat.mod_eq_of_lt (by omega)]
    exact hv.1
  · exact h

/-- A write to an operand register keeps the invariant (R38, R39). -/
theorem RegisterInv.writeOperand {s : State} (h : RegisterInv s) (r : Reg) (v : Word) :
    RegisterInv { s with opnd := s.opnd.written r v } := by
  refine { h with windowRange := ?_, lookRange := ?_ }
  · cases r
    case window => exact windowWrite_range h.windowRange v
    all_goals exact h.windowRange
  · cases r
    case lookahead => exact lookaheadWrite_range h.lookRange v
    all_goals exact h.lookRange

/-- A block that has just been reset has the invariant of the registers (R66, R325). -/
theorem registerInv_of_launched {t : State} (h : Launched t) (hm : Memory.Inside t.mem t.params.bufSize) :
    RegisterInv t := by
  obtain ⟨hc, ho, -, -⟩ := h
  exact {
    memRising := hm.1
    memInBuffer := hm.2
    busyClear := by simp [State.busy, hc, Control.reset]
    cmdPending := by simp [hc, Control.reset]
    notBoth := by simp [hc, Control.reset]
    doneClear := by simp [hc, Control.reset]
    errHasCode := by simp [hc, Control.reset]
    windowRange := by simp [ho, Operands.reset]
    lookRange := by simp [ho, Operands.reset] }

theorem launched_reset : Launched State.reset := ⟨rfl, rfl, rfl, rfl⟩

theorem launched_resetBlock (s : State) : Launched s.resetBlock := ⟨rfl, rfl, rfl, rfl⟩

/-- A reset keeps the invariant of the registers (R66, R320 to R322). -/
theorem RegisterInv.resetBlock {s : State} (h : RegisterInv s) : RegisterInv s.resetBlock :=
  registerInv_of_launched (launched_resetBlock s) (s.resetBlock_params ▸ h.inside.resetBlock)

/-- A command keeps the invariant of the registers. -/
theorem RegisterInv.exec {i : Instr} {s t : State} (h : RegisterInv s) (hb : s.busy = true) (he : exec i s = .next t) :
    RegisterInv t := by
  obtain ⟨r, -, rfl⟩ | ⟨u, hc, hu, rfl⟩ | ⟨r, hc, -, rfl⟩ := exec_cases he
  · exact h.completeError hb r
  · obtain ⟨hctl, hopnd, hparams, -, -, hpos⟩ := execBody_leaves hu
    have hu := h.congr hparams hctl hopnd hpos (h.inside.of_success hc hu)
    exact hu.completeSuccess (by rwa [State.busy, hctl])
  · obtain ⟨hr, -, -⟩ := (s.checkPhase_none_iff i).mp hc
    have hf : RegisterInv (s.failEffects i) := h.congr rfl rfl rfl rfl (h.inside.havocOutputs hr)
    exact hf.completeError hb r

/-- Settles O58, by what a step can do to the block: a command, a register write, a write of buffer bytes, a reset. -/
theorem stepKeepsRegisterInvariant : Obligations.StepKeepsRegisterInvariant := by
  unfold Obligations.StepKeepsRegisterInvariant
  intro s t h hstep
  obtain ⟨s₀, hs, rfl | ⟨w, hpend, hw⟩ | ⟨op, hop⟩⟩ := step_cases hstep <;> have h₀ := h.of_sameBlock hs
  · exact h₀
  · have hb : s₀.busy = true := s₀.busy_iff.mpr ⟨w, hpend⟩
    obtain ⟨i, -, hi⟩ | rfl := commandStep_cases hw
    · exact h₀.exec hb hi
    · exact h₀.completeError hb _
  · obtain hsame | ⟨r, v, rfl⟩ | ⟨a, bs, hbs, rfl⟩ | rfl := hostOperation_cases hop
    · exact h₀.of_sameBlock hsame
    · obtain e | ⟨_, _, _, _, e⟩ | e | ⟨-, e⟩ | e := hostWritesReg_cases s₀ r v <;> rw [e]
      · exact h₀.resetBlock
      · exact h₀.writeControl _ _ _ _
      · exact h₀.writeStatus v
      · exact h₀.acceptCommand v
      · exact h₀.writeOperand r v
    · exact h₀.congr rfl rfl rfl rfl (h₀.inside.write hbs)
    · exact h₀.resetBlock

/-- Settles O60: the reset tables vouch for nothing, and a reset draws only inside the buffer. -/
theorem resetHasBothInvariants : Obligations.ResetHasBothInvariants := by
  unfold Obligations.ResetHasBothInvariants
  have hempty : Memory.Inside State.reset.mem State.reset.params.bufSize := ⟨Memory.wf_reset, fun c hc => nomatch hc⟩
  exact ⟨registerInv_of_launched launched_reset hempty, tableInv_of_reset rfl,
    fun s h => ⟨h.resetBlock, tableInv_of_reset s.resetBlock_tbl⟩⟩

end Sys2Proof.Machine

namespace Sys2Proof.Machine

/-! ## Frames of the commands (O12, O14, O16) -/

/-! ### The frames of the commands -/

/-- A command that ends without an error code passed its check phase and its execution phase (R116). -/
theorem exec_done {i : Instr} {s t : State} (h : exec i s = .next t) (hd : t.ctl.errCode = none) :
    ∃ u, s.checkPhase i = none ∧ execBody i s = .ok u ∧ t = u.completeSuccess := by
  obtain ⟨r, -, rfl⟩ | hok | ⟨r, -, -, rfl⟩ := exec_cases h
  · cases hd
  · exact hok
  · cases hd

/-- A command whose check phase raises changes only STATUS and ERR_POS (R112). -/
theorem exec_checkFailed {i : Instr} {s t : State} (h : exec i s = .next t) (hc : s.checkPhase i ≠ none) :
    ∃ r, t = s.completeError r := by
  obtain ⟨r, -, e⟩ | ⟨u, hn, -, -⟩ | ⟨r, hn, -, -⟩ := exec_cases h
  · exact ⟨r, e⟩
  · exact absurd hn hc
  · exact absurd hn hc

/-- The RLE encoders alone write RLE_METHOD (R44). -/
theorem execBody_rleMethod {i : Instr} {s u : State} (h : execBody i s = .ok u)
    (hi : i ∉ [Instr.rleCOpt, .rleCBin, .rleCTxt]) : u.res.rleMethod = s.res.rleMethod := by
  cases i <;> simp only [execBody] at h
  case rleCOpt | rleCBin | rleCTxt => simp at hi
  all_goals
    repeat' split at h
    all_goals cases h
    all_goals rfl

/-- BPACK, HENC and HCOMP alone write PAD_BITS (R45). -/
theorem execBody_padBits {i : Instr} {s u : State} (h : execBody i s = .ok u)
    (hi : i ∉ [Instr.bpack, .henc, .hcomp]) : u.res.padBits = s.res.padBits := by
  cases i <;> simp only [execBody] at h
  case bpack | henc | hcomp => simp at hi
  all_goals
    repeat' split at h
    all_goals cases h
    all_goals rfl

/-- Settles O12, by the three ways a command ends: completion writes the latch, DONE, ERR and ERRCODE, and an execution
phase writes no control register. -/
theorem commandsLeaveOperandsAndControl : Obligations.CommandsLeaveOperandsAndControl := by
  unfold Obligations.CommandsLeaveOperandsAndControl
  intro i s t h
  obtain ⟨r, -, rfl⟩ | ⟨u, -, hu, rfl⟩ | ⟨r, -, -, rfl⟩ := exec_cases h
  · exact ⟨rfl, rfl, rfl, rfl, id, fun _ => rfl⟩
  · obtain ⟨hctl, hopnd, hparams, hhost, -, -⟩ := execBody_leaves hu
    simp [hctl, hopnd, hparams, hhost]
  · exact ⟨rfl, rfl, rfl, rfl, id, fun _ => rfl⟩

/-- A command that writes no table and clears no flag is none of those that R61 names. -/
theorem not_mem_of_uses_nothing {i : Instr} (h : tableUseOf i = .nothing) :
    i ∉ [Instr.freq, .tbuild, .cgen, .tdes, .hcomp, .hdecomp, .hdecompL] := by
  have hwrites : ∀ j ∈ [Instr.freq, .tbuild, .cgen, .tdes, .hcomp, .hdecomp, .hdecompL], tableUseOf j ≠ .nothing := by
    decide
  exact fun hi => hwrites i hi h

/-- Settles O14, by the table each command writes (TablesAfter). -/
theorem tablesChangeOnlyAsTheirRuleSays : Obligations.TablesChangeOnlyAsTheirRuleSays := by
  unfold Obligations.TablesChangeOnlyAsTheirRuleSays
  intro i s t h hd
  obtain ⟨u, -, hu, rfl⟩ := exec_done h hd
  have hafter := execBody_tables hu
  rw [State.completeSuccess_tbl]
  generalize u.tbl = tbl at hafter
  cases hafter with
  | counted => simp [Tables.cleared, tableUseOf]
  | built => simp [Tables.cleared, tableUseOf]
  | coded => simp [Tables.cleared, tableUseOf]
  | composed => simp
  | parsed hi ha =>
    simp only [List.mem_cons, List.not_mem_nil, or_false] at hi
    rcases hi with rfl | rfl | rfl <;> simp [Tables.cleared, tableUseOf]
  | same hi =>
    have hno := not_mem_of_uses_nothing hi
    simp only [List.mem_cons, List.not_mem_nil, or_false, not_or] at hno
    simp [hno]

/-- Settles O16, by what an execution phase stores and by the check phase changing nothing but STATUS and ERR_POS. -/
theorem resultRegistersChangeOnlyAsTheirRuleSays : Obligations.ResultRegistersChangeOnlyAsTheirRuleSays := by
  unfold Obligations.ResultRegistersChangeOnlyAsTheirRuleSays
  intro i s t h
  constructor
  · intro hd
    obtain ⟨u, hc, hu, rfl⟩ := exec_done h hd
    obtain ⟨out, mdo, -, -, -, -, -, hdst, hmda⟩ := execBody_stores hu (ne_rleD_of_checkPhase hc)
    have hmethod := execBody_rleMethod hu
    have hpad := execBody_padBits hu
    refine ⟨fun hno => ?_, fun hno => ?_, hmethod, hpad⟩
    · simpa [hno] using hdst
    · simpa [hno] using hmda
  · intro hc
    obtain ⟨r, rfl⟩ := exec_checkFailed h hc
    exact ⟨rfl, rfl, rfl⟩

end Sys2Proof.Machine

namespace Sys2Proof.Machine

/-! ## STATUS and the windows on the tables, bit by bit (O20, O22) -/

/-! ### Bits of the register words -/

theorem getElem_bitAt (place : Nat) (b : Bool) {k : Nat} (hk : k < 32) :
    (bitAt place b)[k] = (b && decide (place = k)) := by
  cases b
  · simp [bitAt]
  · rw [← BitVec.getLsbD_eq_getElem, bitAt, if_pos rfl, BitVec.getLsbD_ofNat, Nat.testBit_two_pow]
    simp [hk]

theorem toNat_bitAt {place : Nat} (h : place < 32) (b : Bool) : (bitAt place b).toNat = b.toNat * 2 ^ place := by
  cases b
  · simp [bitAt]
  · rw [bitAt, if_pos rfl, BitVec.toNat_ofNat, Bool.toNat_true, Nat.one_mul]
    exact Nat.mod_eq_of_lt (Nat.pow_lt_pow_right (by omega) h)

/-- The flags of STATUS, bits 7:0 (R26). -/
theorem getElem_statusWord_low (s : State) {k : Nat} (hk : k < 8) :
    s.statusWord[k] = (s.busy && decide (0 = k) || s.ctl.done && decide (1 = k) || s.ctl.err && decide (2 = k) ||
      s.ctl.cmdOvf && decide (3 = k)) := by
  have hk' : k < 32 := by omega
  simp only [State.statusWord, BitVec.getElem_or, getElem_bitAt _ _ hk']
  simp [hk]

/-- ERRCODE in STATUS, from bit 8 on (R26). -/
theorem getElem_statusWord_high (s : State) {k : Nat} (hk : k < 24) :
    s.statusWord[8 + k] = s.errCodeBits.getLsbD k := by
  have hk' : 8 + k < 32 := by omega
  have hplace {place : Nat} (h : place < 8) : ¬ place = 8 + k := by omega
  simp only [State.statusWord, BitVec.getElem_or, getElem_bitAt _ _ hk']
  simp [hplace]

/-- Settles O20, from STATUS bit by bit. -/
theorem statusFieldsAndWriteOneToClear : Obligations.StatusFieldsAndWriteOneToClear := by
  unfold Obligations.StatusFieldsAndWriteOneToClear
  constructor
  · intro s
    have hread : s.regValue .status = s.statusWord := rfl
    rw [hread]
    refine ⟨?_, ?_, ?_, ?_, ?_, ?_, ?_⟩
    iterate 4 simp [getElem_statusWord_low]
    all_goals
      refine BitVec.eq_of_getElem_eq fun k hk => ?_
      rw [BitVec.getElem_extractLsb', BitVec.getLsbD_eq_getElem (by omega)]
    · rw [getElem_statusWord_low s (by omega)]
      simp
      omega
    · rw [getElem_statusWord_high s (by omega), BitVec.getLsbD_eq_getElem hk]
    · have h := getElem_statusWord_high s (k := 8 + k) (by omega)
      simp only [← Nat.add_assoc] at h
      rw [h, BitVec.getLsbD_of_ge _ _ (by omega)]
      simp
  · intro s v
    simp only [State.hostWritesReg, State.writeStatus]
    cases v.getLsbD 1 <;> cases v.getLsbD 2 <;> cases v.getLsbD 3 <;> simp

/-! ### Bits most significant first -/

/-- Bits read as a number, the first most significant. -/
theorem testBit_foldl_bits (bs : List Bool) {j : Nat} (hj : j < bs.length) :
    (bs.foldl (fun acc b => 2 * acc + Bool.toNat b) 0).testBit (bs.length - 1 - j) = bs[j] := by
  induction bs using List.reverseRecOn with
  | nil => cases hj
  | append_singleton bs b ih =>
    rw [List.foldl_append, List.foldl_cons, List.foldl_nil, ← Nat.bit_val]
    simp only [List.length_append, List.length_singleton] at hj ⊢
    by_cases hlast : j = bs.length
    · subst hlast
      simp
    · have hlt : j < bs.length := by omega
      have hn : bs.length + 1 - 1 - j = bs.length - 1 - j + 1 := by omega
      rw [hn, Nat.testBit_bit_succ, ih hlt, List.getElem_append_left hlt]

/-- CODE_W k bit by bit (R56). -/
theorem getLsbD_codeWord (bits : Bits) (k : Nat) {j : Nat} (hj : j < 32) :
    (codeWord bits k).getLsbD (31 - j) = bits.getD (32 * k + j) false := by
  have h := testBit_foldl_bits ((List.range 32).map fun t => bits.getD (32 * k + t) false) (j := j) (by simpa using hj)
  rw [List.foldl_map] at h
  have h31 : 31 - j < 32 := by omega
  rw [codeWord, BitVec.getLsbD_ofNat]
  simpa [h31] using h

/-! ### The windows on the tables -/

/-- Two fields that do not overlap, as a number. -/
theorem toNat_or_shiftLeft (a b : Word) {n : Nat} (ha : a.toNat < 2 ^ n) (hb : b.toNat * 2 ^ n < 2 ^ 32) :
    (a ||| b <<< n).toNat = a.toNat + 2 ^ n * b.toNat := by
  rw [BitVec.toNat_or, BitVec.toNat_shiftLeft, Nat.shiftLeft_eq, Nat.mod_eq_of_lt hb, Nat.mul_comm b.toNat,
    Nat.or_comm, ← Nat.two_pow_add_eq_or_of_lt ha, Nat.add_comm]

/-- NODE_INFO of a leaf (R51). -/
theorem toNat_leafInfo (sym : Byte) :
    (bitAt 31 true ||| bitAt 30 true ||| sym.setWidth 32).toNat = 2 ^ 31 + 2 ^ 30 + sym.toNat := by
  have hsym : sym.toNat < 2 ^ 30 := by omega
  have hflags : (bitAt 31 true ||| bitAt 30 true).toNat = 2 ^ 30 * 3 := rfl
  rw [BitVec.toNat_or, hflags, BitVec.toNat_setWidth, Nat.mod_eq_of_lt (by omega), ← Nat.two_pow_add_eq_or_of_lt hsym]
  omega

theorem toNat_setWidth_ofNat {w n : Nat} (h : n < 2 ^ w) (hw : w ≤ 32) :
    ((BitVec.ofNat w n).setWidth 32).toNat = n := by
  rw [BitVec.toNat_setWidth, BitVec.toNat_ofNat, Nat.mod_eq_of_lt h]
  exact Nat.mod_eq_of_lt (h.trans_le (Nat.pow_le_pow_right (by omega) hw))

/-- Settles O22: the code words bit by bit, the node windows by the node NODE_SEL shows. -/
theorem tableWindowsShowTheTables : Obligations.TableWindowsShowTheTables := by
  unfold Obligations.TableWindowsShowTheTables
  refine ⟨fun s k j v hj => ⟨rfl, ?_, getLsbD_codeWord _ _ hj⟩, fun s hs => ?_, fun s => ?_⟩
  · cases hb : s.busy <;> simp [State.hostWritesReg, Operands.written, hb]
  · simp only [State.regValue, State.selectedCode, hs]
    decide
  · refine ⟨fun sym f hn => ?_, fun f l r hn hl hr => ?_, fun hn => ?_, fun hr => ?_, fun r hr hlt => ?_,
      fun hlen => ?_, ?_, fun hlen => ?_⟩
    · simp only [State.regValue, State.nodeInfoWord, State.nodeFreqWord, State.nodeLinkWord, State.selectedNode, hn]
      exact ⟨toNat_leafInfo sym, rfl, trivial⟩
    · simp only [State.regValue, State.nodeInfoWord, State.nodeFreqWord, State.nodeLinkWord, State.selectedNode, hn]
      refine ⟨toNat_bitAt (by omega) true, rfl, ?_⟩
      have hleft := toNat_setWidth_ofNat hl (by omega)
      have hright := toNat_setWidth_ofNat hr (by omega)
      rw [toNat_or_shiftLeft _ _ (by omega) (by omega), hleft, hright]
    · have hnone : s.selectedNode = none := List.getElem?_eq_none hn
      simp [State.regValue, State.nodeInfoWord, State.nodeFreqWord, State.nodeLinkWord, hnone]
    · simp [State.regValue, treeRootWord, hr]
    · simp only [State.regValue, treeRootWord, hr]
      exact toNat_setWidth_ofNat hlt (by omega)
    · exact toNat_setWidth_ofNat (by omega) (by omega)
    · simp only [State.regValue, tblStateWord]
      cases s.tbl.fv <;> cases s.tbl.tv <;> cases s.tbl.cv <;> rfl
    · simp only [State.regValue, State.selectedCode, BitVec.toNat_ofNat]
      exact Nat.mod_eq_of_lt (by omega)

end Sys2Proof.Machine

namespace Sys2Proof.Machine

/-! ## The register block (O17, O18, O19, O21, O23) -/

/-! ### Register writes and reads -/

/-- A write while BUSY = 0 to a register that is none of CTRL, STATUS, CMD and the selectors acts on the operand
registers alone (R23, R64). -/
theorem hostWritesReg_idle {s : State} (hb : s.busy = false) {r : Reg} (v : Word)
    (hr : r ∉ [Reg.ctrl, .status, .cmd, .nodeSel, .codeSel]) :
    s.hostWritesReg r v = { s with opnd := s.opnd.written r v } := by
  cases r <;> simp [State.hostWritesReg, hb] at hr ⊢

/-- The same write while BUSY = 1 is ignored (R64). -/
theorem hostWritesReg_busy {s : State} (hb : s.busy = true) {r : Reg} (v : Word)
    (hr : r ∉ [Reg.ctrl, .status, .cmd, .nodeSel, .codeSel]) : s.hostWritesReg r v = s := by
  cases r <;> simp [State.hostWritesReg, hb] at hr ⊢

/-- A write to the operand registers is seen at no register but the one written. -/
theorem regValue_written_other (s : State) {r q : Reg} (v : Word) (h : q ≠ r) :
    ({ s with opnd := s.opnd.written r v } : State).regValue q = s.regValue q := by
  cases q
  case srcAddr | srcLen | dstAddr | dstCap | mdaAddr | mdaCap | mdaInLen | expectLen | window | lookahead =>
    cases r <;> simp [State.regValue, Operands.written] at h ⊢
  all_goals rfl

/-- WINDOW after a write (R38). -/
theorem setWidth_windowWrite (old : BitVec 13) (v : Word) :
    (windowWrite old v).setWidth 32 = if 1 ≤ v.toNat ∧ v.toNat ≤ 4096 then v else old.setWidth 32 := by
  unfold windowWrite
  split
  · apply BitVec.eq_of_toNat_eq
    simp only [BitVec.toNat_setWidth]
    omega
  · rfl

/-- LOOKAHEAD after a write (R39). -/
theorem setWidth_lookaheadWrite (old : BitVec 8) (v : Word) :
    (lookaheadWrite old v).setWidth 32 = if 1 ≤ v.toNat ∧ v.toNat ≤ 255 then v else old.setWidth 32 := by
  unfold lookaheadWrite
  split
  · apply BitVec.eq_of_toNat_eq
    simp only [BitVec.toNat_setWidth]
    omega
  · rfl

/-- Settles O17: a write while idle acts on the register written alone, and WINDOW and LOOKAHEAD keep their ranges. -/
theorem operandWritesAreReadBack : Obligations.OperandWritesAreReadBack := by
  unfold Obligations.OperandWritesAreReadBack
  refine ⟨fun s r q v hb hr => ?_, fun s q v hb => ⟨?_, ?_⟩, fun s => ⟨?_, ?_⟩, rfl, rfl, rfl, rfl⟩
  · have hctl : r ∉ [Reg.ctrl, .status, .cmd, .nodeSel, .codeSel] := by
      revert r
      decide
    rw [hostWritesReg_idle hb v hctl]
    split
    · next hq =>
      subst hq
      simp only [List.mem_cons, List.not_mem_nil, or_false] at hr
      rcases hr with rfl | rfl | rfl | rfl | rfl | rfl | rfl | rfl <;> rfl
    · next hq => exact regValue_written_other s v hq
  · rw [hostWritesReg_idle hb v (by decide)]
    by_cases hq : q = .window
    · subst hq
      simp only [true_and]
      exact setWidth_windowWrite s.opnd.window v
    · simp [hq, regValue_written_other s v hq]
  · rw [hostWritesReg_idle hb v (by decide)]
    by_cases hq : q = .lookahead
    · subst hq
      simp only [true_and]
      exact setWidth_lookaheadWrite s.opnd.lookahead v
    · simp [hq, regValue_written_other s v hq]
  · exact (BitVec.toNat_setWidth ..).trans_lt ((Nat.mod_le _ _).trans_lt s.opnd.window.isLt)
  · exact (BitVec.toNat_setWidth ..).trans_lt ((Nat.mod_le _ _).trans_lt s.opnd.lookahead.isLt)

/-- The registers R65 lists as unspecified while BUSY = 1 are all but these. -/
theorem drawnWhileBusy_eq_false_iff (r : Reg) : r.drawnWhileBusy = false ↔
    r ∈ [Reg.id, .ctrl, .status, .cmd, .srcAddr, .srcLen, .dstAddr, .dstCap, .mdaAddr, .mdaCap, .mdaInLen, .expectLen,
      .window, .lookahead, .nodeSel, .codeSel] := by
  cases r <;> simp [Reg.drawnWhileBusy]

/-- A CTRL write without SRST stores IRQ_EN (R25). -/
theorem hostWritesReg_ctrl {s : State} {v : Word} (hv : v.getLsbD 0 = false) :
    s.hostWritesReg .ctrl v = { s with ctl := { s.ctl with irqEn := v.getLsbD 1 } } := by
  simp only [State.hostWritesReg, State.writeCtrl, hv, Bool.false_eq_true, if_false]

/-- A CTRL write with SRST resets the block (R25, R321). -/
theorem hostWritesReg_srst {s : State} {v : Word} (hv : v.getLsbD 0 = true) :
    s.hostWritesReg .ctrl v = s.resetBlock := by
  simp only [State.hostWritesReg, State.writeCtrl, hv, if_true]

/-- Bit 1 of a word at its place. -/
theorem bitAt_one_eq_and (v : Word) : bitAt 1 (v.getLsbD 1) = v &&& 2 := by
  have htwo : (2 : Word) = bitAt 1 true := rfl
  refine BitVec.eq_of_getElem_eq fun k hk => ?_
  rw [htwo, BitVec.getElem_and, getElem_bitAt, getElem_bitAt]
  by_cases h : 1 = k
  · subst h
    simp
  · simp [h]

/-- The low bits of a word, read back in 32 bits. -/
theorem toNat_setWidth_setWidth (v : Word) {w : Nat} (hw : w ≤ 32) :
    ((v.setWidth w).setWidth 32).toNat = v.toNat % 2 ^ w := by
  rw [BitVec.toNat_setWidth, BitVec.toNat_setWidth]
  exact Nat.mod_eq_of_lt ((Nat.mod_lt _ (Nat.two_pow_pos w)).trans_le (Nat.pow_le_pow_right (by omega) hw))

/-- Settles O18: what a write does is decided by the register and BUSY, and what a read draws by drawnWhileBusy. -/
theorem busyIgnoresWritesAndDrawsReads : Obligations.BusyIgnoresWritesAndDrawsReads := by
  unfold Obligations.BusyIgnoresWritesAndDrawsReads
  refine ⟨fun s v hb => ⟨fun r hr => ?_, fun hv => ?_, State.writeCmd_busy hb v⟩, fun s v => ?_, fun s r => ⟨?_, ?_⟩⟩
  · refine hostWritesReg_busy hb v ?_
    revert r
    decide
  · rw [hostWritesReg_srst hv]
    rfl
  · refine ⟨fun hv => ?_, ?_, rfl, rfl, ?_, rfl, ?_⟩
    · rw [hostWritesReg_ctrl hv]
      refine ⟨rfl, ?_⟩
      exact bitAt_one_eq_and v
    · exact (toNat_bitAt (by omega) _).trans (Nat.mul_comm _ _)
    · exact toNat_setWidth_setWidth v (by omega)
    · exact toNat_setWidth_setWidth v (by omega)
  · rintro (hb | hr)
    · simp [State.hostReadsReg, hb]
    · simp [State.hostReadsReg, (drawnWhileBusy_eq_false_iff r).mpr hr]
  · intro hb hr
    have hd : r.drawnWhileBusy = true := by
      rwa [← drawnWhileBusy_eq_false_iff, Bool.not_eq_false] at hr
    simp [State.hostReadsReg, hb, hd]

/-- Settles O21, by the acceptance of a command while idle and its loss while busy. -/
theorem cmdWriteIsAcceptedOrDropped : Obligations.CmdWriteIsAcceptedOrDropped := by
  unfold Obligations.CmdWriteIsAcceptedOrDropped
  refine ⟨fun s w hb => ?_, fun s w hb => State.writeCmd_busy hb w, rfl⟩
  have haccept : s.hostWritesReg .cmd w = s.acceptCommand w := State.writeCmd_idle hb w
  rw [haccept]
  refine ⟨rfl, rfl, ?_, rfl⟩
  simp only [State.regValue, State.statusWord, State.busy, State.errCodeBits, State.acceptCommand_ctl]
  cases s.ctl.cmdOvf <;> rfl

/-- The reset values of R24, in any block that has just been reset (R66, R325). -/
theorem regValue_of_launched {t : State} (h : Launched t) (r : Reg) : t.regValue r =
    (if r = .id then 0x43444331 else if r = .window then 4096 else if r = .lookahead then 18
      else if r = .treeRoot then 0x80000000 else 0) := by
  obtain ⟨p, c, o, res, tbl, m, host, d⟩ := t
  obtain ⟨rfl, rfl, rfl, rfl⟩ := h
  cases r with
  | freq s => exact tblGet_replicate 0 s
  | codeW k =>
    have hcode : tblGet Tables.reset.ct Control.reset.codeSel = [] := tblGet_replicate [] _
    simp only [State.regValue, State.selectedCode, hcode]
    revert k
    decide
  | numSyms =>
    have hnone : numSyms Tables.reset.ft = 0 := by
      have hft : Tables.reset.ft = Vector.replicate 256 0 := rfl
      rw [numSyms, hft, Vector.toList_replicate, List.countP_replicate]
      rfl
    simp [State.regValue, hnone]
  | status => simp [State.regValue, State.statusWord, State.busy, State.errCodeBits, Control.reset, bitAt]
  | tblState => simp [State.regValue, tblStateWord, Tables.reset, bitAt]
  | _ => rfl

/-- Settles O23: every reset leaves the block as launched, and a launched block reads the values of R24. -/
theorem resetValuesAreThoseOfTheTable : Obligations.ResetValuesAreThoseOfTheTable := by
  unfold Obligations.ResetValuesAreThoseOfTheTable
  refine ⟨regValue_of_launched launched_reset, rfl, rfl, fun s v hv => ?_⟩
  rw [hostWritesReg_srst hv]
  exact ⟨regValue_of_launched (launched_resetBlock s), s.resetBlock_params, s.resetBlock_host, rfl⟩

/-! ### The register map -/

/-- Every offset of the map is a multiple of 4 in the block (R24). -/
theorem Reg.offset_bounds (r : Reg) : r.offset % 4 = 0 ∧ r.offset < 0x800 := by
  cases r with
  | codeW k => simp only [Reg.offset]; omega
  | freq s => simp only [Reg.offset]; omega
  | _ => decide

/-- The register at an offset has that offset. -/
theorem Reg.offset_of_ofOffset {off : Nat} {r : Reg} (h : Reg.ofOffset off = some r) : r.offset = off := by
  unfold Reg.ofOffset at h
  split at h
  · cases h
  · split at h
    · cases h
      simp only [Reg.offset, BitVec.toNat_ofNat]
      omega
    · split at h
      · cases h
        simp only [Reg.offset, Fin.ofNat]
        omega
      · simpa using List.find?_some h

/-- A register is reached at its offset (R23, R24). -/
theorem Reg.ofOffset_offset (r : Reg) : Reg.ofOffset r.offset = some r := by
  cases r with
  | codeW k => revert k; decide
  | freq s =>
    have hs := s.isLt
    have hmod : (0x400 + 4 * s.toNat) % 4 = 0 := by omega
    have hfreq : 0x400 ≤ 0x400 + 4 * s.toNat ∧ 0x400 + 4 * s.toNat < 0x800 := by omega
    simp [Reg.offset, Reg.ofOffset, hmod, hfreq]
  | _ => rfl

theorem regAccess_aligned (p : Params) {off : Nat} (h4 : off % 4 = 0) (hlt : off < 0x800) :
    regAccess p (p.regBase + off) 4 = .ok off := by
  have h1 : ¬ (p.regBase + off < p.regBase ∨ p.regBase + 0x800 ≤ p.regBase + off) := by omega
  have h2 : ¬ (4 ≠ 4 ∨ (p.regBase + off - p.regBase) % 4 ≠ 0) := by omega
  rw [regAccess, if_neg h1, if_neg h2, Nat.add_sub_cancel_left]

theorem regAccess_refused {p : Params} {addr size : Nat} (hlo : p.regBase ≤ addr) (hhi : addr < p.regBase + 0x800)
    (h : size ≠ 4 ∨ addr % 4 ≠ 0) : regAccess p addr size = .error .notAlignedWordAccess := by
  have h1 : ¬ (addr < p.regBase ∨ p.regBase + 0x800 ≤ addr) := by omega
  have h2 : size ≠ 4 ∨ (addr - p.regBase) % 4 ≠ 0 := by
    simp only [Params.regBase] at hlo ⊢
    omega
  rw [regAccess, if_neg h1, if_pos h2]

/-- A write to a read-only register is ignored (R23). -/
theorem hostWritesReg_readOnly (s : State) {r : Reg} (v : Word)
    (hr : r ∉ [Reg.ctrl, .status, .cmd, .srcAddr, .srcLen, .dstAddr, .dstCap, .mdaAddr, .mdaCap, .mdaInLen, .expectLen,
      .window, .lookahead, .nodeSel, .codeSel]) : s.hostWritesReg r v = s := by
  have hsame : s.opnd.written r v = s.opnd := by
    cases r <;> simp [Operands.written] at hr ⊢
  have hctl : r ∉ [Reg.ctrl, .status, .cmd, .nodeSel, .codeSel] := fun h => hr (by clear hsame hr; revert r; decide)
  cases hb : s.busy with
  | true => exact hostWritesReg_busy hb v hctl
  | false => rw [hostWritesReg_idle hb v hctl, hsame]

@[simp] theorem hostReadsReg_host (s : State) (r : Reg) : (s.hostReadsReg r).2.host = s.host := by
  unfold State.hostReadsReg
  split <;> rfl

/-- Settles O19, by the register map and by where an access goes. -/
theorem idAndAccessesOutsideTheMap : Obligations.IdAndAccessesOutsideTheMap := by
  unfold Obligations.IdAndAccessesOutsideTheMap
  refine ⟨⟨rfl, fun s v => ⟨?_, hostWritesReg_readOnly s v (by decide)⟩⟩, fun s addr size v hlo hhi h => ?_,
    fun s off v h4 hlt hno => ?_, fun s r v => ?_, fun s r v hr => hostWritesReg_readOnly s v hr⟩
  · simp [State.hostReadsReg, Reg.drawnWhileBusy, State.regValue]
  · simp [hostOperation, regAccess_refused hlo hhi h]
  · have hnone : Reg.ofOffset off = none := by
      cases hoff : Reg.ofOffset off with
      | none => rfl
      | some r => exact absurd (Reg.offset_of_ofOffset hoff) (hno r)
    simp [hostOperation, regAccess_aligned s.params h4 hlt, State.hostWritesOffset, State.hostReadsOffset, hnone,
      State.received]
  · obtain ⟨h4, hlt⟩ := r.offset_bounds
    simp [hostOperation, regAccess_aligned s.params h4 hlt, State.hostWritesOffset, State.hostReadsOffset,
      r.ofOffset_offset, State.received]

end Sys2Proof.Machine

namespace Sys2Proof.Machine

/-! ## The memory of the commands (O7, O13) -/

/-! ### The region checks -/

theorem Region.disjoint_iff (r q : Region) :
    r.disjoint q = true ↔ r.len = 0 ∨ q.len = 0 ∨ r.base + r.len ≤ q.base ∨ q.base + q.len ≤ r.base := by
  simp [Region.disjoint, or_assoc]

/-- The region at MDA_ADDR for a use of the metadata area: MDI for an input, else MDO (R73). -/
def State.metaArea (s : State) (m : MetaUse) : Region :=
  ⟨s.opnd.mdaAddr.toNat, if m = .input then s.opnd.mdaInLen.toNat else s.opnd.mdaCap.toNat⟩

theorem State.metaRegion_eq (s : State) (m : MetaUse) :
    s.metaRegion m = if m ≠ .none then some (s.metaArea m) else none := by
  cases m <;> rfl

/-- The checks of R74 in their order, each an implication from the regions it is on being used. -/
theorem State.rangeError_eq (s : State) (u : Uses) :
    s.rangeError u =
      if ¬ (u.src = true → s.srcRegion.inBuffer s.params.bufSize = true) then some 1
      else if ¬ (u.dst = true → s.dstRegion.inBuffer s.params.bufSize = true) then some 2
      else if ¬ (u.mda ≠ .none → (s.metaArea u.mda).inBuffer s.params.bufSize = true) then some 3
      else if ¬ (u.src = true → u.dst = true → s.srcRegion.disjoint s.dstRegion = true) then some 0x12
      else if ¬ (u.src = true → u.mda ≠ .none → s.srcRegion.disjoint (s.metaArea u.mda) = true) then some 0x13
      else if ¬ (u.dst = true → u.mda ≠ .none → s.dstRegion.disjoint (s.metaArea u.mda) = true) then some 0x23
      else none := by
  unfold State.rangeError
  rw [State.metaRegion_eq]
  cases u.src <;> cases u.dst <;> by_cases hm : u.mda = .none <;> simp [hm]

/-- A failing region check raises RANGE with its ERR_POS before every other check of the command (R74, R112). -/
theorem exec_of_rangeError {i : Instr} {s : State} {pos : Nat} (h : s.rangeError (usesOf i) = some pos) :
    exec i s = .next (checkFailed s .range pos) := by
  have hc : s.checkPhase i = some ⟨.range, pos⟩ := by simp only [State.checkPhase, h]
  rw [exec_eq_command]
  exact command_checkError _ hc

/-- Settles O7, by the table of R73 row for row and by the checks of R74 in the order rangeError makes them. -/
theorem regionChecksRaiseRangeInOrder : Obligations.RegionChecksRaiseRangeInOrder := by
  unfold Obligations.RegionChecksRaiseRangeInOrder
  refine ⟨fun i => by cases i <;> decide, fun i s => ?_⟩
  have hrange := s.rangeError_eq (usesOf i)
  simp only [ite_not, Region.inBuffer_iff, Region.disjoint_iff, State.srcRegion, State.dstRegion, State.metaArea]
    at hrange
  dsimp only
  refine ⟨fun h1 => exec_of_rangeError ?_, fun h1 h2 => exec_of_rangeError ?_, fun h1 h2 h3 => exec_of_rangeError ?_,
    fun h1 h2 h3 h4 => exec_of_rangeError ?_, fun h1 h2 h3 h4 h5 => exec_of_rangeError ?_,
    fun h1 h2 h3 h4 h5 h6 => exec_of_rangeError ?_, fun h1 h2 h3 h4 h5 h6 => ?_⟩
  · rw [hrange, if_neg h1]
  · rw [hrange, if_pos h1, if_neg h2]
  · rw [hrange, if_pos h1, if_pos h2, if_neg h3]
  · rw [hrange, if_pos h1, if_pos h2, if_pos h3, if_neg h4]
  · rw [hrange, if_pos h1, if_pos h2, if_pos h3, if_pos h4, if_neg h5]
  · rw [hrange, if_pos h1, if_pos h2, if_pos h3, if_pos h4, if_pos h5, if_neg h6]
  · rw [hrange, if_pos h1, if_pos h2, if_pos h3, if_pos h4, if_pos h5, if_pos h6]

/-! ### What a command stores -/

/-- An output stored only where its region is used keeps every byte outside the length its register reports; no length
within a 32-bit capacity wraps. -/
theorem Memory.read_reported_output {used : Prop} [Decidable used] {m : Memory} {a x : Nat} {out : List Byte}
    {cap reported old : Word} (hcap : out.length ≤ cap.toNat)
    (hlen : reported = if used then BitVec.ofNat 32 out.length else old)
    (hx : ¬ (used ∧ a ≤ x ∧ x < a + reported.toNat)) :
    Memory.read (if used then Memory.write m a out else m) x = Memory.read m x := by
  split
  · next hu =>
    have hnat : reported.toNat = out.length := by
      rw [hlen, if_pos hu, BitVec.toNat_ofNat, Nat.mod_eq_of_lt (hcap.trans_lt cap.isLt)]
    have houtside : ¬ (a ≤ x ∧ x < a + out.length) := fun h => hx ⟨hu, hnat ▸ h⟩
    rw [Memory.read_write, if_neg houtside]
  · rfl

/-- An execution phase that ends without raising keeps every byte outside the outputs it reports (R77). -/
theorem execBody_byteAt {i : Instr} {s u : State} (hc : s.checkPhase i = none) (hu : execBody i s = .ok u) {x : Nat}
    (hdst : ¬ ((usesOf i).dst = true ∧ s.opnd.dstAddr.toNat ≤ x ∧ x < s.opnd.dstAddr.toNat + u.res.dstLen.toNat))
    (hmdo : ¬ ((usesOf i).mda = .output ∧ s.opnd.mdaAddr.toNat ≤ x ∧
      x < s.opnd.mdaAddr.toNat + u.res.mdaOutLen.toNat)) : u.byteAt x = s.byteAt x := by
  obtain ⟨out, mdo, hout, hmeta, -, -, hmem, hdstLen, hmdaOutLen⟩ := execBody_stores hu (ne_rleD_of_checkPhase hc)
  have hread : Memory.read u.mem x = Memory.read s.mem x := by
    rw [hmem]
    exact (Memory.read_reported_output hmeta hmdaOutLen hmdo).trans (Memory.read_reported_output hout hdstLen hdst)
  rw [State.byteAt, hread, State.byteAt]

/-- The error of a command without an output region draws no byte (R77). -/
theorem State.havocOutputs_of_no_output (s : State) {u : Uses} (hd : u.dst = false) (hm : u.mda ≠ .output) :
    s.havocOutputs u = s.mem := by
  obtain ⟨src, dst, mda⟩ := u
  obtain rfl : dst = false := hd
  cases mda with
  | output => exact absurd rfl hm
  | none | input => rfl

/-- Settles O13, by the three ways a command ends: completion writes no byte, an execution phase stores its outputs, and
an error draws no byte outside an output region. -/
theorem commandsStoreOnlyTheirOutput : Obligations.CommandsStoreOnlyTheirOutput := by
  unfold Obligations.CommandsStoreOnlyTheirOutput
  intro i s t h
  refine ⟨fun hc x => ?_, fun hdone x hdst hmdo => ?_, fun hd hm x => ?_⟩
  · obtain ⟨r, rfl⟩ := exec_checkFailed h hc
    rfl
  · obtain ⟨u, hc, hu, rfl⟩ := exec_done h hdone
    exact execBody_byteAt hc hu hdst hmdo
  · obtain ⟨r, -, rfl⟩ | ⟨u, hc, hu, rfl⟩ | ⟨r, -, -, rfl⟩ := exec_cases h
    · rfl
    · exact execBody_byteAt hc hu (by simp [hd]) (by simp [hm])
    · rw [State.byteAt, State.completeError_mem, State.failEffects_mem, s.havocOutputs_of_no_output hd hm, State.byteAt]

end Sys2Proof.Machine

namespace Sys2Proof

/-! ## Command words (O1 to O3) -/

/-- Splitting a joined word gives every field back (R90): the fields do not overlap. -/
@[simp] theorem splitWord_joinFields (f : CmdFields) : splitWord (joinFields f) = f := by
  obtain ⟨op, m, l, reserved⟩ := f
  have hop : (joinFields ⟨op, m, l, reserved⟩).extractLsb' 0 8 = op := BitVec.extractLsb'_append_eq_right
  have hm : (joinFields ⟨op, m, l, reserved⟩).extractLsb' 8 2 = m :=
    (BitVec.extractLsb'_append_eq_of_le (by decide)).trans BitVec.extractLsb'_append_eq_right
  have hl : (joinFields ⟨op, m, l, reserved⟩).getLsbD 10 = l :=
    calc _ = (reserved ++ BitVec.ofBool l ++ m).getLsbD 2 := BitVec.getLsbD_append
      _ = (reserved ++ BitVec.ofBool l).getLsbD 0 := BitVec.getLsbD_append
      _ = (BitVec.ofBool l).getLsbD 0 := BitVec.getLsbD_append
      _ = l := by simp
  have hreserved : (joinFields ⟨op, m, l, reserved⟩).extractLsb' 11 21 = reserved :=
    calc _ = (reserved ++ BitVec.ofBool l ++ m).extractLsb' 3 21 := BitVec.extractLsb'_append_eq_of_le (by decide)
      _ = (reserved ++ BitVec.ofBool l).extractLsb' 1 21 := BitVec.extractLsb'_append_eq_of_le (by decide)
      _ = reserved := BitVec.extractLsb'_append_eq_left
  simp only [splitWord, hop, hm, hl, hreserved]

/-- Joining the fields of a word gives the word back (R90): the fields cover all 32 bits. -/
@[simp] theorem joinFields_splitWord (w : Word) : joinFields (splitWord w) = w := by
  have hl : BitVec.ofBool (w.getLsbD 10) = w.extractLsb' 10 1 := by
    ext k hk
    obtain rfl : k = 0 := by omega
    simp
  have hhigh : w.extractLsb' 11 21 ++ w.extractLsb' 10 1 = w.extractLsb' 10 22 :=
    BitVec.extractLsb'_append_extractLsb'_eq_extractLsb' rfl
  have hupper : w.extractLsb' 10 22 ++ w.extractLsb' 8 2 = w.extractLsb' 8 24 :=
    BitVec.extractLsb'_append_extractLsb'_eq_extractLsb' rfl
  have hall : w.extractLsb' 8 24 ++ w.extractLsb' 0 8 = w.extractLsb' 0 32 :=
    BitVec.extractLsb'_append_extractLsb'_eq_extractLsb' rfl
  calc joinFields (splitWord w)
      = w.extractLsb' 11 21 ++ BitVec.ofBool (w.getLsbD 10) ++ w.extractLsb' 8 2 ++ w.extractLsb' 0 8 := rfl
    _ = w.extractLsb' 0 32 := by rw [hl, hhigh, hupper, hall]
    _ = w := BitVec.extractLsb'_eq_self

theorem Instr.mem_all (i : Instr) : i ∈ Instr.all := by
  cases i <;> decide

/-- No two rows of the table have the same fields (R91 to R93). -/
theorem Instr.fields_injective : Function.Injective Instr.fields := by
  have hnodup : (Instr.all.map Instr.fields).Nodup := by decide
  exact fun i j h => List.inj_on_of_nodup_map hnodup i.mem_all j.mem_all h

/-- A word decodes to a command exactly when it has the command's fields (R94). -/
theorem decode_eq_ok_iff_fields {w : Word} {i : Instr} : decode w = .ok i ↔ i.fields = splitWord w := by
  unfold decode
  cases hfind : Instr.all.find? (fun i => i.fields = splitWord w) with
  | none =>
    have hne : i.fields ≠ splitWord w := by simpa using List.find?_eq_none.mp hfind i i.mem_all
    simp [hne]
  | some j =>
    have hj : j.fields = splitWord w := by simpa using List.find?_some hfind
    simp [← hj, Instr.fields_injective.eq_iff, eq_comm]

theorem joinFields_eq_iff {f : CmdFields} {w : Word} : joinFields f = w ↔ f = splitWord w :=
  ⟨fun h => by rw [← h, splitWord_joinFields], fun h => by rw [h, joinFields_splitWord]⟩

/-- Settles O3: a word decodes to the command whose fields it splits into, and splitting and joining are inverse. -/
theorem decodeAndEncodeAgree : Obligations.DecodeAndEncodeAgree := by
  unfold Obligations.DecodeAndEncodeAgree
  exact fun w i => decode_eq_ok_iff_fields.trans joinFields_eq_iff.symm

@[simp] theorem decode_encode (i : Instr) : decode (encode i) = .ok i :=
  (decodeAndEncodeAgree (encode i) i).mpr rfl

/-- Settles O2: the rows of R94 are the words of all commands, each beside its command. -/
theorem legalWordsAreExactlyTheTable : Obligations.LegalWordsAreExactlyTheTable := by
  unfold Obligations.LegalWordsAreExactlyTheTable
  intro w i
  change decode w = .ok i ↔ (w, i) ∈ Instr.all.map (fun j => (encode j, j))
  simp [decodeAndEncodeAgree w i, Instr.mem_all]

/-- Settles O1: each legal word is the encoding of its command; the illegal ones are evaluated. -/
theorem writtenWordsDecode : Obligations.WrittenWordsDecode := by
  unfold Obligations.WrittenWordsDecode
  refine ⟨decode_encode .nop, decode_encode .bpack, decode_encode .henc, decode_encode .hdecL, decode_encode .hdecompL,
    decode_encode .rleCBin, decode_encode .rleDTxt, decode_encode .lzC, decode_encode .lzbD, ?_⟩
  decide

end Sys2Proof

namespace Sys2Proof.Machine

/-! ## What a command reports and what an error leaves (O11, O15) -/

/-! ### The StatsReporter -/

/-- The StatsReporter runs for the six compress commands (R119, R120): the lengths of the input and of an output within
the capacity, and their ratio. -/
theorem execBody_stats {i : Instr} {s u : State} (h : execBody i s = .ok u)
    (hi : i ∈ [Instr.hcomp, .rleCOpt, .rleCBin, .rleCTxt, .lzC, .lzbC]) :
    ∃ out : List Byte, out.length ≤ s.dstCap ∧ u.res.dstLen = BitVec.ofNat 32 out.length ∧
      u.res.statOrig = BitVec.ofNat 32 s.input.length ∧ u.res.statEnc = BitVec.ofNat 32 out.length ∧
      u.res.statRatio = BitVec.ofInt 32 (ratio s.input.length out.length) := by
  simp only [List.mem_cons, List.not_mem_nil, or_false] at hi
  rcases hi with rfl | rfl | rfl | rfl | rfl | rfl <;> simp only [execBody] at h
  · split at h
    · cases h
    · next out pad ho =>
      split at h <;> cases h
      exact ⟨out, encodeOutput_le ho, rfl, rfl, rfl, rfl⟩
  all_goals
    split at h <;> cases h
    next out ho => exact ⟨out, emitTokens_le ho (Nat.zero_le _), rfl, rfl, rfl, rfl⟩

/-- The StatsReporter runs for no other command (R119). -/
theorem execBody_keeps_stats {i : Instr} {s u : State} (h : execBody i s = .ok u)
    (hi : i ∉ [Instr.hcomp, .rleCOpt, .rleCBin, .rleCTxt, .lzC, .lzbC]) :
    u.res.statOrig = s.res.statOrig ∧ u.res.statEnc = s.res.statEnc ∧ u.res.statRatio = s.res.statRatio := by
  cases i <;> simp only [execBody] at h
  case hcomp | rleCOpt | rleCBin | rleCTxt | lzC | lzbC => simp at hi
  all_goals
    repeat' split at h
    all_goals cases h
    all_goals exact ⟨rfl, rfl, rfl⟩

/-- Settles O15, by the three ways a command ends: no error writes the statistics, and an execution phase does for the
six compress commands alone. -/
theorem onlyCompressCommandsReportStats : Obligations.OnlyCompressCommandsReportStats := by
  unfold Obligations.OnlyCompressCommandsReportStats
  intro i s t h
  constructor
  · rintro ⟨hi, hd⟩
    obtain ⟨u, -, hu, rfl⟩ := exec_done h hd
    obtain ⟨out, hcap, hlen, horig, henc, hratio⟩ := execBody_stats hu hi
    have hnat : (BitVec.ofNat 32 out.length).toNat = out.length :=
      (BitVec.toNat_ofNat _ _).trans (Nat.mod_eq_of_lt (hcap.trans_lt s.opnd.dstCap.isLt))
    simp [hlen, horig, henc, hratio, hnat]
  · intro hno
    obtain ⟨r, -, rfl⟩ | ⟨u, -, hu, rfl⟩ | ⟨r, -, -, rfl⟩ := exec_cases h
    · exact ⟨rfl, rfl, rfl⟩
    · exact execBody_keeps_stats (u := u) hu (hno.resolve_right fun hd => hd rfl)
    · exact ⟨rfl, rfl, rfl⟩

/-! ### An error of the execution phase -/

/-- Of the commands that write a table only HCOMP, which writes all three, and TDES, HDECOMP and HDECOMP.L, which write
the arena, can raise in the execution phase (R58 to R61). -/
theorem tableUseOf_of_error {i : Instr} {s : State} {r : Raise} (h : execBody i s = .error r) :
    i = .hcomp ∨
    (i ≠ .hcomp ∧ i ∈ [Instr.tdes, .hcomp, .hdecomp, .hdecompL] ∧
      tableUseOf i = ⟨false, true, false, false, true, true⟩) ∨
    (i ≠ .hcomp ∧ i ∉ [Instr.tdes, .hcomp, .hdecomp, .hdecompL] ∧ tableUseOf i = .nothing) := by
  cases i
  case freq | tbuild | cgen => cases h
  all_goals decide

/-- The tables after an error of the execution phase (R61, R62, R114): the flags of the tables the command writes are 0,
what it draws stays in the bounds of R62, and a table it does not write is as before. -/
theorem failed_tables {i : Instr} {s : State} {r : Raise} (h : execBody i s = .error r) {t : Tables}
    (ht : t = s.tbl.failed (tableUseOf i) s.draws) :
    (t.fv = true ↔ s.tbl.fv = true ∧ i ≠ .hcomp) ∧
    (t.tv = true ↔ s.tbl.tv = true ∧ i ∉ [Instr.tdes, .hcomp, .hdecomp, .hdecompL]) ∧
    (t.cv = true ↔ s.tbl.cv = true ∧ i ∉ [Instr.tdes, .hcomp, .hdecomp, .hdecompL]) ∧
    (i ≠ .hcomp → t.ft = s.tbl.ft ∧ t.ct = s.tbl.ct) ∧
    (i ∉ [Instr.tdes, .hcomp, .hdecomp, .hdecompL] → t.arena = s.tbl.arena) ∧
    (i ∈ [Instr.tdes, .hcomp, .hdecomp, .hdecompL] → t.arena.nodes.length ≤ 511) ∧
    (i = .hcomp → ∀ sym : Byte, (tblGet t.ct sym).length ≤ 255) := by
  subst ht
  obtain rfl | ⟨hne, hi, huse⟩ | ⟨hne, hi, huse⟩ := tableUseOf_of_error h
  · simp [Tables.failed, Tables.cleared, tableUseOf, drawnArena_length, drawnCodeTable_length]
  · simp [-List.mem_cons, Tables.failed, Tables.cleared, huse, hne, hi, drawnArena_length]
  · simp [-List.mem_cons, Tables.failed, Tables.cleared, TableUse.nothing, huse, hne, hi]

/-- The memory after an error of the execution phase: the output regions drawn, every other byte as before (R77). -/
theorem byteAt_failEffects (s : State) (i : Instr) (x : Nat) :
    (s.failEffects i).byteAt x =
      if (usesOf i).dst = true ∧ s.opnd.dstAddr.toNat ≤ x ∧ x < s.opnd.dstAddr.toNat + s.opnd.dstCap.toNat ∨
          (usesOf i).mda = .output ∧ s.opnd.mdaAddr.toNat ≤ x ∧ x < s.opnd.mdaAddr.toNat + s.opnd.mdaCap.toNat
        then Config.freeByte s.draws x else s.byteAt x := by
  have hmem : (s.failEffects i).mem =
      (let m := if (usesOf i).dst then Memory.havoc s.mem s.draws s.opnd.dstAddr.toNat s.opnd.dstCap.toNat else s.mem
        if decide ((usesOf i).mda = .output) then
          Memory.havoc m s.draws s.opnd.mdaAddr.toNat s.opnd.mdaCap.toNat else m) := by
    simp only [State.failEffects_mem, State.havocOutputs]
    cases (usesOf i).mda <;> rfl
  simp only [State.byteAt_of_havoc_two s _ _ _ _ _ _ _ _ hmem, decide_eq_true_iff]

/-- Settles O11: an error of the execution phase ends in failEffects and completion. -/
theorem executionErrorLeavesNoResult : Obligations.ExecutionErrorLeavesNoResult := by
  unfold Obligations.ExecutionErrorLeavesNoResult
  intro i s t hc h herr
  obtain ⟨r, hsome, -⟩ | ⟨u, -, -, rfl⟩ | ⟨r, -, hr, rfl⟩ := exec_cases h
  · cases hc.symm.trans hsome
  · exact absurd rfl herr
  · obtain ⟨hfv, htv, hcv, hkept, harena, hnodes, hcodes⟩ :=
      failed_tables hr (t := ((s.failEffects i).completeError r).tbl) rfl
    exact ⟨rfl, rfl, rfl, rfl, rfl, rfl, rfl, rfl, rfl, rfl, hfv, htv, hcv, hkept, harena, hnodes, hcodes, rfl,
      byteAt_failEffects s i⟩

end Sys2Proof.Machine

namespace Sys2Proof.Machine

/-! ## Calls that do not see earlier commands (O57) -/

/-! ### Two memories that agree on a range -/

/-- Both memories hold the same written bytes at the n addresses from a on. -/
def Memory.AgreeOn (a n : Nat) (m m' : Memory) : Prop :=
  ∀ x, a ≤ x → x < a + n → Memory.read m x = Memory.read m' x

/-- Two memories agree where the same bytes have been written to both. -/
theorem Memory.agreeOn_write (m m' : Memory) (a : Nat) (bs : List Byte) :
    Memory.AgreeOn a bs.length (Memory.write m a bs) (Memory.write m' a bs) := by
  intro x hlo hhi
  simp [Memory.read_write, hlo, hhi]

/-- The same bytes written to both anywhere keep the agreement. -/
theorem Memory.AgreeOn.write {a n : Nat} {m m' : Memory} (h : Memory.AgreeOn a n m m') (b : Nat) (bs : List Byte) :
    Memory.AgreeOn a n (Memory.write m b bs) (Memory.write m' b bs) := by
  intro x hlo hhi
  rw [Memory.read_write, Memory.read_write, h x hlo hhi]

/-- States whose memories agree on a range read the same from its start. -/
theorem Memory.AgreeOn.memRead {a n k : Nat} {u u' : State} (h : Memory.AgreeOn a n u.mem u'.mem) (hk : k ≤ n) :
    u.memRead a k = u'.memRead a k := by
  refine List.map_congr_left fun x hx => ?_
  obtain ⟨hlo, hhi⟩ := List.mem_range'_1.mp hx
  simp only [State.byteAt, h x hlo (by omega)]

theorem toNat_length_le (bs : List Byte) : (BitVec.ofNat 32 bs.length).toNat ≤ bs.length := by
  rw [BitVec.toNat_ofNat]
  exact Nat.mod_le _ _

/-! ### Two runs of one call -/

/-- Two states the same call left agree on everything the call reports (R117): the outputs with their lengths, the
statistics and the method tag, each where the command writes it. -/
structure SameReport (i : Instr) (dst mda : Nat) (t t' : State) : Prop where
  dstLen   : t.res.dstLen = t'.res.dstLen
  dstBytes : t.memRead dst t.res.dstLen.toNat = t'.memRead dst t.res.dstLen.toNat
  metadata : i = .hcomp → t.res.mdaOutLen = t'.res.mdaOutLen ∧
    t.memRead mda t.res.mdaOutLen.toNat = t'.memRead mda t.res.mdaOutLen.toNat
  stats    : i ∈ [Instr.hcomp, .rleCOpt, .rleCBin, .rleCTxt, .lzC, .lzbC] →
    t.res.statOrig = t'.res.statOrig ∧ t.res.statEnc = t'.res.statEnc ∧ t.res.statRatio = t'.res.statRatio
  method   : i ∈ [Instr.rleCOpt, .rleCBin, .rleCTxt] → t.res.rleMethod = t'.res.rleMethod

/-- Two states have the same report when the same output was stored to both and the rest that is reported agrees, for
a call without metadata output. -/
theorem SameReport.of_output {i : Instr} {dst mda : Nat} {out : List Byte} {m m' : Memory} {u u' : State}
    (hm : u.mem = Memory.write m dst out) (hm' : u'.mem = Memory.write m' dst out)
    (hlen : u.res.dstLen = BitVec.ofNat 32 out.length) (hlen' : u'.res.dstLen = BitVec.ofNat 32 out.length)
    (hi : i ≠ .hcomp)
    (hstats : i ∈ [Instr.hcomp, .rleCOpt, .rleCBin, .rleCTxt, .lzC, .lzbC] →
      u.res.statOrig = u'.res.statOrig ∧ u.res.statEnc = u'.res.statEnc ∧ u.res.statRatio = u'.res.statRatio)
    (hmethod : i ∈ [Instr.rleCOpt, .rleCBin, .rleCTxt] → u.res.rleMethod = u'.res.rleMethod) :
    SameReport i dst mda u u' where
  dstLen := hlen.trans hlen'.symm
  dstBytes := by
    have hagree : Memory.AgreeOn dst out.length u.mem u'.mem := hm ▸ hm' ▸ Memory.agreeOn_write m m' dst out
    rw [hlen]
    exact hagree.memRead (toNat_length_le out)
  metadata h := absurd h hi
  stats := hstats
  method := hmethod

/-- Two execution phases of the same call ended alike: the same error, or states with the same report. -/
inductive SameOutcome (i : Instr) (dst mda : Nat) : Except Raise State → Except Raise State → Prop where
  | raised (r : Raise) : SameOutcome i dst mda (.error r) (.error r)
  | reported {u u' : State} : SameReport i dst mda u u' → SameOutcome i dst mda (.ok u) (.ok u')

/-- The commands that model a source call (R117). -/
def callCommands : List Instr :=
  [.hcomp, .hdecomp, .hdecompL, .rleCOpt, .rleCBin, .rleCTxt, .rleD, .rleDBin, .rleDTxt, .lzC, .lzD, .lzbC, .lzbD,
    .bpack, .bunpack]

/-- HCOMP computes its tables from the input alone (R164), so two runs on one input end alike. -/
theorem execBody_hcomp_sameOutcome {s s' : State} (ho : s.opnd = s'.opnd) (hin : s.input = s'.input) :
    SameOutcome .hcomp s.opnd.dstAddr.toNat s.opnd.mdaAddr.toNat (execBody .hcomp s) (execBody .hcomp s') := by
  have hdst : s'.dstCap = s.dstCap := by simp only [State.dstCap, ho]
  have hmda : s'.mdaCap = s.mdaCap := by simp only [State.mdaCap, ho]
  simp only [execBody, ← hin, hdst, hmda]
  split
  · exact .raised _
  next out pad _ =>
  split
  · exact .raised _
  next mdo _ =>
  have hout := (Memory.agreeOn_write s.mem s'.mem s.opnd.dstAddr.toNat out).write s.opnd.mdaAddr.toNat mdo
  have hmeta := Memory.agreeOn_write (Memory.write s.mem s.opnd.dstAddr.toNat out)
    (Memory.write s'.mem s.opnd.dstAddr.toNat out) s.opnd.mdaAddr.toNat mdo
  refine .reported ⟨rfl, ?_, fun _ => ⟨rfl, ?_⟩, fun _ => ⟨rfl, rfl, rfl⟩, by simp⟩
  · exact Memory.AgreeOn.memRead (by simpa [← ho] using hout) (toNat_length_le out)
  · exact Memory.AgreeOn.memRead (by simpa [← ho] using hmeta) (toNat_length_le mdo)

/-- The execution phase of a call computes from the operands, the input and, where it parses a tree, the metadata: two
runs that agree on these end alike (R117). -/
theorem execBody_sameOutcome {i : Instr} {s s' : State} (hi : i ∈ callCommands) (hne : i ≠ .rleD)
    (ho : s.opnd = s'.opnd) (hin : s.input = s'.input)
    (hmd : i ∈ [Instr.hdecomp, .hdecompL] → s.metadata = s'.metadata) :
    SameOutcome i s.opnd.dstAddr.toNat s.opnd.mdaAddr.toNat (execBody i s) (execBody i s') := by
  have hdst : s'.dstCap = s.dstCap := by simp only [State.dstCap, ho]
  cases i
  case nop | freq | tbuild | cgen | henc | tser | tdes | hdec | hdecL => simp [callCommands] at hi
  case rleD => exact absurd rfl hne
  case hcomp => exact execBody_hcomp_sameOutcome ho hin
  case hdecomp | hdecompL =>
    simp only [execBody, ← hin, hdst, ← ho, ← hmd (by decide)]
    split
    · exact .raised _
    · split
      · exact .raised _
      · exact .reported (.of_output rfl (m' := s'.mem) (by simp [ho]) rfl rfl (by decide) (by simp) (by simp))
  all_goals
    simp only [execBody, ← hin, hdst, ← ho]
    split
    · exact .reported (.of_output rfl (m' := s'.mem) (by simp [ho]) rfl rfl (by decide) (by simp) (by simp))
    · exact .raised _

/-- The region checks read the parameters and the operands alone (R74). -/
theorem rangeError_congr {s s' : State} (hp : s.params = s'.params) (ho : s.opnd = s'.opnd) (u : Uses) :
    s.rangeError u = s'.rangeError u := by
  cases s
  cases s'
  cases hp
  cases ho
  rfl

/-- A call needs no table (R61). -/
theorem neededFlag_of_call {i : Instr} (hi : i ∈ callCommands) (t : Tables) : neededFlag t i = true := by
  revert hi
  cases i <;> simp [callCommands, neededFlag]

/-- The check phase of a call reads the parameters and the operands alone (R112). -/
theorem checkPhase_congr_of_call {i : Instr} {s s' : State} (hi : i ∈ callCommands) (hp : s.params = s'.params)
    (ho : s.opnd = s'.opnd) : s.checkPhase i = s'.checkPhase i := by
  simp only [State.checkPhase, rangeError_congr hp ho, neededFlag_of_call hi, ho]

/-- Settles O57: two runs of a call make the same checks, and past them their execution phases end alike. -/
theorem callsAreIndependentOfEarlierCommands : Obligations.CallsAreIndependentOfEarlierCommands := by
  unfold Obligations.CallsAreIndependentOfEarlierCommands
  intro i s s' t t' hi hp ho hin hmd h h'
  have hcheck := checkPhase_congr_of_call hi hp ho
  cases hc : s.checkPhase i with
  | some r =>
    rw [exec_eq_command, command_checkError _ hc] at h
    rw [exec_eq_command, command_checkError _ (hcheck ▸ hc)] at h'
    cases h
    cases h'
    exact ⟨rfl, rfl, fun hd => nomatch hd⟩
  | none =>
    have hout := execBody_sameOutcome hi (ne_rleD_of_checkPhase hc) ho hin hmd
    generalize he : execBody i s = e, he' : execBody i s' = e' at hout
    cases hout with
    | raised r =>
      rw [exec_eq_command, command_error hc he] at h
      rw [exec_eq_command, command_error (hcheck ▸ hc) he'] at h'
      cases h
      cases h'
      exact ⟨rfl, rfl, fun hd => nomatch hd⟩
    | reported hsame =>
      rw [exec_of_ok hc he] at h
      rw [exec_of_ok (hcheck ▸ hc) he'] at h'
      cases h
      cases h'
      obtain ⟨hlen, hbytes, hmeta, hstats, hmethod⟩ := hsame
      exact ⟨rfl, rfl, fun _ => ⟨hlen, hbytes, hmeta, hstats, hmethod⟩⟩

end Sys2Proof.Machine

namespace Sys2Proof.Machine

/-! ## The engine's turn and NOP (O4, O5, O27) -/

/-- In the engine's turn a pending word has its command step, at the state whose turn has been used up (R110). -/
theorem step_of_pending {s : State} {w : Word} (ha : s.nextAgent = .engine) (hp : s.ctl.seq = .pending w) :
    step s = commandStep w s.passTurn := by
  have hp' : s.passTurn.ctl.seq = .pending w := hp
  simp only [step, agentStep, ha, engineTurn, hp']

theorem commandStep_of_legal {w : Word} {i : Instr} (hd : decode w = .ok i) (s : State) :
    commandStep w s = exec i s := by
  simp only [commandStep, hd]

theorem commandStep_of_illegal {w : Word} (hd : ∀ i, decode w ≠ .ok i) (s : State) :
    commandStep w s = .next (s.completeError ⟨.illegalCmd, 0⟩) := by
  cases h : decode w with
  | ok i => exact absurd h (hd i)
  | error r => simp only [commandStep, h, State.takeError_none]

/-- Settles O4: the command step of a legal word is exec of its command. -/
theorem stepRunsTheDecodedCommand : Obligations.StepRunsTheDecodedCommand := by
  unfold Obligations.StepRunsTheDecodedCommand
  intro s w i ha hp hd
  exact (step_of_pending ha hp).trans (commandStep_of_legal hd _)

/-- Settles O5: the command step of an illegal word completes with the error and makes no check. -/
theorem illegalWordRaisesIllegalCmd : Obligations.IllegalWordRaisesIllegalCmd := by
  unfold Obligations.IllegalWordRaisesIllegalCmd
  intro s w ha hp hd
  exact (step_of_pending ha hp).trans (commandStep_of_illegal hd _)

/-- NOP uses no region and needs no flag and no metadata, so its check phase passes in every state (R73, R118). -/
theorem checkPhase_nop (s : State) : s.checkPhase .nop = none := by
  rw [State.checkPhase_none_iff]
  exact ⟨rfl, rfl, rfl⟩

/-- NOP completes in every state (R118). -/
theorem exec_nop (s : State) : exec .nop s = .next s.completeSuccess := exec_of_ok (checkPhase_nop s) rfl

/-- Settles O27: NOP is completion alone, and what completion and acceptance write is seen at STATUS and CMD only. -/
theorem nopOnlyCompletes : Obligations.NopOnlyCompletes := by
  unfold Obligations.NopOnlyCompletes
  refine ⟨exec_nop, fun s hb => State.writeCmd_busy hb _, ?_⟩
  have hstep : step (State.reset.withFetchWord 32 0x1) =
      exec .nop (State.reset.withFetchWord 32 0x1).passTurn :=
    (step_of_pending rfl rfl).trans (commandStep_of_legal (decode_encode .nop) _)
  refine ⟨_, hstep.trans (exec_nop _), rfl, rfl, fun r hstatus hcmd => ?_⟩
  cases r
  case status => exact absurd rfl hstatus
  case cmd => exact absurd rfl hcmd
  all_goals rfl

end Sys2Proof.Machine

namespace Sys2Proof.Machine

/-! ## Ratio (O28) -/

/-- a / o to the nearest integer, an exact half up. -/
def roundedQuotient (a o : Nat) : Nat := if 2 * (a % o) ≥ o then a / o + 1 else a / o

/-- Ratio rounds the quotient of the absolute values and gives it the sign of o - e (R121). -/
theorem ratio_eq {o : Nat} (ho : 0 < o) (e : Nat) :
    ratio o e = if e ≤ o then (roundedQuotient ((o - e) * 10000) o : Int)
      else -(roundedQuotient ((e - o) * 10000) o : Int) := by
  have hne : o ≠ 0 := by omega
  by_cases he : e ≤ o
  · have hpos : ¬ ((o : Int) - e) * 10000 < 0 := by omega
    have habs : (((o : Int) - e) * 10000).natAbs = (o - e) * 10000 := by omega
    simp only [ratio, hne, hpos, habs, he, if_true, if_false, roundedQuotient]
  · have hneg : ((o : Int) - e) * 10000 < 0 := by omega
    have habs : (((o : Int) - e) * 10000).natAbs = (e - o) * 10000 := by omega
    simp only [ratio, hne, hneg, habs, he, if_true, if_false, roundedQuotient]

/-- The rounded quotient times o misses a by at most half of o, and by an exact half only from above. -/
theorem roundedQuotient_near {o : Nat} (ho : 0 < o) (a : Nat) :
    2 * (roundedQuotient a o * o) ≤ 2 * a + o ∧ 2 * a < 2 * (roundedQuotient a o * o) + o := by
  have hdiv : a / o * o + a % o = a := Nat.div_add_mod' a o
  have hmod : a % o < o := Nat.mod_lt a ho
  unfold roundedQuotient
  split
  · rw [Nat.add_mul]
    omega
  · omega

/-- A bound of the quotient bounds the rounded quotient. -/
theorem roundedQuotient_le {a o k : Nat} (ho : 0 < o) (h : a ≤ k * o) : roundedQuotient a o ≤ k := by
  by_contra hlt
  have hmul : (k + 1) * o ≤ roundedQuotient a o * o := Nat.mul_le_mul_right o (by omega)
  have := (roundedQuotient_near ho a).1
  rw [Nat.add_mul] at hmul
  omega

theorem roundedQuotient_mul {o : Nat} (ho : 0 < o) (k : Nat) : roundedQuotient (k * o) o = k := by
  have hmod : ¬ 2 * (k * o % o) ≥ o := by rw [Nat.mul_mod_left]; omega
  rw [roundedQuotient, if_neg hmod, Nat.mul_div_cancel k ho]

/-- Ratio is the nearest integer to (o - e) * 10000 / o, an exact half away from zero (R121). -/
theorem ratio_nearest {o : Nat} (ho : 0 < o) (e : Nat) :
    2 * (ratio o e * o - ((o : Int) - e) * 10000).natAbs ≤ o ∧
    (2 * (ratio o e * o - ((o : Int) - e) * 10000).natAbs = o →
      (((o : Int) - e) * 10000).natAbs ≤ (ratio o e * o).natAbs) := by
  rw [ratio_eq ho]
  by_cases he : e ≤ o
  · have hnear := roundedQuotient_near ho ((o - e) * 10000)
    rw [if_pos he, ← Int.natCast_mul]
    omega
  · have hnear := roundedQuotient_near ho ((e - o) * 10000)
    rw [if_neg he, Int.neg_mul, ← Int.natCast_mul]
    omega

theorem ratio_bounds_of_le {o e : Nat} (ho : 0 < o) (he : e ≤ o) : 0 ≤ ratio o e ∧ ratio o e ≤ 10000 := by
  have hle : roundedQuotient ((o - e) * 10000) o ≤ 10000 := roundedQuotient_le ho (by omega)
  rw [ratio_eq ho, if_pos he]
  omega

theorem ratio_nonpos_of_lt {o e : Nat} (ho : 0 < o) (he : o < e) : ratio o e ≤ 0 := by
  rw [ratio_eq ho, if_neg (by omega)]
  omega

theorem ratio_ge_of_le {o e : Nat} (ho : 0 < o) (he : e ≤ 3 * o) : -20000 ≤ ratio o e := by
  have hle : roundedQuotient ((e - o) * 10000) o ≤ 20000 := roundedQuotient_le ho (by omega)
  rw [ratio_eq ho]
  split <;> omega

theorem ratio_self {o : Nat} (ho : 0 < o) : ratio o o = 0 := by
  have hq := roundedQuotient_mul ho 0
  simp only [Nat.zero_mul] at hq
  simp [ratio_eq ho, hq]

theorem ratio_zero_right {o : Nat} (ho : 0 < o) : ratio o 0 = 10000 := by
  have hq := roundedQuotient_mul ho 10000
  simp [ratio_eq ho, Nat.mul_comm o, hq]

/-- Settles O28: Ratio is nearest to the quotient by rounding, the rest follows by the sign of o - e. -/
theorem ratioIsTheRoundedPercentage : Obligations.RatioIsTheRoundedPercentage := by
  unfold Obligations.RatioIsTheRoundedPercentage
  refine ⟨fun e => rfl, fun o e ho => ?_⟩
  obtain ⟨hnear, htie⟩ := ratio_nearest ho e
  refine ⟨hnear, htie, ?_, fun htop hlt => ?_, ?_, fun hneg => ?_, ratio_nonpos_of_lt ho, ratio_self ho,
    ratio_ge_of_le ho⟩
  · rcases Nat.lt_or_ge o e with he | he
    · exact (ratio_nonpos_of_lt ho he).trans (by decide)
    · exact (ratio_bounds_of_le ho he).2
  · rw [htop] at hnear
    omega
  · rintro rfl
    exact ratio_zero_right ho
  · by_contra he
    exact absurd (ratio_bounds_of_le ho (Nat.le_of_not_lt he)).1 (by omega)

end Sys2Proof.Machine

namespace Sys2Proof.Machine

/-! ## How a command ends -/

/-- An execution phase that raises ends the command in the effects of R114 and the completion with that error. -/
theorem exec_of_error {i : Instr} {s : State} {r : Raise} (hc : s.checkPhase i = none) (hb : execBody i s = .error r) :
    exec i s = .next ((s.failEffects i).completeError r) := by
  rw [exec_eq_command]
  exact command_error hc hb

theorem completed_of_ok {i : Instr} {s u : State} (h : execBody i s = .ok u) : Completed s u.completeSuccess := by
  obtain ⟨hctl, hopnd, hparams, hhost, hdraws, -⟩ := execBody_leaves h
  exact ⟨by rw [State.completeSuccess_ctl, hctl], hparams, hopnd, hhost, hdraws⟩

theorem stored_of_write {s t : State} {a : Word} {bs : List Byte} (h : t.mem = Memory.write s.mem a.toNat bs) :
    Stored s t a bs := by
  refine ⟨State.memRead_of_write s t _ bs h, fun x hx => ?_⟩
  rw [State.byteAt_of_write s t _ bs h, if_neg (by omega)]

theorem getElem?_input (s : State) {k : Nat} (hk : k < s.opnd.srcLen.toNat) :
    s.input[k]? = some (s.byteAt (s.opnd.srcAddr.toNat + k)) := by
  simp [State.input, State.memRead, hk]

end Sys2Proof.Machine

namespace Sys2Proof.Machine

/-! ## Pack and Unpack (O29) -/

/-! ### Bits and bytes -/

@[simp] theorem length_unpackByte (x : Byte) : (unpackByte x).length = 8 := by
  simp [unpackByte]

theorem getElem?_unpackByte (x : Byte) {b : Nat} (hb : b < 8) : (unpackByte x)[b]? = some (x.getLsbD (7 - b)) := by
  simp [unpackByte, hb]

theorem unpackByte_injective : Function.Injective unpackByte := by
  intro x y h
  refine BitVec.eq_of_getLsbD_eq fun i hi => ?_
  have hbit := congrArg (·[7 - i]?) h
  simpa [getElem?_unpackByte _ (show 7 - i < 8 by omega), show 7 - (7 - i) = i by omega] using hbit

/-- A byte packed from a group has the bits of the group (R130, R131). -/
theorem unpackByte_packByte {g : Bits} (hg : g.length = 8) : unpackByte (packByte g) = g := by
  refine List.ext_getElem (by simp [hg]) fun t _ ht => ?_
  have hbit := testBit_foldl_bits g ht
  rw [hg] at hbit
  have hlt : 7 - t < 8 := by omega
  simpa [unpackByte, packByte, -BitVec.getLsbD_eq_getElem, BitVec.getLsbD_ofNat, hlt] using hbit

@[simp] theorem unpack_nil : unpack [] = [] := rfl

@[simp] theorem unpack_cons (x : Byte) (xs : List Byte) : unpack (x :: xs) = unpackByte x ++ unpack xs := rfl

@[simp] theorem unpack_append (xs ys : List Byte) : unpack (xs ++ ys) = unpack xs ++ unpack ys :=
  List.flatMap_append

@[simp] theorem length_unpack (xs : List Byte) : (unpack xs).length = 8 * xs.length := by
  induction xs with
  | nil => rfl
  | cons x xs ih =>
    rw [unpack_cons, List.length_append, length_unpackByte, ih, List.length_cons]
    omega

/-- A byte string is known from its bits (R131). -/
theorem unpack_injective : Function.Injective unpack := by
  intro xs
  induction xs with
  | nil =>
    intro ys h
    have hlen := congrArg List.length h
    simp only [length_unpack, List.length_nil] at hlen
    exact (List.length_eq_zero_iff.mp (by omega)).symm
  | cons x xs ih =>
    intro ys h
    cases ys with
    | nil =>
      have hlen := congrArg List.length h
      simp at hlen
    | cons y ys =>
      obtain ⟨hhead, htail⟩ := List.append_inj h (by simp)
      rw [unpackByte_injective hhead, ih htail]

/-- Bit b of input byte k is bit 8 k + b of the bit string (R131). -/
theorem getElem?_unpack (xs : List Byte) (k : Nat) {b : Nat} (hb : b < 8) :
    (unpack xs)[8 * k + b]? = xs[k]?.map fun x => x.getLsbD (7 - b) := by
  induction xs generalizing k with
  | nil => rfl
  | cons x xs ih =>
    rw [unpack_cons]
    cases k with
    | zero =>
      rw [List.getElem?_append_left (by rw [length_unpackByte]; omega), Nat.mul_zero, Nat.zero_add,
        getElem?_unpackByte x hb]
      rfl
    | succ k =>
      rw [List.getElem?_append_right (by rw [length_unpackByte]; omega), length_unpackByte,
        show 8 * (k + 1) + b - 8 = 8 * k + b by omega, ih, List.getElem?_cons_succ]

/-! ### Pack -/

theorem padFor_le (n : Nat) : padFor n ≤ 7 := by
  unfold padFor
  omega

theorem add_padFor (n : Nat) : n + padFor n = 8 * ((n + 7) / 8) := by
  unfold padFor
  omega

/-- A bit string with the zero bits that fill its last byte (R130). -/
def padded (bits : Bits) : Bits := bits ++ List.replicate (padFor bits.length) false

@[simp] theorem length_padded (bits : Bits) : (padded bits).length = 8 * ((bits.length + 7) / 8) := by
  rw [padded, List.length_append, List.length_replicate, add_padFor]

/-- The packed bytes are those of the groups of the padded bit string (R130). -/
theorem pack_fst (bits : Bits) :
    (pack bits).1 =
      (List.range ((bits.length + 7) / 8)).map fun j => packByte (((padded bits).drop (8 * j)).take 8) := by
  simp [pack, padded, add_padFor]

@[simp] theorem pack_snd (bits : Bits) : (pack bits).2 = padFor bits.length := rfl

@[simp] theorem length_pack (bits : Bits) : (pack bits).1.length = (bits.length + 7) / 8 := by
  rw [pack_fst, List.length_map, List.length_range]

/-- The groups of 8 bits from the start of a bit string, put together again. -/
theorem flatMap_groups (b : Bits) (m : Nat) :
    ((List.range m).flatMap fun j => (b.drop (8 * j)).take 8) = b.take (8 * m) := by
  induction m with
  | zero => simp
  | succ m ih =>
    rw [List.range_succ, List.flatMap_append, ih, Nat.mul_succ, List.take_add]
    simp

/-- Unpacking packed bits (R132): every byte gives back its group, and the groups are the padded bit string. -/
theorem unpack_pack (bits : Bits) : unpack (pack bits).1 = padded bits := by
  have hgroup : ∀ j ∈ List.range ((bits.length + 7) / 8),
      unpackByte (packByte (((padded bits).drop (8 * j)).take 8)) = ((padded bits).drop (8 * j)).take 8 := by
    intro j hj
    have hlt := List.mem_range.mp hj
    refine unpackByte_packByte ?_
    rw [List.length_take, List.length_drop, length_padded]
    omega
  rw [pack_fst, unpack, List.flatMap_map, List.flatMap_congr hgroup, flatMap_groups]
  exact List.take_of_length_le (length_padded bits).le

/-- Settles O29: the padded bit string comes back group by group, and its length is the next multiple of 8. -/
theorem unpackOfPackAddsOnlyThePadding : Obligations.UnpackOfPackAddsOnlyThePadding := by
  unfold Obligations.UnpackOfPackAddsOnlyThePadding
  exact fun b => ⟨unpack_pack b, length_pack b, padFor_le b.length⟩

/-- The packed bytes are the only ones with the padded bits. -/
theorem pack_fst_of_unpack {bits : Bits} {bytes : List Byte} (h : unpack bytes = padded bits) : (pack bits).1 = bytes :=
  unpack_injective ((unpack_pack bits).trans h.symm)

/-- Whole groups are packed apart from what follows them. -/
theorem pack_append {pre : Bits} (h : pre.length % 8 = 0) (post : Bits) :
    (pack (pre ++ post)).1 = (pack pre).1 ++ (pack post).1 := by
  have hpre : padFor pre.length = 0 := by rw [padFor, h]
  have hpost : padFor (pre.length + post.length) = padFor post.length := by
    rw [padFor, Nat.add_mod, h, Nat.zero_add, Nat.mod_mod, padFor]
  refine pack_fst_of_unpack ?_
  simp [unpack_pack, padded, hpre, hpost]

theorem pack_group {g : Bits} (hg : g.length = 8) : (pack g).1 = [packByte g] := by
  refine pack_fst_of_unpack ?_
  simp [unpackByte_packByte hg, padded, hg, padFor]

end Sys2Proof.Machine

namespace Sys2Proof.Machine

/-! ## BUNPACK and BPACK (O30, O31) -/

/-! ### BUNPACK -/

/-- The ASCII byte of a bit (R133, R134). -/
def asciiBit (b : Bool) : Byte := if b then 0x31 else 0x30

theorem bunpackTokens_cons (x : Byte) (xs : List Byte) (k : Nat) :
    bunpackTokens (x :: xs) k = (k, (unpackByte x).map asciiBit) :: bunpackTokens xs (k + 1) := rfl

/-- The bytes BUNPACK emits are the ASCII bits of the input (R134). -/
theorem flatMap_bunpackTokens (inp : List Byte) (k : Nat) :
    (bunpackTokens inp k).flatMap Prod.snd = (unpack inp).map asciiBit := by
  induction inp generalizing k with
  | nil => rfl
  | cons x xs ih => rw [bunpackTokens_cons, List.flatMap_cons, ih, unpack_cons, List.map_append]

/-- BUNPACK emits eight bytes a token, so capacity is exhausted in token cap / 8. -/
theorem overflowAt_bunpackTokens {cap : Nat} (inp : List Byte) (k : Nat) (hlo : 8 * k ≤ cap)
    (hhi : cap < 8 * (k + inp.length)) : overflowAt cap (bunpackTokens inp k) (8 * k) = cap / 8 := by
  induction inp generalizing k with
  | nil =>
    rw [List.length_nil] at hhi
    omega
  | cons x xs ih =>
    rw [List.length_cons] at hhi
    rw [bunpackTokens_cons, overflowAt, List.length_map, length_unpackByte]
    split
    · exact ih (k + 1) (by omega) (by omega)
    · omega

theorem execBody_bunpack (s : State) :
    execBody .bunpack s =
      if 8 * s.opnd.srcLen.toNat ≤ s.dstCap then .ok (s.writeOut ((unpack s.input).map asciiBit))
      else .error ⟨.dstOverflow, s.dstCap / 8⟩ := by
  have hemit := emitTokens_eq s.dstCap (bunpackTokens s.input 0) [] (Nat.zero_le _)
  simp only [flatMap_bunpackTokens, List.length_nil, Nat.zero_add, List.nil_append, List.length_map, length_unpack,
    State.input_length] at hemit
  rw [execBody, hemit]
  by_cases hfit : 8 * s.opnd.srcLen.toNat ≤ s.dstCap
  · rw [if_pos hfit, if_pos hfit]
  · have hpos : overflowAt s.dstCap (bunpackTokens s.input 0) 0 = s.dstCap / 8 :=
      overflowAt_bunpackTokens s.input 0 (Nat.zero_le _) (by rw [State.input_length]; omega)
    rw [if_neg hfit, if_neg hfit, hpos]

/-- Settles O31, by what the execution phase of BUNPACK computes and where the bits of each byte stand. -/
theorem bunpackSpellsEveryBit : Obligations.BunpackSpellsEveryBit := by
  unfold Obligations.BunpackSpellsEveryBit
  intro s hc
  refine ⟨fun hfit => ?_, fun hover => ?_⟩
  · have hbody := (execBody_bunpack s).trans (if_pos hfit)
    have hlen : ((unpack s.input).map asciiBit).length = 8 * s.opnd.srcLen.toNat := by simp
    refine ⟨_, _, exec_of_ok hc hbody, completed_of_ok hbody, stored_of_write rfl, rfl, hlen, fun k b hk hb => ?_, ?_⟩
    · rw [List.getElem?_map, getElem?_unpack _ _ hb, getElem?_input s hk]
      rfl
    · rw [State.completeSuccess_res, State.writeOut_res, hlen]
  · have hbody := (execBody_bunpack s).trans (if_neg (Nat.not_le.mpr hover))
    exact ⟨_, exec_of_error hc hbody, rfl, rfl⟩

/-! ### One byte of BPACK's input -/

theorem bpackLoop_malformed (cap : Nat) {x : Byte} (h0 : x ≠ 0x30) (h1 : x ≠ 0x31) (rest : List Byte) (k : Nat)
    (group : Bits) (out : List Byte) :
    bpackLoop cap (x :: rest) k group out = .error ⟨.malformedPayload, k⟩ := by
  rw [bpackLoop, if_pos ⟨h0, h1⟩]

/-- A bit is added to the group, and the group it fills is emitted (R133). -/
theorem bpackLoop_asciiBit (cap : Nat) (b : Bool) (rest : List Byte) (k : Nat) (group : Bits) (out : List Byte) :
    bpackLoop cap (asciiBit b :: rest) k group out =
      if group.length ≠ 7 then bpackLoop cap rest (k + 1) (group ++ [b]) out
      else if out.length = cap then .error ⟨.dstOverflow, k - 7⟩
      else bpackLoop cap rest (k + 1) [] (out ++ [packByte (group ++ [b])]) := by
  have hbit : ¬ (asciiBit b ≠ 0x30 ∧ asciiBit b ≠ 0x31) := by cases b <;> decide
  have hval : (asciiBit b == 0x31) = b := by cases b <;> decide
  simp only [bpackLoop, if_neg hbit, hval, List.length_append, List.length_singleton, emit]
  by_cases hg : group.length = 7
  · by_cases ho : out.length = cap <;> simp [hg, ho]
  · simp [hg]

/-! ### The loop of BPACK -/

theorem map_asciiBit_concat (bits : Bits) (b : Bool) (rest : List Byte) :
    (bits ++ [b]).map asciiBit ++ rest = bits.map asciiBit ++ asciiBit b :: rest := by
  simp

/-- After ASCII bits whose whole groups fit, the loop has emitted the whole groups and holds the rest (R133). -/
theorem bpackLoop_asciiBits {cap : Nat} (bits : Bits) (rest : List Byte) (hcap : bits.length / 8 ≤ cap) :
    ∃ full group : Bits, bits = full ++ group ∧ full.length % 8 = 0 ∧ group.length < 8 ∧
      bpackLoop cap (bits.map asciiBit ++ rest) 0 [] [] = bpackLoop cap rest bits.length group (pack full).1 := by
  induction bits using List.reverseRecOn generalizing rest with
  | nil => exact ⟨[], [], rfl, rfl, by decide, rfl⟩
  | append_singleton bits b ih =>
    rw [map_asciiBit_concat]
    rw [List.length_append, List.length_singleton] at hcap ⊢
    obtain ⟨full, group, rfl, hfull, hgroup, hloop⟩ := ih (asciiBit b :: rest) (by omega)
    rw [hloop, bpackLoop_asciiBit]
    rw [List.length_append] at hcap
    by_cases hg : group.length = 7
    · have hlen : (group ++ [b]).length = 8 := by simp [hg]
      have hroom : (pack full).1.length ≠ cap := by
        rw [length_pack]
        omega
      rw [if_neg (not_not.mpr hg), if_neg hroom, ← pack_group hlen, ← pack_append hfull]
      refine ⟨full ++ (group ++ [b]), [], by simp, ?_, by decide, rfl⟩
      rw [List.length_append, hlen]
      omega
    · rw [if_pos hg]
      refine ⟨full, group ++ [b], by simp, hfull, ?_, rfl⟩
      rw [List.length_append, List.length_singleton]
      omega

/-! ### The output of BPACK -/

theorem bpackOutput_of_loop_error {cap : Nat} {inp : List Byte} {r : Raise} (h : bpackLoop cap inp 0 [] [] = .error r) :
    bpackOutput cap inp = .error r := by
  rw [bpackOutput, h]

/-- At the end of the input the last group is emitted with its padding, an empty one as no byte (R133). -/
theorem bpackOutput_of_loop_ok {cap : Nat} {inp : List Byte} {group : Bits} {out : List Byte}
    (h : bpackLoop cap inp 0 [] [] = .ok (group, out)) :
    bpackOutput cap inp =
      (emitStr cap (pack group).1 (inp.length - group.length) out).map
        fun o => (o, BitVec.ofNat 3 (padFor inp.length)) := by
  rw [bpackOutput, h]
  cases group with
  | nil => rfl
  | cons b bs =>
    dsimp only
    cases emitStr cap (pack (b :: bs)).1 (inp.length - (b :: bs).length) out <;> rfl

/-- ASCII bits whose whole groups fit are packed, if their last group fits too (R133). -/
theorem bpackOutput_asciiBits {cap : Nat} (bits : Bits) (hcap : bits.length / 8 ≤ cap) :
    bpackOutput cap (bits.map asciiBit) =
      if (bits.length + 7) / 8 ≤ cap then .ok ((pack bits).1, BitVec.ofNat 3 (pack bits).2)
      else .error ⟨.dstOverflow, 8 * cap⟩ := by
  obtain ⟨full, group, rfl, hfull, hgroup, hloop⟩ := bpackLoop_asciiBits bits [] hcap
  rw [List.append_nil] at hloop
  rw [List.length_append] at hcap ⊢
  have hout : (pack full).1.length ≤ cap := by
    rw [length_pack]
    omega
  have hbytes : (pack full).1.length + (pack group).1.length = (full.length + group.length + 7) / 8 := by
    rw [length_pack, length_pack]
    omega
  rw [bpackOutput_of_loop_ok hloop, emitStr_eq _ _ _ _ hout, hbytes, ← pack_append hfull, List.length_map,
    List.length_append, pack_snd, List.length_append]
  split
  · rfl
  · rw [show full.length + group.length - group.length = 8 * cap by omega]
    rfl

/-- A byte that is no bit is malformed when the groups before it fit (R133). -/
theorem bpackOutput_malformed {cap : Nat} (bits : Bits) {x : Byte} (h0 : x ≠ 0x30) (h1 : x ≠ 0x31) (rest : List Byte)
    (hcap : bits.length / 8 ≤ cap) :
    bpackOutput cap (bits.map asciiBit ++ x :: rest) = .error ⟨.malformedPayload, bits.length⟩ := by
  obtain ⟨full, group, -, -, -, hloop⟩ := bpackLoop_asciiBits bits (x :: rest) hcap
  exact bpackOutput_of_loop_error (hloop.trans (bpackLoop_malformed cap h0 h1 _ _ _ _))

/-- A whole group after a full output overflows at its first bit, whatever follows it (R78, R133). -/
theorem bpackOutput_overflow {cap : Nat} (bits : Bits) (rest : List Byte) (hlen : bits.length = 8 * cap + 8) :
    bpackOutput cap (bits.map asciiBit ++ rest) = .error ⟨.dstOverflow, 8 * cap⟩ := by
  obtain ⟨init, b, rfl⟩ : ∃ init b, bits = init ++ [b] :=
    (List.eq_nil_or_concat' bits).resolve_left fun h => by simp [h] at hlen
  rw [List.length_append, List.length_singleton] at hlen
  have hwhole : init.length / 8 ≤ cap := by omega
  obtain ⟨full, group, rfl, hfull, hgroup, hloop⟩ := bpackLoop_asciiBits init (asciiBit b :: rest) hwhole
  rw [List.length_append] at hlen hloop
  have hout : (pack full).1.length = cap := by
    rw [length_pack]
    omega
  refine bpackOutput_of_loop_error ?_
  rw [map_asciiBit_concat, hloop, bpackLoop_asciiBit, if_neg (by omega), if_pos hout,
    show full.length + group.length - 7 = 8 * cap by omega]

/-! ### BPACK -/

theorem execBody_bpack_error {s : State} {r : Raise} (h : bpackOutput s.dstCap s.input = .error r) :
    execBody .bpack s = .error r := by
  rw [execBody, h]

/-- A string of the two bytes of R133 spells a bit string. -/
theorem exists_eq_map_asciiBit {inp : List Byte} (h : ∀ y ∈ inp, y = 0x30 ∨ y = 0x31) :
    ∃ bits : Bits, inp = bits.map asciiBit := by
  refine ⟨inp.map (· == 0x31), ?_⟩
  have hback : ∀ y ∈ inp, asciiBit (y == 0x31) = y := by
    intro y hy
    rcases h y hy with rfl | rfl <;> rfl
  rw [List.map_map]
  exact ((List.map_congr_left hback).trans (List.map_id' inp)).symm

/-- Settles O30, by what the execution phase of BPACK computes on the ASCII bits the input begins with. -/
theorem bpackPacksAsciiBits : Obligations.BpackPacksAsciiBits := by
  unfold Obligations.BpackPacksAsciiBits
  intro s hc
  rw [show s.opnd.dstCap.toNat = s.dstCap from rfl]
  refine ⟨fun bits hin hfit => ?_, fun k x hx h0 h1 hbits hcap => ?_, fun hover hbits => ?_⟩
  · have hout : bpackOutput s.dstCap s.input = .ok ((pack bits).1, BitVec.ofNat 3 (pack bits).2) := by
      rw [hin]
      exact (bpackOutput_asciiBits bits (by omega)).trans (if_pos hfit)
    have hbody : execBody .bpack s = .ok ((s.writeOut (pack bits).1).setPad (BitVec.ofNat 3 (pack bits).2)) := by
      rw [execBody, hout]
    refine ⟨_, exec_of_ok hc hbody, completed_of_ok hbody, stored_of_write rfl, rfl, ?_⟩
    rw [State.completeSuccess_res, State.setPad_res, State.writeOut_res, length_pack]
  · obtain ⟨bits, hspell⟩ := exists_eq_map_asciiBit hbits
    obtain ⟨hk, hget⟩ := List.getElem?_eq_some_iff.mp hx
    have hlen : bits.length = k := by
      have := congrArg List.length hspell
      rw [List.length_take, List.length_map] at this
      omega
    have hin : s.input = bits.map asciiBit ++ x :: s.input.drop (k + 1) := by
      rw [← hspell, ← hget, ← List.drop_eq_getElem_cons, List.take_append_drop]
    have hout := bpackOutput_malformed bits h0 h1 (s.input.drop (k + 1)) (hlen.symm ▸ hcap)
    rw [← hin, hlen] at hout
    exact ⟨_, exec_of_error hc (execBody_bpack_error hout), rfl, rfl, rfl⟩
  · obtain ⟨bits, hspell⟩ := exists_eq_map_asciiBit hbits
    have hlen := congrArg List.length hspell
    rw [List.length_take, List.length_map, State.input_length] at hlen
    suffices hout : bpackOutput s.dstCap s.input = .error ⟨.dstOverflow, 8 * s.dstCap⟩ from
      raises_of_error hc (execBody_bpack_error hout)
    by_cases hgroup : 8 * s.dstCap + 8 ≤ s.opnd.srcLen.toNat
    · rw [← List.take_append_drop (8 * s.dstCap + 8) s.input, hspell]
      exact bpackOutput_overflow bits _ (by omega)
    · rw [List.take_of_length_le (by rw [State.input_length]; omega)] at hspell
      rw [hspell, bpackOutput_asciiBits bits (by omega), if_neg (by omega)]

end Sys2Proof.Machine

namespace Sys2Proof.Machine

/-! ## ParseTree and the grammar of serialized trees (O37) -/

/-! ### Bytes of a string -/

theorem byteOf_drop (md : List Byte) (p k : Nat) : byteOf md (p + k) = byteOf (md.drop p) k := by
  simp [byteOf]

theorem wordOf_drop (md : List Byte) (p k : Nat) : wordOf md (p + k) = wordOf (md.drop p) k := by
  simp only [wordOf, Nat.add_assoc, byteOf_drop]

theorem drop_add_of_drop {md bs more : List Byte} {p : Nat} (h : md.drop p = bs ++ more) :
    md.drop (p + bs.length) = more := by
  rw [← List.drop_drop, h, List.drop_left]

@[simp] theorem length_bigEndian (f : Word) : (bigEndian f).length = 4 := rfl

theorem toNat_append_byte {n : Nat} (x : BitVec n) (y : Byte) : (x ++ y).toNat = 256 * x.toNat + y.toNat := by
  rw [BitVec.toNat_append, ← Nat.shiftLeft_add_eq_or_of_lt y.isLt, Nat.shiftLeft_eq]
  omega

/-- Four bytes are the big-endian spelling of the word they make (R72). -/
theorem bigEndian_bytes (a b c d : Byte) : bigEndian (a ++ b ++ c ++ d) = [a, b, c, d] := by
  simp only [bigEndian, toNat_append_byte, List.cons.injEq, and_true]
  refine ⟨?_, ?_, ?_, ?_⟩ <;> bv_omega

/-- The word read from its big-endian spelling (R72). -/
theorem wordOf_bigEndian (f : Word) (more : List Byte) : wordOf (bigEndian f ++ more) 0 = f := by
  refine BitVec.eq_of_toNat_eq ?_
  simp only [wordOf, toNat_append_byte, byteOf, bigEndian, List.cons_append, List.getD_cons_succ, List.getD_cons_zero]
  bv_omega

/-! ### Records -/

/-- The records of a tree in the order of its byte string (R156). -/
def HTree.records : HTree → List TreeRecord
  | .leaf s f => [.leaf s f]
  | .node f l r => .node f :: (l.records ++ r.records)

@[simp] theorem TreeRecord.length_bytes_node (f : Word) : (TreeRecord.node f).bytes.length = 5 := rfl

@[simp] theorem filterMap_symbol_node (f : Word) (rs : List TreeRecord) :
    (TreeRecord.node f :: rs).filterMap TreeRecord.symbol = rs.filterMap TreeRecord.symbol := rfl

theorem HTree.serialized_eq (t : HTree) : t.serialized = t.records.flatMap TreeRecord.bytes := by
  induction t with
  | leaf s f => rfl
  | node f l r ihl ihr =>
    simp only [HTree.serialized, HTree.records, TreeRecord.bytes, List.flatMap_cons, List.flatMap_append, ihl, ihr,
      List.append_assoc]

theorem HTree.length_records (t : HTree) : t.records.length = t.size := by
  induction t with
  | leaf s f => rfl
  | node f l r ihl ihr =>
    simp only [HTree.records, HTree.size, List.length_cons, List.length_append, ihl, ihr]
    omega

theorem HTree.symbols_records (t : HTree) : t.records.filterMap TreeRecord.symbol = t.symbols := by
  induction t with
  | leaf s f => rfl
  | node f l r ihl ihr =>
    rw [HTree.records, filterMap_symbol_node, List.filterMap_append, ihl, ihr, HTree.symbols]

theorem wanted_append (n : Nat) (rs rs' : List TreeRecord) :
    wanted n (rs ++ rs') = (wanted n rs).bind (wanted · rs') := by
  induction rs generalizing n with
  | nil => rfl
  | cons x rs ih => cases n <;> cases x <;> simp [wanted, ih]

/-- Records that leave so many nodes wanted leave more where more were wanted. -/
theorem wanted_add {n k : Nat} {rs : List TreeRecord} (h : wanted n rs = some k) (m : Nat) :
    wanted (n + m) rs = some (k + m) := by
  induction rs generalizing n with
  | nil =>
    cases h
    rfl
  | cons x rs ih =>
    obtain _ | n := n
    · cases h
    · rw [Nat.add_right_comm]
      cases x with
      | leaf s f => exact ih h
      | node f => exact (congrArg (wanted · rs) (Nat.add_right_comm n m 2)).trans (ih h)

/-- The records of a tree are one of the nodes wanted. -/
theorem HTree.wanted_records (t : HTree) (n : Nat) : wanted (n + 1) t.records = some n := by
  induction t generalizing n with
  | leaf s f => rfl
  | node f l r ihl ihr => rw [HTree.records, wanted, wanted_append, ihl, Option.bind_some, ihr]

/-! ### One record -/

/-- After the first byte of a leaf's record: something is wrong with the record, or its symbol is new (R158). -/
theorem badRecord_or_leaf (seen : List Byte) {q : Nat} (hq : q < 511) (p : Nat) (more : List Byte) :
    (∃ pos, BadRecord seen q p (0x01 :: more) pos) ∨
      ∃ s f more', 0x01 :: more = (TreeRecord.leaf s f).bytes ++ more' ∧ s ∉ seen := by
  obtain hcut | hlen := Nat.lt_or_ge more.length 7
  · exact .inl ⟨_, .leafCut hq hcut⟩
  match more, hlen with
  | s :: a :: b :: c :: d :: y :: z :: more, _ =>
    have hbytes : [a, b, c, d] = bigEndian (a ++ b ++ c ++ d) := (bigEndian_bytes a b c d).symm
    have hrest : 0x01 :: s :: a :: b :: c :: d :: y :: z :: more =
        [0x01, s] ++ bigEndian (a ++ b ++ c ++ d) ++ y :: z :: more := by rw [← hbytes]; rfl
    rw [hrest]
    by_cases hy : y = 0x00
    · subst hy
      by_cases hz : z = 0x00
      · subst hz
        by_cases hs : s ∈ seen
        · exact .inl ⟨_, by simpa [TreeRecord.bytes] using BadRecord.twice (more := more) hq hs⟩
        · exact .inr ⟨s, a ++ b ++ c ++ d, more, by simp [TreeRecord.bytes], hs⟩
      · exact .inl ⟨_, .rightLink hq hz⟩
    · exact .inl ⟨_, .leftLink hq hy⟩

/-- What stands where a node is wanted: a bad record, or the record of a node or of a leaf with a new symbol, and room
for it (R158). -/
theorem badRecord_or_record (seen : List Byte) {q : Nat} (hq : q ≤ 511) (p : Nat) (rest : List Byte) :
    (∃ pos, BadRecord seen q p rest pos) ∨
      q < 511 ∧ ((∃ s f more, rest = (TreeRecord.leaf s f).bytes ++ more ∧ s ∉ seen) ∨
        ∃ f more, rest = (TreeRecord.node f).bytes ++ more) := by
  obtain rfl | hq := hq.eq_or_lt
  · exact .inl ⟨_, .tooMany rfl⟩
  obtain _ | ⟨x, more⟩ := rest
  · exact .inl ⟨_, .missing⟩
  by_cases h1 : x = 0x01
  · subst h1
    exact (badRecord_or_leaf seen hq p more).imp_right fun h => ⟨hq, .inl h⟩
  by_cases h2 : x = 0x02
  · subst h2
    obtain hcut | hlen := Nat.lt_or_ge more.length 4
    · exact .inl ⟨_, .nodeCut hq hcut⟩
    match more, hlen with
    | a :: b :: c :: d :: more, _ =>
      exact .inr ⟨hq, .inr ⟨a ++ b ++ c ++ d, more, by simp [TreeRecord.bytes, bigEndian_bytes]⟩⟩
  · exact .inl ⟨_, .noRecord h1 h2⟩

/-- The place where a bad record is wrong lies in the string (R158). -/
theorem BadRecord.pos_le {seen : List Byte} {q p pos : Nat} {rest : List Byte} (h : BadRecord seen q p rest pos) :
    pos ≤ p + rest.length := by
  cases h <;> simp [TreeRecord.bytes] <;> omega

/-! ### ParseNode at a record -/

/-- ParseNode at the eight bytes of a leaf: its two links, then its symbol (R158). -/
theorem parseNode_leaf {md more : List Byte} {p : Nat} {nodes : List Node} (hq : nodes.length < 511) {s x y : Byte}
    {f : Word} (hmd : md.drop p = [0x01, s] ++ bigEndian f ++ x :: y :: more) (fuel : Nat) :
    parseNode md (fuel + 1) p nodes =
      if x ≠ 0x00 then .error ⟨.corruptTree, p + 6⟩
      else if y ≠ 0x00 then .error ⟨.corruptTree, p + 7⟩
      else if s ∈ nodes.filterMap nodeSymbol then .error ⟨.corruptTree, p + 1⟩
      else .ok (nodes.length, p + 8, nodes ++ [.leaf s f]) := by
  have hroom : nodes.length ≠ maxNodes := hq.ne
  have hlen := congrArg List.length hmd
  simp only [List.length_drop, List.length_append, List.length_cons, length_bigEndian] at hlen
  have hbyte := byteOf_drop md p
  have hword : wordOf md (p + 2) = f := by
    rw [wordOf_drop, hmd]
    exact wordOf_bigEndian f (x :: y :: more)
  rw [hmd] at hbyte
  have h0 : byteOf md p = 0x01 := hbyte 0
  have h1 : byteOf md (p + 1) = s := hbyte 1
  have h6 : byteOf md (p + 6) = x := hbyte 6
  have h7 : byteOf md (p + 7) = y := hbyte 7
  rw [parseNode, h0, h1, h6, h7, hword, if_neg (by omega), if_neg (fun h => h.1 rfl), if_neg hroom, if_pos rfl,
    if_neg (by omega)]
  simp only [symbolSeen_iff]

/-- ParseNode at the record of a leaf: its symbol must be new (R158). -/
theorem parseNode_leafRecord {md more : List Byte} {p : Nat} {nodes : List Node} (hq : nodes.length < 511) {s : Byte}
    {f : Word} (hmd : md.drop p = (TreeRecord.leaf s f).bytes ++ more) (fuel : Nat) :
    parseNode md (fuel + 1) p nodes =
      if s ∈ nodes.filterMap nodeSymbol then .error ⟨.corruptTree, p + 1⟩
      else .ok (nodes.length, p + 8, nodes ++ [.leaf s f]) := by
  rw [TreeRecord.bytes, List.append_assoc _ [0x00, 0x00]] at hmd
  rw [parseNode_leaf hq hmd, if_neg (not_not.mpr rfl), if_neg (not_not.mpr rfl)]

/-- ParseNode at the five bytes of an internal node: its two children follow (R158). -/
theorem parseNode_node {md more : List Byte} {p : Nat} {nodes : List Node} (hq : nodes.length < 511) {f : Word}
    (hmd : md.drop p = (TreeRecord.node f).bytes ++ more) (fuel : Nat) :
    parseNode md (fuel + 1) p nodes =
      (parseNode md fuel (p + 5) (nodes ++ [.internal f 0 0])).bind fun left =>
        (parseNode md fuel left.2.1 left.2.2).bind fun right =>
          .ok (nodes.length, right.2.1, right.2.2.set nodes.length (.internal f left.1 right.1)) := by
  have hroom : nodes.length ≠ maxNodes := hq.ne
  have hlen := congrArg List.length hmd
  simp only [TreeRecord.bytes, List.length_drop, List.length_append, List.length_singleton, length_bigEndian] at hlen
  have hbyte := byteOf_drop md p 0
  have hword : wordOf md (p + 1) = f := by
    rw [wordOf_drop, hmd]
    exact wordOf_bigEndian f more
  rw [hmd] at hbyte
  have h0 : byteOf md p = 0x02 := hbyte
  conv_lhs => rw [parseNode]
  rw [h0, hword, if_neg (by omega), if_neg (fun h => h.2 rfl), if_neg hroom, if_neg (by decide), if_neg (by omega)]
  dsimp only
  cases parseNode md fuel (p + 5) (nodes ++ [.internal f 0 0]) with
  | error e => rfl
  | ok left =>
    dsimp only [Except.bind]
    cases parseNode md fuel left.2.1 left.2.2 <;> rfl

/-- ParseNode raises CORRUPT_TREE where a record is bad (R158). -/
theorem parseNode_of_badRecord {md : List Byte} {p : Nat} {nodes : List Node} {pos : Nat}
    (h : BadRecord (nodes.filterMap nodeSymbol) nodes.length p (md.drop p) pos) (fuel : Nat) :
    parseNode md (fuel + 1) p nodes = .error ⟨.corruptTree, pos⟩ := by
  have hbyte : byteOf md p = byteOf (md.drop p) 0 := byteOf_drop md p 0
  have hlen := List.length_drop (i := p) (l := md)
  generalize hrest : md.drop p = rest at h hbyte hlen
  cases h with
  | missing => rw [parseNode, if_pos (by simpa using hrest)]
  | @noRecord x more h1 h2 =>
    have h0 : byteOf md p = x := hbyte
    rw [List.length_cons] at hlen
    rw [parseNode, h0, if_neg (by omega), if_pos ⟨h1, h2⟩]
  | tooMany hq =>
    have hfull : nodes.length = maxNodes := hq
    rw [parseNode, if_pos hfull, ite_self, ite_self]
  | @leafCut more hq hcut =>
    have hroom : nodes.length ≠ maxNodes := hq.ne
    have h0 : byteOf md p = 0x01 := hbyte
    rw [List.length_cons] at hlen
    rw [parseNode, h0, if_neg (by omega), if_neg (fun h => h.1 rfl), if_neg hroom, if_pos rfl, if_pos (by omega),
      show md.length = p + 1 + more.length by omega]
  | @nodeCut more hq hcut =>
    have hroom : nodes.length ≠ maxNodes := hq.ne
    have h0 : byteOf md p = 0x02 := hbyte
    rw [List.length_cons] at hlen
    rw [parseNode, h0, if_neg (by omega), if_neg (fun h => h.2 rfl), if_neg hroom, if_neg (by decide),
      if_pos (by omega), show md.length = p + 1 + more.length by omega]
  | leftLink hq hx => rw [parseNode_leaf hq hrest, if_pos hx]
  | rightLink hq hy => rw [parseNode_leaf hq hrest, if_neg (not_not.mpr rfl), if_pos hy]
  | twice hq hs => rw [parseNode_leafRecord hq hrest, if_pos hs]

/-! ### ParseNode at the byte string of a tree -/

@[simp] theorem filterMap_nodeSymbol_internal (f : Word) (l r : Nat) (nodes : List Node) :
    (Node.internal f l r :: nodes).filterMap nodeSymbol = nodes.filterMap nodeSymbol := rfl

/-- ParseNode reads this tree and puts it in pre-order behind the nodes so far (R158). -/
def ReadsTree (md : List Byte) (fuel p : Nat) (nodes : List Node) (t : HTree) : Prop :=
  parseNode md fuel p nodes = .ok (nodes.length, p + t.serialized.length, nodes ++ t.preorder nodes.length)

theorem ReadsTree.leaf {md more : List Byte} {p : Nat} {nodes : List Node} (hq : nodes.length < 511) {s : Byte}
    {f : Word} (hmd : md.drop p = (HTree.leaf s f).serialized ++ more) (hs : s ∉ nodes.filterMap nodeSymbol)
    (fuel : Nat) : ReadsTree md (fuel + 1) p nodes (.leaf s f) := by
  rw [ReadsTree, parseNode_leafRecord hq hmd, if_neg hs]
  rfl

/-- ParseNode reads an internal node where its children are read one after the other behind it. -/
theorem ReadsTree.node {md more : List Byte} {p : Nat} {nodes : List Node} (hq : nodes.length < 511) {f : Word}
    (hmd : md.drop p = (TreeRecord.node f).bytes ++ more) {fuel : Nat} {l r : HTree}
    (hl : ReadsTree md fuel (p + 5) (nodes ++ [.internal f 0 0]) l)
    (hr : ReadsTree md fuel (p + 5 + l.serialized.length) (nodes ++ .internal f 0 0 :: l.preorder (nodes.length + 1))
      r) :
    ReadsTree md (fuel + 1) p nodes (.node f l r) := by
  unfold ReadsTree at hl hr ⊢
  have hcount : nodes.length + (l.size + 1) = nodes.length + 1 + l.size := by omega
  have hbytes : p + (HTree.node f l r).serialized.length = p + 5 + l.serialized.length + r.serialized.length := by
    simp only [HTree.serialized, List.length_append, List.length_singleton, length_bigEndian]
    omega
  rw [parseNode_node hq hmd, hl, hbytes]
  simp only [List.length_append, List.length_cons, List.length_nil, List.append_assoc, List.singleton_append,
    Nat.zero_add, HTree.length_preorder, hcount, Except.bind] at hr ⊢
  rw [hr]
  simp [HTree.preorder]

/-- ParseNode reads the byte string of a tree that there is room for and whose symbols are new and different (R158). -/
theorem readsTree_of_serialized {md more : List Byte} {fuel p : Nat} {nodes : List Node} {t : HTree}
    (hmd : md.drop p = t.serialized ++ more) (hq : nodes.length + t.size ≤ 511) (hf : 512 ≤ fuel + nodes.length)
    (hn : (nodes.filterMap nodeSymbol ++ t.symbols).Nodup) : ReadsTree md fuel p nodes t := by
  induction t generalizing fuel p nodes more with
  | leaf s f =>
    obtain _ | fuel := fuel
    · omega
    have hs : s ∉ nodes.filterMap nodeSymbol := (List.nodup_cons.mp (List.nodup_append_comm.mp hn)).1
    exact .leaf hq hmd hs fuel
  | node f l r ihl ihr =>
    simp only [HTree.size] at hq
    obtain _ | fuel := fuel
    · omega
    rw [HTree.symbols, ← List.append_assoc] at hn
    rw [HTree.serialized, List.append_assoc, List.append_assoc] at hmd
    have hleft := drop_add_of_drop hmd
    have hright := drop_add_of_drop hleft
    refine .node (by omega) hmd (ihl hleft ?_ ?_ ?_) (ihr hright ?_ ?_ ?_)
    · simp; omega
    · simp; omega
    · simpa using (List.nodup_append.mp hn).1
    · simp; omega
    · simp; omega
    · simpa [HTree.symbols_preorder] using hn

/-! ### Where the grammar breaks -/

/-- The grammar breaks in these bytes, a node being wanted after q nodes with the symbols `seen` and p bytes: after
records without a fault a bad record stands where one is wanted (R158). -/
def BreaksAt (seen : List Byte) (q p : Nat) (bytes : List Byte) (pos : Nat) : Prop :=
  ∃ rs k rest, bytes = rs.flatMap TreeRecord.bytes ++ rest ∧ wanted 1 rs = some (k + 1) ∧
    (seen ++ rs.filterMap TreeRecord.symbol).Nodup ∧ q + rs.length ≤ 511 ∧
    BadRecord (seen ++ rs.filterMap TreeRecord.symbol) (q + rs.length) (p + (rs.flatMap TreeRecord.bytes).length) rest
      pos

theorem BreaksAt.of_badRecord {seen bytes : List Byte} {q p pos : Nat} (hn : seen.Nodup) (hq : q ≤ 511)
    (h : BadRecord seen q p bytes pos) : BreaksAt seen q p bytes pos :=
  ⟨[], 0, bytes, rfl, rfl, by simpa using hn, hq, by simpa using h⟩

/-- What breaks where a node is wanted after some records breaks with these records before it. -/
theorem BreaksAt.after {rs : List TreeRecord} {k : Nat} (hw : wanted 1 rs = some (k + 1)) {seen bytes : List Byte}
    {q p pos : Nat}
    (h : BreaksAt (seen ++ rs.filterMap TreeRecord.symbol) (q + rs.length) (p + (rs.flatMap TreeRecord.bytes).length)
      bytes pos) :
    BreaksAt seen q p (rs.flatMap TreeRecord.bytes ++ bytes) pos := by
  obtain ⟨rs', k', rest, rfl, hw', hn, hq, hbad⟩ := h
  refine ⟨rs ++ rs', k' + k, rest, by simp, ?_, by simpa using hn, by simpa [Nat.add_assoc] using hq, ?_⟩
  · rw [wanted_append, hw, Option.bind_some, Nat.add_comm k 1, wanted_add hw', Nat.add_right_comm]
  · simpa [Nat.add_assoc] using hbad

theorem BreaksAt.left {seen bytes : List Byte} {q p pos : Nat} {f : Word}
    (h : BreaksAt seen (q + 1) (p + 5) bytes pos) : BreaksAt seen q p ((TreeRecord.node f).bytes ++ bytes) pos := by
  refine .after (rs := [.node f]) rfl ?_
  simpa using h

theorem BreaksAt.right {seen bytes : List Byte} {q p pos : Nat} {f : Word} {l : HTree}
    (h : BreaksAt (seen ++ l.symbols) (q + (l.size + 1)) (p + 5 + l.serialized.length) bytes pos) :
    BreaksAt seen q p ((TreeRecord.node f).bytes ++ (l.serialized ++ bytes)) pos := by
  have hw : wanted 1 (.node f :: l.records) = some 1 := l.wanted_records 1
  have hbytes : (TreeRecord.node f :: l.records).flatMap TreeRecord.bytes =
      (TreeRecord.node f).bytes ++ l.serialized := by rw [List.flatMap_cons, l.serialized_eq]
  rw [← List.append_assoc, ← hbytes]
  refine .after hw ?_
  rwa [hbytes, filterMap_symbol_node, l.symbols_records, List.length_cons, l.length_records, List.length_append,
    TreeRecord.length_bytes_node, ← Nat.add_assoc p]

/-- ParseNode, with fuel for the nodes there is room for, reads a tree or raises CORRUPT_TREE where the grammar breaks
(R158). -/
theorem parseNode_cases (md : List Byte) {fuel : Nat} (p : Nat) {nodes : List Node} (hq : nodes.length ≤ 511)
    (hf : 512 ≤ fuel + nodes.length) (hn : (nodes.filterMap nodeSymbol).Nodup) :
    (∃ (t : HTree) (more : List Byte), md.drop p = t.serialized ++ more ∧
      (nodes.filterMap nodeSymbol ++ t.symbols).Nodup ∧ nodes.length + t.size ≤ 511 ∧ ReadsTree md fuel p nodes t) ∨
    ∃ pos, BreaksAt (nodes.filterMap nodeSymbol) nodes.length p (md.drop p) pos ∧
      parseNode md fuel p nodes = .error ⟨.corruptTree, pos⟩ := by
  induction fuel generalizing p nodes with
  | zero => omega
  | succ fuel ih =>
    obtain ⟨pos, hbad⟩ | ⟨hroom, ⟨s, f, more, hmd, hs⟩ | ⟨f, more, hmd⟩⟩ :=
      badRecord_or_record (nodes.filterMap nodeSymbol) hq p (md.drop p)
    · exact .inr ⟨pos, .of_badRecord hn hq hbad, parseNode_of_badRecord hbad fuel⟩
    · exact .inl ⟨.leaf s f, more, hmd, List.nodup_append_comm.mp (hn.cons hs), hroom, .leaf hroom hmd hs fuel⟩
    · have hmore : md.drop (p + 5) = more := drop_add_of_drop hmd
      have casesLeft := ih (p + 5) (nodes := nodes ++ [.internal f 0 0]) (by simpa using hroom)
        (by simp only [List.length_append, List.length_singleton]; omega) (by simpa using hn)
      rw [hmore] at casesLeft
      rw [hmd]
      obtain ⟨tl, more, rfl, hnl, hql, hl⟩ | ⟨pos, hbreak, hl⟩ := casesLeft
      · have hmore' : md.drop (p + 5 + tl.serialized.length) = more := drop_add_of_drop hmore
        have casesRight := ih (p + 5 + tl.serialized.length)
          (nodes := nodes ++ .internal f 0 0 :: tl.preorder (nodes.length + 1))
        simp only [List.length_append, List.length_cons, List.length_nil, HTree.length_preorder, List.filterMap_append,
          filterMap_nodeSymbol_internal, List.filterMap_nil, List.append_nil, HTree.symbols_preorder, hmore']
          at hnl hql casesRight
        obtain ⟨tr, more, rfl, hnr, hqr, hr⟩ | ⟨pos, hbreak, hr⟩ := casesRight (by omega) (by omega) hnl
        · refine .inl ⟨.node f tl tr, more, ?_, by simpa [HTree.symbols] using hnr, ?_, .node hroom hmd hl hr⟩
          · simp [HTree.serialized, TreeRecord.bytes]
          · rw [HTree.size]
            omega
        · refine .inr ⟨pos, hbreak.right, ?_⟩
          unfold ReadsTree at hl
          simp only [List.length_append, List.length_singleton, List.append_assoc, List.singleton_append] at hl
          simp only [parseNode_node hroom hmd, hl, Except.bind, hr]
      · refine .inr ⟨pos, .left ?_, by rw [parseNode_node hroom hmd, hl, Except.bind]⟩
        simpa using hbreak

/-! ### ParseTree -/

theorem HTree.head_serialized (t : HTree) : byteOf t.serialized 0 ≠ 0x00 := by
  cases t <;> simp [HTree.serialized, byteOf]

/-- ParseTree of the byte string of a tree with different symbols gives the arena in pre-order (R158). -/
theorem parseTree_serialized {t : HTree} (hn : t.symbols.Nodup) :
    parseTree t.serialized = .ok ⟨t.preorder 0, some 0⟩ := by
  have hsize := t.size_add_one
  have hle := length_le_of_nodup_symbols hn
  have hread : ReadsTree t.serialized (maxNodes + 1) 0 [] t :=
    readsTree_of_serialized (more := []) (by simp) (by simp; omega) (by simp [maxNodes]) (by simpa using hn)
  unfold ReadsTree at hread
  rw [parseTree, if_neg t.head_serialized, hread]
  simp

/-- ParseTree of the byte string of a tree, the empty one included (R156, R158). -/
theorem parseTree_treeBytes {o : Option HTree} (hn : (treeSymbols o).Nodup) :
    parseTree (treeBytes o) = .ok (treeArena o) := by
  cases o with
  | none => rfl
  | some t => exact parseTree_serialized hn

theorem BreaksAt.pos_le {md : List Byte} {pos : Nat} (h : BreaksAt [] 0 0 md pos) : pos ≤ md.length := by
  obtain ⟨rs, k, rest, rfl, -, -, -, hbad⟩ := h
  simpa using hbad.pos_le

theorem BreaksAt.corruptAt {md : List Byte} {pos : Nat} (h0 : byteOf md 0 ≠ 0x00) (h : BreaksAt [] 0 0 md pos) :
    CorruptAt md pos := by
  obtain ⟨rs, k, rest, rfl, hw, hn, hq, hbad⟩ := h
  refine .record hw (by simpa using hn) (by simpa using hq) (fun hrs hhead => h0 ?_) (by simpa using hbad)
  subst hrs
  obtain ⟨more, rfl⟩ := List.head?_eq_some_iff.mp hhead
  rfl

/-- A string that begins with the byte string of a tree and goes on is no tree (R158). -/
theorem corruptAt_trailing {t : HTree} (hn : t.symbols.Nodup) (hq : t.size ≤ 511) (x : Byte) (more : List Byte) :
    CorruptAt (t.serialized ++ x :: more) t.serialized.length := by
  rw [t.serialized_eq]
  exact .trailing (t.wanted_records 0) (t.symbols_records ▸ hn) (t.length_records ▸ hq)

/-- ParseTree gives the arena of a byte string of the grammar, or raises CORRUPT_TREE where the string is wrong
(R158). -/
theorem parseTree_cases {md : List Byte} (hmd : md ≠ []) :
    (∃ o : Option HTree, (treeSymbols o).Nodup ∧ md = treeBytes o) ∨
      ∃ pos, pos ≤ md.length ∧ CorruptAt md pos ∧ parseTree md = .error ⟨.corruptTree, pos⟩ := by
  by_cases h0 : byteOf md 0 = 0x00
  · match md, hmd with
    | [x], _ =>
      have hx : x = 0x00 := h0
      subst hx
      exact .inl ⟨none, List.nodup_nil, rfl⟩
    | x :: y :: more, _ =>
      have hx : x = 0x00 := h0
      subst hx
      exact .inr ⟨1, by simp, .afterEmpty, by rw [parseTree, if_pos h0, if_pos (by simp)]⟩
  · have casesNode := parseNode_cases md 0 (fuel := maxNodes + 1) (nodes := []) (by simp) (by simp [maxNodes])
      List.nodup_nil
    obtain ⟨t, more, rfl, hn, hq, hread⟩ | ⟨pos, hbreak, herr⟩ := casesNode
    · obtain _ | ⟨x, more⟩ := more
      · exact .inl ⟨some t, hn, List.append_nil _⟩
      · refine .inr ⟨t.serialized.length, by simp, corruptAt_trailing hn (by simpa using hq) x more, ?_⟩
        unfold ReadsTree at hread
        rw [parseTree, if_neg h0, hread]
        simp
    · refine .inr ⟨pos, hbreak.pos_le, hbreak.corruptAt h0, ?_⟩
      rw [parseTree, if_neg h0, herr]

/-- Settles O37: a string is the byte string of a tree and parsed to its arena, or raises where it is wrong. -/
theorem parseTreeAcceptsExactlyTheGrammar : Obligations.ParseTreeAcceptsExactlyTheGrammar := by
  unfold Obligations.ParseTreeAcceptsExactlyTheGrammar
  intro md hmd
  refine ⟨fun a => ⟨fun h => ?_, ?_⟩, fun r h => ?_⟩
  · obtain ⟨o, hn, rfl⟩ | ⟨pos, -, -, herr⟩ := parseTree_cases hmd
    · rw [parseTree_treeBytes hn] at h
      cases h
      cases o with
      | none => exact .inl ⟨rfl, rfl⟩
      | some t => exact .inr ⟨t, hn, rfl, rfl⟩
    · rw [herr] at h
      cases h
  · rintro (⟨rfl, rfl⟩ | ⟨t, hn, rfl, rfl⟩)
    · rfl
    · exact parseTree_serialized hn
  · obtain ⟨o, hn, rfl⟩ | ⟨pos, hpos, hcorrupt, herr⟩ := parseTree_cases hmd
    · rw [parseTree_treeBytes hn] at h
      cases h
    · rw [herr] at h
      cases h
      exact ⟨rfl, hpos, hcorrupt⟩

/-! ### TDES -/

theorem execBody_tdes_ok {s : State} {a : Arena} (h : parseTree s.metadata = .ok a) :
    execBody .tdes s = .ok (s.setTables { s.tbl.cleared (tableUseOf .tdes) with arena := a, tv := true }) := by
  rw [execBody, h]

theorem execBody_tdes_error {s : State} {r : Raise} (h : parseTree s.metadata = .error r) :
    execBody .tdes s = .error r := by
  rw [execBody, h]

/-- CORRUPT_TREE is the only error of ParseTree (R158). -/
theorem parseTree_error {md : List Byte} {r : Raise} (h : parseTree md = .error r) : r.err = .corruptTree := by
  obtain rfl | hmd := eq_or_ne md []
  · cases h
    rfl
  · exact ((parseTreeAcceptsExactlyTheGrammar md hmd).2 r h).1

/-- The tables after a command that loads a tree and clears TV and CV first (R61). -/
theorem loaded_tables (t : Tables) {u : TableUse} (hf : u.clearsFv = false) (hc : u.clearsCv = true) (a : Arena) :
    { t.cleared u with arena := a, tv := true } = { t with arena := a, tv := true, cv := false } := by
  simp [Tables.cleared, hf, hc]

/-- Settles O38, by what ParseTree gives for the byte strings of the grammar. -/
theorem tdesLoadsTheTreeInPreorder : Obligations.TdesLoadsTheTreeInPreorder := by
  unfold Obligations.TdesLoadsTheTreeInPreorder
  intro s hc
  refine ⟨fun a ha => ?_, fun r hr => ?_⟩
  · have hparse : parseTree s.metadata = .ok a := by
      obtain ⟨hmd, rfl⟩ | ⟨t, hn, hmd, rfl⟩ := ha <;> rw [hmd]
      · rfl
      · exact parseTree_serialized hn
    rw [exec_of_ok hc (execBody_tdes_ok hparse), loaded_tables s.tbl rfl rfl a]
    rfl
  · exact parseTree_error hr ▸ raises_of_error hc (execBody_tdes_error hr)

end Sys2Proof.Machine

namespace Sys2Proof.Machine

/-! ## No code of a tree begins another (O34) -/

/-! ### Paths and codes -/

/-- The path of one symbol begins the path of no other (R153). -/
theorem HTree.eq_of_pathOf_prefix {t : HTree} {x y : Byte} {p q : Bits} (hx : t.pathOf x = some p)
    (hy : t.pathOf y = some q) (h : p <+: q) : x = y := by
  induction t generalizing p q with
  | leaf s f =>
    rw [HTree.pathOf_leaf, Option.ite_none_right_eq_some] at hx hy
    rw [← hx.1, ← hy.1]
  | node f l r ihl ihr =>
    simp only [HTree.pathOf_node, Option.or_eq_some_iff, Option.map_eq_some_iff] at hx hy
    obtain ⟨p, hp, rfl⟩ | ⟨-, p, hp, rfl⟩ := hx <;> obtain ⟨q, hq, rfl⟩ | ⟨-, q, hq, rfl⟩ := hy
    · exact ihl hp hq (List.cons_prefix_cons.mp h).2
    · exact absurd (List.cons_prefix_cons.mp h).1 (by decide)
    · exact absurd (List.cons_prefix_cons.mp h).1 (by decide)
    · exact ihr hp hq (List.cons_prefix_cons.mp h).2

/-- A tree that is no single leaf gives its symbols their paths as codes (R153). -/
theorem HTree.codeOf_eq_pathOf {t : HTree} (h : t.size ≠ 1) (x : Byte) : t.codeOf x = (t.pathOf x).getD [] := by
  cases t with
  | leaf s f => exact absurd rfl h
  | node f l r => exact HTree.codeOf_node f l r x

/-- Exactly the symbols of a tree have a code (R153). -/
theorem HTree.codeOf_ne_nil_iff (t : HTree) (x : Byte) : t.codeOf x ≠ [] ↔ x ∈ t.symbols := by
  rw [← not_iff_not, not_not]
  cases t with
  | leaf s f =>
    rw [HTree.codeOf_leaf, HTree.symbols, List.mem_singleton, eq_comm (a := x)]
    by_cases h : s = x <;> simp [h]
  | node f l r =>
    rw [← HTree.pathOf_eq_none_iff, HTree.codeOf_node, HTree.pathOf_node]
    cases l.pathOf x <;> cases r.pathOf x <;> simp

/-- The code of one symbol begins the code of no other (R153). -/
theorem HTree.eq_of_codeOf_prefix {t : HTree} {x y : Byte} (hx : x ∈ t.symbols) (hy : y ∈ t.symbols)
    (h : t.codeOf x <+: t.codeOf y) : x = y := by
  cases t with
  | leaf s f =>
    rw [HTree.symbols, List.mem_singleton] at hx hy
    rw [hx, hy]
  | node f l r =>
    have path {z : Byte} (hz : z ∈ (HTree.node f l r).symbols) : ∃ p, (HTree.node f l r).pathOf z = some p :=
      Option.ne_none_iff_exists'.mp fun hnone => (HTree.pathOf_eq_none_iff _ z).mp hnone hz
    obtain ⟨p, hp⟩ := path hx
    obtain ⟨q, hq⟩ := path hy
    rw [HTree.codeOf_node, HTree.codeOf_node, hp, hq] at h
    exact HTree.eq_of_pathOf_prefix hp hq h

/-! ### CGEN -/

/-- Settles O34: DeriveCodes gives the codes of the tree, and none of these begins another. -/
theorem cgenGivesThePrefixFreeCodesOfTheTree : Obligations.CgenGivesThePrefixFreeCodesOfTheTree := by
  unfold Obligations.CgenGivesThePrefixFreeCodesOfTheTree
  intro s hc
  have hbody : execBody .cgen s =
      .ok (s.setTables { s.tbl.cleared (tableUseOf .cgen) with ct := deriveCodes s.tbl.arena, cv := true }) := rfl
  have hcleared : { s.tbl.cleared (tableUseOf .cgen) with ct := deriveCodes s.tbl.arena, cv := true } =
      { s.tbl with ct := deriveCodes s.tbl.arena, cv := true } := by simp [Tables.cleared, tableUseOf]
  rw [hcleared] at hbody
  refine ⟨fun t ht hn => ⟨_, exec_of_ok hc hbody, completed_of_ok hbody, rfl, rfl, rfl, tblGet_deriveCodes ht hn,
    t.codeOf_ne_nil_iff, fun x y hxy hx hpre => ?_⟩,
    fun hempty => ⟨_, exec_of_ok hc hbody, completed_of_ok hbody, rfl, ?_⟩⟩
  · have hy : t.codeOf y ≠ [] := fun hy => hx (List.prefix_nil.mp (hy ▸ hpre))
    exact hxy (HTree.eq_of_codeOf_prefix ((t.codeOf_ne_nil_iff x).mp hx) ((t.codeOf_ne_nil_iff y).mp hy) hpre)
  · exact tblGet_deriveCodes_none (by rw [hempty])

end Sys2Proof.Machine

namespace Sys2Proof.Machine

/-! ## Decoding with a tree (O39, O40, O42, O43) -/

/-! ### From codes to paths -/

theorem HTree.size_node_ne_one (f : Word) (l r : HTree) : (HTree.node f l r).size ≠ 1 := by
  have := l.size_add_one
  rw [HTree.size]
  omega

theorem HTree.pathOf_node_left {l r : HTree} {x : Byte} {q : Bits} (f : Word) (h : l.pathOf x = some q) :
    (HTree.node f l r).pathOf x = some (false :: q) := by
  rw [HTree.pathOf_node, h]
  rfl

theorem HTree.pathOf_node_right {l r : HTree} {x : Byte} {q : Bits} {f : Word}
    (hn : (HTree.node f l r).symbols.Nodup) (h : r.pathOf x = some q) :
    (HTree.node f l r).pathOf x = some (true :: q) := by
  have hx : x ∈ r.symbols := by
    by_contra hx
    rw [(r.pathOf_eq_none_iff x).mpr hx] at h
    cases h
  have hl : l.pathOf x = none := (l.pathOf_eq_none_iff x).mpr fun hl => (List.nodup_append.mp hn).2.2 x hl x hx rfl
  rw [HTree.pathOf_node, hl, h]
  rfl

/-- No path of the tree begins these bits. -/
def HTree.PathStuck (t : HTree) (rest : Bits) : Prop := ∀ x q, t.pathOf x = some q → ¬ q <+: rest

theorem HTree.not_pathStuck_leaf (s : Byte) (f : Word) (rest : Bits) : ¬ (HTree.leaf s f).PathStuck rest := by
  intro h
  exact h s [] (by rw [HTree.pathOf_leaf, if_pos rfl]) List.nil_prefix

theorem HTree.PathStuck.child {f : Word} {l r : HTree} (hn : (HTree.node f l r).symbols.Nodup) {b : Bool} {bs : Bits}
    (h : (HTree.node f l r).PathStuck (b :: bs)) : (if b then r else l).PathStuck bs := by
  intro x q hq hpre
  cases b with
  | false => exact h x _ (HTree.pathOf_node_left f hq) (List.cons_prefix_cons.mpr ⟨rfl, hpre⟩)
  | true => exact h x _ (HTree.pathOf_node_right hn hq) (List.cons_prefix_cons.mpr ⟨rfl, hpre⟩)

theorem HTree.pathOf_of_mem {t : HTree} (h : t.size ≠ 1) {x : Byte} (hx : x ∈ t.symbols) :
    t.pathOf x = some (t.codeOf x) := by
  obtain ⟨q, hq⟩ := Option.ne_none_iff_exists'.mp fun hnone => (t.pathOf_eq_none_iff x).mp hnone hx
  rw [HTree.codeOf_eq_pathOf h, hq, Option.getD_some]

theorem HTree.Stuck.pathStuck {t : HTree} (h : t.size ≠ 1) {rest : Bits} (hs : t.Stuck rest) : t.PathStuck rest := by
  intro x q hq hpre
  have hx : x ∈ t.symbols := by
    by_contra hx
    rw [(t.pathOf_eq_none_iff x).mpr hx] at hq
    cases hq
  rw [HTree.pathOf_of_mem h hx, Option.some.injEq] at hq
  exact hs x hx (hq ▸ hpre)

/-! ### The inner loop of count mode (R160) -/

theorem descend_leaf {nodes : List Node} {i : Nat} {s : Byte} {f : Word} (h : nodes[i]? = some (.leaf s f))
    (inLen : Nat) (bits : Bits) (p : Nat) : descend nodes inLen bits i p = .ok (s, bits, p) := by
  cases bits <;> simp [descend, h]

theorem descend_internal {nodes : List Node} {i l r : Nat} {f : Word} (h : nodes[i]? = some (.internal f l r))
    (inLen : Nat) (b : Bool) (bs : Bits) (p : Nat) :
    descend nodes inLen (b :: bs) i p = descend nodes inLen bs (if b then r else l) (p + 1) := by
  simp [descend, h]

/-- The path to a leaf is walked down to its symbol (R160). -/
theorem descend_pathOf {nodes : List Node} {i : Nat} {t : HTree} {is : List Nat} (h : HTree.At nodes i t is) {x : Byte}
    {q : Bits} (hq : t.pathOf x = some q) (inLen : Nat) (rest : Bits) (p : Nat) :
    descend nodes inLen (q ++ rest) i p = .ok (x, rest, p + q.length) := by
  induction h generalizing q p with
  | leaf hi =>
    rw [HTree.pathOf_leaf, Option.ite_none_right_eq_some] at hq
    obtain ⟨rfl, hq⟩ := hq
    cases hq
    exact descend_leaf hi inLen rest p
  | node hi _ _ ihl ihr =>
    simp only [HTree.pathOf_node, Option.or_eq_some_iff, Option.map_eq_some_iff] at hq
    obtain ⟨q, hq, rfl⟩ | ⟨-, q, hq, rfl⟩ := hq
    · rw [List.cons_append, descend_internal hi, List.length_cons, Nat.add_comm q.length, ← Nat.add_assoc]
      exact ihl hq (p + 1)
    · rw [List.cons_append, descend_internal hi, List.length_cons, Nat.add_comm q.length, ← Nat.add_assoc]
      exact ihr hq (p + 1)

/-- Bits that no path begins run out before a leaf (R160). -/
theorem descend_pathStuck {nodes : List Node} {i : Nat} {t : HTree} {is : List Nat} (h : HTree.At nodes i t is)
    (hn : t.symbols.Nodup) {rest : Bits} (hs : t.PathStuck rest) (inLen p : Nat) :
    descend nodes inLen rest i p = .error ⟨.malformedPayload, inLen⟩ := by
  induction h generalizing rest p with
  | leaf => exact absurd hs (HTree.not_pathStuck_leaf _ _ _)
  | @node i l r f tl tr il ir hi _ _ ihl ihr =>
    cases rest with
    | nil => simp [descend, hi]
    | cons b bs =>
      rw [descend_internal hi]
      have hchild := hs.child hn
      obtain ⟨hnl, hnr, -⟩ := List.nodup_append.mp hn
      cases b with
      | false => exact ihl hnl hchild (p + 1)
      | true => exact ihr hnr hchild (p + 1)

/-! ### One symbol of count mode (R160) -/

/-- A single leaf, or an internal node at the root: a symbol is read by its one bit or by walking down (R160). -/
theorem decodeSymbol_leaf {a : Arena} {root : Nat} (hr : a.root = some root) {s : Byte} {f : Word}
    (h : a.nodes[root]? = some (.leaf s f)) (inLen p : Nat) :
    decodeSymbol a inLen [] p = .error ⟨.malformedPayload, inLen⟩ ∧ ∀ rest,
      decodeSymbol a inLen (true :: rest) p = .error ⟨.malformedPayload, p / 8⟩ ∧
      decodeSymbol a inLen (false :: rest) p = .ok (s, rest, p + 1) := by
  simp [decodeSymbol, hr, h]

theorem decodeSymbol_internal {a : Arena} {root : Nat} (hr : a.root = some root) {l r : Nat} {f : Word}
    (h : a.nodes[root]? = some (.internal f l r)) (inLen : Nat) (bits : Bits) (p : Nat) :
    decodeSymbol a inLen bits p = descend a.nodes inLen bits root p := by
  simp [decodeSymbol, hr, h]

/-- A code of the tree is read as its symbol (R160). -/
theorem decodeSymbol_codeOf {a : Arena} {t : HTree} (h : a.Holds t) {x : Byte} (hx : x ∈ t.symbols) (inLen : Nat)
    (rest : Bits) (p : Nat) :
    decodeSymbol a inLen (t.codeOf x ++ rest) p = .ok (x, rest, p + (t.codeOf x).length) := by
  obtain ⟨root, is, hr, hat, -⟩ := h
  cases hat with
  | leaf hi =>
    rw [HTree.symbols, List.mem_singleton] at hx
    subst hx
    simpa [HTree.codeOf_leaf] using ((decodeSymbol_leaf hr hi inLen p).2 rest).2
  | node hi hl hr' =>
    rw [decodeSymbol_internal hr hi]
    exact descend_pathOf (.node hi hl hr') (HTree.pathOf_of_mem (HTree.size_node_ne_one _ _ _) hx) inLen rest p

/-- Bits that no code begins end the input inside a code (R160). -/
theorem decodeSymbol_stuck {a : Arena} {t : HTree} (h : a.Holds t) (hn : t.symbols.Nodup) {rest : Bits}
    (hs : t.Stuck rest) (hleaf : t.size = 1 → rest = []) (inLen p : Nat) :
    decodeSymbol a inLen rest p = .error ⟨.malformedPayload, inLen⟩ := by
  obtain ⟨root, is, hr, hat, -⟩ := h
  cases hat with
  | leaf hi =>
    rw [hleaf rfl]
    exact (decodeSymbol_leaf hr hi inLen p).1
  | node hi hl hr' =>
    rw [decodeSymbol_internal hr hi]
    exact descend_pathStuck (.node hi hl hr') hn (hs.pathStuck (HTree.size_node_ne_one _ _ _)) inLen p

/-- A 1 bit is no code of a single leaf (R160). -/
theorem decodeSymbol_oneBit {a : Arena} {t : HTree} (h : a.Holds t) (ht : t.size = 1) (inLen : Nat) (rest : Bits)
    (p : Nat) : decodeSymbol a inLen (true :: rest) p = .error ⟨.malformedPayload, p / 8⟩ := by
  obtain ⟨root, is, hr, hat, -⟩ := h
  cases hat with
  | leaf hi => exact ((decodeSymbol_leaf hr hi inLen p).2 rest).1
  | node => exact absurd ht (HTree.size_node_ne_one _ _ _)

/-! ### The outer loop of count mode (R160) -/

theorem emit_ok {cap : Nat} {out : List Byte} (h : out.length < cap) (b : Byte) (pos : Nat) :
    emit cap b pos out = .ok (out ++ [b]) :=
  if_neg h.ne

theorem emit_full {cap : Nat} {out : List Byte} (h : out.length = cap) (b : Byte) (pos : Nat) :
    emit cap b pos out = .error ⟨.dstOverflow, pos⟩ :=
  if_pos h

theorem HTree.bitsOf_cons (t : HTree) (x : Byte) (ds : List Byte) :
    t.bitsOf (x :: ds) = (t.codeOf x).length + t.bitsOf ds := by
  simp [HTree.bitsOf]

/-- Codes of the tree that fit are decoded one after the other (R160). -/
theorem decodeCountLoop_codes {a : Arena} {t : HTree} (h : a.Holds t) {ds : List Byte} (hds : ∀ x ∈ ds, x ∈ t.symbols)
    {cap : Nat} {out : List Byte} (hcap : out.length + ds.length ≤ cap) (inLen n : Nat) (rest : Bits) (p : Nat) :
    decodeCountLoop a inLen cap (ds.length + n) (ds.flatMap t.codeOf ++ rest) p out =
      decodeCountLoop a inLen cap n rest (p + t.bitsOf ds) (out ++ ds) := by
  induction ds generalizing p out with
  | nil => simp [HTree.bitsOf]
  | cons x ds ih =>
    rw [List.length_cons] at hcap
    rw [List.length_cons, Nat.add_right_comm, decodeCountLoop, List.flatMap_cons, List.append_assoc,
      decodeSymbol_codeOf h (hds x List.mem_cons_self)]
    dsimp only
    rw [emit_ok (by omega)]
    dsimp only
    rw [ih (fun y hy => hds y (List.mem_cons_of_mem x hy)) (by simp; omega), HTree.bitsOf_cons, Nat.add_assoc,
      List.append_assoc, List.singleton_append]

theorem decodeCountLoop_of_symbol_error {a : Arena} {inLen : Nat} {bits : Bits} {p : Nat} {r : Raise}
    (h : decodeSymbol a inLen bits p = .error r) (cap n : Nat) (out : List Byte) :
    decodeCountLoop a inLen cap (n + 1) bits p out = .error r := by
  rw [decodeCountLoop, h]

/-- A symbol that does not fit raises DST_OVERFLOW at the byte of the last bit of its code (R160). -/
theorem decodeCountLoop_overflow {a : Arena} {t : HTree} (h : a.Holds t) {x : Byte} (hx : x ∈ t.symbols)
    {cap : Nat} {out : List Byte} (hcap : out.length = cap) (inLen n : Nat) (rest : Bits) (p : Nat) :
    decodeCountLoop a inLen cap (n + 1) (t.codeOf x ++ rest) p out =
      .error ⟨.dstOverflow, (p + (t.codeOf x).length - 1) / 8⟩ := by
  rw [decodeCountLoop, decodeSymbol_codeOf h hx]
  dsimp only
  rw [emit_full hcap]

/-! ### Count mode (R160, R162) -/

theorem HTree.Spells.nil {t : HTree} {ds : List Byte} {rest : Bits} (h : t.Spells [] ds rest) :
    ds = [] ∧ rest = [] := by
  obtain ⟨hds, hbits⟩ := h
  obtain ⟨hcodes, hrest⟩ := List.append_eq_nil_iff.mp hbits.symm
  refine ⟨List.eq_nil_iff_forall_not_mem.mpr fun x hx => ?_, hrest⟩
  exact (t.codeOf_ne_nil_iff x).mpr (hds x hx) (List.flatMap_eq_nil_iff.mp hcodes x hx)

/-- Count mode gives an empty output for an empty input (R162). -/
theorem CountDecodes.of_empty {tree : Option HTree} {n cap : Nat} {res : Except Raise (List Byte)}
    (h : CountDecodes tree [] n cap res) : res = .ok [] := by
  cases h with
  | absent => rfl
  | noTree _ hne => exact absurd rfl hne
  | done _ hspell => rw [hspell.nil.1]
  | unusedByte _ hspell _ _ hlen =>
    rw [hspell.nil.2] at hlen
    cases hlen
  | padding _ hspell _ _ _ hbit =>
    rw [hspell.nil.2] at hbit
    cases hbit
  | short hne => exact absurd rfl hne
  | oneBit _ _ hspell => cases hspell.nil.2
  | @overflow t ds x rest _ hspell hx =>
    exact absurd (List.append_eq_nil_iff.mp hspell.nil.2).1 ((t.codeOf_ne_nil_iff x).mpr hx)

theorem decodeCount_of_loop_error {a : Arena} {cap n : Nat} {inp : List Byte} {r : Raise}
    (h : decodeCountLoop a inp.length cap n (unpack inp) 0 [] = .error r) : decodeCount a cap inp n = .error r := by
  rw [decodeCount, h]

/-- After the last symbol what is left of the input is an unused byte, padding that is not zero, or neither (R160). -/
theorem decodeCount_of_loop_ok {a : Arena} {cap n p : Nat} {inp out : List Byte} {rest : Bits}
    (h : decodeCountLoop a inp.length cap n (unpack inp) 0 [] = .ok (rest, p, out)) :
    decodeCount a cap inp n =
      if 8 ≤ rest.length then .error ⟨.malformedPayload, (p + 7) / 8⟩
      else if true ∈ rest then .error ⟨.malformedPayload, p / 8⟩
      else .ok out := by
  rw [decodeCount, h]
  simp [List.any_eq_true]

/-- Without a tree count mode finds no symbol and, where none is wanted, an unused byte (R160). -/
theorem decodeCount_noTree {a : Arena} (h : a.root = none) {inp : List Byte} (hinp : inp ≠ []) (cap n : Nat) :
    decodeCount a cap inp n = .error ⟨.malformedPayload, 0⟩ := by
  cases n with
  | zero =>
    have hlen := List.length_pos_iff.mpr hinp
    rw [decodeCount_of_loop_ok rfl, if_pos (by rw [length_unpack]; omega)]
  | succ n => exact decodeCount_of_loop_error (decodeCountLoop_of_symbol_error (by simp [decodeSymbol, h]) cap n [])

/-- The loop of count mode at the start of an input that spells these symbols (R160). -/
theorem decodeCountLoop_spells {a : Arena} {t : HTree} (h : a.Holds t) {bits : Bits} {ds : List Byte} {rest : Bits}
    (hspell : t.Spells bits ds rest) {cap : Nat} (hcap : ds.length ≤ cap) (inLen n : Nat) :
    decodeCountLoop a inLen cap (ds.length + n) bits 0 [] = decodeCountLoop a inLen cap n rest (t.bitsOf ds) ds := by
  obtain ⟨hds, rfl⟩ := hspell
  simpa using decodeCountLoop_codes h hds (out := []) (by simpa using hcap) inLen n rest 0

/-- After the symbols wanted what is left of the input is an unused byte, padding that is not zero, or neither
(R160). -/
theorem decodeCount_spells {a : Arena} {t : HTree} (h : a.Holds t) {inp ds : List Byte} {rest : Bits}
    (hspell : t.Spells (unpack inp) ds rest) {cap : Nat} (hcap : ds.length ≤ cap) :
    decodeCount a cap inp ds.length =
      if 8 ≤ rest.length then .error ⟨.malformedPayload, (t.bitsOf ds + 7) / 8⟩
      else if true ∈ rest then .error ⟨.malformedPayload, t.bitsOf ds / 8⟩
      else .ok ds :=
  decodeCount_of_loop_ok (decodeCountLoop_spells h hspell hcap inp.length 0)

/-- An error at the symbol after these is the error of count mode (R160). -/
theorem decodeCount_spells_error {a : Arena} {t : HTree} (h : a.Holds t) {inp ds : List Byte} {rest : Bits}
    (hspell : t.Spells (unpack inp) ds rest) {cap n : Nat} (hcap : ds.length ≤ cap) (hlen : ds.length < n) {r : Raise}
    (herr : ∀ m, decodeCountLoop a inp.length cap (m + 1) rest (t.bitsOf ds) ds = .error r) :
    decodeCount a cap inp n = .error r := by
  obtain ⟨m, rfl⟩ := Nat.exists_eq_add_of_lt hlen
  rw [decodeCount, Nat.add_assoc, decodeCountLoop_spells h hspell hcap, herr]

/-- Count mode computes what R160 says. -/
theorem countPayload_of_countDecodes {a : Arena} {tree : Option HTree} (ha : a.Shows tree) {inp : List Byte}
    {n cap : Nat} {res : Except Raise (List Byte)} (h : CountDecodes tree inp n cap res) :
    countPayload a cap inp n = res := by
  obtain rfl | hne := eq_or_ne inp []
  · exact h.of_empty.symm
  rw [countPayload, if_neg (by simpa using hne)]
  cases h with
  | absent hinp => exact absurd hinp hne
  | noTree htree =>
    subst htree
    exact decodeCount_noTree ha hne cap n
  | done htree hspell hlen hcap hrest hbit =>
    subst htree hlen
    rw [decodeCount_spells ha.1 hspell hcap, if_neg (by omega), if_neg hbit]
  | unusedByte htree hspell hlen hcap hrest =>
    subst htree hlen
    rw [decodeCount_spells ha.1 hspell hcap, if_pos hrest]
  | padding htree hspell hlen hcap hrest hbit =>
    subst htree hlen
    rw [decodeCount_spells ha.1 hspell hcap, if_neg (by omega), if_pos hbit]
  | short _ htree hspell hlen hcap hstuck hleaf =>
    subst htree
    exact decodeCount_spells_error ha.1 hspell hcap hlen fun m =>
      decodeCountLoop_of_symbol_error (decodeSymbol_stuck ha.1 ha.2 hstuck hleaf _ _) _ _ _
  | oneBit htree hsize hspell hlen hcap =>
    subst htree
    exact decodeCount_spells_error ha.1 hspell hcap hlen fun m =>
      decodeCountLoop_of_symbol_error (decodeSymbol_oneBit ha.1 hsize _ _ _) _ _ _
  | overflow htree hspell hx hlen hcap =>
    subst htree hlen
    refine decodeCount_spells_error ha.1 hspell le_rfl hcap fun m => ?_
    rw [decodeCountLoop_overflow ha.1 hx rfl]
    simp [HTree.bitsOf]

/-- The packed codes of symbols are decoded to them, the padding ignored (R160). -/
theorem countDecodes_pack {t : HTree} {ds : List Byte} (hds : ∀ x ∈ ds, x ∈ t.symbols) {cap : Nat}
    (hcap : ds.length ≤ cap) : CountDecodes (some t) (pack (ds.flatMap t.codeOf)).1 ds.length cap (.ok ds) := by
  have hpad := padFor_le (ds.flatMap t.codeOf).length
  refine .done rfl ⟨hds, unpack_pack _⟩ rfl hcap ?_ ?_
  · rw [List.length_replicate]
    omega
  · simp

/-! ### HDEC -/

/-- What a decoder that ends with DONE leaves: the output, its length, and these tables. -/
def GivesOutput (i : Instr) (s : State) (tbl : Tables) (out : List Byte) : Prop :=
  ∃ t, exec i s = .next t ∧ Completed s t ∧ Stored s t s.opnd.dstAddr out ∧ t.tbl = tbl ∧
    t.res = { s.res with dstLen := BitVec.ofNat 32 out.length, errPos := 0 }

theorem givesOutput_of_ok {i : Instr} {s : State} {tbl : Tables} {out : List Byte} (hc : s.checkPhase i = none)
    (h : execBody i s = .ok ((s.writeOut out).setTables tbl)) : GivesOutput i s tbl out :=
  ⟨_, exec_of_ok hc h, completed_of_ok h, stored_of_write rfl, rfl, rfl⟩

theorem execBody_hdec (s : State) :
    execBody .hdec s = (countPayload s.tbl.arena s.dstCap s.input s.opnd.expectLen.toNat).map s.writeOut := by
  rw [execBody]
  cases countPayload s.tbl.arena s.dstCap s.input s.opnd.expectLen.toNat <;> rfl

theorem input_eq_nil {s : State} (h : s.opnd.srcLen = 0) : s.input = [] := by
  simp [State.input, State.memRead, h]

/-- Settles O39: the outcomes of count mode are those of R160, and packed codes are among its inputs. -/
theorem hdecRecoversThePackedSymbols : Obligations.HdecRecoversThePackedSymbols := by
  unfold Obligations.HdecRecoversThePackedSymbols
  intro s hc
  have shown {tree : Option HTree} (ha : s.tbl.arena.Shows tree) {res : Except Raise (List Byte)}
      (h : CountDecodes tree s.input s.opnd.expectLen.toNat s.opnd.dstCap.toNat res) :
      execBody .hdec s = res.map s.writeOut :=
    (execBody_hdec s).trans (congrArg (Except.map s.writeOut) (countPayload_of_countDecodes ha h))
  refine ⟨fun t ds ht hn hds hin hexp hcap => ?_, fun hlen => ?_, fun tree ha =>
    ⟨fun out h => givesOutput_of_ok (tbl := s.tbl) hc (shown ha h), fun r h => raises_of_error hc (shown ha h)⟩⟩
  · have hcodes := countDecodes_pack hds hcap
    rw [← hin, ← hexp] at hcodes
    exact givesOutput_of_ok (tbl := s.tbl) hc (shown (tree := some t) ⟨ht, hn⟩ hcodes)
  · refine givesOutput_of_ok (tbl := s.tbl) hc ?_
    rw [execBody_hdec, input_eq_nil hlen]
    rfl

/-! ### The loop of legacy mode (R161) -/

/-- At a single leaf every bit is its symbol (R161). -/
theorem decodeLegacyLoop_leaf {nodes : List Node} {root : Nat} {s : Byte} {f : Word}
    (h : nodes[root]? = some (.leaf s f)) (cap : Nat) (b : Bool) (bs : Bits) (i p : Nat) (out : List Byte) :
    decodeLegacyLoop nodes root cap (b :: bs) i p out =
      (emit cap s (p / 8) out).bind (decodeLegacyLoop nodes root cap bs i (p + 1)) := by
  rw [decodeLegacyLoop, h]
  dsimp only
  cases emit cap s (p / 8) out <;> rfl

/-- A bit that leads to a leaf completes its code (R161). -/
theorem decodeLegacyLoop_complete {nodes : List Node} {root i l r lr rr : Nat} {fr f g : Word} {s : Byte}
    (hroot : nodes[root]? = some (.internal fr lr rr)) (hi : nodes[i]? = some (.internal f l r)) {b : Bool}
    (hj : nodes[if b then r else l]? = some (.leaf s g)) (cap : Nat) (bs : Bits) (p : Nat) (out : List Byte) :
    decodeLegacyLoop nodes root cap (b :: bs) i p out =
      (emit cap s (p / 8) out).bind (decodeLegacyLoop nodes root cap bs root (p + 1)) := by
  rw [decodeLegacyLoop, hroot, hi]
  dsimp only
  rw [hj]
  dsimp only
  cases emit cap s (p / 8) out <;> rfl

/-- A bit that leads to an internal node is walked (R161). -/
theorem decodeLegacyLoop_walk {nodes : List Node} {root i l r lr rr lj rj : Nat} {fr f g : Word}
    (hroot : nodes[root]? = some (.internal fr lr rr)) (hi : nodes[i]? = some (.internal f l r)) {b : Bool}
    (hj : nodes[if b then r else l]? = some (.internal g lj rj)) (cap : Nat) (bs : Bits) (p : Nat) (out : List Byte) :
    decodeLegacyLoop nodes root cap (b :: bs) i p out =
      decodeLegacyLoop nodes root cap bs (if b then r else l) (p + 1) out := by
  rw [decodeLegacyLoop, hroot, hi]
  dsimp only
  rw [hj]

/-- The path through a child is walked down if the path of the child is (R161). -/
theorem decodeLegacyLoop_child {nodes : List Node} {root i l r lr rr : Nat} {fr f : Word}
    (hroot : nodes[root]? = some (.internal fr lr rr)) (hi : nodes[i]? = some (.internal f l r)) {b : Bool} {t : HTree}
    {is : List Nat} (ht : HTree.At nodes (if b then r else l) t is) {x : Byte} {q : Bits} (hq : t.pathOf x = some q)
    {cap p : Nat} {rest : Bits} {out : List Byte}
    (ih : t.size ≠ 1 → decodeLegacyLoop nodes root cap (q ++ rest) (if b then r else l) (p + 1) out =
      (emit cap x ((p + 1 + q.length - 1) / 8) out).bind
        (decodeLegacyLoop nodes root cap rest root (p + 1 + q.length))) :
    decodeLegacyLoop nodes root cap (b :: q ++ rest) i p out =
      (emit cap x ((p + (b :: q).length - 1) / 8) out).bind
        (decodeLegacyLoop nodes root cap rest root (p + (b :: q).length)) := by
  rw [List.cons_append, List.length_cons, Nat.add_comm q.length, ← Nat.add_assoc]
  cases ht with
  | leaf hj =>
    rw [HTree.pathOf_leaf, Option.ite_none_right_eq_some] at hq
    obtain ⟨rfl, hq⟩ := hq
    cases hq
    exact decodeLegacyLoop_complete hroot hi hj cap rest p out
  | node hj _ _ =>
    rw [decodeLegacyLoop_walk hroot hi hj]
    exact ih (HTree.size_node_ne_one _ _ _)

/-- From an internal node the path to a leaf is walked down and its symbol emitted (R161). -/
theorem decodeLegacyLoop_pathOf {nodes : List Node} {root lr rr : Nat} {fr : Word}
    (hroot : nodes[root]? = some (.internal fr lr rr)) {i : Nat} {t : HTree} {is : List Nat} (h : HTree.At nodes i t is)
    (ht : t.size ≠ 1) {x : Byte} {q : Bits} (hq : t.pathOf x = some q) (cap : Nat) (rest : Bits) (p : Nat)
    (out : List Byte) :
    decodeLegacyLoop nodes root cap (q ++ rest) i p out =
      (emit cap x ((p + q.length - 1) / 8) out).bind (decodeLegacyLoop nodes root cap rest root (p + q.length)) := by
  induction h generalizing q p with
  | leaf => exact absurd rfl ht
  | node hi hl hr ihl ihr =>
    simp only [HTree.pathOf_node, Option.or_eq_some_iff, Option.map_eq_some_iff] at hq
    obtain ⟨q, hq, rfl⟩ | ⟨-, q, hq, rfl⟩ := hq
    · exact decodeLegacyLoop_child (b := false) hroot hi hl hq fun ht => ihl ht hq (p + 1)
    · exact decodeLegacyLoop_child (b := true) hroot hi hr hq fun ht => ihr ht hq (p + 1)

/-- Bits that no path begins end the input and give nothing (R161). -/
theorem decodeLegacyLoop_pathStuck {nodes : List Node} {root lr rr : Nat} {fr : Word}
    (hroot : nodes[root]? = some (.internal fr lr rr)) {i : Nat} {t : HTree} {is : List Nat} (h : HTree.At nodes i t is)
    (hn : t.symbols.Nodup) {rest : Bits} (hs : t.PathStuck rest) (cap p : Nat) (out : List Byte) :
    decodeLegacyLoop nodes root cap rest i p out = .ok out := by
  induction h generalizing rest p with
  | leaf => exact absurd hs (HTree.not_pathStuck_leaf _ _ _)
  | @node i l r f tl tr il ir hi hl hr ihl ihr =>
    obtain _ | ⟨b, bs⟩ := rest
    · rfl
    have hchild := hs.child hn
    obtain ⟨hnl, hnr, -⟩ := List.nodup_append.mp hn
    have walk {j : Nat} {t : HTree} {is : List Nat} (hj : (if b then r else l) = j) (hat : HTree.At nodes j t is)
        (hstuck : t.PathStuck bs) (ih : decodeLegacyLoop nodes root cap bs j (p + 1) out = .ok out) :
        decodeLegacyLoop nodes root cap (b :: bs) i p out = .ok out := by
      subst hj
      cases hat with
      | leaf => exact absurd hstuck (HTree.not_pathStuck_leaf _ _ _)
      | node hj _ _ => rw [decodeLegacyLoop_walk hroot hi hj, ih]
    cases b with
    | false => exact walk rfl hl hchild (ihl hnl hchild (p + 1))
    | true => exact walk rfl hr hchild (ihr hnr hchild (p + 1))

/-! ### Legacy mode (R161, R163) -/

theorem decodeLegacy_eq {a : Arena} {root : Nat} (h : a.root = some root) (cap : Nat) (inp : List Byte) :
    decodeLegacy a cap inp = decodeLegacyLoop a.nodes root cap (unpack inp) root 0 [] := by
  rw [decodeLegacy, h]

/-- A single leaf gives its symbol for every bit, as long as it fits (R161). -/
theorem decodeLegacyLoop_allLeaf {nodes : List Node} {root : Nat} {s : Byte} {f : Word}
    (h : nodes[root]? = some (.leaf s f)) {cap : Nat} (bits : Bits) (i : Nat) {out : List Byte}
    (hcap : out.length ≤ cap) :
    decodeLegacyLoop nodes root cap bits i out.length out =
      if out.length + bits.length ≤ cap then .ok (out ++ List.replicate bits.length s)
      else .error ⟨.dstOverflow, cap / 8⟩ := by
  induction bits generalizing out with
  | nil => simp [decodeLegacyLoop, hcap]
  | cons b bs ih =>
    rw [decodeLegacyLoop_leaf h, List.length_cons]
    obtain hfull | hroom := hcap.eq_or_lt
    · rw [emit_full hfull, Except.bind, if_neg (by omega), hfull]
    · have hstep := ih (out := out ++ [s]) (by simpa using hroom)
      rw [List.length_append, List.length_singleton, Nat.add_assoc, Nat.add_comm 1, List.append_assoc] at hstep
      rw [emit_ok hroom, Except.bind, hstep]
      rfl

theorem decodeLegacy_leaf {a : Arena} {s : Byte} {f : Word} (h : a.Holds (.leaf s f)) (cap : Nat) (inp : List Byte) :
    decodeLegacy a cap inp =
      if 8 * inp.length ≤ cap then .ok (List.replicate (8 * inp.length) s) else .error ⟨.dstOverflow, cap / 8⟩ := by
  obtain ⟨root, is, hr, hat, -⟩ := h
  cases hat with
  | leaf hi =>
    rw [decodeLegacy_eq hr]
    simpa using decodeLegacyLoop_allLeaf hi (unpack inp) root (out := []) (Nat.zero_le cap)

/-- Codes of the tree that fit are decoded one after the other (R161). -/
theorem decodeLegacyLoop_codes {nodes : List Node} {root lr rr : Nat} {fr : Word}
    (hroot : nodes[root]? = some (.internal fr lr rr)) {t : HTree} {is : List Nat} (h : HTree.At nodes root t is)
    (ht : t.size ≠ 1) {ds : List Byte} (hds : ∀ x ∈ ds, x ∈ t.symbols) {cap : Nat} {out : List Byte}
    (hcap : out.length + ds.length ≤ cap) (rest : Bits) (p : Nat) :
    decodeLegacyLoop nodes root cap (ds.flatMap t.codeOf ++ rest) root p out =
      decodeLegacyLoop nodes root cap rest root (p + t.bitsOf ds) (out ++ ds) := by
  induction ds generalizing p out with
  | nil => simp [HTree.bitsOf]
  | cons x ds ih =>
    rw [List.length_cons] at hcap
    have hpath := HTree.pathOf_of_mem ht (hds x List.mem_cons_self)
    rw [List.flatMap_cons, List.append_assoc, decodeLegacyLoop_pathOf hroot h ht hpath, emit_ok (by omega), Except.bind,
      ih (fun y hy => hds y (List.mem_cons_of_mem x hy)) (by simp; omega), HTree.bitsOf_cons, Nat.add_assoc,
      List.append_assoc, List.singleton_append]

/-- Legacy mode gives an empty output for an empty input (R163). -/
theorem LegacyDecodes.of_empty {tree : Option HTree} {cap : Nat} {res : Except Raise (List Byte)}
    (h : LegacyDecodes tree [] cap res) : res = .ok [] := by
  cases h with
  | absent => rfl
  | noTree _ hne => exact absurd rfl hne
  | leaf => rfl
  | leafOverflow _ hcap => cases hcap
  | walked _ _ hspell => rw [hspell.nil.1]
  | @overflow t out x rest _ _ hspell hx =>
    exact absurd (List.append_eq_nil_iff.mp hspell.nil.2).1 ((t.codeOf_ne_nil_iff x).mpr hx)

/-- An arena with a tree that is no single leaf has an internal node at its root. -/
theorem Arena.Holds.internal {a : Arena} {t : HTree} (h : a.Holds t) (ht : t.size ≠ 1) :
    ∃ root is f l r, a.root = some root ∧ HTree.At a.nodes root t is ∧ a.nodes[root]? = some (.internal f l r) := by
  obtain ⟨root, is, hr, hat, -⟩ := h
  cases hat with
  | leaf => exact absurd rfl ht
  | node hi hl hr' => exact ⟨root, _, _, _, _, hr, .node hi hl hr', hi⟩

/-- Legacy mode computes what R161 says. -/
theorem legacyPayload_of_legacyDecodes {a : Arena} {tree : Option HTree} (ha : a.Shows tree) {inp : List Byte}
    {cap : Nat} {res : Except Raise (List Byte)} (h : LegacyDecodes tree inp cap res) :
    legacyPayload a cap inp = res := by
  obtain rfl | hne := eq_or_ne inp []
  · exact h.of_empty.symm
  rw [legacyPayload, if_neg (by simpa using hne)]
  cases h with
  | absent hinp => exact absurd hinp hne
  | noTree htree =>
    subst htree
    have hr : a.root = none := ha
    rw [decodeLegacy, hr]
  | leaf htree hcap =>
    subst htree
    rw [decodeLegacy_leaf ha.1, if_pos hcap]
  | leafOverflow htree hcap =>
    subst htree
    rw [decodeLegacy_leaf ha.1, if_neg (by omega)]
  | @walked t out rest htree hsize hspell hcap hstuck =>
    subst htree
    obtain ⟨hds, hbits⟩ := hspell
    obtain ⟨root, is, f, l, r, hr, hat, hi⟩ := ha.1.internal hsize
    rw [decodeLegacy_eq hr, hbits, decodeLegacyLoop_codes hi hat hsize hds (by simpa using hcap),
      decodeLegacyLoop_pathStuck hi hat ha.2 (hstuck.pathStuck hsize)]
    rfl
  | @overflow t out x rest htree hsize hspell hx hcap =>
    subst htree
    obtain ⟨hds, hbits⟩ := hspell
    obtain ⟨root, is, f, l, r, hr, hat, hi⟩ := ha.1.internal hsize
    rw [decodeLegacy_eq hr, hbits, decodeLegacyLoop_codes hi hat hsize hds (by simpa using hcap.le),
      decodeLegacyLoop_pathOf hi hat hsize (HTree.pathOf_of_mem hsize hx), emit_full (by simpa using hcap)]
    simp [HTree.bitsOf, Except.bind]

/-! ### HDEC.L -/

theorem execBody_hdecL (s : State) :
    execBody .hdecL s = (legacyPayload s.tbl.arena s.dstCap s.input).map s.writeOut := by
  rw [execBody]
  cases legacyPayload s.tbl.arena s.dstCap s.input <;> rfl

/-- Settles O40: the outcomes of legacy mode are those of R161. -/
theorem hdecLegacyDecodesEveryCompleteCode : Obligations.HdecLegacyDecodesEveryCompleteCode := by
  unfold Obligations.HdecLegacyDecodesEveryCompleteCode
  intro s hc
  have shown {tree : Option HTree} (ha : s.tbl.arena.Shows tree) {res : Except Raise (List Byte)}
      (h : LegacyDecodes tree s.input s.opnd.dstCap.toNat res) : execBody .hdecL s = res.map s.writeOut :=
    (execBody_hdecL s).trans (congrArg (Except.map s.writeOut) (legacyPayload_of_legacyDecodes ha h))
  refine ⟨fun hlen => ?_, fun tree ha =>
    ⟨fun out h => givesOutput_of_ok (tbl := s.tbl) hc (shown ha h), fun r h => raises_of_error hc (shown ha h)⟩⟩
  refine givesOutput_of_ok (tbl := s.tbl) hc ?_
  rw [execBody_hdecL, input_eq_nil hlen]
  rfl

/-! ### HDECOMP and HDECOMP.L -/

theorem shows_treeArena {tree : Option HTree} (hn : (treeSymbols tree).Nodup) : (treeArena tree).Shows tree := by
  cases tree with
  | none => rfl
  | some t => exact ⟨holds_treeArena t, hn⟩

theorem execBody_hdecomp_corrupt {s : State} {r : Raise} (h : parseTree s.metadata = .error r) :
    execBody .hdecomp s = .error r := by
  rw [execBody, h]

theorem execBody_hdecompL_corrupt {s : State} {r : Raise} (h : parseTree s.metadata = .error r) :
    execBody .hdecompL s = .error r := by
  rw [execBody, h]

/-- HDECOMP decodes with the tree it parsed and loads it (R165). -/
theorem execBody_hdecomp {s : State} {a : Arena} (h : parseTree s.metadata = .ok a) :
    execBody .hdecomp s = (countPayload a s.dstCap s.input s.opnd.expectLen.toNat).map fun out =>
      (s.writeOut out).setTables { s.tbl with arena := a, tv := true, cv := false } := by
  rw [← loaded_tables s.tbl (u := tableUseOf .hdecomp) rfl rfl, execBody, h]
  dsimp only
  cases countPayload a s.dstCap s.input s.opnd.expectLen.toNat <;> rfl

/-- HDECOMP.L decodes with the tree it parsed and loads it (R166). -/
theorem execBody_hdecompL {s : State} {a : Arena} (h : parseTree s.metadata = .ok a) :
    execBody .hdecompL s = (legacyPayload a s.dstCap s.input).map fun out =>
      (s.writeOut out).setTables { s.tbl with arena := a, tv := true, cv := false } := by
  rw [← loaded_tables s.tbl (u := tableUseOf .hdecompL) rfl rfl, execBody, h]
  dsimp only
  cases legacyPayload a s.dstCap s.input <;> rfl

/-- The packed codes of symbols of a tree, the empty one included, are decoded to them (R160, R162). -/
theorem countDecodes_pack_treeCode {tree : Option HTree} {ds : List Byte} (hds : ∀ x ∈ ds, x ∈ treeSymbols tree)
    {cap : Nat} (hcap : ds.length ≤ cap) :
    CountDecodes tree (pack (ds.flatMap (treeCode tree))).1 ds.length cap (.ok ds) := by
  cases tree with
  | none =>
    obtain rfl : ds = [] := List.eq_nil_iff_forall_not_mem.mpr fun x hx => List.not_mem_nil (hds x hx)
    exact .absent rfl
  | some t => exact countDecodes_pack hds hcap

/-- Settles O42: the tree of the metadata is parsed, and count mode with it ends as R160 says. -/
theorem hdecompDecodesWithItsTree : Obligations.HdecompDecodesWithItsTree := by
  unfold Obligations.HdecompDecodesWithItsTree
  intro s hc
  refine ⟨fun tree hn hmd => ?_, fun r hr => parseTree_error hr ▸ raises_of_error hc (execBody_hdecomp_corrupt hr)⟩
  have hbody := execBody_hdecomp (hmd ▸ parseTree_treeBytes hn)
  have decoded {res : Except Raise (List Byte)}
      (h : CountDecodes tree s.input s.opnd.expectLen.toNat s.opnd.dstCap.toNat res) :=
    hbody.trans (congrArg (Except.map _) (countPayload_of_countDecodes (shows_treeArena hn) h))
  refine ⟨fun ds hds hin hexp hcap => ?_, fun hlen => ?_, fun out h => givesOutput_of_ok hc (decoded h),
    fun r h => raises_of_error hc (decoded h)⟩
  · have hcodes := countDecodes_pack_treeCode hds hcap
    rw [← hin, ← hexp] at hcodes
    exact givesOutput_of_ok hc (decoded hcodes)
  · exact givesOutput_of_ok hc (decoded (.absent (input_eq_nil hlen)))

/-- Settles O43: the tree of the metadata is parsed, and legacy mode with it ends as R161 says. -/
theorem hdecompLegacyDecodesEveryCompleteCode : Obligations.HdecompLegacyDecodesEveryCompleteCode := by
  unfold Obligations.HdecompLegacyDecodesEveryCompleteCode
  intro s hc
  refine ⟨fun tree hn hmd => ?_, fun r hr => parseTree_error hr ▸ raises_of_error hc (execBody_hdecompL_corrupt hr)⟩
  have hbody := execBody_hdecompL (hmd ▸ parseTree_treeBytes hn)
  have decoded {res : Except Raise (List Byte)} (h : LegacyDecodes tree s.input s.opnd.dstCap.toNat res) :=
    hbody.trans (congrArg (Except.map _) (legacyPayload_of_legacyDecodes (shows_treeArena hn) h))
  exact ⟨fun hlen => givesOutput_of_ok hc (decoded (.absent (input_eq_nil hlen))),
    fun out h => givesOutput_of_ok hc (decoded h), fun r h => raises_of_error hc (decoded h)⟩

end Sys2Proof.Machine

namespace Sys2Proof.Machine

/-! ## TSER (O36) -/

theorem emitMetaStr_append (cap : Nat) (bs cs mdo : List Byte) :
    emitMetaStr cap (bs ++ cs) mdo = (emitMetaStr cap bs mdo).bind (emitMetaStr cap cs) := by
  induction bs generalizing mdo with
  | nil => rfl
  | cons b bs ih =>
    rw [List.cons_append, emitMetaStr, emitMetaStr]
    cases emitMeta cap b mdo with
    | error r => rfl
    | ok mdo' => exact ih mdo'

theorem wordBytes_eq (f : Word) : wordBytes f = bigEndian f := by
  simp only [wordBytes, bigEndian, List.cons.injEq, and_true]
  refine ⟨?_, ?_, ?_, ?_⟩ <;> refine BitVec.eq_of_toNat_eq ?_ <;> simp [Nat.shiftRight_eq_div_pow]

/-- Ser emits the byte string of the tree at its index (R156, R157). -/
theorem serializeNode_eq {nodes : List Node} {i : Nat} {t : HTree} {is : List Nat} (h : HTree.At nodes i t is)
    (cap : Nat) {fuel : Nat} (hf : t.size ≤ fuel) (mdo : List Byte) :
    serializeNode nodes cap fuel i mdo = emitMetaStr cap t.serialized mdo := by
  induction h generalizing fuel mdo with
  | leaf hi =>
    obtain _ | fuel := fuel
    · cases hf
    rw [serializeNode, hi, HTree.serialized, ← wordBytes_eq]
    rfl
  | @node i l r f tl tr il ir hi _ _ ihl ihr =>
    rw [HTree.size] at hf
    obtain _ | fuel := fuel
    · omega
    rw [serializeNode, hi, HTree.serialized, emitMetaStr_append, emitMetaStr_append, ← wordBytes_eq]
    dsimp only [internalRecord]
    cases emitMetaStr cap ([0x02] ++ wordBytes f) mdo with
    | error e => rfl
    | ok mdo1 =>
      dsimp only [Except.bind]
      rw [ihl (by omega)]
      cases emitMetaStr cap tl.serialized mdo1 with
      | error e => rfl
      | ok mdo2 => exact ihr (by omega) mdo2

theorem serializeTree_holds {a : Arena} {t : HTree} (h : a.Holds t) (cap : Nat) :
    serializeTree a cap = emitMetaStr cap t.serialized [] := by
  have hlen := h.length_nodes
  obtain ⟨root, is, hr, hat, -⟩ := h
  rw [serializeTree, hr]
  exact serializeNode_eq hat cap hlen.ge []

theorem serializeTree_none {a : Arena} (h : a.root = none) (cap : Nat) :
    serializeTree a cap = emitMetaStr cap [0x00] [] := by
  rw [serializeTree, h, emitMetaStr]
  dsimp only
  cases emitMeta cap 0x00 [] <;> rfl

theorem serializeTree_shows {a : Arena} {tree : Option HTree} (h : a.Shows tree) (cap : Nat) :
    serializeTree a cap = emitMetaStr cap (treeBytes tree) [] := by
  cases tree with
  | none => exact serializeTree_none h cap
  | some t => exact serializeTree_holds h.1 cap

/-- A whole metadata output: it fits, or overflows at the first byte that does not (R79). -/
theorem emitMetaStr_nil (cap : Nat) (mdo : List Byte) :
    emitMetaStr cap mdo [] = if mdo.length ≤ cap then .ok mdo else .error ⟨.mdaOverflow, cap⟩ := by
  simpa using emitMetaStr_eq cap mdo [] (Nat.zero_le cap)

theorem execBody_tser (s : State) : execBody .tser s = (serializeTree s.tbl.arena s.mdaCap).map s.writeMeta := by
  rw [execBody]
  cases serializeTree s.tbl.arena s.mdaCap <;> rfl

/-- Settles O36: Ser emits the byte string of the tree as one metadata output. -/
theorem tserWritesTheSerializedTree : Obligations.TserWritesTheSerializedTree := by
  unfold Obligations.TserWritesTheSerializedTree
  intro s hc mdo hmdo
  rw [show s.opnd.mdaCap.toNat = s.mdaCap from rfl]
  have hser : serializeTree s.tbl.arena s.mdaCap = emitMetaStr s.mdaCap mdo [] := by
    obtain ⟨hr, rfl⟩ | ⟨t, ht, rfl⟩ := hmdo
    · exact serializeTree_none hr _
    · exact serializeTree_holds ht _
  have hbody := (execBody_tser s).trans (congrArg (Except.map s.writeMeta) (hser.trans (emitMetaStr_nil _ mdo)))
  refine ⟨fun hfit => ?_, fun hover => ?_⟩
  · rw [if_pos hfit] at hbody
    exact ⟨_, exec_of_ok hc hbody, completed_of_ok hbody, stored_of_write rfl, rfl, rfl⟩
  · rw [if_neg (Nat.not_le.mpr hover)] at hbody
    exact ⟨_, exec_of_error hc hbody, rfl, BitVec.ofNat_toNat _ _⟩

end Sys2Proof.Machine

namespace Sys2Proof.Machine

/-! ## HENC (O35) -/

/-! ### Bits in groups of eight -/

/-- The encoder's state after some bits: the whole groups packed, and the bits of the group begun (R155). -/
def Grouped (bits acc : Bits) (out : List Byte) : Prop :=
  ∃ full, bits = full ++ acc ∧ full.length % 8 = 0 ∧ acc.length < 8 ∧ out = (pack full).1

theorem Grouped.nil : Grouped [] [] [] := ⟨[], rfl, rfl, by decide, rfl⟩

theorem Grouped.length_acc {bits acc : Bits} {out : List Byte} (h : Grouped bits acc out) :
    acc.length = bits.length % 8 := by
  obtain ⟨full, rfl, hfull, hacc, -⟩ := h
  rw [List.length_append]
  omega

theorem Grouped.length_out {bits acc : Bits} {out : List Byte} (h : Grouped bits acc out) :
    out.length = bits.length / 8 := by
  obtain ⟨full, rfl, hfull, hacc, rfl⟩ := h
  rw [length_pack, List.length_append]
  omega

theorem Grouped.concat {bits acc : Bits} {out : List Byte} (h : Grouped bits acc out) (hacc : acc.length ≠ 7)
    (b : Bool) : Grouped (bits ++ [b]) (acc ++ [b]) out := by
  obtain ⟨full, rfl, hfull, hlt, rfl⟩ := h
  exact ⟨full, List.append_assoc _ _ _, hfull, by simp; omega, rfl⟩

theorem Grouped.concat_byte {bits acc : Bits} {out : List Byte} (h : Grouped bits acc out) (hacc : acc.length = 7)
    (b : Bool) : Grouped (bits ++ [b]) [] (out ++ [packByte (acc ++ [b])]) := by
  obtain ⟨full, rfl, hfull, -, rfl⟩ := h
  have hgroup : (acc ++ [b]).length = 8 := by simp [hacc]
  refine ⟨full ++ (acc ++ [b]), by simp, ?_, by decide, ?_⟩
  · rw [List.length_append, hgroup]
    omega
  · rw [pack_append hfull, pack_group hgroup]

/-- The last group is packed with its padding, an empty one as no byte (R130). -/
theorem Grouped.pack_eq {bits acc : Bits} {out : List Byte} (h : Grouped bits acc out) :
    (pack bits).1 =
      if acc = [] then out else out ++ [packByte (acc ++ List.replicate ((8 - acc.length) % 8) false)] := by
  obtain ⟨full, rfl, hfull, hlt, rfl⟩ := h
  split
  · next hacc => rw [hacc, List.append_nil]
  · next hacc =>
    have hpos := List.length_pos_iff.mpr hacc
    have hpad : padFor acc.length = (8 - acc.length) % 8 := by rw [padFor, Nat.mod_eq_of_lt hlt]
    have hlen : (acc ++ List.replicate ((8 - acc.length) % 8) false).length = 8 := by
      rw [List.length_append, List.length_replicate]
      omega
    rw [pack_append hfull]
    congr 1
    refine pack_fst_of_unpack ?_
    simp [unpackByte_packByte hlen, padded, hpad]

/-! ### The codes of an input -/

/-- The bits of one code: the bytes they complete fit, or DST_OVERFLOW is raised at the symbol (R155). -/
theorem encodeCode_cases {bits acc : Bits} {out : List Byte} (h : Grouped bits acc out) {cap : Nat}
    (hcap : bits.length / 8 ≤ cap) (k : Nat) (code : Bits) :
    ((bits ++ code).length / 8 ≤ cap ∧
      ∃ acc' out', encodeCode cap k code acc out = .ok (acc', out') ∧ Grouped (bits ++ code) acc' out') ∨
    (cap < (bits ++ code).length / 8 ∧ encodeCode cap k code acc out = .error ⟨.dstOverflow, k⟩) := by
  induction code generalizing bits acc out with
  | nil => exact .inl ⟨by simpa using hcap, acc, out, rfl, by simpa using h⟩
  | cons b code ih =>
    have hacc := h.length_acc
    have hout := h.length_out
    have hlen : (bits ++ [b]).length = bits.length + 1 := by simp
    have happ : bits ++ b :: code = bits ++ [b] ++ code := by simp
    rw [encodeCode, happ]
    by_cases hgroup : acc.length = 7
    · rw [if_pos (by simp [hgroup])]
      obtain hfull | hroom := hcap.eq_or_lt
      · refine .inr ⟨?_, by rw [emit_full (hout.trans hfull)]⟩
        rw [List.length_append, hlen]
        omega
      · rw [emit_ok (by omega)]
        exact ih (h.concat_byte hgroup b) (by omega)
    · rw [if_neg (by simp [hgroup])]
      exact ih (h.concat hgroup b) (by omega)

theorem encodeLoop_noCode {ct : CodeTable} {x : Byte} (hx : tblGet ct x = []) (cap : Nat) (xs : List Byte) (k : Nat)
    (acc : Bits) (out : List Byte) : encodeLoop ct cap (x :: xs) k acc out = .error ⟨.noCode, k⟩ := by
  rw [encodeLoop, hx]

theorem encodeLoop_code {ct : CodeTable} {x : Byte} (hx : tblGet ct x ≠ []) (cap : Nat) (xs : List Byte) (k : Nat)
    (acc : Bits) (out : List Byte) :
    encodeLoop ct cap (x :: xs) k acc out =
      (encodeCode cap k (tblGet ct x) acc out).bind fun r => encodeLoop ct cap xs (k + 1) r.1 r.2 := by
  rw [encodeLoop]
  obtain ⟨c, cs, hc⟩ := List.exists_cons_of_ne_nil hx
  rw [hc]
  dsimp only
  cases encodeCode cap k (c :: cs) acc out <;> rfl

/-- The symbols at the front whose codes fit are encoded one after the other (R155). -/
theorem encodeLoop_coded {ct : CodeTable} {cap : Nat} {pre : List Byte} (hpre : ∀ x ∈ pre, tblGet ct x ≠ [])
    {bits acc : Bits} {out : List Byte} (h : Grouped bits acc out)
    (hcap : (bits ++ pre.flatMap (tblGet ct)).length / 8 ≤ cap) (rest : List Byte) (k : Nat) :
    ∃ acc' out', Grouped (bits ++ pre.flatMap (tblGet ct)) acc' out' ∧
      encodeLoop ct cap (pre ++ rest) k acc out = encodeLoop ct cap rest (k + pre.length) acc' out' := by
  induction pre generalizing bits acc out k with
  | nil => exact ⟨acc, out, by simpa using h, rfl⟩
  | cons x pre ih =>
    rw [List.flatMap_cons, ← List.append_assoc] at hcap ⊢
    have hroom : (bits ++ tblGet ct x).length / 8 ≤ cap :=
      (Nat.div_le_div_right (List.prefix_append _ _).length_le).trans hcap
    have hbits : bits.length / 8 ≤ cap := (Nat.div_le_div_right (List.prefix_append _ _).length_le).trans hroom
    obtain ⟨-, acc1, out1, hcode, h1⟩ | ⟨hover, -⟩ := encodeCode_cases h hbits k (tblGet ct x)
    · obtain ⟨acc2, out2, h2, hloop⟩ := ih (fun y hy => hpre y (List.mem_cons_of_mem x hy)) h1 hcap (k + 1)
      refine ⟨acc2, out2, h2, ?_⟩
      rw [List.cons_append, encodeLoop_code (hpre x List.mem_cons_self), hcode, Except.bind, hloop, List.length_cons,
        Nat.add_right_comm, Nat.add_assoc]
    · omega

/-! ### The output of HENC -/

theorem encodeOutput_of_loop_error {ct : CodeTable} {cap : Nat} {inp : List Byte} {r : Raise}
    (h : encodeLoop ct cap inp 0 [] [] = .error r) : encodeOutput ct cap inp = .error r := by
  rw [encodeOutput, h]

/-- Where every symbol has a code and the whole groups fit, the codes are packed if their last group fits too, else
DST_OVERFLOW is raised at the last symbol (R155). -/
theorem encodeOutput_coded {ct : CodeTable} {cap : Nat} {inp : List Byte} (hinp : ∀ x ∈ inp, tblGet ct x ≠ [])
    (hcap : (inp.flatMap (tblGet ct)).length / 8 ≤ cap) :
    encodeOutput ct cap inp =
      if ((inp.flatMap (tblGet ct)).length + 7) / 8 ≤ cap then
        .ok ((pack (inp.flatMap (tblGet ct))).1, BitVec.ofNat 3 (pack (inp.flatMap (tblGet ct))).2)
      else .error ⟨.dstOverflow, inp.length - 1⟩ := by
  obtain ⟨acc, out, h, hloop⟩ := encodeLoop_coded hinp .nil hcap [] 0
  rw [List.append_nil, encodeLoop] at hloop
  rw [List.nil_append] at h
  have hacc := h.length_acc
  have hout := h.length_out
  have hpad : (8 - acc.length) % 8 = (pack (inp.flatMap (tblGet ct))).2 := by rw [hacc, pack_snd, padFor]
  rw [encodeOutput, hloop]
  dsimp only
  rw [h.pack_eq, hpad]
  cases acc with
  | nil =>
    rw [List.length_nil] at hacc
    rw [if_pos (by omega), if_pos rfl]
  | cons b acc =>
    rw [List.length_cons] at hacc
    dsimp only
    rw [if_neg (List.cons_ne_nil b acc)]
    by_cases hroom : out.length = cap
    · rw [emit_full hroom, if_neg (by omega)]
    · rw [emit_ok (by omega), if_pos (by omega)]

/-- The first symbol without a code raises NO_CODE when the whole groups before it fit (R155). -/
theorem encodeOutput_noCode {ct : CodeTable} {cap : Nat} {pre : List Byte} (hpre : ∀ y ∈ pre, tblGet ct y ≠ [])
    (hcap : (pre.flatMap (tblGet ct)).length / 8 ≤ cap) {x : Byte} (hx : tblGet ct x = []) (rest : List Byte) :
    encodeOutput ct cap (pre ++ x :: rest) = .error ⟨.noCode, pre.length⟩ := by
  obtain ⟨acc, out, -, hloop⟩ := encodeLoop_coded hpre .nil hcap (x :: rest) 0
  rw [encodeLoop_noCode hx, Nat.zero_add] at hloop
  exact encodeOutput_of_loop_error hloop

/-- The symbol whose code completes the byte that does not fit raises DST_OVERFLOW (R155). -/
theorem encodeOutput_overflow {ct : CodeTable} {cap : Nat} {pre : List Byte} (hpre : ∀ y ∈ pre, tblGet ct y ≠ [])
    (hcap : (pre.flatMap (tblGet ct)).length / 8 ≤ cap) {x : Byte}
    (hover : cap < ((pre ++ [x]).flatMap (tblGet ct)).length / 8) (rest : List Byte) :
    encodeOutput ct cap (pre ++ x :: rest) = .error ⟨.dstOverflow, pre.length⟩ := by
  obtain ⟨acc, out, h, hloop⟩ := encodeLoop_coded hpre .nil hcap (x :: rest) 0
  rw [List.nil_append] at h
  rw [List.flatMap_append, List.flatMap_singleton] at hover
  have hx : tblGet ct x ≠ [] := by
    intro hx
    rw [hx, List.append_nil] at hover
    omega
  refine encodeOutput_of_loop_error (hloop.trans ?_)
  rw [encodeLoop_code hx, Nat.zero_add]
  obtain ⟨hfit, -⟩ | ⟨-, herr⟩ := encodeCode_cases h hcap pre.length (tblGet ct x)
  · omega
  · rw [herr, Except.bind]

/-- DST_OVERFLOW is raised at the symbol that completes the byte that does not fit, the padding counted to the last
symbol (R155). -/
theorem encodeOutput_completesByte {ct : CodeTable} {cap k : Nat} {inp : List Byte}
    (hcode : ∀ y ∈ inp.take (k + 1), tblGet ct y ≠ []) (hk : CompletesByte (tblGet ct) inp cap k)
    (hover : 8 * cap < ((inp.take (k + 1)).flatMap (tblGet ct)).length) :
    encodeOutput ct cap inp = .error ⟨.dstOverflow, k⟩ := by
  obtain ⟨hlt, hbefore, hafter⟩ := hk
  by_cases hbyte : 8 * (cap + 1) ≤ ((inp.take (k + 1)).flatMap (tblGet ct)).length
  · have htake : inp.take (k + 1) = inp.take k ++ [inp[k]] := List.take_succ_eq_append_getElem hlt
    have hsplit : inp = inp.take k ++ inp[k] :: inp.drop (k + 1) := by
      rw [← List.drop_eq_getElem_cons hlt, List.take_append_drop]
    have hpre : ∀ y ∈ inp.take k, tblGet ct y ≠ [] := fun y hy => hcode y (htake ▸ List.mem_append_left _ hy)
    have herr := encodeOutput_overflow hpre (cap := cap) (x := inp[k]) (by omega) (by rw [← htake]; omega)
      (inp.drop (k + 1))
    rw [← hsplit, List.length_take_of_le hlt.le] at herr
    exact herr
  · have hlast : k + 1 = inp.length := hafter.resolve_left hbyte
    rw [hlast, List.take_length] at hcode hbyte hover
    rw [encodeOutput_coded hcode (by omega), if_neg (by omega), ← hlast, Nat.add_sub_cancel]

/-! ### HENC -/

theorem execBody_henc (s : State) :
    execBody .henc s =
      (encodeOutput s.tbl.ct s.dstCap s.input).map fun r => (s.writeOut r.1).setPad r.2 := by
  rw [execBody]
  cases encodeOutput s.tbl.ct s.dstCap s.input <;> rfl

/-- Settles O35: the three ways the encoder ends, in order of the symbols. -/
theorem hencPacksTheCodesInOrder : Obligations.HencPacksTheCodesInOrder := by
  unfold Obligations.HencPacksTheCodesInOrder
  intro s hc
  rw [show s.opnd.dstCap.toNat = s.dstCap from rfl]
  refine ⟨fun hcode hfit => ?_, fun k x hx hnone hcode hfit => ?_, fun k hcode hk hover => ?_⟩
  · have hbody := execBody_henc s
    rw [encodeOutput_coded hcode (by omega), if_pos hfit] at hbody
    refine ⟨_, exec_of_ok hc hbody, completed_of_ok hbody, stored_of_write rfl, rfl, ?_⟩
    rw [State.completeSuccess_res, State.setPad_res, State.writeOut_res, length_pack]
  · obtain ⟨hlt, hget⟩ := List.getElem?_eq_some_iff.mp hx
    have hbody := execBody_henc s
    have herr := encodeOutput_noCode hcode hfit hnone (s.input.drop (k + 1))
    rw [← hget, ← List.drop_eq_getElem_cons hlt, List.take_append_drop, List.length_take_of_le hlt.le] at herr
    rw [herr] at hbody
    exact ⟨_, exec_of_error hc hbody, rfl, rfl⟩
  · have hbody := execBody_henc s
    rw [encodeOutput_completesByte hcode hk hover] at hbody
    exact raises_of_error hc hbody

end Sys2Proof.Machine

namespace Sys2Proof.Machine

/-! ## FREQ (O32) -/

theorem tblGet_foldl_count (inp : List Byte) (ft : FreqTable) (x : Byte) :
    tblGet (inp.foldl (fun ft b => tblSet ft b (tblGet ft b + 1)) ft) x =
      tblGet ft x + BitVec.ofNat 32 (inp.count x) := by
  induction inp generalizing ft with
  | nil => simp
  | cons b inp ih =>
    rw [List.foldl_cons, ih, List.count_cons]
    by_cases h : b = x
    · subst h
      rw [tblGet_tblSet_same, if_pos (beq_self_eq_true b)]
      bv_omega
    · rw [tblGet_tblSet_other _ _ h, if_neg (by simpa using h), Nat.add_zero]

theorem tblGet_countFreq (inp : List Byte) (x : Byte) : tblGet (countFreq inp) x = BitVec.ofNat 32 (inp.count x) := by
  rw [countFreq, tblGet_foldl_count, tblGet_replicate]
  exact BitVec.zero_add _

/-- A counter holds the count of its symbol, as the input is shorter than 2^32 (R9, R150). -/
theorem toNat_tblGet_countFreq (s : State) (x : Byte) : (tblGet (countFreq s.input) x).toNat = s.input.count x := by
  have hcount : s.input.count x ≤ s.input.length := List.count_le_length
  rw [State.input_length] at hcount
  rw [tblGet_countFreq, BitVec.toNat_ofNat, Nat.mod_eq_of_lt (hcount.trans_lt s.opnd.srcLen.isLt)]

theorem tblGet_countFreq_ne_zero_iff (s : State) (x : Byte) : tblGet (countFreq s.input) x ≠ 0 ↔ x ∈ s.input := by
  rw [← List.count_pos_iff, ← toNat_tblGet_countFreq, Nat.pos_iff_ne_zero, ne_eq, ne_eq, not_iff_not]
  exact BitVec.toNat_inj.symm

theorem toList_eq_map_tblGet (ft : FreqTable) :
    ft.toList = (List.range 256).map fun k => tblGet ft (BitVec.ofNat 8 k) := by
  refine List.ext_getElem (by simp) fun k hk _ => ?_
  have hlt : k < 256 := by simpa using hk
  simp [tblGet, Nat.mod_eq_of_lt hlt]

/-- NUM_SYMS counts the symbols of the input (R47). -/
theorem numSyms_countFreq (s : State) :
    numSyms (countFreq s.input) = ((List.range 256).filter fun k => BitVec.ofNat 8 k ∈ s.input).length := by
  rw [numSyms, toList_eq_map_tblGet, List.countP_map, List.countP_eq_length_filter]
  congr 2
  funext k
  rw [Function.comp_apply, Bool.eq_iff_iff, bne_iff_ne, decide_eq_true_iff]
  exact tblGet_countFreq_ne_zero_iff s _

/-- Settles O32, by what the counters hold after the input. -/
theorem freqCountsEverySymbol : Obligations.FreqCountsEverySymbol := by
  unfold Obligations.FreqCountsEverySymbol
  intro s hc
  have hbody : execBody .freq s =
      .ok (s.setTables { s.tbl.cleared (tableUseOf .freq) with ft := countFreq s.input, fv := true }) := rfl
  refine ⟨_, exec_of_ok hc hbody, completed_of_ok hbody, toNat_tblGet_countFreq s, ?_, ?_, rfl, rfl⟩
  · have hle : ((List.range 256).filter fun k => BitVec.ofNat 8 k ∈ s.input).length ≤ 256 :=
      (List.length_filter_le _ _).trans_eq List.length_range
    change (BitVec.ofNat 32 (numSyms (countFreq s.input))).toNat = _
    rw [numSyms_countFreq, BitVec.toNat_ofNat, Nat.mod_eq_of_lt (by omega)]
  · simp [Tables.cleared, tableUseOf]

end Sys2Proof.Machine

namespace Sys2Proof.Machine

/-! ## TBUILD (O33) -/

/-! ### The least live index -/

/-- The pair (freq, index) of one index is below that of another (R151). -/
def PairBelow (nodes : List Node) (a b : Nat) : Prop :=
  (freqAt nodes a).toNat < (freqAt nodes b).toNat ∨ ((freqAt nodes a).toNat = (freqAt nodes b).toNat ∧ a < b)

theorem keyBelow_iff (nodes : List Node) (a b : Nat) : keyBelow nodes a b = true ↔ PairBelow nodes a b := by
  simp only [keyBelow, PairBelow, Bool.or_eq_true, Bool.and_eq_true, decide_eq_true_eq, beq_iff_eq, BitVec.lt_def,
    BitVec.toNat_inj]

/-- The index found has the least pair (R151). -/
theorem leastOf_below {nodes : List Node} {live : List Nat} {a : Nat} (h : leastOf nodes live = some a) {b : Nat}
    (hb : b ∈ live) (hne : b ≠ a) : PairBelow nodes a b := by
  induction live generalizing a b with
  | nil => cases h
  | cons i rest ih =>
    rw [leastOf] at h
    cases hrest : leastOf nodes rest with
    | none =>
      rw [hrest] at h
      cases h
      rw [leastOf_eq_none hrest, List.mem_singleton] at hb
      exact absurd hb hne
    | some j =>
      rw [hrest] at h
      dsimp only at h
      have hj {b : Nat} (hb : b ∈ rest) (hne : b ≠ j) := ih hrest hb hne
      split at h
      · next hlt =>
        cases h
        rw [keyBelow_iff] at hlt
        obtain rfl | hb := List.mem_cons.mp hb
        · exact hlt
        · exact hj hb hne
      · next hge =>
        cases h
        rw [keyBelow_iff] at hge
        have hbrest := (List.mem_cons.mp hb).resolve_left hne
        unfold PairBelow at hj hge ⊢
        obtain rfl | hbj := eq_or_ne b j
        · omega
        · have := hj hbrest hbj
          omega

/-! ### The order of the merges -/

/-- The index b stands before m and is no child of a node before m (R151). -/
def Unmerged (nodes : List Node) (m b : Nat) : Prop :=
  b < m ∧ ∀ (m' : Nat) (f : Word) (l r : Nat), m' < m → nodes[m']? = some (.internal f l r) → b ≠ l ∧ b ≠ r

/-- The internal node at m merges the two least of the indices not merged before it, the least on the left (R151). -/
structure MinMerge (nodes : List Node) (m : Nat) (f : Word) (l r : Nat) : Prop where
  sum         : f = freqAt nodes l + freqAt nodes r
  left        : Unmerged nodes m l
  right       : Unmerged nodes m r
  different   : l ≠ r
  leftLeast   : ∀ b, Unmerged nodes m b → b ≠ l → PairBelow nodes l b
  rightSecond : ∀ b, Unmerged nodes m b → b ≠ l → b ≠ r → PairBelow nodes r b

/-- Every internal node is a merge of the two least. -/
def MinMerged (nodes : List Node) : Prop :=
  ∀ (m : Nat) (f : Word) (l r : Nat), nodes[m]? = some (.internal f l r) → MinMerge nodes m f l r

theorem freqAt_append {nodes : List Node} {i : Nat} (h : i < nodes.length) (more : List Node) :
    freqAt (nodes ++ more) i = freqAt nodes i := by
  rw [freqAt, List.getElem?_append_left h, freqAt]

theorem unmerged_append {nodes : List Node} {m : Nat} (h : m ≤ nodes.length) (more : List Node) (b : Nat) :
    Unmerged (nodes ++ more) m b ↔ Unmerged nodes m b := by
  refine and_congr_right fun _ => forall₄_congr fun m' f l r => forall_congr' fun hm => ?_
  rw [List.getElem?_append_left (by omega)]

theorem pairBelow_append {nodes : List Node} {a b : Nat} (ha : a < nodes.length) (hb : b < nodes.length)
    (more : List Node) : PairBelow (nodes ++ more) a b ↔ PairBelow nodes a b := by
  rw [PairBelow, PairBelow, freqAt_append ha, freqAt_append hb]

/-- Nodes put behind a merge leave it what it is. -/
theorem MinMerge.append {nodes : List Node} {m l r : Nat} {f : Word} (h : MinMerge nodes m f l r)
    (hm : m ≤ nodes.length) (more : List Node) : MinMerge (nodes ++ more) m f l r := by
  have hl := h.left.1.trans_le hm
  have hr := h.right.1.trans_le hm
  refine ⟨?_, (unmerged_append hm more l).mpr h.left, (unmerged_append hm more r).mpr h.right, h.different, ?_, ?_⟩
  · rw [freqAt_append hl, freqAt_append hr]
    exact h.sum
  · intro b hb hbl
    rw [unmerged_append hm] at hb
    exact (pairBelow_append hl (hb.1.trans_le hm) more).mpr (h.leftLeast b hb hbl)
  · intro b hb hbl hbr
    rw [unmerged_append hm] at hb
    exact (pairBelow_append hr (hb.1.trans_le hm) more).mpr (h.rightSecond b hb hbl hbr)

/-- The invariant of the merge loop (R151): the live indices are the unmerged ones, and every internal node is a merge
of the two least. -/
structure MergeInv (nodes : List Node) (live : List Nat) : Prop where
  isLive : ∀ b, b ∈ live ↔ Unmerged nodes nodes.length b
  nodup  : live.Nodup
  merged : MinMerged nodes

/-- The two least live indices make a merge. -/
theorem MergeInv.minMerge {nodes : List Node} {live : List Nat} (h : MergeInv nodes live) {a c : Nat}
    (ha : leastOf nodes live = some a) (hc : leastOf nodes (live.erase a) = some c) :
    MinMerge nodes nodes.length (freqAt nodes a + freqAt nodes c) a c := by
  have hmem := leastOf_mem hc
  rw [h.nodup.mem_erase_iff] at hmem
  refine ⟨rfl, (h.isLive a).mp (leastOf_mem ha), (h.isLive c).mp hmem.2, hmem.1.symm, fun b hb hba => ?_,
    fun b hb hba hbc => ?_⟩
  · exact leastOf_below ha ((h.isLive b).mpr hb) hba
  · exact leastOf_below hc (h.nodup.mem_erase_iff.mpr ⟨hba, (h.isLive b).mpr hb⟩) hbc

theorem getElem?_concat_eq_some {nodes : List Node} {x y : Node} {m : Nat} (h : (nodes ++ [x])[m]? = some y) :
    (m < nodes.length ∧ nodes[m]? = some y) ∨ (m = nodes.length ∧ x = y) := by
  rw [List.getElem?_append] at h
  split at h
  · next hm => exact .inl ⟨hm, h⟩
  · next hm =>
    have hone := (List.getElem?_eq_some_iff.mp h).1
    rw [List.length_singleton, Nat.lt_one_iff] at hone
    rw [hone] at h
    exact .inr ⟨by omega, Option.some.inj h⟩

/-- After a merge its children are merged and it is not. -/
theorem unmerged_concat {nodes : List Node} (h : MinMerged nodes) {f : Word} {l r : Nat} (hl : l < nodes.length)
    (hr : r < nodes.length) (b : Nat) :
    Unmerged (nodes ++ [.internal f l r]) (nodes.length + 1) b ↔
      b = nodes.length ∨ (b ≠ l ∧ b ≠ r ∧ Unmerged nodes nodes.length b) := by
  constructor
  · rintro ⟨hb, hchild⟩
    obtain rfl | hne := eq_or_ne b nodes.length
    · exact .inl rfl
    · obtain ⟨hbl, hbr⟩ := hchild nodes.length f l r (Nat.lt_succ_self _) (by simp)
      refine .inr ⟨hbl, hbr, by omega, fun m' f' l' r' hm' hnode => ?_⟩
      exact hchild m' f' l' r' (by omega) (by rw [List.getElem?_append_left hm', hnode])
  · rintro (rfl | ⟨hbl, hbr, hb, hchild⟩)
    · refine ⟨Nat.lt_succ_self _, fun m' f' l' r' hm' hnode => ?_⟩
      obtain ⟨hlt, hold⟩ | ⟨-, hnew⟩ := getElem?_concat_eq_some hnode
      · have hmerge := h m' f' l' r' hold
        exact ⟨(hmerge.left.1.trans hlt).ne', (hmerge.right.1.trans hlt).ne'⟩
      · cases hnew
        exact ⟨hl.ne', hr.ne'⟩
    · refine ⟨hb.trans (Nat.lt_succ_self _), fun m' f' l' r' hm' hnode => ?_⟩
      obtain ⟨hlt, hold⟩ | ⟨-, hnew⟩ := getElem?_concat_eq_some hnode
      · exact hchild m' f' l' r' hlt hold
      · cases hnew
        exact ⟨hbl, hbr⟩

/-- One round of the merge loop keeps the invariant (R151). -/
theorem MergeInv.step {nodes : List Node} {live : List Nat} (h : MergeInv nodes live) {a c : Nat}
    (ha : leastOf nodes live = some a) (hc : leastOf nodes (live.erase a) = some c) :
    MergeInv (nodes ++ [.internal (freqAt nodes a + freqAt nodes c) a c])
      ((live.erase a).erase c ++ [nodes.length]) := by
  have hmerge := h.minMerge ha hc
  have hnodup := (h.nodup.erase a).erase c
  have hnew : nodes.length ∉ (live.erase a).erase c := fun hmem =>
    Nat.lt_irrefl _ ((h.isLive _).mp (List.mem_of_mem_erase (List.mem_of_mem_erase hmem))).1
  refine ⟨fun b => ?_, List.nodup_append_comm.mp (hnodup.cons hnew), fun m f l r hm => ?_⟩
  · rw [List.length_append, List.length_singleton, unmerged_concat h.merged hmerge.left.1 hmerge.right.1,
      List.mem_append, List.mem_singleton, (h.nodup.erase a).mem_erase_iff, h.nodup.mem_erase_iff, h.isLive]
    tauto
  · obtain ⟨hlt, hold⟩ | ⟨rfl, hnode⟩ := getElem?_concat_eq_some hm
    · exact (h.merged m f l r hold).append hlt.le _
    · cases hnode
      exact hmerge.append le_rfl _

/-- What holds before the merge loop and is kept by its rounds holds after it. -/
theorem mergeLoop_keeps {P : List Node → List Nat → Prop}
    (step : ∀ nodes live a c, P nodes live → leastOf nodes live = some a → leastOf nodes (live.erase a) = some c →
      P (nodes ++ [.internal (freqAt nodes a + freqAt nodes c) a c]) ((live.erase a).erase c ++ [nodes.length]))
    (fuel : Nat) {nodes : List Node} {live : List Nat} (h : P nodes live) :
    P (mergeLoop fuel nodes live).1 (mergeLoop fuel nodes live).2 := by
  induction fuel generalizing nodes live with
  | zero => exact h
  | succ fuel ih =>
    rw [mergeLoop]
    split
    · exact h
    · next a ha =>
      dsimp only
      split
      · exact h
      · next c hc => exact ih (step nodes live a c h ha hc)

/-! ### BuildTree merges the two least -/

theorem mergeInv_leaves (leaves : List Node) (h : ∀ n ∈ leaves, ∃ s f, n = .leaf s f) :
    MergeInv leaves (List.range leaves.length) := by
  have noInternal (m : Nat) (f : Word) (l r : Nat) : leaves[m]? ≠ some (.internal f l r) := by
    intro hm
    obtain ⟨s, f', hn⟩ := h _ (List.mem_of_getElem? hm)
    cases hn
  refine ⟨fun b => ?_, List.nodup_range, fun m f l r hm => absurd hm (noInternal m f l r)⟩
  rw [List.mem_range]
  exact ⟨fun hb => ⟨hb, fun m' f l r _ hm => absurd hm (noInternal m' f l r)⟩, fun hb => hb.1⟩

/-- The last node is unmerged, so it is the one live index left. -/
theorem MergeInv.live_eq {nodes : List Node} {live : List Nat} (h : MergeInv nodes live) (hone : live.length ≤ 1)
    (hpos : 0 < nodes.length) : live = [nodes.length - 1] := by
  have hlast : nodes.length - 1 ∈ live := by
    refine (h.isLive _).mpr ⟨by omega, fun m f l r hm hnode => ?_⟩
    have hmerge := h.merged m f l r hnode
    have hl := hmerge.left.1
    have hr := hmerge.right.1
    omega
  obtain ⟨x, rfl⟩ := List.length_eq_one_iff.mp (Nat.le_antisymm hone (List.length_pos_of_mem hlast))
  rw [List.mem_singleton.mp hlast]

theorem mergeInv_buildTree (ft : FreqTable) :
    MergeInv (buildTree ft).nodes (mergeLoop (seedLeaves ft).length (seedLeaves ft)
      (List.range (seedLeaves ft).length)).2 ∧ seedLeaves ft <+: (buildTree ft).nodes := by
  refine mergeLoop_keeps (P := fun nodes live => MergeInv nodes live ∧ seedLeaves ft <+: nodes)
    (fun nodes live a c h ha hc => ⟨h.1.step ha hc, h.2.trans (List.prefix_append _ _)⟩) _
    ⟨mergeInv_leaves _ fun n hn => ?_, List.prefix_rfl⟩
  rw [seedLeaves_eq, List.mem_map] at hn
  obtain ⟨s, -, rfl⟩ := hn
  exact ⟨s, _, rfl⟩

/-- Where nothing is counted the arena is empty (R151). -/
theorem buildTree_empty {ft : FreqTable} (h : seedSymbols ft = []) : buildTree ft = ⟨[], none⟩ := by
  obtain ⟨hr, hn, -⟩ | ⟨t, -, hperm⟩ := buildTree_cases ft
  · rw [← hr, ← hn]
  · have hsize := t.size_add_one
    have hlen := hperm.length_eq
    rw [h, List.length_nil] at hlen
    omega

theorem buildTree_minMerged (ft : FreqTable) : MinMerged (buildTree ft).nodes := (mergeInv_buildTree ft).1.merged

/-- The leaves stand first, in ascending symbol order (R151). -/
theorem buildTree_leaf (ft : FreqTable) {k : Nat} {x : Byte} (h : (seedSymbols ft)[k]? = some x) :
    (buildTree ft).nodes[k]? = some (.leaf x (tblGet ft x)) := by
  have hleaf : (seedLeaves ft)[k]? = some (.leaf x (tblGet ft x)) := by rw [seedLeaves_eq, List.getElem?_map, h]; rfl
  obtain ⟨more, hmore⟩ := (mergeInv_buildTree ft).2
  rw [← hmore, List.getElem?_append_left (List.getElem?_eq_some_iff.mp hleaf).1, hleaf]

/-- The root is the last node (R151). -/
theorem buildTree_root {ft : FreqTable} (h : 0 < (buildTree ft).nodes.length) :
    (buildTree ft).root = some ((buildTree ft).nodes.length - 1) := by
  have hlen : (seedLeaves ft).length = (seedSymbols ft).length := by rw [seedLeaves_eq, List.length_map]
  have hseed := forest_leaves (seedSymbols ft) (tblGet ft)
  rw [← seedLeaves_eq, ← hlen] at hseed
  have hone := (mergeLoop_forest (fuel := (seedLeaves ft).length) hseed (by simp)).1
  have hlive := (mergeInv_buildTree ft).1.live_eq hone h
  exact congrArg List.head? hlive

theorem HTree.At.freqAt_eq {nodes : List Node} {i : Nat} {t : HTree} {is : List Nat} (h : HTree.At nodes i t is) :
    freqAt nodes i = t.freq := by
  cases h with
  | leaf hi => rw [freqAt, hi]; rfl
  | node hi _ _ => rw [freqAt, hi]; rfl

/-- Where every internal node is a merge, the freqs of a tree add up (R152). -/
theorem HTree.At.sumsUp {nodes : List Node} {i : Nat} {t : HTree} {is : List Nat} (h : HTree.At nodes i t is)
    (hm : MinMerged nodes) : t.sumsUp := by
  induction h with
  | leaf => trivial
  | node hi hl hr ihl ihr => exact ⟨by rw [(hm _ _ _ _ hi).sum, hl.freqAt_eq, hr.freqAt_eq], ihl, ihr⟩

theorem Arena.Holds.sumsUp {a : Arena} {t : HTree} (h : a.Holds t) (hm : MinMerged a.nodes) : t.sumsUp := by
  obtain ⟨root, is, -, hat, -⟩ := h
  exact hat.sumsUp hm

/-! ### TBUILD -/

theorem execBody_tbuild (s : State) :
    execBody .tbuild s = .ok (s.setTables { s.tbl with arena := buildTree s.tbl.ft, tv := true, cv := false }) := by
  rw [execBody, loaded_tables s.tbl rfl rfl]

/-- Settles O33: the tree of BuildTree, the order of its merges, and the leaves in front. -/
theorem tbuildBuildsATreeOverTheCountedSymbols : Obligations.TbuildBuildsATreeOverTheCountedSymbols := by
  unfold Obligations.TbuildBuildsATreeOverTheCountedSymbols
  intro s hc syms
  have hbody := execBody_tbuild s
  have hsyms : syms = seedSymbols s.tbl.ft := rfl
  rw [hsyms]
  refine ⟨_, exec_of_ok hc hbody, completed_of_ok hbody, rfl, rfl, rfl, buildTree_empty, fun hne => ?_⟩
  obtain ⟨-, -, hnil⟩ | ⟨t, ht, hperm⟩ := buildTree_cases s.tbl.ft
  · exact absurd hnil hne
  have hlen : (buildTree s.tbl.ft).nodes.length = 2 * (seedSymbols s.tbl.ft).length - 1 := by
    have hsize := t.size_add_one
    rw [ht.length_nodes, ← hperm.length_eq]
    omega
  have hpos := List.length_pos_iff.mpr hne
  have hmerged := buildTree_minMerged s.tbl.ft
  refine ⟨hlen, ?_, fun k x => buildTree_leaf s.tbl.ft, fun m f l r hm => ?_, t, ht, ht.sumsUp hmerged, hperm⟩
  · exact (buildTree_root (by omega)).trans (congrArg some (by omega))
  · have h := hmerged m f l r hm
    exact ⟨h.left, h.right, h.different, h.leftLeast, h.rightSecond⟩

end Sys2Proof.Machine

namespace Sys2Proof.Machine

/-! ## HCOMP and the round trip (O41, O44) -/

/-! ### The tree of an input -/

theorem Arena.Shows.nodup {a : Arena} {tree : Option HTree} (h : a.Shows tree) : (treeSymbols tree).Nodup := by
  cases tree with
  | none => exact List.nodup_nil
  | some t => exact h.2

theorem mem_seedSymbols (ft : FreqTable) (x : Byte) : x ∈ seedSymbols ft ↔ tblGet ft x ≠ 0 := by
  rw [seedSymbols, List.mem_filter, decide_eq_true_iff]
  refine and_iff_right (List.mem_map.mpr ⟨x.toNat, List.mem_range.mpr x.isLt, ?_⟩)
  exact BitVec.ofNat_toNat 8 x

/-- BuildTree shows a tree, or none, whose leaves are the counted symbols (R151). -/
theorem buildTree_shows (ft : FreqTable) :
    ∃ tree, (buildTree ft).Shows tree ∧ ∀ x, x ∈ treeSymbols tree ↔ tblGet ft x ≠ 0 := by
  obtain ⟨hr, -, hnil⟩ | ⟨t, ht, hperm⟩ := buildTree_cases ft
  · exact ⟨none, hr, fun x => by rw [← mem_seedSymbols, hnil]; rfl⟩
  · refine ⟨some t, ⟨ht, hperm.nodup_iff.mpr (nodup_seedSymbols ft)⟩, fun x => ?_⟩
    rw [← mem_seedSymbols]
    exact hperm.mem_iff

/-- DeriveCodes gives the codes of the tree shown (R153). -/
theorem tblGet_deriveCodes_shows {a : Arena} {tree : Option HTree} (h : a.Shows tree) :
    tblGet (deriveCodes a) = treeCode tree := by
  funext x
  cases tree with
  | none => exact tblGet_deriveCodes_none h x
  | some t => exact tblGet_deriveCodes h.1 h.2 x

theorem treeSymbols_eq_nil {tree : Option HTree} (h : treeSymbols tree = []) : tree = none := by
  cases tree with
  | none => rfl
  | some t =>
    have hsize := t.size_add_one
    rw [treeSymbols] at h
    rw [h, List.length_nil] at hsize
    omega

theorem treeCode_ne_nil {tree : Option HTree} {x : Byte} (h : x ∈ treeSymbols tree) : treeCode tree x ≠ [] := by
  cases tree with
  | none => cases h
  | some t => exact (t.codeOf_ne_nil_iff x).mpr h

/-! ### The lengths of the outputs -/

theorem HTree.length_serialized_add (t : HTree) : t.serialized.length + 5 = 13 * t.symbols.length := by
  induction t with
  | leaf s f => rfl
  | node f l r ihl ihr =>
    simp only [HTree.serialized, HTree.symbols, List.length_append, List.length_singleton, length_bigEndian]
    omega

/-- 256 leaf records and 255 internal ones take 3323 bytes (R156). -/
theorem length_treeBytes_le {tree : Option HTree} (h : (treeSymbols tree).Nodup) : (treeBytes tree).length ≤ 3323 := by
  cases tree with
  | none => decide
  | some t =>
    have hser := t.length_serialized_add
    have hsyms := length_le_of_nodup_symbols h
    rw [treeBytes]
    rw [treeSymbols] at hsyms
    omega

theorem length_treeCode_le {tree : Option HTree} (h : (treeSymbols tree).Nodup) (x : Byte) :
    (treeCode tree x).length ≤ 255 := by
  cases tree with
  | none => exact Nat.zero_le _
  | some t => exact HTree.length_codeOf_le h x

/-- Codes of at most 255 bits are packed in at most 32 bytes a symbol. -/
theorem length_pack_codes_le {code : Byte → Bits} (h : ∀ x, (code x).length ≤ 255) (inp : List Byte) :
    (pack (inp.flatMap code)).1.length ≤ 32 * inp.length := by
  have hbits : (inp.flatMap code).length ≤ 255 * inp.length := by
    induction inp with
    | nil => rfl
    | cons x inp ih =>
      have := h x
      simp only [List.flatMap_cons, List.length_append, List.length_cons]
      omega
  rw [length_pack]
  omega

/-! ### Where the codes overflow -/

/-- Where packed codes do not fit, one symbol's code completes the byte that does not (R155). -/
theorem exists_completesByte {code : Byte → Bits} {inp : List Byte} {cap : Nat}
    (h : 8 * cap < (inp.flatMap code).length) :
    ∃ k, CompletesByte code inp cap k ∧ 8 * cap < ((inp.take (k + 1)).flatMap code).length := by
  have hpos : 0 < inp.length := List.length_pos_iff.mpr fun hnil => by simp [hnil] at h
  have hex : ∃ k, 8 * (cap + 1) ≤ ((inp.take (k + 1)).flatMap code).length ∨ k + 1 = inp.length :=
    ⟨inp.length - 1, .inr (by omega)⟩
  have hfind := Nat.find_spec hex
  have hmin : Nat.find hex ≤ inp.length - 1 := Nat.find_le (h := hex) (.inr (by omega))
  refine ⟨Nat.find hex, ⟨by omega, ?_, hfind⟩, ?_⟩
  · cases hk : Nat.find hex with
    | zero => simp
    | succ k =>
      have hbefore := Nat.find_min hex (m := k) (by omega)
      omega
  · obtain hbyte | hlast := hfind
    · omega
    · rwa [hlast, List.take_length]

/-! ### Two outputs in memory -/

/-- Two outputs written to ranges that do not meet are both read back. -/
theorem storedTwo_of_write {s t : State} {a b : Word} {bs cs : List Byte}
    (h : t.mem = Memory.write (Memory.write s.mem a.toNat bs) b.toNat cs)
    (hd : bs.length = 0 ∨ cs.length = 0 ∨ a.toNat + bs.length ≤ b.toNat ∨ b.toNat + cs.length ≤ a.toNat) :
    StoredTwo s t a bs b cs := by
  let u : State := { s with mem := Memory.write s.mem a.toNat bs }
  have byteAt (x : Nat) := State.byteAt_of_write u t b.toNat cs h x
  refine ⟨?_, State.memRead_of_write u t _ cs h, fun x hx hy => ?_⟩
  · have hagree : Memory.AgreeOn a.toNat bs.length t.mem u.mem := by
      intro x hlo hhi
      rw [h, Memory.read_write, if_neg (by omega)]
    rw [hagree.memRead le_rfl]
    exact State.memRead_of_write s u _ bs rfl
  · rw [byteAt, if_neg (by omega), State.byteAt_of_write s u a.toNat bs rfl, if_neg (by omega)]

/-- The output regions of HCOMP do not meet (R74). -/
theorem hcomp_outputs_disjoint {s : State} (hc : s.checkPhase .hcomp = none) :
    s.opnd.dstCap.toNat = 0 ∨ s.opnd.mdaCap.toNat = 0 ∨
      s.opnd.dstAddr.toNat + s.opnd.dstCap.toNat ≤ s.opnd.mdaAddr.toNat ∨
      s.opnd.mdaAddr.toNat + s.opnd.mdaCap.toNat ≤ s.opnd.dstAddr.toNat := by
  have hrange := ((s.checkPhase_none_iff .hcomp).mp hc).1
  rw [State.rangeError_eq] at hrange
  by_contra hmeet
  have hd : ¬ s.dstRegion.disjoint (s.metaArea (usesOf .hcomp).mda) = true := by
    rw [Region.disjoint_iff]
    exact hmeet
  rw [if_pos (c := ¬ ((usesOf .hcomp).dst = true → (usesOf .hcomp).mda ≠ .none →
    s.dstRegion.disjoint (s.metaArea (usesOf .hcomp).mda) = true)) fun h => hd (h rfl (by decide))] at hrange
  split_ifs at hrange

/-! ### HCOMP -/

/-- What HCOMP leaves when both outputs fit (R164). -/
def State.compressed (s : State) (out : List Byte) (pad : BitVec 3) (mdo : List Byte) : State :=
  ((((s.writeOut out).setPad pad).writeMeta mdo).setTables
    ⟨countFreq s.input, buildTree (countFreq s.input), deriveCodes (buildTree (countFreq s.input)), true, true,
      true⟩).setStats s.input.length out.length

theorem execBody_hcomp (s : State) :
    execBody .hcomp s =
      (encodeOutput (deriveCodes (buildTree (countFreq s.input))) s.dstCap s.input).bind fun r =>
        (serializeTree (buildTree (countFreq s.input)) s.mdaCap).map fun mdo => s.compressed r.1 r.2 mdo := by
  rw [execBody]
  cases encodeOutput (deriveCodes (buildTree (countFreq s.input))) s.dstCap s.input with
  | error r => rfl
  | ok r =>
    dsimp only [Except.bind]
    cases serializeTree (buildTree (countFreq s.input)) s.mdaCap <;> rfl

/-- HCOMP on an input with the tree of its counts: the codes of the tree are packed, then its byte string is written
(R164). -/
theorem execBody_hcomp_cases {s : State} {tree : Option HTree} (ha : (buildTree (countFreq s.input)).Shows tree)
    (hx : ∀ x ∈ s.input, x ∈ treeSymbols tree) :
    ((pack (s.input.flatMap (treeCode tree))).1.length ≤ s.dstCap → execBody .hcomp s =
      if (treeBytes tree).length ≤ s.mdaCap then
        .ok (s.compressed (pack (s.input.flatMap (treeCode tree))).1
          (BitVec.ofNat 3 (pack (s.input.flatMap (treeCode tree))).2) (treeBytes tree))
      else .error ⟨.mdaOverflow, s.mdaCap⟩) ∧
    (s.dstCap < (pack (s.input.flatMap (treeCode tree))).1.length →
      ∃ k, CompletesByte (treeCode tree) s.input s.dstCap k ∧ execBody .hcomp s = .error ⟨.dstOverflow, k⟩) := by
  have hcodes := tblGet_deriveCodes_shows ha
  have hcode : ∀ x ∈ s.input, tblGet (deriveCodes (buildTree (countFreq s.input))) x ≠ [] := by
    rw [hcodes]
    exact fun x hx' => treeCode_ne_nil (hx x hx')
  rw [execBody_hcomp, serializeTree_shows ha, emitMetaStr_nil, length_pack]
  refine ⟨fun hfit => ?_, fun hover => ?_⟩
  · have hout := encodeOutput_coded hcode (cap := s.dstCap) (by rw [hcodes]; omega)
    rw [hcodes, if_pos hfit] at hout
    rw [hout]
    dsimp only [Except.bind]
    split <;> rfl
  · obtain ⟨k, hk, hbits⟩ := exists_completesByte (code := treeCode tree) (inp := s.input) (cap := s.dstCap) (by omega)
    rw [← hcodes] at hk hbits
    refine ⟨k, hcodes ▸ hk, ?_⟩
    rw [encodeOutput_completesByte (fun y hy => hcode y (List.mem_of_mem_take hy)) hk hbits]
    rfl

theorem checkPhase_tbuild {s : State} (h : s.tbl.fv = true) : s.checkPhase .tbuild = none := by
  refine (s.checkPhase_none_iff .tbuild).mpr ⟨?_, h, rfl⟩
  rw [State.rangeError_eq]
  rfl

/-- Settles O41: the encoder with the codes of the tree TBUILD gives from the counts, then the bytes of that tree. -/
theorem hcompWritesTheCodesAndTheirTree : Obligations.HcompWritesTheCodesAndTheirTree := by
  unfold Obligations.HcompWritesTheCodesAndTheirTree
  intro s hc
  obtain ⟨tree, ha, hsyms⟩ := buildTree_shows (countFreq s.input)
  have hx (x : Byte) : x ∈ treeSymbols tree ↔ x ∈ s.input := (hsyms x).trans (tblGet_countFreq_ne_zero_iff s x)
  obtain ⟨hfits, hover⟩ := execBody_hcomp_cases ha fun x => (hx x).mpr
  have hcheck := checkPhase_tbuild (s := { s with tbl := { s.tbl with ft := countFreq s.input, fv := true } }) rfl
  have hbuild := exec_of_ok hcheck (execBody_tbuild _)
  refine ⟨countFreq s.input, _, tree, toNat_tblGet_countFreq s, hbuild, rfl, ha, hx, fun hnil => ?_, ?_,
    length_treeBytes_le ha.nodup, fun hout hmdo => ?_, fun hout => ?_, fun hout hmdo => ?_⟩
  · have hnone : tree = none := treeSymbols_eq_nil (List.eq_nil_iff_forall_not_mem.mpr fun x h => by
      rw [hx, hnil] at h
      cases h)
    have hseed : seedSymbols (countFreq s.input) = [] := List.eq_nil_iff_forall_not_mem.mpr fun x h => by
      rw [mem_seedSymbols, tblGet_countFreq_ne_zero_iff, hnil] at h
      cases h
    exact ⟨buildTree_empty hseed, by simp [hnil, pack_fst], by rw [hnone]; rfl⟩
  · rw [← State.input_length]
    exact length_pack_codes_le (length_treeCode_le ha.nodup) s.input
  · have hbody := (hfits hout).trans (if_pos hmdo)
    have hapart := hcomp_outputs_disjoint hc
    refine ⟨_, exec_of_ok hc hbody, completed_of_ok hbody, storedTwo_of_write rfl (by omega), ?_, rfl,
      congrFun (tblGet_deriveCodes_shows ha)⟩
    simp [State.compressed]
  · obtain ⟨k, hk, herr⟩ := hover hout
    exact ⟨k, hk, raises_of_error hc herr⟩
  · exact raises_of_error hc ((hfits hout).trans (if_neg (Nat.not_le.mpr hmdo)))

/-! ### The round trip -/

/-- A command that ended without an error code raised nothing. -/
theorem not_raises {i : Instr} {s t : State} (h : exec i s = .next t) (hd : t.ctl.errCode = none) (e : CodecError)
    (pos : Nat) : ¬ Raises s i e pos := by
  rintro ⟨t', h', -, herr, -⟩
  rw [h] at h'
  cases h'
  rw [hd] at herr
  cases herr

/-- Settles O44: HCOMP stores the packed codes and the byte string of one tree, and HDECOMP decodes them with it. -/
theorem huffmanRoundTripIsExact : Obligations.HuffmanRoundTripIsExact := by
  unfold Obligations.HuffmanRoundTripIsExact
  intro s t u hexec hdone huc hin hmd hexp hcap
  obtain ⟨-, hc, -, -⟩ := exec_done hexec hdone
  obtain ⟨ft, b, tree, -, -, -, hshows, hsyms, -, -, -, hfit, hdst, hmda⟩ := hcompWritesTheCodesAndTheirTree s hc
  have hraise := not_raises hexec hdone
  have hout := Nat.not_lt.mp fun hover => by
    obtain ⟨k, -, hk⟩ := hdst hover
    exact hraise _ _ hk
  have hmdo := Nat.not_lt.mp fun hover => hraise _ _ (hmda hout hover)
  obtain ⟨t', hexec', -, ⟨hread, hreadMeta, -⟩, hres, -, -⟩ := hfit hout hmdo
  rw [hexec] at hexec'
  cases hexec'
  have toNat_ofNat {n : Nat} {w : Word} (h : n ≤ w.toNat) : (BitVec.ofNat 32 n).toNat = n := by
    rw [BitVec.toNat_ofNat, Nat.mod_eq_of_lt (h.trans_lt w.isLt)]
  rw [hres, toNat_ofNat hout, hread] at hin
  rw [hres, toNat_ofNat hmdo, hreadMeta] at hmd
  rw [hres] at hexp
  obtain ⟨htree, -⟩ := hdecompDecodesWithItsTree u huc
  obtain ⟨hgives, -⟩ := htree tree hshows.nodup hmd
  obtain ⟨v, hv, hcompleted, hstored, -, hvres⟩ :=
    hgives s.input (fun x => (hsyms x).mpr) hin (by rw [hexp, State.input_length]) (by rwa [State.input_length])
  have hlen : v.res.dstLen = s.opnd.srcLen := by rw [hvres, State.input_length]; exact BitVec.ofNat_toNat _ _
  refine ⟨v, hv, by rw [hcompleted.1], hlen, ?_⟩
  rw [hlen, ← State.input_length]
  exact hstored.1

end Sys2Proof.Machine

namespace Sys2Proof.Machine

/-! ## Numbers in decimal (R11) -/

theorem isDigit_iff (b : Byte) : isDigit b = true ↔ IsDigitByte b := by
  simp [isDigit, IsDigitByte, BitVec.le_def]

theorem isFirstDigit_iff (b : Byte) : isFirstDigit b = true ↔ 0x31 ≤ b.toNat ∧ b.toNat ≤ 0x39 := by
  simp [isFirstDigit, BitVec.le_def]

theorem toNat_digitByte {d : Nat} (h : d < 10) : (digitByte d).toNat = 0x30 + d := by
  rw [digitByte, BitVec.toNat_ofNat]
  omega

theorem digitByte_toNat_sub {b : Byte} (h : isDigit b = true) :
    b.toNat - 0x30 < 10 ∧ digitByte (b.toNat - 0x30) = b := by
  obtain ⟨hlo, hhi⟩ := (isDigit_iff b).mp h
  have hlt : b.toNat - 0x30 < 10 := by omega
  refine ⟨hlt, BitVec.eq_of_toNat_eq ?_⟩
  rw [toNat_digitByte hlt]
  omega

theorem isDigit_digitByte {d : Nat} (h : d < 10) : isDigit (digitByte d) = true := by
  rw [isDigit_iff, IsDigitByte, toNat_digitByte h]
  omega

theorem isFirstDigit_digitByte {d : Nat} (h0 : 1 ≤ d) (h : d < 10) : isFirstDigit (digitByte d) = true := by
  rw [isFirstDigit_iff, toNat_digitByte h]
  omega

theorem isDigit_of_isFirstDigit {b : Byte} (h : isFirstDigit b = true) : isDigit b = true := by
  obtain ⟨hlo, hhi⟩ := (isFirstDigit_iff b).mp h
  exact (isDigit_iff b).mpr ⟨by omega, hhi⟩

theorem ofNat_digitChar {d : Nat} (h : d < 10) : BitVec.ofNat 8 (Nat.digitChar d).toNat = digitByte d := by
  interval_cases d <;> rfl

theorem decimal_of_lt {v : Nat} (h : v < 10) : decimal v = [digitByte v] := by
  rw [decimal, Nat.toDigits_of_lt_base h, List.map_singleton, ofNat_digitChar h]

theorem decimal_of_le {v : Nat} (h : 10 ≤ v) : decimal v = decimal (v / 10) ++ [digitByte (v % 10)] := by
  rw [decimal, Nat.toDigits_of_base_le (by decide) h, List.map_append, List.map_singleton,
    ofNat_digitChar (Nat.mod_lt v (by decide)), decimal]

theorem decDigits_eq_decimal {fuel v : Nat} (h : v ≤ fuel) : decDigits fuel v = decimal v := by
  induction fuel generalizing v with
  | zero =>
    obtain rfl := Nat.le_zero.mp h
    rfl
  | succ fuel ih =>
    rw [decDigits]
    split
    · next hlt => rw [decimal_of_lt hlt]
    · next hge => rw [ih (by omega), ← decimal_of_le (by omega)]

/-- The model spells a number as R11 says. -/
theorem dec_eq_decimal (v : Nat) : dec v = decimal v := decDigits_eq_decimal (Nat.le_refl v)

theorem length_decimal_le_iff {v k : Nat} (hk : 0 < k) : (decimal v).length ≤ k ↔ v < 10 ^ k := by
  rw [decimal, List.length_map, Nat.length_toDigits_le_iff (by decide) hk]

theorem isDigit_of_mem_decimal {v : Nat} {b : Byte} (h : b ∈ decimal v) : isDigit b = true := by
  induction v using Nat.strong_induction_on with
  | _ v ih =>
    by_cases hlt : v < 10
    · rw [decimal_of_lt hlt, List.mem_singleton] at h
      exact h ▸ isDigit_digitByte hlt
    · rw [decimal_of_le (by omega), List.mem_append, List.mem_singleton] at h
      obtain h | rfl := h
      · exact ih _ (by omega) h
      · exact isDigit_digitByte (Nat.mod_lt v (by decide))

/-- The spelling of a positive number has no leading zero (R11). -/
theorem decimal_head {v : Nat} (hv : 1 ≤ v) : ∃ d ds, decimal v = d :: ds ∧ isFirstDigit d = true := by
  induction v using Nat.strong_induction_on with
  | _ v ih =>
    by_cases hlt : v < 10
    · exact ⟨_, _, decimal_of_lt hlt, isFirstDigit_digitByte hv hlt⟩
    · obtain ⟨d, ds, hd, hfirst⟩ := ih (v / 10) (by omega) (by omega)
      exact ⟨d, _, by rw [decimal_of_le (by omega), hd, List.cons_append], hfirst⟩

theorem digitsValue_concat (ds : List Byte) (d : Byte) :
    digitsValue (ds ++ [d]) = 10 * digitsValue ds + (d.toNat - 0x30) := by
  simp [digitsValue]

/-- Reading a spelling gives the number. -/
theorem digitsValue_decimal (v : Nat) : digitsValue (decimal v) = v := by
  induction v using Nat.strong_induction_on with
  | _ v ih =>
    by_cases hlt : v < 10
    · rw [decimal_of_lt hlt, ← List.nil_append [digitByte v], digitsValue_concat, toNat_digitByte hlt]
      simp [digitsValue]
    · rw [decimal_of_le (by omega), digitsValue_concat, ih _ (by omega),
        toNat_digitByte (Nat.mod_lt v (by decide))]
      omega

theorem digitsValue_pos {d : Byte} (hd : isFirstDigit d = true) (ds : List Byte) : 1 ≤ digitsValue (d :: ds) := by
  induction ds using List.reverseRecOn with
  | nil =>
    obtain ⟨hlo, -⟩ := (isFirstDigit_iff d).mp hd
    rw [← List.nil_append [d], digitsValue_concat]
    omega
  | append_singleton ds b ih =>
    rw [← List.cons_append, digitsValue_concat]
    omega

/-- Digits without a leading zero are the spelling of the number they are read as. -/
theorem decimal_digitsValue {d : Byte} (hd : isFirstDigit d = true) {ds : List Byte}
    (hds : ∀ b ∈ ds, isDigit b = true) : decimal (digitsValue (d :: ds)) = d :: ds := by
  induction ds using List.reverseRecOn with
  | nil =>
    obtain ⟨hlt, hbyte⟩ := digitByte_toNat_sub (isDigit_of_isFirstDigit hd)
    rw [← List.nil_append [d], digitsValue_concat, show 10 * digitsValue [] + (d.toNat - 0x30) = d.toNat - 0x30 by
      simp [digitsValue], decimal_of_lt hlt, hbyte]
    rfl
  | append_singleton ds b ih =>
    obtain ⟨hlt, hbyte⟩ := digitByte_toNat_sub (hds b (by simp))
    have hpos := digitsValue_pos hd ds
    rw [← List.cons_append, digitsValue_concat, decimal_of_le (by omega),
      show (10 * digitsValue (d :: ds) + (b.toNat - 0x30)) / 10 = digitsValue (d :: ds) by omega,
      show (10 * digitsValue (d :: ds) + (b.toNat - 0x30)) % 10 = b.toNat - 0x30 by omega,
      ih fun x hx => hds x (List.mem_append_left _ hx), hbyte]

end Sys2Proof.Machine

namespace Sys2Proof.Machine

/-! ## Decoding of runs (O9, O48, O49) -/

/-- Settles O9: the region checks of RLE_D come first (R112), and its metadata check never passes. -/
theorem rleDWithoutTagRaisesMissingMetadata : Obligations.RleDWithoutTagRaisesMissingMetadata := by
  unfold Obligations.RleDWithoutTagRaisesMissingMetadata
  intro s
  have hmissing {s : State} (h : s.rangeError ⟨true, true, .none⟩ = none) :
      exec .rleD s = .next (checkFailed s .missingMetadata 0) := by
    have hc : s.checkPhase .rleD = some ⟨.missingMetadata, 0⟩ := by
      simp [State.checkPhase, usesOf, h, neededFlag, metadataPresent]
    rw [exec_eq_command]
    exact command_checkError _ hc
  exact ⟨hmissing, fun pos => exec_of_rangeError (i := .rleD), hmissing (by decide)⟩

/-! ### The binary scheme -/

/-- The bytes of pairs of a symbol and a count (R210). -/
def pairBytes (rs : List (Byte × Byte)) : List Byte := rs.flatMap fun r => [r.1, r.2]

/-- What pairs expand to (R210). -/
def pairMeaning (rs : List (Byte × Byte)) : List Byte := rs.flatMap fun r => List.replicate r.2.toNat r.1

theorem execBody_rleDBin (s : State) : execBody .rleDBin s = (binDecode s.dstCap s.input 0 []).map s.writeOut := by
  rw [execBody]
  cases binDecode s.dstCap s.input 0 [] <;> rfl

/-- A pair with a count above 0 expands where it fits, else DST_OVERFLOW at its offset (R210). -/
theorem binDecode_pair {cap : Nat} {c : Byte} (hc : c ≠ 0) (x : Byte) (rest : List Byte) (p : Nat) {out : List Byte}
    (hout : out.length ≤ cap) :
    binDecode cap (x :: c :: rest) p out =
      if out.length + c.toNat ≤ cap then binDecode cap rest (p + 2) (out ++ List.replicate c.toNat x)
      else .error ⟨.dstOverflow, p⟩ := by
  rw [binDecode, if_neg hc, emitStr_eq _ _ _ _ hout, List.length_replicate]
  by_cases hfit : out.length + c.toNat ≤ cap
  · rw [if_pos hfit, if_pos hfit]
  · rw [if_neg hfit, if_neg hfit]

/-- Pairs that fit are expanded, and decoding goes on behind them. -/
theorem binDecode_pairs {cap : Nat} {rs : List (Byte × Byte)} (hrs : ∀ r ∈ rs, r.2 ≠ 0) (rest : List Byte) (p : Nat)
    {out : List Byte} (hfit : (out ++ pairMeaning rs).length ≤ cap) :
    binDecode cap (pairBytes rs ++ rest) p out =
      binDecode cap rest (p + 2 * rs.length) (out ++ pairMeaning rs) := by
  induction rs generalizing p out with
  | nil => simp [pairBytes, pairMeaning]
  | cons r rs ih =>
    have hmeaning : out ++ pairMeaning (r :: rs) = (out ++ List.replicate r.2.toNat r.1) ++ pairMeaning rs := by
      simp [pairMeaning]
    rw [hmeaning] at hfit ⊢
    have hle : out.length + r.2.toNat ≤ cap := by
      simp only [List.length_append, List.length_replicate] at hfit
      omega
    rw [show pairBytes (r :: rs) ++ rest = r.1 :: r.2 :: (pairBytes rs ++ rest) from rfl,
      binDecode_pair (hrs r (by simp)) _ _ _ (by omega), if_pos hle,
      ih (fun q hq => hrs q (List.mem_cons_of_mem _ hq)) _ hfit, List.length_cons,
      show p + 2 + 2 * rs.length = p + 2 * (rs.length + 1) by omega]

/-- A byte without its count and a count 0 are malformed where they stand (R210). -/
theorem binDecode_malformed (cap : Nat) {x : Byte} {tail : List Byte} (h : tail = [x] ∨ ∃ more, tail = x :: 0 :: more)
    (p : Nat) (out : List Byte) : binDecode cap tail p out = .error ⟨.malformedPayload, p⟩ := by
  obtain rfl | ⟨more, rfl⟩ := h
  · rw [binDecode]
  · rw [binDecode, if_pos rfl]

/-- Settles O48: pairs that fit expand, and what comes after them decides how decoding ends. -/
theorem rleBinaryDecodesPairs : Obligations.RleBinaryDecodesPairs := by
  unfold Obligations.RleBinaryDecodesPairs
  intro s rs hc hrs out hfit
  have hbody {tail : List Byte} {res : Except Raise (List Byte)} (hin : s.input = pairBytes rs ++ tail)
      (h : binDecode s.dstCap tail (2 * rs.length) out = res) : execBody .rleDBin s = res.map s.writeOut := by
    rw [execBody_rleDBin, hin, binDecode_pairs hrs tail 0 hfit, Nat.zero_add, ← h]
    rfl
  refine ⟨fun hin => ?_, fun x tail htail hin => ?_, fun x c more hcount hover hin => ?_⟩
  · exact givesOutput_of_ok (tbl := s.tbl) hc
      (hbody (res := .ok out) (hin.trans (List.append_nil _).symm) (by rw [binDecode]))
  · exact ⟨_, exec_of_error hc (hbody hin (binDecode_malformed _ htail _ _)), rfl, rfl⟩
  · have hmisfit := (binDecode_pair hcount x more (2 * rs.length) hfit).trans (if_neg (Nat.not_le.mpr hover))
    exact raises_of_error hc (hbody hin hmisfit)

/-! ### The text scheme -/

/-- The decimal of a count 1 .. 999 and a symbol that is no digit are read as that run (R212). -/
theorem countRun_decimal {c : Nat} {x : Byte} (hfits : (TextToken.run c x).Fits) (rest : List Byte) :
    countRun (decimal c ++ x :: rest) = some (c, x, rest) := by
  obtain ⟨hlo, hhi, hx⟩ := hfits
  obtain ⟨d, ds, hd, hfirst⟩ := decimal_head hlo
  have htake : (decimal c ++ x :: rest).takeWhile isDigit = decimal c := by
    rw [List.takeWhile_append_of_pos fun b => isDigit_of_mem_decimal,
      List.takeWhile_cons_of_neg (by rwa [isDigit_iff]), List.append_nil]
  have hlen : (d :: ds).length ≤ 3 := hd ▸ (length_decimal_le_iff (by decide)).mpr (by omega)
  unfold countRun
  dsimp only
  rw [htake, List.drop_left, digitsValue_decimal, hd]
  dsimp only
  rw [hfirst, if_neg (by decide), if_neg (Nat.not_lt.mpr hlen)]

/-- What is read as a run is the decimal of a count 1 .. 999 and a symbol that is no digit (R212). -/
theorem eq_decimal_of_countRun {rest more : List Byte} {c : Nat} {x : Byte} (h : countRun rest = some (c, x, more)) :
    (TextToken.run c x).Fits ∧ rest = decimal c ++ x :: more := by
  have hsplit := List.takeWhile_append_dropWhile (p := isDigit) (l := rest)
  have hdrop : rest.drop (rest.takeWhile isDigit).length = rest.dropWhile isDigit :=
    (congrArg _ hsplit.symm).trans List.drop_left
  have hdigits : ∀ b ∈ rest.takeWhile isDigit, isDigit b = true := fun b => List.mem_takeWhile_imp
  have hstop := List.head?_dropWhile_not isDigit rest
  unfold countRun at h
  dsimp only at h
  rw [hdrop] at h
  split at h
  · cases h
  next d ds hds =>
  split at h
  · cases h
  next hfirst =>
  split at h
  · cases h
  next hlen =>
  split at h
  · cases h
  next sym more hmore =>
  cases h
  rw [hmore, hds] at hsplit
  rw [hmore] at hstop
  rw [hds] at hdigits hlen ⊢
  rw [Bool.not_eq_true', Bool.not_eq_false] at hfirst
  have hspell := decimal_digitsValue hfirst fun b hb => hdigits b (List.mem_cons_of_mem _ hb)
  have hlt := (length_decimal_le_iff (k := 3) (by decide)).mp (hspell ▸ Nat.not_lt.mp hlen)
  have hsym : ¬ IsDigitByte x := by simpa [← isDigit_iff] using hstop
  exact ⟨⟨digitsValue_pos hfirst ds, Nat.le_of_lt_succ hlt, hsym⟩, by rw [hspell, hsplit]⟩

theorem execBody_rleDTxt (s : State) :
    execBody .rleDTxt s = (txtDecode s.dstCap s.input.length s.input 0 []).map s.writeOut := by
  rw [execBody]
  cases txtDecode s.dstCap s.input.length s.input 0 [] <;> rfl

theorem txtDecode_nil (cap fuel p : Nat) (out : List Byte) : txtDecode cap fuel [] p out = .ok out := by
  cases fuel <;> rfl

/-- The decoder tells an escaped tilde and a run apart by the byte after the '~' (R212). -/
theorem head_decimal_ne_tilde {c : Nat} (hc : 1 ≤ c) (more : List Byte) :
    (decimal c ++ more).head? ≠ some tilde := by
  obtain ⟨d, ds, hd, hfirst⟩ := decimal_head hc
  rw [hd]
  rintro ⟨⟩
  exact absurd hfirst (by decide)

theorem TextToken.length_bytes_pos (tok : TextToken) : 1 ≤ tok.bytes.length := by
  cases tok <;> simp [TextToken.bytes]

theorem emitStr_singleton (cap : Nat) (b : Byte) (p : Nat) (out : List Byte) :
    emitStr cap [b] p out = emit cap b p out := by
  rw [emitStr]
  cases emit cap b p out <;> rfl

/-- A token emits its meaning at its offset, and decoding goes on behind it (R212). -/
theorem txtDecode_token (cap : Nat) {tok : TextToken} (htok : tok.Fits) (fuel : Nat) (rest : List Byte) (p : Nat)
    (out : List Byte) :
    txtDecode cap (fuel + 1) (tok.bytes ++ rest) p out =
      (emitStr cap tok.meaning p out >>= txtDecode cap fuel rest (p + tok.bytes.length)) := by
  cases tok with
  | literal x =>
    have hx : x ≠ tilde := htok
    rw [TextToken.meaning, emitStr_singleton, TextToken.bytes, List.singleton_append, txtDecode, if_pos hx]
    cases emit cap x p out <;> rfl
  | escaped =>
    rw [show TextToken.escaped.meaning = [tilde] from rfl, emitStr_singleton,
      show TextToken.escaped.bytes ++ rest = tilde :: tilde :: rest from rfl, txtDecode, if_neg (by simp),
      if_pos List.head?_cons]
    cases emit cap tilde p out <;> rfl
  | run c x =>
    have hoffset : p + 1 + ((decimal c ++ x :: rest).length - rest.length) =
        p + (TextToken.run c x).bytes.length := by
      simp only [TextToken.bytes, List.length_append, List.length_cons, List.length_nil]
      omega
    have hbytes : (TextToken.run c x).bytes ++ rest = tilde :: (decimal c ++ x :: rest) := by
      simp [TextToken.bytes, tilde]
    rw [hbytes, txtDecode, if_neg (by simp), if_neg (head_decimal_ne_tilde htok.1 _), countRun_decimal htok,
      ← hoffset, TextToken.meaning]
    dsimp only
    cases emitStr cap (List.replicate c x) p out <;> rfl

theorem txtDecode_token_fits {cap : Nat} {tok : TextToken} (htok : tok.Fits) (fuel : Nat) (rest : List Byte) (p : Nat)
    {out : List Byte} (hfit : (out ++ tok.meaning).length ≤ cap) :
    txtDecode cap (fuel + 1) (tok.bytes ++ rest) p out =
      txtDecode cap fuel rest (p + tok.bytes.length) (out ++ tok.meaning) := by
  rw [List.length_append] at hfit
  rw [txtDecode_token cap htok, emitStr_eq _ _ _ _ (by omega), if_pos hfit]
  rfl

theorem txtDecode_token_overflow {cap : Nat} {tok : TextToken} (htok : tok.Fits) (fuel : Nat) (rest : List Byte)
    (p : Nat) {out : List Byte} (hout : out.length ≤ cap) (hover : cap < out.length + tok.meaning.length) :
    txtDecode cap (fuel + 1) (tok.bytes ++ rest) p out = .error ⟨.dstOverflow, p⟩ := by
  rw [txtDecode_token cap htok, emitStr_eq _ _ _ _ hout, if_neg (Nat.not_le.mpr hover)]
  rfl

/-- A '~' that starts no token is malformed where it stands (R212). -/
theorem txtDecode_malformed (cap fuel : Nat) {tail : List Byte}
    (h : ∀ (tok : TextToken) (more : List Byte), tok.Fits → 0x7E :: tail ≠ tok.bytes ++ more) (p : Nat)
    (out : List Byte) : txtDecode cap (fuel + 1) (0x7E :: tail) p out = .error ⟨.malformedPayload, p⟩ := by
  have hhead : tail.head? ≠ some tilde := fun hhead => by
    obtain ⟨more, rfl⟩ := List.head?_eq_some_iff.mp hhead
    exact h .escaped more trivial rfl
  have hcount : countRun tail = none := Option.eq_none_iff_forall_ne_some.mpr fun ⟨c, x, more⟩ hrun => by
    obtain ⟨hfits, rfl⟩ := eq_decimal_of_countRun hrun
    exact h (.run c x) more hfits (by simp [TextToken.bytes])
  rw [txtDecode, if_neg (by simp [tilde]), if_neg hhead, hcount]

/-- Tokens that fit are decoded, and decoding goes on behind them. -/
theorem txtDecode_tokens {cap : Nat} {ts : List TextToken} (hts : ∀ t ∈ ts, t.Fits) (fuel : Nat) (rest : List Byte)
    (p : Nat) {out : List Byte} (hfit : (out ++ ts.flatMap TextToken.meaning).length ≤ cap) :
    txtDecode cap (fuel + ts.length) (ts.flatMap TextToken.bytes ++ rest) p out =
      txtDecode cap fuel rest (p + (ts.flatMap TextToken.bytes).length) (out ++ ts.flatMap TextToken.meaning) := by
  induction ts generalizing p out with
  | nil => simp
  | cons t ts ih =>
    rw [List.flatMap_cons, ← List.append_assoc] at hfit
    rw [List.flatMap_cons, List.flatMap_cons, List.append_assoc, List.length_cons, ← Nat.add_assoc,
      txtDecode_token_fits (hts t (by simp)) _ _ _ (le_trans (by simp) hfit),
      ih (fun q hq => hts q (List.mem_cons_of_mem _ hq)) _ hfit, List.length_append, Nat.add_assoc, List.append_assoc]

theorem length_le_flatMap_bytes (ts : List TextToken) : ts.length ≤ (ts.flatMap TextToken.bytes).length := by
  induction ts with
  | nil => exact Nat.zero_le _
  | cons t ts ih =>
    have := t.length_bytes_pos
    simp only [List.flatMap_cons, List.length_append, List.length_cons]
    omega

/-- Settles O49: tokens that fit decode to their meanings, and what comes after them decides how decoding ends. -/
theorem rleTextDecodesTokens : Obligations.RleTextDecodesTokens := by
  unfold Obligations.RleTextDecodesTokens
  intro s ts hc hts out hfit
  have hbody {tail : List Byte} {res : Except Raise (List Byte)} (hin : s.input = ts.flatMap TextToken.bytes ++ tail)
      (h : ∀ more, txtDecode s.dstCap (tail.length + more) tail (ts.flatMap TextToken.bytes).length out = res) :
      execBody .rleDTxt s = res.map s.writeOut := by
    have hfuel : s.input.length =
        tail.length + ((ts.flatMap TextToken.bytes).length - ts.length) + ts.length := by
      have := length_le_flatMap_bytes ts
      rw [hin, List.length_append]
      omega
    rw [execBody_rleDTxt, hfuel, hin, txtDecode_tokens hts _ _ _ hfit, Nat.zero_add, ← h]
    rfl
  refine ⟨fun hin => ?_, fun tail hbad hin => ?_, fun tok more htok hover hin => ?_⟩
  · exact givesOutput_of_ok (tbl := s.tbl) hc (hbody (res := .ok out) (hin.trans (List.append_nil _).symm)
      fun _ => txtDecode_nil _ _ _ _)
  · have hmalformed := hbody (res := .error ⟨.malformedPayload, _⟩) hin fun more => by
      rw [List.length_cons, Nat.add_right_comm]
      exact txtDecode_malformed _ _ hbad _ _
    exact ⟨_, exec_of_error hc hmalformed, rfl, rfl⟩
  · have hmisfit := hbody (res := .error ⟨.dstOverflow, _⟩) hin fun k => by
      obtain ⟨n, hn⟩ := Nat.exists_eq_add_of_le' (tok.length_bytes_pos)
      rw [List.length_append, hn, show n + 1 + more.length + k = n + more.length + k + 1 by omega]
      exact txtDecode_token_overflow htok _ _ _ hfit hover
    exact raises_of_error hc hmisfit

end Sys2Proof.Machine

namespace Sys2Proof.Machine

/-! ## Encoding of runs (O45, O46, O47) -/

/-! ### The run scanner (R200, R201) -/

/-- A run as its symbol and its count. -/
def Run.pair (r : Run) : Byte × Nat := (r.sym, r.count)

theorem runSplit_singleton {cap c : Nat} (hlo : 1 ≤ c) (hhi : c ≤ cap) (x : Byte) :
    RunSplit cap (List.replicate c x) [(x, c)] := by
  refine ⟨by simp, fun r hr => ?_, fun k r q _ hq => ?_⟩
  · obtain rfl := List.mem_singleton.mp hr
    exact ⟨hlo, hhi⟩
  · simp at hq

/-- A run in front of a split: its symbol is not that of the next run, or it is full. -/
theorem RunSplit.cons {cap c : Nat} {x : Byte} {inp : List Byte} {rs : List (Byte × Nat)} (h : RunSplit cap inp rs)
    (hlo : 1 ≤ c) (hhi : c ≤ cap) (hnext : ∀ q, rs.head? = some q → x ≠ q.1 ∨ c = cap) :
    RunSplit cap (List.replicate c x ++ inp) ((x, c) :: rs) := by
  obtain ⟨hspell, hcounts, hneighbours⟩ := h
  refine ⟨by rw [List.flatMap_cons, hspell], List.forall_mem_cons.mpr ⟨⟨hlo, hhi⟩, hcounts⟩, fun k r q hr hq => ?_⟩
  cases k with
  | zero =>
    cases hr
    exact hnext q (by rw [← hq, List.getElem?_cons_succ, List.head?_eq_getElem?])
  | succ k => exact hneighbours k r q (by simpa using hr) (by simpa using hq)

theorem head_runsFrom (cap i : Nat) (x : Byte) (c : Nat) (xs : List Byte) :
    ∃ n more, (runsFrom cap i x c xs).map Run.pair = (x, n) :: more := by
  induction xs generalizing c with
  | nil => exact ⟨c, [], rfl⟩
  | cons y ys ih =>
    rw [runsFrom]
    split
    · exact ih (c + 1)
    · exact ⟨c, _, rfl⟩

/-- With a run open, the scanner splits the symbols of that run and the rest of the input (R200, R201). -/
theorem runSplit_runsFrom {cap c : Nat} (hlo : 1 ≤ c) (hhi : c ≤ cap) (i : Nat) (x : Byte) (xs : List Byte) :
    RunSplit cap (List.replicate c x ++ xs) ((runsFrom cap i x c xs).map Run.pair) := by
  induction xs generalizing i x c with
  | nil =>
    rw [List.append_nil]
    exact runSplit_singleton hlo hhi x
  | cons y ys ih =>
    rw [runsFrom]
    split
    · next hsame =>
      obtain ⟨rfl, hlt⟩ := hsame
      rw [List.append_cons, ← List.replicate_succ']
      exact ih (by omega) hlt i y
    · next hother =>
      refine (ih (c := 1) (Nat.le_refl 1) (hlo.trans hhi) (i + c) y).cons hlo hhi fun q hq => ?_
      obtain ⟨n, more, hhead⟩ := head_runsFrom cap (i + c) y 1 ys
      rw [hhead] at hq
      cases hq
      refine or_iff_not_imp_left.mpr fun hxy => ?_
      have hfull : ¬ c < cap := fun hlt => hother ⟨(not_not.mp hxy).symm, hlt⟩
      omega

/-- The scanner splits its input into runs (R201). -/
theorem runSplit_runs {cap : Nat} (hcap : 1 ≤ cap) (inp : List Byte) :
    RunSplit cap inp ((runs cap inp).map Run.pair) := by
  cases inp with
  | nil => exact ⟨rfl, by simp [runs], by simp [runs]⟩
  | cons x xs => exact runSplit_runsFrom (Nat.le_refl 1) hcap 0 x xs

theorem map_start_runsFrom (form : Byte × Nat → List Byte) (cap i : Nat) (x : Byte) (c : Nat) (xs : List Byte) :
    (runsFrom cap i x c xs).map (fun r => (r.start, form r.pair)) =
      runChunks form i ((runsFrom cap i x c xs).map Run.pair) := by
  induction xs generalizing i x c with
  | nil => rfl
  | cons y ys ih =>
    rw [runsFrom]
    split
    · exact ih i x (c + 1)
    · exact congrArg (_ :: ·) (ih (i + c) y 1)

/-- Each run of the scanner starts where the runs before it end (R200). -/
theorem map_start_runs (form : Byte × Nat → List Byte) (cap : Nat) (inp : List Byte) :
    (runs cap inp).map (fun r => (r.start, form r.pair)) = runChunks form 0 ((runs cap inp).map Run.pair) := by
  cases inp with
  | nil => rfl
  | cons x xs => exact map_start_runsFrom form cap 0 x 1 xs

theorem flatMap_runChunks (form : Byte × Nat → List Byte) (i : Nat) (rs : List (Byte × Nat)) :
    (runChunks form i rs).flatMap Prod.snd = rs.flatMap form := by
  induction rs generalizing i with
  | nil => rfl
  | cons r rs ih => rw [runChunks, List.flatMap_cons, List.flatMap_cons, ih]

/-! ### The forms of a run (R202, R205) -/

theorem isSpecial_iff (x : Byte) : isSpecial x = true ↔ x ∈ ([0x20, 0x0A, 0x09, 0x0D, 0x30] : List Byte) := by
  simp [isSpecial, or_assoc]

theorem txtToken_eq_textForm (x : Byte) (c : Nat) : txtToken x c = textForm (x, c) := by
  have hrun : (c ≥ (if isSpecial x then 3 else 4) ∧ (!isDigit x) = true) ↔
      (4 ≤ c ∨ (3 ≤ c ∧ x ∈ ([0x20, 0x0A, 0x09, 0x0D, 0x30] : List Byte))) ∧ ¬ IsDigitByte x := by
    rw [← isSpecial_iff, ← isDigit_iff, Bool.not_eq_true', Bool.not_eq_true]
    refine and_congr_left' ?_
    split
    · next h =>
      rw [h, and_iff_left rfl]
      omega
    · next h => simp [h]
  have htildes : (List.replicate c [tilde, tilde]).flatten = List.replicate (2 * c) 0x7E := by
    rw [show [tilde, tilde] = List.replicate 2 0x7E from rfl, List.flatten_replicate_replicate, Nat.mul_comm]
  unfold txtToken textForm
  dsimp only
  rw [dec_eq_decimal, htildes]
  exact if_congr hrun rfl (if_congr Iff.rfl rfl rfl)

theorem length_textForm_le {r : Byte × Nat} (hhi : r.2 ≤ 999) : (textForm r).length ≤ 2 * r.2 := by
  have hdigits : (decimal r.2).length ≤ 3 := (length_decimal_le_iff (by decide)).mpr (by omega)
  unfold textForm
  split
  · next hrun =>
    simp only [List.length_append, List.length_singleton]
    omega
  · split <;> simp only [List.length_replicate] <;> omega

theorem length_flatMap_form_le {form : Byte × Nat → List Byte} {rs : List (Byte × Nat)}
    (h : ∀ r ∈ rs, (form r).length ≤ 2 * r.2) :
    (rs.flatMap form).length ≤ 2 * (rs.flatMap fun r => List.replicate r.2 r.1).length := by
  induction rs with
  | nil => exact Nat.zero_le _
  | cons r rs ih =>
    obtain ⟨hr, hrs⟩ := List.forall_mem_cons.mp h
    have := ih hrs
    simp only [List.flatMap_cons, List.length_append, List.length_replicate]
    omega

/-- A form of at most two bytes a symbol gives at most two bytes a symbol of the input (R215 (b)). -/
theorem RunSplit.length_form_le {cap : Nat} {inp : List Byte} {rs : List (Byte × Nat)} (h : RunSplit cap inp rs)
    {form : Byte × Nat → List Byte} (hform : ∀ r : Byte × Nat, 1 ≤ r.2 → r.2 ≤ cap → (form r).length ≤ 2 * r.2) :
    (rs.flatMap form).length ≤ 2 * inp.length := by
  obtain ⟨rfl, hcounts, -⟩ := h
  exact length_flatMap_form_le fun r hr => hform r (hcounts r hr).1 (hcounts r hr).2

theorem binTokens_eq (inp : List Byte) :
    binTokens inp = runChunks binaryForm 0 ((runs binCap inp).map Run.pair) :=
  map_start_runs binaryForm binCap inp

theorem txtTokens_eq (inp : List Byte) :
    txtTokens inp = runChunks textForm 0 ((runs txtCap inp).map Run.pair) := by
  rw [← map_start_runs, txtTokens]
  exact List.map_congr_left fun r _ => by rw [txtToken_eq_textForm, Run.pair]

/-! ### The commands -/

/-- What an RLE encoder does with the runs it found and the form it writes them in (R203, R207, R209). -/
def EncodesRuns (i : Instr) (s : State) (m : MethodTag) (form : Byte × Nat → List Byte) (rs : List (Byte × Nat)) :
    Prop :=
  ((rs.flatMap form).length ≤ s.opnd.dstCap.toNat →
    ∃ t, exec i s = .next t ∧ Completed s t ∧ Stored s t s.opnd.dstAddr (rs.flatMap form) ∧ t.tbl = s.tbl ∧
      t.res = { s.res with
        dstLen := BitVec.ofNat 32 (rs.flatMap form).length, rleMethod := m, errPos := 0, statOrig := s.opnd.srcLen,
        statEnc := BitVec.ofNat 32 (rs.flatMap form).length,
        statRatio := BitVec.ofInt 32 (ratio s.opnd.srcLen.toNat (rs.flatMap form).length) }) ∧
  (s.opnd.dstCap.toNat < (rs.flatMap form).length →
    ∃ pos, MisfitAt s.opnd.dstCap.toNat (runChunks form 0 rs) pos ∧ Raises s i .dstOverflow pos)

/-- The state with an RLE payload, its method and its statistics written. -/
def State.rleEncoded (s : State) (m : MethodTag) (out : List Byte) : State :=
  ((s.writeOut out).setMethod m).setStats s.input.length out.length

theorem encodesRuns_of_execBody {i : Instr} {s : State} {m : MethodTag} {form : Byte × Nat → List Byte}
    {rs : List (Byte × Nat)} (hc : s.checkPhase i = none)
    (h : execBody i s = (emitTokens s.dstCap (runChunks form 0 rs) []).map (s.rleEncoded m)) :
    EncodesRuns i s m form rs := by
  have hcases := emitTokens_cases s.dstCap (runChunks form 0 rs)
  rw [flatMap_runChunks] at hcases
  obtain ⟨hfit, hemit⟩ | ⟨hover, pos, hmisfit, hemit⟩ := hcases
  · rw [hemit] at h
    refine ⟨fun _ => ⟨_, exec_of_ok hc h, completed_of_ok h, stored_of_write rfl, rfl, ?_⟩,
      fun hover => absurd hfit (Nat.not_le.mpr hover)⟩
    simp [State.rleEncoded]
  · rw [hemit] at h
    exact ⟨fun hfit => absurd hfit (Nat.not_le.mpr hover), fun _ => ⟨pos, hmisfit, raises_of_error hc h⟩⟩

theorem execBody_rleCBin (s : State) :
    execBody .rleCBin s =
      (emitTokens s.dstCap (runChunks binaryForm 0 ((runs binCap s.input).map Run.pair)) []).map
        (s.rleEncoded .binary) := by
  rw [execBody, binTokens_eq]
  cases emitTokens s.dstCap (runChunks binaryForm 0 ((runs binCap s.input).map Run.pair)) [] <;> rfl

theorem execBody_rleCTxt (s : State) :
    execBody .rleCTxt s =
      (emitTokens s.dstCap (runChunks textForm 0 ((runs txtCap s.input).map Run.pair)) []).map
        (s.rleEncoded .text) := by
  rw [execBody, txtTokens_eq]
  cases emitTokens s.dstCap (runChunks textForm 0 ((runs txtCap s.input).map Run.pair)) [] <;> rfl

/-- Settles O45: the scanner splits the input at 255, and each run is emitted as its two bytes. -/
theorem rleBinaryEncodesTheRuns : Obligations.RleBinaryEncodesTheRuns := by
  unfold Obligations.RleBinaryEncodesTheRuns
  intro s hc
  have hsplit := runSplit_runs (cap := binCap) (by decide) s.input
  refine ⟨_, hsplit, ?_, encodesRuns_of_execBody hc (execBody_rleCBin s)⟩
  rw [← State.input_length]
  exact hsplit.length_form_le fun r hlo _ => Nat.mul_le_mul_left 2 hlo

/-- Settles O46: the scanner splits the input at 999, and each run is emitted in its text form. -/
theorem rleTextEncodesTheRuns : Obligations.RleTextEncodesTheRuns := by
  unfold Obligations.RleTextEncodesTheRuns
  intro s hc
  have hsplit := runSplit_runs (cap := txtCap) (by decide) s.input
  refine ⟨_, hsplit, ?_, encodesRuns_of_execBody hc (execBody_rleCTxt s)⟩
  rw [← State.input_length]
  exact hsplit.length_form_le fun r _ => length_textForm_le

/-! ### The selector (R208, R209) -/

theorem tokenBytes_binTokens (inp : List Byte) :
    tokenBytes (binTokens inp) = ((runs binCap inp).map Run.pair).flatMap binaryForm := by
  rw [tokenBytes, binTokens_eq, flatMap_runChunks]

theorem tokenBytes_txtTokens (inp : List Byte) :
    tokenBytes (txtTokens inp) = ((runs txtCap inp).map Run.pair).flatMap textForm := by
  rw [tokenBytes, txtTokens_eq, flatMap_runChunks]

theorem execBody_rleCOpt_binary {s : State}
    (h : (((runs binCap s.input).map Run.pair).flatMap binaryForm).length ≤
      (((runs txtCap s.input).map Run.pair).flatMap textForm).length) : execBody .rleCOpt s = execBody .rleCBin s := by
  rw [← tokenBytes_binTokens, ← tokenBytes_txtTokens] at h
  rw [execBody, execBody, selectRle, if_pos h]

theorem execBody_rleCOpt_text {s : State}
    (h : ¬ (((runs binCap s.input).map Run.pair).flatMap binaryForm).length ≤
      (((runs txtCap s.input).map Run.pair).flatMap textForm).length) : execBody .rleCOpt s = execBody .rleCTxt s := by
  rw [← tokenBytes_binTokens, ← tokenBytes_txtTokens] at h
  rw [execBody, execBody, selectRle, if_neg h]

/-- Commands with the same check phase, execution phase and effects of an error do the same. -/
theorem exec_congr {i j : Instr} {s : State} (hcheck : s.checkPhase i = s.checkPhase j)
    (hbody : execBody i s = execBody j s) (hfail : s.failEffects i = s.failEffects j) : exec i s = exec j s := by
  rw [exec_eq_command, exec_eq_command]
  simp only [command, hcheck, hbody, State.takeError_some, hfail]

/-- Settles O47: the execution phase of RLE_C.OPT is that of the scheme whose tokens have fewer bytes. -/
theorem rleSelectorTakesTheShorterPayload : Obligations.RleSelectorTakesTheShorterPayload := by
  unfold Obligations.RleSelectorTakesTheShorterPayload
  intro s hc
  refine ⟨_, _, runSplit_runs (cap := binCap) (by decide) s.input, runSplit_runs (cap := txtCap) (by decide) s.input,
    fun hbinary => ?_, fun htext => ?_⟩
  · have hbody := execBody_rleCOpt_binary hbinary
    exact ⟨exec_congr rfl hbody rfl, encodesRuns_of_execBody hc (hbody.trans (execBody_rleCBin s))⟩
  · have hbody := execBody_rleCOpt_text htext
    exact ⟨exec_congr rfl hbody rfl, encodesRuns_of_execBody hc (hbody.trans (execBody_rleCTxt s))⟩

end Sys2Proof.Machine

namespace Sys2Proof.Machine

/-! ## The round trip of the runs (O50) -/

/-! ### The encoders -/

/-- Every RLE encoder writes the binary form of a split at 255 or the text form of a split at 999, with its method. -/
theorem encodesRuns_cases {c : Instr} (hmem : c ∈ [Instr.rleCBin, .rleCTxt, .rleCOpt]) {s : State}
    (hc : s.checkPhase c = none) :
    (∃ b, RunSplit 255 s.input b ∧ EncodesRuns c s .binary binaryForm b) ∨
      ∃ x, RunSplit 999 s.input x ∧ EncodesRuns c s .text textForm x := by
  simp only [List.mem_cons, List.not_mem_nil, or_false] at hmem
  obtain rfl | rfl | rfl := hmem
  · obtain ⟨b, hb, -, hencodes⟩ := rleBinaryEncodesTheRuns s hc
    exact .inl ⟨b, hb, hencodes⟩
  · obtain ⟨x, hx, -, hencodes⟩ := rleTextEncodesTheRuns s hc
    exact .inr ⟨x, hx, hencodes⟩
  · obtain ⟨b, x, hb, hx, hbinary, htext⟩ := rleSelectorTakesTheShorterPayload s hc
    by_cases hle : (b.flatMap binaryForm).length ≤ (x.flatMap textForm).length
    · exact .inl ⟨b, hb, (hbinary hle).2⟩
    · exact .inr ⟨x, hx, (htext hle).2⟩

/-- An encoder that ended without an error code stored all its forms. -/
theorem EncodesRuns.read {c : Instr} {s t : State} {m : MethodTag} {form : Byte × Nat → List Byte}
    {rs : List (Byte × Nat)} (h : EncodesRuns c s m form rs) (hexec : exec c s = .next t)
    (hdone : t.ctl.errCode = none) :
    t.res.rleMethod = m ∧ t.memRead s.opnd.dstAddr.toNat t.res.dstLen.toNat = rs.flatMap form := by
  obtain ⟨hfits, hoverflows⟩ := h
  have hfit : (rs.flatMap form).length ≤ s.opnd.dstCap.toNat := Nat.not_lt.mp fun hover => by
    obtain ⟨pos, -, hraises⟩ := hoverflows hover
    exact not_raises hexec hdone _ _ hraises
  obtain ⟨t', hexec', -, ⟨hread, -⟩, -, hres⟩ := hfits hfit
  rw [hexec] at hexec'
  cases hexec'
  refine ⟨by rw [hres], ?_⟩
  rw [hres, BitVec.toNat_ofNat, Nat.mod_eq_of_lt (hfit.trans_lt s.opnd.dstCap.isLt)]
  exact hread

/-! ### The decoders -/

/-- The pair the binary decoder finds in the form of a run (R202, R210). -/
def runPair (r : Byte × Nat) : Byte × Byte := (r.1, BitVec.ofNat 8 r.2)

theorem toNat_count_runPair {r : Byte × Nat} (hhi : r.2 ≤ 255) : (runPair r).2.toNat = r.2 := by
  rw [runPair, BitVec.toNat_ofNat, Nat.mod_eq_of_lt (by omega)]

theorem count_runPair_ne_zero {r : Byte × Nat} (hlo : 1 ≤ r.2) (hhi : r.2 ≤ 255) : (runPair r).2 ≠ 0 := by
  intro h
  have hcount := toNat_count_runPair hhi
  rw [h, BitVec.ofNat_eq_ofNat, BitVec.toNat_zero] at hcount
  omega

/-- RLE_D.BIN of the binary form of a split gives what was split. -/
theorem givesOutput_binaryForm {u : State} (hc : u.checkPhase .rleDBin = none) {inp : List Byte}
    {rs : List (Byte × Nat)} (hsplit : RunSplit 255 inp rs) (hin : u.input = rs.flatMap binaryForm)
    (hcap : inp.length ≤ u.opnd.dstCap.toNat) : GivesOutput .rleDBin u u.tbl inp := by
  obtain ⟨hspell, hcounts, -⟩ := hsplit
  have hmeaning : pairMeaning (rs.map runPair) = inp := by
    rw [← hspell, pairMeaning, List.flatMap_map]
    exact List.flatMap_congr fun r hr => by rw [toNat_count_runPair (hcounts r hr).2]; rfl
  have hbytes : u.input = pairBytes (rs.map runPair) := by
    rw [hin, pairBytes, List.flatMap_map]
    rfl
  have hnonzero : ∀ q ∈ rs.map runPair, q.2 ≠ 0 := List.forall_mem_map.mpr fun r hr =>
    count_runPair_ne_zero (hcounts r hr).1 (hcounts r hr).2
  obtain ⟨hgives, -⟩ := rleBinaryDecodesPairs u _ hc hnonzero (by rwa [← pairMeaning, hmeaning])
  rw [← pairMeaning, hmeaning] at hgives
  exact hgives hbytes

/-- The tokens the text decoder finds in the form of a run (R205, R212). -/
def runTokens (r : Byte × Nat) : List TextToken :=
  if (4 ≤ r.2 ∨ (3 ≤ r.2 ∧ r.1 ∈ ([0x20, 0x0A, 0x09, 0x0D, 0x30] : List Byte))) ∧ ¬ IsDigitByte r.1 then
    [.run r.2 r.1]
  else if r.1 = 0x7E then List.replicate r.2 .escaped
  else List.replicate r.2 (.literal r.1)

theorem flatMap_bytes_runTokens (r : Byte × Nat) : (runTokens r).flatMap TextToken.bytes = textForm r := by
  unfold runTokens textForm
  split
  · exact List.flatMap_singleton ..
  · split
    · rw [List.flatMap_replicate, show TextToken.escaped.bytes = List.replicate 2 0x7E from rfl,
        List.flatten_replicate_replicate, Nat.mul_comm]
    · exact List.flatMap_replicate.trans List.flatten_replicate_singleton

theorem flatMap_meaning_runTokens (r : Byte × Nat) :
    (runTokens r).flatMap TextToken.meaning = List.replicate r.2 r.1 := by
  unfold runTokens
  split
  · exact List.flatMap_singleton ..
  · split
    · next htilde =>
      rw [htilde]
      exact List.flatMap_replicate.trans List.flatten_replicate_singleton
    · exact List.flatMap_replicate.trans List.flatten_replicate_singleton

theorem fits_of_mem_runTokens {r : Byte × Nat} (hlo : 1 ≤ r.2) (hhi : r.2 ≤ 999) {tok : TextToken}
    (h : tok ∈ runTokens r) : tok.Fits := by
  unfold runTokens at h
  split at h
  · next hrun => exact List.mem_singleton.mp h ▸ ⟨hlo, hhi, hrun.2⟩
  · split at h
    · exact List.eq_of_mem_replicate h ▸ trivial
    · next hx => exact List.eq_of_mem_replicate h ▸ hx

/-- RLE_D.TXT of the text form of a split gives what was split. -/
theorem givesOutput_textForm {u : State} (hc : u.checkPhase .rleDTxt = none) {inp : List Byte}
    {rs : List (Byte × Nat)} (hsplit : RunSplit 999 inp rs) (hin : u.input = rs.flatMap textForm)
    (hcap : inp.length ≤ u.opnd.dstCap.toNat) : GivesOutput .rleDTxt u u.tbl inp := by
  obtain ⟨hspell, hcounts, -⟩ := hsplit
  have hmeaning : (rs.flatMap runTokens).flatMap TextToken.meaning = inp := by
    rw [← hspell, List.flatMap_assoc]
    exact List.flatMap_congr fun r _ => flatMap_meaning_runTokens r
  have hbytes : u.input = (rs.flatMap runTokens).flatMap TextToken.bytes := by
    rw [hin, List.flatMap_assoc]
    exact List.flatMap_congr fun r _ => (flatMap_bytes_runTokens r).symm
  have hfits : ∀ tok ∈ rs.flatMap runTokens, tok.Fits := fun tok htok => by
    obtain ⟨r, hr, htok⟩ := List.mem_flatMap.mp htok
    exact fits_of_mem_runTokens (hcounts r hr).1 (hcounts r hr).2 htok
  obtain ⟨hgives, -⟩ := rleTextDecodesTokens u _ hc hfits (by rwa [hmeaning])
  rw [hmeaning] at hgives
  exact hgives hbytes

/-- Settles O50: the encoder stored the forms of a split of its input (O45 to O47), and the decoder of its method gives
what was split (O48, O49). -/
theorem rleRoundTripIsExact : Obligations.RleRoundTripIsExact := by
  unfold Obligations.RleRoundTripIsExact
  intro c d s t u hmem hexec hdone hmethod huc hin hcap
  obtain ⟨-, hc, -, -⟩ := exec_done hexec hdone
  rw [← State.input_length] at hcap
  have hgives : GivesOutput d u u.tbl s.input := by
    obtain ⟨b, hsplit, hencodes⟩ | ⟨x, hsplit, hencodes⟩ := encodesRuns_cases hmem hc
    · obtain ⟨htag, hread⟩ := hencodes.read hexec hdone
      obtain ⟨-, rfl⟩ | ⟨htag', -⟩ := hmethod
      · exact givesOutput_binaryForm huc hsplit (hin.trans hread) hcap
      · cases htag.symm.trans htag'
    · obtain ⟨htag, hread⟩ := hencodes.read hexec hdone
      obtain ⟨htag', -⟩ | ⟨-, rfl⟩ := hmethod
      · cases htag.symm.trans htag'
      · exact givesOutput_textForm huc hsplit (hin.trans hread) hcap
  obtain ⟨v, hv, hcompleted, hstored, -, hres⟩ := hgives
  have hlen : v.res.dstLen = s.opnd.srcLen := by rw [hres, State.input_length]; exact BitVec.ofNat_toNat _ _
  refine ⟨v, hv, by rw [hcompleted.1], hlen, ?_⟩
  rw [hlen, ← State.input_length]
  exact hstored.1

end Sys2Proof.Machine

namespace Sys2Proof.Machine

/-! ## The matcher of LZ77 (O51) -/

/-- A length is matched at the starts of two strings when it is within the bound and the string, and the strings agree
on it (the inner loop of R243). -/
theorem le_commonPrefix_iff {bound l : Nat} {as bs : List Byte} :
    l ≤ commonPrefix bound as bs ↔ l ≤ bound ∧ l ≤ bs.length ∧ ∀ k, k < l → as[k]? = bs[k]? := by
  induction bound generalizing l as bs with
  | zero =>
    rw [commonPrefix]
    exact ⟨fun h => ⟨h, h.trans (Nat.zero_le _), fun k hk => by omega⟩, And.left⟩
  | succ bound ih =>
    cases l with
    | zero => simp
    | succ l =>
      rw [Nat.forall_lt_succ_left]
      match as, bs with
      | [], [] => simp [commonPrefix]
      | a :: as, [] => simp [commonPrefix]
      | [], b :: bs => simp [commonPrefix]
      | a :: as, b :: bs =>
        rw [commonPrefix]
        split
        · next hab => simp [ih, hab]
        · next hab => simp [hab]

/-- How far the string at j matches the one at position i, at most `bound` (R243). -/
def matchLength (inp : List Byte) (i bound j : Nat) : Nat := commonPrefix bound (inp.drop j) (inp.drop i)

theorem le_matchLength_iff {inp : List Byte} {i bound j l : Nat} (hbound : bound ≤ inp.length - i) :
    l ≤ matchLength inp i bound j ↔ l ≤ bound ∧ ∀ k, k < l → inp[j + k]? = inp[i + k]? := by
  rw [matchLength, le_commonPrefix_iff, List.length_drop]
  simp only [List.getElem?_drop]
  exact and_congr_right fun hl => and_iff_right (hl.trans hbound)

/-- Of the candidates from lo up to hi, this is the length of the longest match and the offset of the leftmost of that
length; (0, 0) where nothing matches (R243). -/
def LeftmostLongest (m : Nat → Nat) (i lo hi : Nat) (best : Nat × Nat) : Prop :=
  (∀ j, lo ≤ j → j < hi → m j ≤ best.1) ∧
    (0 < best.1 → ∃ j, lo ≤ j ∧ j < hi ∧ best = (m j, i - j) ∧ ∀ j', lo ≤ j' → j' < j → m j' < m j)

/-- One more candidate on the right replaces the best only where it matches longer. -/
theorem LeftmostLongest.succ {m : Nat → Nat} {i lo hi : Nat} {best : Nat × Nat} (h : LeftmostLongest m i lo hi best)
    (hle : lo ≤ hi) : LeftmostLongest m i lo (hi + 1) (if m hi > best.1 then (m hi, i - hi) else best) := by
  obtain ⟨hlongest, hleftmost⟩ := h
  split
  · next hgt =>
    have hless : ∀ j, lo ≤ j → j < hi → m j < m hi := fun j hlo hhi => (hlongest j hlo hhi).trans_lt hgt
    refine ⟨fun j hlo hhi => ?_, fun _ => ⟨hi, hle, Nat.lt_succ_self hi, rfl, hless⟩⟩
    obtain hlt | rfl := Nat.lt_succ_iff_lt_or_eq.mp hhi
    · exact (hless j hlo hlt).le
    · exact le_rfl
  · next hngt =>
    refine ⟨fun j hlo hhi => ?_, fun hpos => ?_⟩
    · obtain hlt | rfl := Nat.lt_succ_iff_lt_or_eq.mp hhi
      · exact hlongest j hlo hlt
      · exact Nat.not_lt.mp hngt
    · obtain ⟨j, hlo, hhi, hbest⟩ := hleftmost hpos
      exact ⟨j, hlo, hhi.trans (Nat.lt_succ_self hi), hbest⟩

/-- The scan keeps the leftmost longest match of the candidates it has seen. -/
theorem leftmostLongest_scanWindow {inp : List Byte} {i bound lo hi : Nat} {best : Nat × Nat} (n : Nat)
    (h : LeftmostLongest (matchLength inp i bound) i lo hi best) (hle : lo ≤ hi) :
    LeftmostLongest (matchLength inp i bound) i lo (hi + n)
      (scanWindow inp i bound (List.range' hi n) best) := by
  induction n generalizing hi best with
  | zero => exact h
  | succ n ih =>
    have := ih (h.succ hle) (Nat.le_succ_of_le hle)
    rwa [Nat.add_right_comm] at this

/-- Longest of R243 is the leftmost longest match of the window. -/
theorem leftmostLongest_longest (form : LzForm) (w la : Nat) {inp : List Byte} {i : Nat} (hi : i ≤ inp.length) :
    LeftmostLongest (matchLength inp i (maxMatch form la (inp.length - i))) i (i - effectiveWindow form w) i
      (longest form w la inp i) := by
  have hempty : LeftmostLongest (matchLength inp i (maxMatch form la (inp.length - i))) i
      (i - effectiveWindow form w) (i - effectiveWindow form w) (0, 0) :=
    ⟨fun j hlo hhi => absurd hlo (Nat.not_le.mpr hhi), fun hpos => absurd hpos (Nat.lt_irrefl 0)⟩
  have hscan := leftmostLongest_scanWindow (slidingWindow inp (effectiveWindow form w) i).length hempty le_rfl
  have hend : i - effectiveWindow form w + (slidingWindow inp (effectiveWindow form w) i).length = i := by
    rw [slidingWindow, List.length_drop, List.length_take, Nat.min_eq_left hi]
    omega
  rwa [hend] at hscan

theorem maxMatch_le (form : LzForm) (la left : Nat) : maxMatch form la left ≤ left := by
  cases form <;> simp only [maxMatch] <;> omega

/-- Settles O51: the scan goes over the window from the left and replaces its best only by a longer match. -/
theorem longestMatchIsTheLeftmostLongest : Obligations.LongestMatchIsTheLeftmostLongest := by
  unfold Obligations.LongestMatchIsTheLeftmostLongest
  intro form w la inp i hi bound window matches_ len off
  have hmatch {l j : Nat} : l ≤ matchLength inp i bound j ↔ l ≤ bound ∧ matches_ j l :=
    le_matchLength_iff (maxMatch_le form la (inp.length - i))
  obtain ⟨hlongest, hleftmost⟩ : LeftmostLongest (matchLength inp i bound) i (i - window) i (len, off) :=
    leftmostLongest_longest form w la hi
  clear_value len off bound
  have hfound (hpos : 0 < len) : len ≤ bound ∧ 1 ≤ off ∧ off ≤ min window i ∧ matches_ (i - off) len ∧
      ∀ j, i - window ≤ j → j < i - off → ¬ matches_ j len := by
    obtain ⟨j, hlo, hhi, hbest, hfirst⟩ := hleftmost hpos
    obtain ⟨rfl, rfl⟩ := Prod.mk.inj hbest
    obtain ⟨hbound, hmatches⟩ := hmatch.mp (le_refl (matchLength inp i bound j))
    rw [Nat.sub_sub_self hhi.le]
    exact ⟨hbound, by omega, by omega, hmatches,
      fun j' hlo' hlt hm => (hfirst j' hlo' hlt).not_ge (hmatch.mpr ⟨hbound, hm⟩)⟩
  refine ⟨?_, fun hpos => ?_, fun j hlo hhi l hl hm => (hmatch.mpr ⟨hl, hm⟩).trans (hlongest j hlo hhi),
    fun hpos => ?_⟩
  · exact (Nat.eq_zero_or_pos len).elim (fun hzero => hzero ▸ Nat.zero_le bound) fun hpos => (hfound hpos).1
  · obtain ⟨-, hoff, hoffWindow, hmatches, -⟩ := hfound hpos
    exact ⟨hoff, hoffWindow, hmatches⟩
  · obtain ⟨-, -, -, -, hnoneFurtherLeft⟩ := hfound hpos
    exact hnoneFurtherLeft

end Sys2Proof.Machine

namespace Sys2Proof.Machine

/-! ## LZ77 encoding (O52, O53) -/

/-! ### The greedy tokens (R244) -/

/-- The token of the greedy loop at position i (R244). -/
def GreedyToken (form : LzForm) (w la : Nat) (inp : List Byte) (i : Nat) : Token → Prop
  | .literal s => inp[i]? = some s ∧ (longest form w la inp i).1 < 3
  | .matched off len next =>
    i < inp.length ∧ longest form w la inp i = (len, off) ∧ 3 ≤ len ∧
      next = (match form with | .compact => inp[i + len]? | .bracket => none)

theorem greedyTokens_cons {form : LzForm} {w la : Nat} {inp : List Byte} {i : Nat} {tok : Token} {ts : List Token} :
    GreedyTokens form w la inp i (tok :: ts) ↔
      GreedyToken form w la inp i tok ∧ GreedyTokens form w la inp (i + tok.span) ts := by
  cases tok with
  | literal s => exact and_assoc.symm
  | matched off len next =>
    rw [Token.span, ← Nat.add_assoc]
    exact ⟨fun ⟨hi, hlongest, hlen, hnext, hts⟩ => ⟨⟨hi, hlongest, hlen, hnext⟩, hts⟩,
      fun ⟨⟨hi, hlongest, hlen, hnext⟩, hts⟩ => ⟨hi, hlongest, hlen, hnext, hts⟩⟩

/-- What a match of the greedy loop copies stands in the window, and is what comes next (R242, R243). -/
theorem GreedyToken.matched_copies {form : LzForm} {w la : Nat} {inp : List Byte} {i off len : Nat}
    {next : Option Byte} (h : GreedyToken form w la inp i (.matched off len next)) :
    3 ≤ len ∧ len ≤ maxMatch form la (inp.length - i) ∧ 1 ≤ off ∧ off ≤ min (effectiveWindow form w) i ∧
      ∀ k, k < len → inp[i - off + k]? = inp[i + k]? := by
  obtain ⟨hi, hlongest, hlen, -⟩ := h
  obtain ⟨hbound, hfound, -⟩ := longestMatchIsTheLeftmostLongest form w la inp i hi.le
  rw [hlongest] at hbound hfound
  obtain ⟨hoff, hwindow, hmatches⟩ := hfound (by omega)
  exact ⟨hlen, hbound, hoff, hwindow, hmatches⟩

theorem GreedyToken.next_eq {form : LzForm} {w la : Nat} {inp : List Byte} {i off len : Nat} {next : Option Byte}
    (h : GreedyToken form w la inp i (.matched off len next)) : next = none ∨ next = inp[i + len]? := by
  obtain ⟨-, -, -, rfl⟩ := h
  cases form
  · exact .inr rfl
  · exact .inl rfl

theorem take_append_getElem? (inp : List Byte) (i : Nat) :
    inp.take i ++ inp[i]?.toList = inp.take (i + inp[i]?.toList.length) := by
  cases h : inp[i]? with
  | none => simp
  | some x => simp [List.take_add_one, h]

theorem GreedyToken.span_pos {form : LzForm} {w la : Nat} {inp : List Byte} {i : Nat} {tok : Token}
    (h : GreedyToken form w la inp i tok) : 1 ≤ tok.span := by
  cases tok with
  | literal s => exact le_rfl
  | matched off len next =>
    obtain ⟨hlen, -⟩ := h.matched_copies
    rw [Token.span]
    omega

theorem GreedyToken.span_le {form : LzForm} {w la : Nat} {inp : List Byte} {i : Nat} {tok : Token}
    (h : GreedyToken form w la inp i tok) : i + tok.span ≤ inp.length := by
  cases tok with
  | literal s =>
    obtain ⟨hi, -⟩ := List.getElem?_eq_some_iff.mp h.1
    exact hi
  | matched off len next =>
    obtain ⟨-, hbound, -⟩ := h.matched_copies
    have hlen := hbound.trans (maxMatch_le form la _)
    have hi : i < inp.length := h.1
    rw [Token.span]
    obtain rfl | rfl := h.next_eq
    · simp only [Option.toList_none, List.length_nil]
      omega
    · by_cases hend : i + len < inp.length
      · rw [List.getElem?_eq_getElem hend, Option.toList_some, List.length_singleton]
        omega
      · rw [List.getElem?_eq_none (Nat.not_lt.mp hend), Option.toList_none, List.length_nil]
        omega

/-- The greedy loop goes on at the symbol after the token. -/
theorem tokenizeFrom_succ {form : LzForm} {w la : Nat} {inp : List Byte} {i : Nat} (hi : i < inp.length) (fuel : Nat) :
    ∃ tok, GreedyToken form w la inp i tok ∧
      tokenizeFrom form w la inp (fuel + 1) i = (i, tok) :: tokenizeFrom form w la inp fuel (i + tok.span) := by
  rw [tokenizeFrom, List.getElem?_eq_getElem hi]
  dsimp only
  split
  · next hlen =>
    split
    · next y hy =>
      exact ⟨.matched (longest .compact w la inp i).2 (longest .compact w la inp i).1 (some y),
        ⟨hi, rfl, hlen, hy.symm⟩, rfl⟩
    · next form _ _ hnext =>
      refine ⟨.matched (longest form w la inp i).2 (longest form w la inp i).1 none, ⟨hi, rfl, hlen, ?_⟩, rfl⟩
      cases form with
      | bracket => rfl
      | compact => exact (Option.eq_none_iff_forall_ne_some.mpr fun y hy => hnext y rfl hy).symm
  · next hlen => exact ⟨.literal inp[i], ⟨List.getElem?_eq_getElem hi, Nat.not_le.mp hlen⟩, rfl⟩

/-- Tokenize gives the tokens of the greedy loop, each with the position it starts at (R244). -/
theorem tokenizeFrom_greedy (form : LzForm) (w la : Nat) {inp : List Byte} {fuel i : Nat} (hi : i ≤ inp.length)
    (hfuel : inp.length ≤ fuel + i) :
    ∃ ts, GreedyTokens form w la inp i ts ∧ ∀ bytes : Token → List Byte,
      (tokenizeFrom form w la inp fuel i).map (fun t => (t.1, bytes t.2)) = tokenChunks bytes i ts := by
  induction fuel generalizing i with
  | zero => exact ⟨[], by rw [GreedyTokens]; omega, fun _ => rfl⟩
  | succ fuel ih =>
    obtain hlt | rfl := Nat.lt_or_eq_of_le hi
    · obtain ⟨tok, htok, htokenize⟩ := tokenizeFrom_succ (form := form) (w := w) (la := la) hlt fuel
      have hpos := htok.span_pos
      obtain ⟨ts, hts, hchunks⟩ := ih htok.span_le (by omega)
      exact ⟨tok :: ts, greedyTokens_cons.mpr ⟨htok, hts⟩, fun bytes => by
        rw [htokenize, List.map_cons, hchunks, tokenChunks]⟩
    · refine ⟨[], rfl, fun bytes => ?_⟩
      rw [tokenizeFrom, List.getElem?_eq_none le_rfl]
      rfl

theorem tokenize_greedy (form : LzForm) (w la : Nat) (inp : List Byte) :
    ∃ ts, GreedyTokens form w la inp 0 ts ∧ ∀ bytes : Token → List Byte,
      (tokenize form w la inp).map (fun t => (t.1, bytes t.2)) = tokenChunks bytes 0 ts :=
  tokenizeFrom_greedy form w la (Nat.zero_le _) (Nat.le_add_right _ _)

/-- What holds of every token of the greedy loop, wherever it starts, holds of all its tokens. -/
theorem GreedyTokens.forall_mem {form : LzForm} {w la : Nat} {inp : List Byte} {P : Token → Prop}
    (hP : ∀ i tok, GreedyToken form w la inp i tok → P tok) {i : Nat} {ts : List Token}
    (h : GreedyTokens form w la inp i ts) : ∀ tok ∈ ts, P tok := by
  induction ts generalizing i with
  | nil => exact fun _ hmem => nomatch hmem
  | cons tok ts ih =>
    obtain ⟨htok, hts⟩ := greedyTokens_cons.mp h
    exact List.forall_mem_cons.mpr ⟨hP i tok htok, ih hts⟩

/-- The tokens cover the rest of the input. -/
theorem GreedyTokens.sum_span {form : LzForm} {w la : Nat} {inp : List Byte} {i : Nat} {ts : List Token}
    (h : GreedyTokens form w la inp i ts) : i + (ts.map Token.span).sum = inp.length := by
  induction ts generalizing i with
  | nil => exact h
  | cons tok ts ih =>
    rw [List.map_cons, List.sum_cons, ← Nat.add_assoc]
    exact ih (greedyTokens_cons.mp h).2

/-! ### Replay (R240) -/

/-- Copying a match one symbol at a time gives the symbols it matches, an overlapping one included. -/
theorem copyBack_take {inp : List Byte} {off len i : Nat} (hoff : 1 ≤ off) (hoffi : off ≤ i)
    (hend : i + len ≤ inp.length) (hmatches : ∀ k, k < len → inp[i - off + k]? = inp[i + k]?) :
    copyBack off len (inp.take i) = inp.take (i + len) := by
  induction len generalizing i with
  | zero => rfl
  | succ len ih =>
    have hcopied : (inp.take i)[(inp.take i).length - off]? = inp[i]? := by
      rw [List.length_take, Nat.min_eq_left (by omega), List.getElem?_take_of_lt (by omega)]
      exact hmatches 0 (Nat.succ_pos len)
    rw [copyBack, hcopied, ← List.take_add_one, ih (by omega) (by omega) fun k hk => ?_, Nat.add_right_comm,
      Nat.add_assoc]
    have := hmatches (k + 1) (by omega)
    rwa [← Nat.add_assoc, ← Nat.add_assoc, Nat.add_right_comm, Nat.add_right_comm i,
      ← Nat.sub_add_comm hoffi] at this

/-- Replaying a token of the greedy loop gives the symbols it covers. -/
theorem GreedyToken.replayOne_take {form : LzForm} {w la : Nat} {inp : List Byte} {i : Nat} {tok : Token}
    (h : GreedyToken form w la inp i tok) : replayOne (inp.take i) tok = some (inp.take (i + tok.span)) := by
  cases tok with
  | literal s =>
    obtain ⟨hs, -⟩ := h
    rw [replayOne, Token.span, List.take_add_one, hs, Option.toList_some]
  | matched off len next =>
    obtain ⟨-, hbound, hoff, hwindow, hmatches⟩ := h.matched_copies
    have hlen := hbound.trans (maxMatch_le form la _)
    have hi : i < inp.length := h.1
    have hoffi := hwindow.trans (Nat.min_le_right _ _)
    have hout : (inp.take i).length = i := by rw [List.length_take, Nat.min_eq_left hi.le]
    rw [replayOne, if_pos ⟨hoff, by rwa [hout]⟩, copyBack_take hoff hoffi (by omega) hmatches, Token.span,
      ← Nat.add_assoc]
    obtain rfl | rfl := h.next_eq
    · rw [Option.toList_none, List.append_nil, List.length_nil, Nat.add_zero]
    · rw [take_append_getElem?]

/-- The tokens of the greedy loop replay to the input (R252). -/
theorem GreedyTokens.replay_take {form : LzForm} {w la : Nat} {inp : List Byte} {i : Nat} {ts : List Token}
    (h : GreedyTokens form w la inp i ts) : replay ts (inp.take i) = some inp := by
  induction ts generalizing i with
  | nil =>
    obtain rfl : i = inp.length := h
    rw [replay, List.take_length]
  | cons tok ts ih =>
    obtain ⟨htok, hts⟩ := greedyTokens_cons.mp h
    rw [replay, htok.replayOne_take]
    exact ih hts

/-! ### The forms of a token (R241, R248) -/

theorem GreedyToken.compactFits {w la : Nat} {inp : List Byte} {i : Nat} {tok : Token}
    (h : GreedyToken .compact w la inp i tok) : CompactFits tok := by
  cases tok with
  | literal s => trivial
  | matched off len next =>
    obtain ⟨hlen, hbound, hoff, hwindow, -⟩ := h.matched_copies
    rw [maxMatch] at hbound
    rw [effectiveWindow] at hwindow
    exact ⟨hoff, by omega, by omega, by omega⟩

theorem GreedyToken.bracketFits {w la : Nat} (hw : w ≤ 4096) (hla : la ≤ 255) {inp : List Byte} {i : Nat}
    {tok : Token} (h : GreedyToken .bracket w la inp i tok) : BracketFits tok := by
  cases tok with
  | literal s => trivial
  | matched off len next =>
    obtain ⟨hlen, hbound, hoff, hwindow, -⟩ := h.matched_copies
    obtain ⟨-, -, -, hnext⟩ := h
    rw [maxMatch] at hbound
    rw [effectiveWindow] at hwindow
    exact ⟨hnext, hoff, by omega, by omega, by omega⟩

/-- A token of the greedy loop takes at most two compact bytes for each symbol it covers (R252 (d)). -/
theorem GreedyToken.length_compactForm_le {w la : Nat} {inp : List Byte} {i : Nat} {tok : Token}
    (h : GreedyToken .compact w la inp i tok) : (compactForm tok).length ≤ 2 * tok.span := by
  cases tok with
  | literal s => exact le_rfl
  | matched off len next =>
    obtain ⟨hlen, -⟩ := h.matched_copies
    simp only [compactForm, Token.span, List.length_cons, List.length_nil]
    omega

/-- A token of the greedy loop takes at most eight bracket bytes for each three symbols it covers: its offset has at
most four digits, and its length two or more only from 10 on (R252 (d)). -/
theorem GreedyToken.length_bracketForm_le {w la : Nat} (hw : w < 8192) (hla : la ≤ 255) {inp : List Byte} {i : Nat}
    {tok : Token} (h : GreedyToken .bracket w la inp i tok) : 3 * (bracketForm tok).length ≤ 8 * tok.span := by
  cases tok with
  | literal s =>
    rw [bracketForm, Token.span]
    split <;> simp
  | matched off len next =>
    obtain ⟨hlen, hbound, -, hwindow, -⟩ := h.matched_copies
    rw [maxMatch] at hbound
    rw [effectiveWindow] at hwindow
    have hoffDigits : (decimal off).length ≤ 4 := (length_decimal_le_iff (by decide)).mpr (by omega)
    have hlenDigits : (decimal len).length ≤ 3 := (length_decimal_le_iff (by decide)).mpr (by omega)
    have hlenDigit : len < 10 → (decimal len).length ≤ 1 := (length_decimal_le_iff (k := 1) (by decide)).mpr
    simp only [bracketForm, Token.span, List.length_append, List.length_cons, List.length_nil]
    omega

theorem length_flatMap_le_sum_span {form : Token → List Byte} {c d : Nat} {ts : List Token}
    (h : ∀ tok ∈ ts, c * (form tok).length ≤ d * tok.span) :
    c * (ts.flatMap form).length ≤ d * (ts.map Token.span).sum := by
  induction ts with
  | nil => simp
  | cons tok ts ih =>
    obtain ⟨htok, hts⟩ := List.forall_mem_cons.mp h
    rw [List.flatMap_cons, List.length_append, List.map_cons, List.sum_cons, Nat.mul_add, Nat.mul_add]
    exact Nat.add_le_add htok (ih hts)

/-- (off << 4) OR len is off * 16 + len where the fields do not overlap (R241). -/
theorem toNat_offLen {off len : Nat} (hoff : off ≤ 4095) (hlen : len ≤ 15) :
    ((BitVec.ofNat 16 off <<< 4) ||| (BitVec.ofNat 16 len &&& 0xF)).toNat = off * 16 + len := by
  rw [BitVec.toNat_or, BitVec.toNat_shiftLeft, BitVec.toNat_and, BitVec.toNat_ofNat, BitVec.toNat_ofNat,
    show BitVec.toNat (0xF : BitVec 16) = 2 ^ 4 - 1 from rfl, Nat.and_two_pow_sub_one_eq_mod,
    show (off % 2 ^ 16) <<< 4 % 2 ^ 16 = 2 ^ 4 * off by rw [Nat.shiftLeft_eq]; omega,
    show len % 2 ^ 16 % 2 ^ 4 = len by omega, ← Nat.two_pow_add_eq_or_of_lt (by omega)]
  omega

theorem compactBytes_eq {tok : Token} (h : CompactFits tok) : compactBytes tok = compactForm tok := by
  cases tok with
  | literal s => rfl
  | matched off len next =>
    obtain ⟨-, hoff, -, hlen⟩ := h
    have hbytes : offLenBytes off len =
        [BitVec.ofNat 8 ((off * 16 + len) / 256), BitVec.ofNat 8 (off * 16 + len)] := by
      rw [offLenBytes]
      simp only [BitVec.extractLsb', toNat_offLen hoff hlen, Nat.shiftRight_eq_div_pow, Nat.pow_zero, Nat.div_one,
        Nat.reducePow]
    cases next <;> simp [compactBytes, compactForm, hbytes]

theorem bracketBytes_eq (tok : Token) : bracketBytes tok = bracketForm tok := by
  cases tok with
  | literal s => rfl
  | matched off len next =>
    rw [bracketBytes, dec_eq_decimal, dec_eq_decimal]
    rfl

/-! ### The commands -/

/-- What an LZ77 encoder does with the greedy tokens and the form it writes them in (R245, R249). -/
def EncodesTokens (i : Instr) (s : State) (form : Token → List Byte) (ts : List Token) : Prop :=
  ((ts.flatMap form).length ≤ s.opnd.dstCap.toNat →
    ∃ t, exec i s = .next t ∧ Completed s t ∧ Stored s t s.opnd.dstAddr (ts.flatMap form) ∧ t.tbl = s.tbl ∧
      t.res = { s.res with
        dstLen := BitVec.ofNat 32 (ts.flatMap form).length, errPos := 0, statOrig := s.opnd.srcLen,
        statEnc := BitVec.ofNat 32 (ts.flatMap form).length,
        statRatio := BitVec.ofInt 32 (ratio s.opnd.srcLen.toNat (ts.flatMap form).length) }) ∧
  (s.opnd.dstCap.toNat < (ts.flatMap form).length →
    ∃ pos, MisfitAt s.opnd.dstCap.toNat (tokenChunks form 0 ts) pos ∧ Raises s i .dstOverflow pos)

/-- The state with an LZ77 payload and its statistics written. -/
def State.lzEncoded (s : State) (out : List Byte) : State := (s.writeOut out).setStats s.input.length out.length

theorem flatMap_tokenChunks (form : Token → List Byte) (i : Nat) (ts : List Token) :
    (tokenChunks form i ts).flatMap Prod.snd = ts.flatMap form := by
  induction ts generalizing i with
  | nil => rfl
  | cons tok ts ih => rw [tokenChunks, List.flatMap_cons, List.flatMap_cons, ih]

theorem tokenChunks_congr {form form' : Token → List Byte} (i : Nat) {ts : List Token}
    (h : ∀ tok ∈ ts, form tok = form' tok) : tokenChunks form i ts = tokenChunks form' i ts := by
  induction ts generalizing i with
  | nil => rfl
  | cons tok ts ih =>
    obtain ⟨htok, hts⟩ := List.forall_mem_cons.mp h
    rw [tokenChunks, tokenChunks, htok, ih _ hts]

theorem encodesTokens_of_execBody {i : Instr} {s : State} {form : Token → List Byte} {ts : List Token}
    (hc : s.checkPhase i = none)
    (h : execBody i s = (emitTokens s.dstCap (tokenChunks form 0 ts) []).map s.lzEncoded) :
    EncodesTokens i s form ts := by
  have hcases := emitTokens_cases s.dstCap (tokenChunks form 0 ts)
  rw [flatMap_tokenChunks] at hcases
  obtain ⟨hfit, hemit⟩ | ⟨hover, pos, hmisfit, hemit⟩ := hcases
  · rw [hemit] at h
    refine ⟨fun _ => ⟨_, exec_of_ok hc h, completed_of_ok h, stored_of_write rfl, rfl, ?_⟩,
      fun hover => absurd hfit (Nat.not_le.mpr hover)⟩
    simp [State.lzEncoded]
  · rw [hemit] at h
    exact ⟨fun hfit => absurd hfit (Nat.not_le.mpr hover), fun _ => ⟨pos, hmisfit, raises_of_error hc h⟩⟩

theorem execBody_lzC (s : State) :
    execBody .lzC s =
      (emitTokens s.dstCap (compactTokens s.opnd.window.toNat s.opnd.lookahead.toNat s.input) []).map
        s.lzEncoded := by
  rw [execBody]
  cases emitTokens s.dstCap (compactTokens s.opnd.window.toNat s.opnd.lookahead.toNat s.input) [] <;> rfl

theorem execBody_lzbC (s : State) :
    execBody .lzbC s =
      (emitTokens s.dstCap (bracketTokens s.opnd.window.toNat s.opnd.lookahead.toNat s.input) []).map
        s.lzEncoded := by
  rw [execBody]
  cases emitTokens s.dstCap (bracketTokens s.opnd.window.toNat s.opnd.lookahead.toNat s.input) [] <;> rfl

/-- Settles O52: the tokens of the greedy loop replay to the input, and each is emitted in its compact form. -/
theorem lzCompactOutputReplaysToTheInput : Obligations.LzCompactOutputReplaysToTheInput := by
  unfold Obligations.LzCompactOutputReplaysToTheInput
  intro s hc
  obtain ⟨ts, hts, hchunks⟩ :=
    tokenize_greedy .compact s.opnd.window.toNat s.opnd.lookahead.toNat s.input
  have hfits := hts.forall_mem fun i tok => GreedyToken.compactFits
  refine ⟨ts, hts, hfits, hts.replay_take, ?_, encodesTokens_of_execBody hc ?_⟩
  · have hspan := hts.sum_span
    rw [Nat.zero_add, State.input_length] at hspan
    have hlen := length_flatMap_le_sum_span (c := 1) (d := 2) <| hts.forall_mem fun i tok htok => by
      rw [Nat.one_mul]
      exact htok.length_compactForm_le
    rwa [hspan, Nat.one_mul] at hlen
  · rw [execBody_lzC, compactTokens, hchunks, tokenChunks_congr 0 fun tok htok => compactBytes_eq (hfits tok htok)]

/-- Settles O53: the tokens of the greedy loop replay to the input, and each is emitted in its bracket form. -/
theorem lzBracketOutputReplaysToTheInput : Obligations.LzBracketOutputReplaysToTheInput := by
  unfold Obligations.LzBracketOutputReplaysToTheInput
  intro s hc
  obtain ⟨ts, hts, hchunks⟩ :=
    tokenize_greedy .bracket s.opnd.window.toNat s.opnd.lookahead.toNat s.input
  have hla : s.opnd.lookahead.toNat ≤ 255 := Nat.le_of_lt_succ s.opnd.lookahead.isLt
  refine ⟨ts, hts, fun hw => hts.forall_mem fun i tok => GreedyToken.bracketFits hw hla, hts.replay_take, ?_,
    encodesTokens_of_execBody hc ?_⟩
  · have hspan := hts.sum_span
    rw [Nat.zero_add, State.input_length] at hspan
    have hlen := length_flatMap_le_sum_span <| hts.forall_mem fun i tok =>
      GreedyToken.length_bracketForm_le s.opnd.window.isLt hla
    rw [hspan] at hlen
    omega
  · rw [execBody_lzbC, bracketTokens, hchunks, tokenChunks_congr 0 fun tok _ => bracketBytes_eq tok]

end Sys2Proof.Machine

namespace Sys2Proof.Machine

/-! ## LZ77 decoding (O54, O55) -/

/-! ### Emitting the replay of a token (R240, R78) -/

/-- The copy the decoders make is the copy of R240 where the offset lies inside the output. -/
theorem copied_eq_copyBack {off : Nat} (len : Nat) {out : List Byte} (hoff : 1 ≤ off) (hout : off ≤ out.length) :
    copied off len out = copyBack off len out := by
  induction len generalizing out with
  | zero => rfl
  | succ len ih =>
    have hlt : out.length - off < out.length := by omega
    rw [copied, copyBack, List.getD_eq_getElem _ _ hlt, List.getElem?_eq_getElem hlt, Option.toList_some,
      ih (hout.trans (by simp))]

/-- The output after a token at offset p, or DST_OVERFLOW at p where it does not fit (R78). -/
def withinCap (cap p : Nat) (out : List Byte) : Except Raise (List Byte) :=
  if out.length ≤ cap then .ok out else .error ⟨.dstOverflow, p⟩

theorem withinCap_of_le {cap : Nat} {out : List Byte} (h : out.length ≤ cap) (p : Nat) :
    withinCap cap p out = .ok out := if_pos h

theorem withinCap_of_lt {cap : Nat} {out : List Byte} (h : cap < out.length) (p : Nat) :
    withinCap cap p out = .error ⟨.dstOverflow, p⟩ := if_neg (Nat.not_le.mpr h)

theorem emitStr_eq_withinCap (bs : List Byte) (p : Nat) {cap : Nat} {out : List Byte} (h : out.length ≤ cap) :
    emitStr cap bs p out = withinCap cap p (out ++ bs) := by
  rw [emitStr_eq _ _ _ _ h, withinCap, List.length_append]

theorem emit_eq_withinCap (b : Byte) (p : Nat) {cap : Nat} {out : List Byte} (h : out.length ≤ cap) :
    emit cap b p out = withinCap cap p (out ++ [b]) := by
  rw [← emitStr_singleton, emitStr_eq_withinCap _ _ h]

theorem emitCopy_eq_withinCap {off : Nat} (len p : Nat) {cap : Nat} {out : List Byte} (hoff : 1 ≤ off)
    (hoffOut : off ≤ out.length) (h : out.length ≤ cap) :
    emitCopy cap off p len out = withinCap cap p (copyBack off len out) := by
  rw [emitCopy_eq _ _ _ _ _ h, withinCap, ← copied_eq_copyBack len hoff hoffOut, copied_length]

/-- Emitting one thing after another at one offset fits where the whole fits. -/
theorem withinCap_bind_emitStr (cap p : Nat) (out bs : List Byte) :
    (withinCap cap p out >>= emitStr cap bs p) = withinCap cap p (out ++ bs) := by
  by_cases hfit : out.length ≤ cap
  · rw [withinCap_of_le hfit]
    exact emitStr_eq_withinCap bs p hfit
  · have hover := Nat.not_le.mp hfit
    rw [withinCap_of_lt hover, withinCap_of_lt (hover.trans_le (by simp))]
    rfl

theorem replayOne_matched_eq_some {off len : Nat} {next : Option Byte} {out out' : List Byte}
    (h : replayOne out (.matched off len next) = some out') :
    1 ≤ off ∧ off ≤ out.length ∧ out' = copyBack off len out ++ next.toList := by
  rw [replayOne] at h
  split at h
  · next hin =>
    cases h
    exact ⟨hin.1, hin.2, rfl⟩
  · cases h

theorem isSome_replayOne_matched {off len : Nat} {out : List Byte} (next : Option Byte) (hoff : 1 ≤ off)
    (hout : off ≤ out.length) : (replayOne out (.matched off len next)).isSome = true := by
  rw [replayOne, if_pos ⟨hoff, hout⟩, Option.isSome_some]

/-- A replay makes the output no shorter. -/
theorem length_le_of_replayOne {tok : Token} {out out' : List Byte} (h : replayOne out tok = some out') :
    out.length ≤ out'.length := by
  cases tok with
  | literal s =>
    cases h
    simp
  | matched off len next =>
    obtain ⟨hoff, hout, rfl⟩ := replayOne_matched_eq_some h
    rw [← copied_eq_copyBack len hoff hout, List.length_append, copied_length]
    omega

theorem replay_cons_eq_some {tok : Token} {ts : List Token} {out out' : List Byte}
    (h : replay (tok :: ts) out = some out') : ∃ mid, replayOne out tok = some mid ∧ replay ts mid = some out' := by
  rw [replay] at h
  split at h
  · next mid hmid => exact ⟨mid, hmid, h⟩
  · cases h

theorem length_le_of_replay {ts : List Token} {out out' : List Byte} (h : replay ts out = some out') :
    out.length ≤ out'.length := by
  induction ts generalizing out with
  | nil =>
    cases h
    exact le_rfl
  | cons tok ts ih =>
    obtain ⟨mid, hmid, hrest⟩ := replay_cons_eq_some h
    exact (length_le_of_replayOne hmid).trans (ih hrest)

/-! ### Decoders of tokens -/

/-- What R246 and R250 ask of a decoder of tokens in a form: a token emits its replay at its offset and decoding goes on
behind it, and bytes that begin no token are malformed where they stand. The first argument of `decode` is fuel. -/
structure DecodesForm (cap : Nat) (form : Token → List Byte) (fits : Token → Prop)
    (decode : Nat → List Byte → Nat → List Byte → Except Raise (List Byte)) : Prop where
  form_pos (tok : Token) : 1 ≤ (form tok).length
  nil (fuel p : Nat) (out : List Byte) : decode fuel [] p out = .ok out
  token {tok : Token} {out out' : List Byte} (htok : fits tok) (hreplay : replayOne out tok = some out')
    (hout : out.length ≤ cap) (fuel p : Nat) (rest : List Byte) :
    decode (fuel + 1) (form tok ++ rest) p out =
      (withinCap cap p out' >>= decode fuel rest (p + (form tok).length))
  malformed {out bad : List Byte} (hne : bad ≠ []) (hbad : ¬ BeginsToken form fits out bad) (fuel p : Nat) :
    decode (fuel + 1) bad p out = .error ⟨.malformedPayload, p⟩

section
variable {cap : Nat} {form : Token → List Byte} {fits : Token → Prop}
  {decode : Nat → List Byte → Nat → List Byte → Except Raise (List Byte)}

/-- Tokens whose replay fits are replayed, and decoding goes on behind them. -/
theorem DecodesForm.tokens (h : DecodesForm cap form fits decode) {ts : List Token} (hts : ∀ tok ∈ ts, fits tok)
    {out out' : List Byte} (hreplay : replay ts out = some out') (hfit : out'.length ≤ cap) (fuel p : Nat)
    (rest : List Byte) :
    decode (fuel + ts.length) (ts.flatMap form ++ rest) p out =
      decode fuel rest (p + (ts.flatMap form).length) out' := by
  induction ts generalizing p out with
  | nil =>
    cases hreplay
    rfl
  | cons tok ts ih =>
    obtain ⟨htok, hts⟩ := List.forall_mem_cons.mp hts
    obtain ⟨mid, hmid, hrest⟩ := replay_cons_eq_some hreplay
    have hmidFit := (length_le_of_replay hrest).trans hfit
    rw [List.flatMap_cons, List.append_assoc, List.length_cons, ← Nat.add_assoc,
      h.token htok hmid ((length_le_of_replayOne hmid).trans hmidFit), withinCap_of_le hmidFit, List.length_append,
      ← Nat.add_assoc]
    exact ih hts hrest _

theorem DecodesForm.length_le (h : DecodesForm cap form fits decode) (ts : List Token) :
    ts.length ≤ (ts.flatMap form).length := by
  induction ts with
  | nil => exact Nat.zero_le _
  | cons tok ts ih =>
    have := h.form_pos tok
    simp only [List.flatMap_cons, List.length_append, List.length_cons]
    omega

end

/-- What a decoder answers after tokens whose replay is defined and fits: their replay, MALFORMED_PAYLOAD at bytes that
begin no token, DST_OVERFLOW at a token that does not fit (R246, R250). -/
def DecodesTokens (i : Instr) (s : State) (form : Token → List Byte) (fits : Token → Prop) (ts : List Token)
    (out : List Byte) : Prop :=
  (s.input = ts.flatMap form → GivesOutput i s s.tbl out) ∧
  (∀ bad : List Byte, bad ≠ [] → ¬ BeginsToken form fits out bad → s.input = ts.flatMap form ++ bad →
    Raises s i .malformedPayload (ts.flatMap form).length) ∧
  (∀ (tok : Token) (more out' : List Byte), fits tok → replayOne out tok = some out' →
    s.opnd.dstCap.toNat < out'.length → s.input = ts.flatMap form ++ (form tok ++ more) →
    Raises s i .dstOverflow (ts.flatMap form).length)

/-- A command whose execution phase is a decoder of tokens decodes tokens. -/
theorem decodesTokens_of_execBody {i : Instr} {s : State} {form : Token → List Byte} {fits : Token → Prop}
    {decode : Nat → List Byte → Nat → List Byte → Except Raise (List Byte)} (hc : s.checkPhase i = none)
    (hdecode : DecodesForm s.dstCap form fits decode)
    (hexec : execBody i s = (decode s.input.length s.input 0 []).map s.writeOut) {ts : List Token}
    (hts : ∀ tok ∈ ts, fits tok) {out : List Byte} (hreplay : replay ts [] = some out)
    (hfit : out.length ≤ s.opnd.dstCap.toNat) : DecodesTokens i s form fits ts out := by
  have hbody {tail : List Byte} {res : Except Raise (List Byte)} (hin : s.input = ts.flatMap form ++ tail)
      (h : ∀ more, decode (tail.length + more) tail (ts.flatMap form).length out = res) :
      execBody i s = res.map s.writeOut := by
    have hfuel : s.input.length = tail.length + ((ts.flatMap form).length - ts.length) + ts.length := by
      have := hdecode.length_le ts
      rw [hin, List.length_append]
      omega
    rw [hexec, hfuel, hin, hdecode.tokens hts hreplay hfit, Nat.zero_add, h]
  refine ⟨fun hin => ?_, fun bad hne hbad hin => ?_, fun tok more out' htok htoken hover hin => ?_⟩
  · exact givesOutput_of_ok (tbl := s.tbl) hc
      (hbody (res := .ok out) (hin.trans (List.append_nil _).symm) fun _ => hdecode.nil _ _ _)
  · refine raises_of_error hc (hbody (res := .error ⟨.malformedPayload, _⟩) hin fun more => ?_)
    rw [← Nat.sub_add_cancel (List.length_pos_iff.mpr hne), Nat.add_right_comm]
    exact hdecode.malformed hne hbad _ _
  · refine raises_of_error hc (hbody (res := .error ⟨.dstOverflow, _⟩) hin fun k => ?_)
    have hpos : 1 ≤ (form tok ++ more).length := (hdecode.form_pos tok).trans (by simp)
    rw [← Nat.sub_add_cancel hpos, Nat.add_right_comm, hdecode.token htok htoken hfit,
      withinCap_of_lt (cap := s.dstCap) hover]
    rfl

/-! ### The compact form (R246) -/

/-- The offset and the length in the two bytes after the flag (R246). -/
theorem compactForm_of_bytes (x y : Byte) (next : Option Byte) :
    compactForm (.matched (x.toNat * 16 + y.toNat / 16) (y.toNat % 16) next) =
      [if next.isSome then 0x01 else 0x02, x, y, next.getD 0x00] := by
  have hword : (x.toNat * 16 + y.toNat / 16) * 16 + y.toNat % 16 = x.toNat * 256 + y.toNat := by omega
  have hx : BitVec.ofNat 8 ((x.toNat * 256 + y.toNat) / 256) = x := by bv_omega
  have hy : BitVec.ofNat 8 (x.toNat * 256 + y.toNat) = y := by bv_omega
  rw [compactForm, hword, hx, hy]

theorem CompactFits.exists_bytes {off len : Nat} {next : Option Byte} (h : CompactFits (.matched off len next)) :
    ∃ x y : Byte, off = x.toNat * 16 + y.toNat / 16 ∧ len = y.toNat % 16 := by
  obtain ⟨-, hoff, -, hlen⟩ := h
  refine ⟨BitVec.ofNat 8 (off / 16), BitVec.ofNat 8 (off % 16 * 16 + len), ?_, ?_⟩ <;>
    simp only [BitVec.toNat_ofNat] <;> omega

theorem compactFits_of_bytes {x y : Byte} (next : Option Byte) (hoff : 1 ≤ x.toNat * 16 + y.toNat / 16)
    (hlen : 1 ≤ y.toNat % 16) : CompactFits (.matched (x.toNat * 16 + y.toNat / 16) (y.toNat % 16) next) :=
  ⟨hoff, by omega, hlen, by omega⟩

/-- A match is copied and its next symbol, if it has one, emitted, both at the offset of the token (R246). -/
theorem compactDecode_matched (cap : Nat) {x y : Byte} {next : Option Byte} (rest : List Byte) (p : Nat)
    {out : List Byte} (hoff : 1 ≤ x.toNat * 16 + y.toNat / 16) (hoffOut : x.toNat * 16 + y.toNat / 16 ≤ out.length)
    (hlen : 1 ≤ y.toNat % 16) :
    compactDecode cap ((if next.isSome then 0x01 else 0x02) :: x :: y :: next.getD 0x00 :: rest) p out =
      ((emitCopy cap (x.toNat * 16 + y.toNat / 16) p (y.toNat % 16) out >>= emitStr cap next.toList p) >>=
        compactDecode cap rest (p + 4)) := by
  have hok : ¬ (x.toNat * 16 + y.toNat / 16 = 0 ∨ y.toNat % 16 = 0 ∨
      x.toNat * 16 + y.toNat / 16 > out.length) := by omega
  cases next with
  | none =>
    change compactDecode cap (0x02 :: x :: y :: 0x00 :: rest) p out = _
    rw [compactDecode, if_neg (by decide), if_pos (.inr rfl)]
    dsimp only
    rw [if_neg hok, if_neg (by simp)]
    cases emitCopy cap (x.toNat * 16 + y.toNat / 16) p (y.toNat % 16) out <;> rfl
  | some z =>
    change compactDecode cap (0x01 :: x :: y :: z :: rest) p out = _
    rw [compactDecode, if_neg (by decide), if_pos (.inl rfl)]
    dsimp only
    rw [if_neg hok, if_neg (by simp), Option.toList_some]
    cases emitCopy cap (x.toNat * 16 + y.toNat / 16) p (y.toNat % 16) out with
    | error r => rfl
    | ok out1 =>
      change _ = (emitStr cap [z] p out1 >>= _)
      rw [emitStr_singleton]
      dsimp only
      rw [if_pos rfl]
      cases emit cap z p out1 <;> rfl

/-- A token emits its replay at its offset, and decoding goes on behind it (R246). -/
theorem compactDecode_token {cap : Nat} {tok : Token} {out out' : List Byte} (htok : CompactFits tok)
    (hreplay : replayOne out tok = some out') (hout : out.length ≤ cap) (p : Nat) (rest : List Byte) :
    compactDecode cap (compactForm tok ++ rest) p out =
      (withinCap cap p out' >>= compactDecode cap rest (p + (compactForm tok).length)) := by
  cases tok with
  | literal s =>
    cases hreplay
    rw [show compactForm (.literal s) ++ rest = 0x00 :: s :: rest from rfl, compactDecode, if_pos rfl,
      emit_eq_withinCap s p hout]
    cases withinCap cap p (out ++ [s]) <;> rfl
  | matched off len next =>
    obtain ⟨x, y, rfl, rfl⟩ := htok.exists_bytes
    obtain ⟨hoff, -, hlen, -⟩ := htok
    obtain ⟨-, hoffOut, rfl⟩ := replayOne_matched_eq_some hreplay
    rw [compactForm_of_bytes]
    refine (compactDecode_matched cap rest p hoff hoffOut hlen).trans ?_
    rw [emitCopy_eq_withinCap _ _ hoff hoffOut hout, withinCap_bind_emitStr]
    rfl

/-- Bytes that begin no token are malformed where they stand (R246). -/
theorem compactDecode_malformed (cap : Nat) {out bad : List Byte} (hne : bad ≠ [])
    (hbad : ¬ BeginsToken compactForm CompactFits out bad) (p : Nat) :
    compactDecode cap bad p out = .error ⟨.malformedPayload, p⟩ := by
  have hmatch {x y : Byte} (next : Option Byte) {rest : List Byte}
      (h : ¬ (x.toNat * 16 + y.toNat / 16 = 0 ∨ y.toNat % 16 = 0 ∨ x.toNat * 16 + y.toNat / 16 > out.length)) :
      bad ≠ (if next.isSome then 0x01 else 0x02) :: x :: y :: next.getD 0x00 :: rest := by
    rintro rfl
    refine hbad ⟨_, rest, compactFits_of_bytes (x := x) (y := y) next (by omega) (by omega),
      isSome_replayOne_matched next (by omega) (by omega), ?_⟩
    rw [compactForm_of_bytes]
    rfl
  unfold compactDecode
  split
  · exact absurd rfl hne
  next f rest =>
  split
  · next hf =>
    subst hf
    split
    · next s rest1 => exact absurd ⟨.literal s, rest1, trivial, rfl, rfl⟩ hbad
    · rfl
  split
  · next hf =>
    split
    · next x y z rest3 =>
      dsimp only
      split
      · rfl
      next hfields =>
      split
      · rfl
      next hlast =>
      obtain rfl | rfl := hf
      · exact absurd rfl (hmatch (some z) hfields)
      · obtain rfl : z = 0x00 := not_not.mp fun hz => hlast ⟨rfl, hz⟩
        exact absurd rfl (hmatch none hfields)
    · rfl
  · rfl

theorem decodesForm_compact (cap : Nat) :
    DecodesForm cap compactForm CompactFits fun _ => compactDecode cap where
  form_pos tok := by cases tok <;> simp [compactForm]
  nil _ _ _ := by rw [compactDecode]
  token htok hreplay hout _ p rest := compactDecode_token htok hreplay hout p rest
  malformed hne hbad _ p := compactDecode_malformed cap hne hbad p

theorem execBody_lzD (s : State) : execBody .lzD s = (compactDecode s.dstCap s.input 0 []).map s.writeOut := by
  rw [execBody]
  cases compactDecode s.dstCap s.input 0 [] <;> rfl

/-- Settles O54: LZ_D is a decoder of tokens in their compact form. -/
theorem lzCompactDecoderReplaysTokens : Obligations.LzCompactDecoderReplaysTokens := by
  unfold Obligations.LzCompactDecoderReplaysTokens
  intro s ts out hc hts hreplay hfit
  exact decodesTokens_of_execBody hc (decodesForm_compact s.dstCap) (execBody_lzD s) hts hreplay hfit

/-! ### The bracket form (R250) -/

/-- The decimal of a number in range is read as that number, where no digit follows (R250). -/
theorem number_decimal {maxd maxv v : Nat} (hmaxd : 0 < maxd) (hmaxv : maxv < 10 ^ maxd) (hlo : 1 ≤ v) (hhi : v ≤ maxv)
    {c : Byte} (hc : isDigit c = false) (rest : List Byte) :
    number maxd maxv (decimal v ++ c :: rest) = some (v, c :: rest) := by
  obtain ⟨d, ds, hd, hfirst⟩ := decimal_head hlo
  have htake : (decimal v ++ c :: rest).takeWhile isDigit = decimal v := by
    rw [List.takeWhile_append_of_pos fun b => isDigit_of_mem_decimal, List.takeWhile_cons_of_neg (by simp [hc]),
      List.append_nil]
  have hlen : (d :: ds).length ≤ maxd := hd ▸ (length_decimal_le_iff hmaxd).mpr (by omega)
  unfold number
  dsimp only
  rw [htake, List.drop_left, digitsValue_decimal, hd]
  dsimp only
  rw [hfirst, if_neg (by decide), if_neg (Nat.not_lt.mpr hlen), if_neg (Nat.not_lt.mpr hhi)]

/-- What is read as a number is the decimal of a number in range (R250). -/
theorem eq_decimal_of_number {maxd maxv v : Nat} {rest more : List Byte} (h : number maxd maxv rest = some (v, more)) :
    1 ≤ v ∧ v ≤ maxv ∧ rest = decimal v ++ more := by
  have hsplit := List.takeWhile_append_dropWhile (p := isDigit) (l := rest)
  have hdrop : rest.drop (rest.takeWhile isDigit).length = rest.dropWhile isDigit :=
    (congrArg _ hsplit.symm).trans List.drop_left
  have hdigits : ∀ b ∈ rest.takeWhile isDigit, isDigit b = true := fun b => List.mem_takeWhile_imp
  unfold number at h
  dsimp only at h
  rw [hdrop] at h
  split at h
  · cases h
  next d ds hds =>
  split at h
  · cases h
  next hfirst =>
  split at h
  · cases h
  split at h
  · cases h
  next hhi =>
  cases h
  rw [hds] at hsplit hdigits hhi ⊢
  rw [Bool.not_eq_true', Bool.not_eq_false] at hfirst
  refine ⟨digitsValue_pos hfirst ds, Nat.not_lt.mp hhi, ?_⟩
  rw [decimal_digitsValue hfirst fun b hb => hdigits b (List.mem_cons_of_mem _ hb), hsplit]

theorem bracketForm_lessThan : bracketForm (.literal lessThan) = [lessThan, lessThan] := rfl

theorem bracketForm_literal {s : Byte} (h : s ≠ lessThan) : bracketForm (.literal s) = [s] := if_neg h

theorem bracketForm_matched_append (off len : Nat) (next : Option Byte) (rest : List Byte) :
    bracketForm (.matched off len next) ++ rest =
      lessThan :: (decimal off ++ comma :: (decimal len ++ greaterThan :: rest)) := by
  simp [bracketForm, lessThan, comma, greaterThan]

/-- What follows the '<' of a match token is read as its offset and its length (R250). -/
theorem bracketMatch_decimal {off len : Nat} {next : Option Byte} (h : BracketFits (.matched off len next))
    (rest : List Byte) :
    bracketMatch (decimal off ++ comma :: (decimal len ++ greaterThan :: rest)) = some (off, len, rest) := by
  obtain ⟨-, hoffLo, hoffHi, hlenLo, hlenHi⟩ := h
  rw [bracketMatch, number_decimal (by decide) (by decide) hoffLo hoffHi (by decide)]
  dsimp only
  rw [if_neg (not_not.mpr rfl), number_decimal (by decide) (by decide) hlenLo hlenHi (by decide)]
  dsimp only
  rw [if_neg (not_not.mpr rfl)]

/-- What is read as an offset and a length is what follows the '<' of a match token (R250). -/
theorem eq_decimal_of_bracketMatch {off len : Nat} {rest more : List Byte}
    (h : bracketMatch rest = some (off, len, more)) :
    BracketFits (.matched off len none) ∧
      rest = decimal off ++ comma :: (decimal len ++ greaterThan :: more) := by
  unfold bracketMatch at h
  split at h
  · cases h
  next off' rest1 hoff =>
  split at h
  · cases h
  next c rest2 =>
  split at h
  · cases h
  next hcomma =>
  split at h
  · cases h
  next len' rest3 hlen =>
  split at h
  · cases h
  next g rest4 =>
  split at h
  · cases h
  next hgreater =>
  cases h
  obtain ⟨hoffLo, hoffHi, rfl⟩ := eq_decimal_of_number hoff
  obtain ⟨hlenLo, hlenHi, rfl⟩ := eq_decimal_of_number hlen
  rw [not_not.mp hcomma, not_not.mp hgreater]
  exact ⟨⟨rfl, hoffLo, hoffHi, hlenLo, hlenHi⟩, rfl⟩

/-- The decoder tells an escaped '<' and a match apart by the byte after the '<' (R250). -/
theorem head_decimal_ne_lessThan {v : Nat} (hv : 1 ≤ v) (more : List Byte) :
    (decimal v ++ more).head? ≠ some lessThan := by
  obtain ⟨d, ds, hd, hfirst⟩ := decimal_head hv
  rw [hd]
  rintro ⟨⟩
  exact absurd hfirst (by decide)

/-- A token emits its replay at its offset, and decoding goes on behind it (R250). -/
theorem bracketDecode_token {cap : Nat} {tok : Token} {out out' : List Byte} (htok : BracketFits tok)
    (hreplay : replayOne out tok = some out') (hout : out.length ≤ cap) (fuel p : Nat) (rest : List Byte) :
    bracketDecode cap (fuel + 1) (bracketForm tok ++ rest) p out =
      (withinCap cap p out' >>= bracketDecode cap fuel rest (p + (bracketForm tok).length)) := by
  cases tok with
  | literal s =>
    cases hreplay
    by_cases hs : s = lessThan
    · subst hs
      rw [bracketForm_lessThan, List.cons_append, List.singleton_append, bracketDecode, if_neg (not_not.mpr rfl),
        if_pos List.head?_cons, emit_eq_withinCap _ p hout]
      cases withinCap cap p (out ++ [lessThan]) <;> rfl
    · rw [bracketForm_literal hs, List.singleton_append, bracketDecode, if_pos hs, emit_eq_withinCap s p hout]
      cases withinCap cap p (out ++ [s]) <;> rfl
  | matched off len next =>
    obtain ⟨hoff, hoffOut, rfl⟩ := replayOne_matched_eq_some hreplay
    obtain rfl : next = none := htok.1
    have hoffset : p + 1 + ((decimal off ++ comma :: (decimal len ++ greaterThan :: rest)).length - rest.length) =
        p + (bracketForm (.matched off len none)).length := by
      simp only [bracketForm, List.length_append, List.length_cons, List.length_nil]
      omega
    rw [bracketForm_matched_append, bracketDecode, if_neg (not_not.mpr rfl),
      if_neg (head_decimal_ne_lessThan hoff _), bracketMatch_decimal htok, ← hoffset]
    dsimp only
    rw [if_neg (Nat.not_lt.mpr hoffOut), emitCopy_eq_withinCap _ _ hoff hoffOut hout, Option.toList_none,
      List.append_nil]
    cases withinCap cap p (copyBack off len out) <;> rfl

/-- Bytes that begin no token are malformed where they stand (R250). -/
theorem bracketDecode_malformed (cap : Nat) {out bad : List Byte} (hne : bad ≠ [])
    (hbad : ¬ BeginsToken bracketForm BracketFits out bad) (fuel p : Nat) :
    bracketDecode cap (fuel + 1) bad p out = .error ⟨.malformedPayload, p⟩ := by
  obtain ⟨x, rest, rfl⟩ := List.exists_cons_of_ne_nil hne
  obtain rfl : x = lessThan := not_not.mp fun hx =>
    hbad ⟨.literal x, rest, trivial, rfl, by rw [bracketForm_literal hx, List.singleton_append]⟩
  have hhead : rest.head? ≠ some lessThan := fun hhead => by
    obtain ⟨more, rfl⟩ := List.head?_eq_some_iff.mp hhead
    exact hbad ⟨.literal lessThan, more, trivial, rfl, rfl⟩
  rw [bracketDecode, if_neg (not_not.mpr rfl), if_neg hhead]
  split
  · rfl
  next off len more hmatch =>
  obtain ⟨hfits, rfl⟩ := eq_decimal_of_bracketMatch hmatch
  refine if_pos (Nat.not_le.mp fun hoffOut => hbad ⟨.matched off len none, more, hfits, ?_, ?_⟩)
  · obtain ⟨-, hoff, -⟩ := hfits
    exact isSome_replayOne_matched none hoff hoffOut
  · rw [bracketForm_matched_append]

theorem bracketDecode_nil (cap fuel p : Nat) (out : List Byte) : bracketDecode cap fuel [] p out = .ok out := by
  cases fuel <;> rfl

theorem length_bracketForm_pos (tok : Token) : 1 ≤ (bracketForm tok).length := by
  cases tok with
  | literal s =>
    rw [bracketForm]
    split <;> simp
  | matched off len next => simp [bracketForm]

theorem decodesForm_bracket (cap : Nat) : DecodesForm cap bracketForm BracketFits (bracketDecode cap) where
  form_pos := length_bracketForm_pos
  nil := bracketDecode_nil cap
  token := bracketDecode_token
  malformed := bracketDecode_malformed cap

theorem execBody_lzbD (s : State) :
    execBody .lzbD s = (bracketDecode s.dstCap s.input.length s.input 0 []).map s.writeOut := by
  rw [execBody]
  cases bracketDecode s.dstCap s.input.length s.input 0 [] <;> rfl

/-- Settles O55: LZB_D is a decoder of tokens in their bracket form. -/
theorem lzBracketDecoderReplaysTokens : Obligations.LzBracketDecoderReplaysTokens := by
  unfold Obligations.LzBracketDecoderReplaysTokens
  intro s ts out hc hts hreplay hfit
  exact decodesTokens_of_execBody hc (decodesForm_bracket s.dstCap) (execBody_lzbD s) hts hreplay hfit

end Sys2Proof.Machine

namespace Sys2Proof.Machine

/-! ## The round trip of LZ77 (O56) -/

/-- An LZ77 encoder writes, in its form, tokens that replay to its input and that the decoder of that form decodes. -/
def RoundTrips (c d : Instr) (s u : State) : Prop :=
  ∃ (form : Token → List Byte) (fits : Token → Prop) (ts : List Token),
    EncodesTokens c s form ts ∧ (s.input.length ≤ u.opnd.dstCap.toNat → DecodesTokens d u form fits ts s.input)

theorem roundTrips_of_mem {c d : Instr} (hmem : (c, d) ∈ [(Instr.lzC, Instr.lzD), (.lzbC, .lzbD)]) {s u : State}
    (hc : s.checkPhase c = none) (hu : u.checkPhase d = none) (hw : s.opnd.window.toNat ≤ 4096) :
    RoundTrips c d s u := by
  simp only [List.mem_cons, List.not_mem_nil, or_false, Prod.mk.injEq] at hmem
  obtain ⟨rfl, rfl⟩ | ⟨rfl, rfl⟩ := hmem
  · obtain ⟨ts, -, hfits, hreplay, -, hencodes⟩ := lzCompactOutputReplaysToTheInput s hc
    exact ⟨compactForm, CompactFits, ts, hencodes, lzCompactDecoderReplaysTokens u ts s.input hu hfits hreplay⟩
  · obtain ⟨ts, -, hfits, hreplay, -, hencodes⟩ := lzBracketOutputReplaysToTheInput s hc
    exact ⟨bracketForm, BracketFits, ts, hencodes, lzBracketDecoderReplaysTokens u ts s.input hu (hfits hw) hreplay⟩

/-- An encoder that ended without an error code stored all its forms. -/
theorem EncodesTokens.read {c : Instr} {s t : State} {form : Token → List Byte} {ts : List Token}
    (h : EncodesTokens c s form ts) (hexec : exec c s = .next t) (hdone : t.ctl.errCode = none) :
    t.memRead s.opnd.dstAddr.toNat t.res.dstLen.toNat = ts.flatMap form := by
  obtain ⟨hfits, hoverflows⟩ := h
  have hfit : (ts.flatMap form).length ≤ s.opnd.dstCap.toNat := Nat.not_lt.mp fun hover => by
    obtain ⟨pos, -, hraises⟩ := hoverflows hover
    exact not_raises hexec hdone _ _ hraises
  obtain ⟨t', hexec', -, ⟨hread, -⟩, -, hres⟩ := hfits hfit
  rw [hexec] at hexec'
  cases hexec'
  rw [hres, BitVec.toNat_ofNat, Nat.mod_eq_of_lt (hfit.trans_lt s.opnd.dstCap.isLt)]
  exact hread

/-- Settles O56: the encoder stored tokens that replay to its input (O52, O53), and the decoder of their form gives that
replay (O54, O55). -/
theorem lzRoundTripIsExact : Obligations.LzRoundTripIsExact := by
  unfold Obligations.LzRoundTripIsExact
  intro c d s t u hmem hexec hdone _ hw _ huc hin hcap
  obtain ⟨-, hc, -, -⟩ := exec_done hexec hdone
  obtain ⟨form, fits, ts, hencodes, hdecodes⟩ := roundTrips_of_mem hmem hc huc hw
  rw [← State.input_length] at hcap
  obtain ⟨hgives, -⟩ := hdecodes hcap
  obtain ⟨v, hv, hcompleted, hstored, -, hres⟩ := hgives (hin.trans (hencodes.read hexec hdone))
  have hlen : v.res.dstLen = s.opnd.srcLen := by rw [hres, State.input_length]; exact BitVec.ofNat_toNat _ _
  refine ⟨v, hv, by rw [hcompleted.1], hlen, ?_⟩
  rw [hlen, ← State.input_length]
  exact hstored.1

end Sys2Proof.Machine

namespace Sys2Proof.Machine

/-! ## Errors and the interrupt line (O8, O10, O25) -/

/-! ### Completion of any word -/

/-- The command step of any word, legal or not, answers a next state (R110, R111). -/
theorem commandStep_next (w : Word) (s : State) : ∃ t, commandStep w s = .next t := by
  unfold commandStep
  split
  · next i _ => exact exec_next i s
  · exact ⟨_, rfl⟩

/-- The command step of any word ends in one of the two completions of R116, with the control registers as they were
before it. -/
theorem commandStep_completes {w : Word} {s t : State} (h : commandStep w s = .next t) :
    ∃ u : State, u.ctl = s.ctl ∧ (t = u.completeSuccess ∨ ∃ r, t = u.completeError r) := by
  obtain ⟨i, -, hi⟩ | rfl := commandStep_cases h
  · obtain ⟨r, -, rfl⟩ | ⟨u, -, hu, rfl⟩ | ⟨r, -, -, rfl⟩ := exec_cases hi
    · exact ⟨s, rfl, .inr ⟨r, rfl⟩⟩
    · obtain ⟨hctl, -⟩ := execBody_leaves hu
      exact ⟨u, hctl, .inl rfl⟩
    · exact ⟨s.failEffects i, rfl, .inr ⟨r, rfl⟩⟩
  · exact ⟨s, rfl, .inr ⟨_, rfl⟩⟩

/-- No error kind has the code 0, which says that there is none (R26, R280). -/
theorem CodecError.code_ne_zero (e : CodecError) : e.code ≠ 0 := by
  cases e <;> decide

/-- Settles O10: of the two completions one sets DONE and clears the error, the other sets ERR with the code of its
error. -/
theorem everyCommandCompletesWithDoneOrErr : Obligations.EveryCommandCompletesWithDoneOrErr := by
  unfold Obligations.EveryCommandCompletesWithDoneOrErr
  intro s w hdone herr
  obtain ⟨t, ht⟩ := commandStep_next w s
  refine ⟨t, ht, ?_⟩
  obtain ⟨u, hctl, rfl | ⟨r, rfl⟩⟩ := commandStep_completes ht
  · exact ⟨rfl, rfl, .inl ⟨rfl, (congrArg Control.err hctl).trans herr, rfl, rfl⟩⟩
  · exact ⟨rfl, rfl, .inr ⟨(congrArg Control.done hctl).trans hdone, rfl, r.err.code_ne_zero⟩⟩

/-! ### The check of the needed flag and of the metadata -/

/-- A command whose check phase raises changes STATUS and ERR_POS as checkFailed says (R112, R288). -/
theorem exec_of_checkPhase_some {i : Instr} {s : State} {e : CodecError} {pos : Nat}
    (hc : s.checkPhase i = some ⟨e, pos⟩) : exec i s = .next (checkFailed s e pos) := by
  rw [exec_eq_command]
  exact command_checkError _ hc

/-- After the region checks a needed flag that is 0 raises SEQUENCE(0) (R112, R283). -/
theorem exec_of_flagClear {i : Instr} {s : State} (hr : s.rangeError (usesOf i) = none)
    (hf : neededFlag s.tbl i = false) : exec i s = .next (checkFailed s .sequence 0) :=
  exec_of_checkPhase_some (by simp [State.checkPhase, hr, hf])

/-- After the region checks and the check of the flag, absent metadata raises MISSING_METADATA(0) (R112, R285). -/
theorem exec_of_metadataAbsent {i : Instr} {s : State} (hr : s.rangeError (usesOf i) = none)
    (hf : neededFlag s.tbl i = true) (hm : metadataPresent s.opnd i = false) :
    exec i s = .next (checkFailed s .missingMetadata 0) :=
  exec_of_checkPhase_some (by simp [State.checkPhase, hr, hf, hm])

/-- Settles O8, by the flag each command needs; the commands that need a tree in the metadata need no flag. -/
theorem invalidTableRaisesSequence : Obligations.InvalidTableRaisesSequence := by
  unfold Obligations.InvalidTableRaisesSequence
  intro i s hr
  simp only [List.mem_cons, List.not_mem_nil, or_false]
  constructor
  · intro hflag
    refine exec_of_flagClear hr ?_
    obtain ⟨rfl, hfv⟩ | ⟨hi, htv⟩ | ⟨rfl, hcv⟩ := hflag
    · exact hfv
    · obtain rfl | rfl | rfl | rfl := hi <;> exact htv
    · exact hcv
  · intro hi hlen
    obtain rfl | rfl | rfl := hi <;> exact exec_of_metadataAbsent hr rfl (by simp [metadataPresent, hlen])

/-! ### The interrupt line (R294) -/

/-- The interrupt line depends on IRQ_EN, DONE and ERR alone. -/
theorem State.irq_eq (s : State) : s.irq = (s.ctl.irqEn && (s.ctl.done || s.ctl.err)) := rfl

/-- Once a word has completed, the interrupt line is IRQ_EN. -/
theorem irq_of_commandStep {w : Word} {s t : State} (h : commandStep w s = .next t) : t.irq = s.ctl.irqEn := by
  obtain ⟨u, hctl, rfl | ⟨r, rfl⟩⟩ := commandStep_completes h
  · simp [State.irq_eq, hctl]
  · simp [State.irq_eq, hctl]

/-- Settles O25, by what completion and each register write do to IRQ_EN, DONE and ERR. -/
theorem interruptFollowsCompletion : Obligations.InterruptFollowsCompletion := by
  unfold Obligations.InterruptFollowsCompletion
  refine ⟨State.irq_eq, fun s t w => irq_of_commandStep, fun s w hidle => ?_, fun s v hdone herr => ?_,
    fun s v hsrst => ?_, fun s w hbusy => ?_, fun s v hsrst => ?_, rfl⟩
  · have haccepted : s.hostWritesReg .cmd w = s.acceptCommand w := State.writeCmd_idle hidle w
    simp [haccepted, State.irq_eq]
  · have hcleared : s.hostWritesReg .status v = s.writeStatus v := rfl
    simp [hcleared, State.irq_eq, hdone, herr]
  · rw [hostWritesReg_ctrl hsrst, State.irq_eq]
  · have hdropped : s.hostWritesReg .cmd w = { s with ctl := { s.ctl with cmdOvf := true } } :=
      State.writeCmd_busy hbusy w
    rw [hdropped, State.irq_eq, State.irq_eq]
  · rw [hostWritesReg_srst hsrst]
    rfl

end Sys2Proof.Machine

namespace Sys2Proof.Machine

/-! ## Turns, soft reset and hazards (O6, O24, O26) -/

/-! ### Whose turn it is (R83, R345) -/

theorem State.busy_of_idle {s : State} (h : s.ctl.seq = .idle) : s.busy = false := by
  simp only [State.busy, h]

theorem State.busy_of_pending {s : State} {w : Word} (h : s.ctl.seq = .pending w) : s.busy = true :=
  s.busy_iff.mpr ⟨w, h⟩

theorem nextAgent_of_turns {s : State} {a : Agent} {rest : List Agent} (h : s.host.turns = a :: rest) :
    s.nextAgent = a := by
  simp only [State.nextAgent, h]

theorem nextAgent_of_noTurns {s : State} (h : s.host.turns = []) :
    s.nextAgent = if s.busy then .engine else .host := by
  simp only [State.nextAgent, h]

theorem passTurn_of_turns {s : State} {a : Agent} {rest : List Agent} (h : s.host.turns = a :: rest) :
    s.passTurn = { s with host := { s.host with turns := rest } } := by
  rw [State.passTurn, h, List.tail_cons]

/-- Where no order of turns is given there is no turn to use up. -/
theorem passTurn_of_noTurns {s : State} (h : s.host.turns = []) : s.passTurn = s := by
  rw [State.passTurn, h, List.tail_nil, ← h]

/-- In the engine's turn with no command pending nothing happens (R110). -/
theorem step_of_idle {s : State} (ha : s.nextAgent = .engine) (hi : s.ctl.seq = .idle) : step s = .next s.passTurn := by
  have hi' : s.passTurn.ctl.seq = .idle := hi
  simp only [step, agentStep, ha, engineTurn, hi']

theorem step_of_host {s : State} (ha : s.nextAgent = .host) : step s = hostTurn s.passTurn := by
  simp only [step, agentStep, ha]

theorem hostTurn_of_nil {s : State} (h : s.host.prog = []) : hostTurn s = .next s := by
  simp only [hostTurn, h]

theorem hostTurn_of_cons {s : State} {op : HostOp} {ops : List HostOp} (h : s.host.prog = op :: ops) :
    hostTurn s = hostOperation op { s with host := { s.host with prog := ops } } := by
  simp only [hostTurn, h]

/-- The step is the host's when the list of turns says so, and with no order given when no command is pending. -/
theorem step_of_hostTurn {s : State} {rest : List Agent}
    (h : s.host.turns = .host :: rest ∨ (s.host.turns = [] ∧ rest = [] ∧ s.ctl.seq = .idle)) :
    step s = hostTurn { s with host := { s.host with turns := rest } } := by
  obtain hturns | ⟨hturns, rfl, hidle⟩ := h
  · rw [step_of_host (nextAgent_of_turns hturns), passTurn_of_turns hturns]
  · have ha : s.nextAgent = .host := by simp [nextAgent_of_noTurns hturns, State.busy_of_idle hidle]
    rw [step_of_host ha, State.passTurn, hturns, List.tail_nil]

theorem after_of_step {s t : State} (h : step s = .next t) (n : Nat) : after (n + 1) s = after n t := by
  simp only [after, h]

/-- The turns of a host with no operation left pass and change nothing but the list of turns. -/
theorem after_of_hostTurns {s : State} {k : Nat} {rest : List Agent} (hprog : s.host.prog = [])
    (hturns : s.host.turns = List.replicate k .host ++ rest) (n : Nat) :
    after (n + k) s = after n { s with host := { s.host with turns := rest } } := by
  induction k generalizing s with
  | zero =>
    have hrest : s.host.turns = rest := hturns
    rw [← hrest, Nat.add_zero]
  | succ k ih =>
    have hcons : s.host.turns = .host :: (List.replicate k .host ++ rest) := hturns
    let u : State := { s with host := { s.host with turns := List.replicate k .host ++ rest } }
    have hstep : step s = .next u := (step_of_hostTurn (.inl hcons)).trans (hostTurn_of_nil hprog)
    rw [← Nat.add_assoc, after_of_step hstep]
    exact ih (s := u) hprog rfl

/-- A STATUS read gives its word at any time and draws nothing (R26, R65). -/
theorem hostReadsOffset_status (s : State) (addr : Nat) :
    s.hostReadsOffset addr Reg.status.offset = s.received (.reg addr (s.regValue .status)) := by
  simp [State.hostReadsOffset, Reg.ofOffset_offset, State.hostReadsReg, Reg.drawnWhileBusy]

/-- WAIT reads STATUS and stays the next operation while the word it reads has BUSY = 1 (R98). -/
theorem hostOperation_wait (s : State) : hostOperation .wait s = .next { s with host := { s.host with
    prog := if (s.regValue .status).getLsbD 0 then .wait :: s.host.prog else s.host.prog
    seen := .reg (s.params.regBase + 0x008) (s.regValue .status) :: s.host.seen } } := by
  have hbit : (s.regValue .status).getLsbD 0 = s.busy := (statusFieldsAndWriteOneToClear.1 s).1
  simp only [hostOperation, hostReadsOffset_status, hbit]
  cases s.busy <;> rfl

/-- Settles O6: a host with no operation left lets its turns pass, by induction on their number; the engine's turn is
the command step, the host's turn its next operation. -/
theorem pendingCommandHasItsStep : Obligations.PendingCommandHasItsStep := by
  unfold Obligations.PendingCommandHasItsStep
  refine ⟨fun s w i hp hd hprog => ⟨fun k rest hturns t ht => ?_, fun hturns => ?_⟩, fun s rest hturns hidle => ?_,
    fun s rest h => ⟨fun hprog => ?_, fun op ops hprog => ?_, fun ops hprog => ?_⟩⟩
  · let u : State := { s with host := { s.host with turns := .engine :: rest } }
    have hstep : step u = .next t :=
      (step_of_pending (s := u) rfl hp).trans ((commandStep_of_legal hd _).trans ht)
    rw [Nat.add_comm, after_of_hostTurns hprog hturns]
    exact after_of_step hstep 0
  · have ha : s.nextAgent = .engine := by simp [nextAgent_of_noTurns hturns, State.busy_of_pending hp]
    rw [step_of_pending ha hp, commandStep_of_legal hd, passTurn_of_noTurns hturns]
  · rw [step_of_idle (nextAgent_of_turns hturns) hidle, passTurn_of_turns hturns]
  · exact (step_of_hostTurn h).trans (hostTurn_of_nil hprog)
  · exact (step_of_hostTurn h).trans (hostTurn_of_cons hprog)
  · let u : State := { s with host := { s.host with turns := rest } }
    exact (step_of_hostTurn h).trans ((hostTurn_of_cons (s := u) hprog).trans (hostOperation_wait _))

/-! ### The memory after a soft reset (R321) -/

theorem Region.holds_iff (r : Region) (x : Nat) : r.holds x = true ↔ r.base ≤ x ∧ x < r.base + r.len := by
  simp [Region.holds]

/-- A clipped region holds the bytes of the region that lie in the buffer. -/
theorem Region.holds_clipped (r : Region) (size x : Nat) :
    (r.clipped size).holds x = true ↔ x < size ∧ r.holds x = true := by
  simp only [Region.holds_iff, Region.clipped]
  omega

theorem abortPending_of_idle {s : State} (h : s.ctl.seq = .idle) : s.abortPending = s := by
  simp only [State.abortPending, h]

theorem abortPending_of_illegal {s : State} {w : Word} (h : s.ctl.seq = .pending w) (hd : ∀ i, decode w ≠ .ok i) :
    s.abortPending = s := by
  cases hw : decode w with
  | ok i => exact absurd hw (hd i)
  | error r => simp only [State.abortPending, h, hw]

theorem abortPending_of_legal {s : State} {w : Word} {i : Instr} (h : s.ctl.seq = .pending w) (hd : decode w = .ok i) :
    s.abortPending = { s with mem := s.abortOutputs (usesOf i), draws := s.draws + 1 } := by
  simp only [State.abortPending, h, hd]

/-- The memory after an abort: the output regions drawn as far as they lie in the buffer, every other byte as before. -/
theorem byteAt_of_abortOutputs {s t : State} {u : Uses} (h : t.mem = s.abortOutputs u) (x : Nat) :
    t.byteAt x =
      if x < s.params.bufSize ∧ (u.dst = true ∧ s.dstRegion.holds x = true ∨
          u.mda = .output ∧ s.mdoRegion.holds x = true)
        then Config.freeByte s.draws x else s.byteAt x := by
  let dst := s.dstRegion.clipped s.params.bufSize
  let mdo := s.mdoRegion.clipped s.params.bufSize
  have hmem : t.mem =
      (let m := if u.dst then Memory.havoc s.mem s.draws dst.base dst.len else s.mem
        if decide (u.mda = .output) then Memory.havoc m s.draws mdo.base mdo.len else m) := by
    rw [h, State.abortOutputs]
    cases u.mda <;> rfl
  rw [State.byteAt_of_havoc_two s t _ _ _ _ _ _ _ hmem]
  simp only [decide_eq_true_iff, ← Region.holds_iff, dst, mdo, Region.holds_clipped]
  exact if_congr (by tauto) rfl rfl

/-- Settles O24: a soft reset leaves the block as launched, and the memory as the abort of the pending command does. -/
theorem softResetAbortsAndResets : Obligations.SoftResetAbortsAndResets := by
  unfold Obligations.SoftResetAbortsAndResets
  intro s v hv
  dsimp only
  rw [hostWritesReg_srst hv]
  refine ⟨rfl, rfl, rfl, rfl, rfl, fun hidle => ?_, fun w hp hd => ?_, fun w i x hp hd => ?_⟩
  · rw [State.resetBlock_mem, abortPending_of_idle hidle]
  · rw [State.resetBlock_mem, abortPending_of_illegal hp hd]
  · have hmem : s.resetBlock.mem = s.abortOutputs (usesOf i) := by
      rw [State.resetBlock_mem, abortPending_of_legal hp hd]
    rw [byteAt_of_abortOutputs hmem]
    simp only [Region.holds_iff, State.dstRegion, State.mdoRegion]

/-! ### Host accesses to the buffer (R70, R340) -/

/-- A region meets a range of addresses exactly where they share a byte. -/
theorem Region.disjoint_iff_no_shared_byte (r : Region) (a n : Nat) :
    r.disjoint ⟨a, n⟩ = true ↔ ∀ x, a ≤ x → x < a + n → ¬ r.holds x = true := by
  simp only [Region.disjoint_iff, Region.holds_iff]
  constructor
  · intro h x hlo hhi
    omega
  · intro h
    have := h (max r.base a)
    omega

/-- The regions a command uses are those of the table of R73. -/
theorem State.mem_regionsOf {s : State} {u : Uses} {r : Region} :
    r ∈ s.regionsOf u ↔ (u.src = true ∧ r = s.srcRegion) ∨ (u.dst = true ∧ r = s.dstRegion) ∨
      (u.mda = .input ∧ r = s.mdiRegion) ∨ (u.mda = .output ∧ r = s.mdoRegion) := by
  obtain ⟨src, dst, mda⟩ := u
  cases mda <;> simp [State.regionsOf, State.metaRegion]

theorem pendingRegions_of_idle {s : State} (h : s.ctl.seq = .idle) : s.pendingRegions = [] := by
  simp only [State.pendingRegions, h]

theorem pendingRegions_of_illegal {s : State} {w : Word} (h : s.ctl.seq = .pending w) (hd : ∀ i, decode w ≠ .ok i) :
    s.pendingRegions = [] := by
  cases hw : decode w with
  | ok i => exact absurd hw (hd i)
  | error r => simp only [State.pendingRegions, h, hw]

theorem pendingRegions_of_legal {s : State} {w : Word} {i : Instr} (h : s.ctl.seq = .pending w)
    (hd : decode w = .ok i) : s.pendingRegions = s.regionsOf (usesOf i) := by
  simp only [State.pendingRegions, h, hd]

/-- The bytes of the regions of the pending command, from the operand registers (R73). -/
theorem exists_pendingRegion_holds_iff {s : State} {w : Word} {i : Instr} (h : s.ctl.seq = .pending w)
    (hd : decode w = .ok i) (x : Nat) : (∃ r ∈ s.pendingRegions, r.holds x = true) ↔
      ((usesOf i).src = true ∧ s.opnd.srcAddr.toNat ≤ x ∧ x < s.opnd.srcAddr.toNat + s.opnd.srcLen.toNat) ∨
      ((usesOf i).dst = true ∧ s.opnd.dstAddr.toNat ≤ x ∧ x < s.opnd.dstAddr.toNat + s.opnd.dstCap.toNat) ∨
      ((usesOf i).mda = .input ∧ s.opnd.mdaAddr.toNat ≤ x ∧ x < s.opnd.mdaAddr.toNat + s.opnd.mdaInLen.toNat) ∨
      ((usesOf i).mda = .output ∧ s.opnd.mdaAddr.toNat ≤ x ∧ x < s.opnd.mdaAddr.toNat + s.opnd.mdaCap.toNat) := by
  rw [pendingRegions_of_legal h hd]
  simp only [State.mem_regionsOf, or_and_right, exists_or, and_assoc, exists_and_left, exists_eq_left,
    Region.holds_iff, State.srcRegion, State.dstRegion, State.mdiRegion, State.mdoRegion]

theorem hostMemFault_beyond {s : State} {a n : Nat} (hn : n ≠ 0) (hbuf : s.params.bufSize < a + n) :
    s.hostMemFault a n = some .noSuchBufferAddress := by
  rw [State.hostMemFault, if_pos ⟨hn, hbuf⟩]

/-- An access inside the buffer that shares a byte with a region of the pending command is a hazard. -/
theorem hostMemFault_of_shared_byte {s : State} {a n x : Nat} {r : Region} (hbuf : a + n ≤ s.params.bufSize)
    (hr : r ∈ s.pendingRegions) (hlo : a ≤ x) (hhi : x < a + n) (hx : r.holds x = true) :
    s.hostMemFault a n = some .regionHazard := by
  have hmeet : r.disjoint ⟨a, n⟩ = false := by
    rw [← Bool.not_eq_true, Region.disjoint_iff_no_shared_byte]
    exact fun h => h x hlo hhi hx
  have hany : s.pendingRegions.any (fun r => !r.disjoint ⟨a, n⟩) = true :=
    List.any_eq_true.mpr ⟨r, hr, by simp [hmeet]⟩
  rw [State.hostMemFault, if_neg (by omega), if_pos hany]

/-- An access inside the buffer that shares no byte with a region of the pending command does not stop. -/
theorem hostMemFault_of_no_shared_byte {s : State} {a n : Nat} (hbuf : a + n ≤ s.params.bufSize)
    (h : ∀ r ∈ s.pendingRegions, ∀ x, a ≤ x → x < a + n → ¬ r.holds x = true) : s.hostMemFault a n = none := by
  have hany : ¬ s.pendingRegions.any (fun r => !r.disjoint ⟨a, n⟩) = true := by
    rw [List.any_eq_true]
    rintro ⟨r, hr, hmeet⟩
    simp [(r.disjoint_iff_no_shared_byte a n).mpr (h r hr)] at hmeet
  rw [State.hostMemFault, if_neg (by omega), if_neg hany]

/-- A write and a read of the same bytes stop for the same reason. -/
theorem hostAccess_fault {s : State} {a : Nat} {bs : List Byte} {f : Fault}
    (h : s.hostMemFault a bs.length = some f) :
    hostOperation (.writeMem a bs) s = .fault f ∧ hostOperation (.readMem a bs.length) s = .fault f := by
  simp only [hostOperation, h, and_self]

theorem hostOperation_writeMem {s : State} {a : Nat} {bs : List Byte} (h : s.hostMemFault a bs.length = none) :
    hostOperation (.writeMem a bs) s = .next { s with mem := Memory.write s.mem a bs } := by
  simp only [hostOperation, h]

/-- An access that does not stop stores exactly its bytes, or reads the bytes that are there. -/
theorem hostAccess_safe {s : State} {a : Nat} {bs : List Byte} (h : s.hostMemFault a bs.length = none) :
    (∃ t, hostOperation (.writeMem a bs) s = .next t ∧ t = { s with mem := t.mem } ∧
      t.memRead a bs.length = bs ∧ ∀ x, (x < a ∨ a + bs.length ≤ x) → t.byteAt x = s.byteAt x) ∧
    hostOperation (.readMem a bs.length) s =
      .next { s with host := { s.host with seen := .mem a (s.memRead a bs.length) :: s.host.seen } } := by
  refine ⟨⟨_, hostOperation_writeMem h, rfl, State.memRead_of_write s _ a bs rfl, fun x hx => ?_⟩, ?_⟩
  · rw [State.byteAt_of_write s _ a bs rfl, if_neg (by omega)]
  · simp only [hostOperation, h]
    rfl

/-- A write that shares no byte with a region is not seen by a read of the region. -/
theorem memRead_of_write_outside {s t : State} {a : Nat} {bs : List Byte} (h : t.mem = Memory.write s.mem a bs)
    {r : Region} (hr : ∀ x, a ≤ x → x < a + bs.length → ¬ r.holds x = true) :
    t.memRead r.base r.len = s.memRead r.base r.len := by
  have hagree : Memory.AgreeOn r.base r.len t.mem s.mem := fun x hlo hhi => by
    rw [h, Memory.read_write, if_neg fun hx => hr x hx.1 hx.2 ((r.holds_iff x).mpr ⟨hlo, hhi⟩)]
  exact hagree.memRead le_rfl

/-- Settles O26: an access inside the buffer is a fault exactly where it shares a byte with a region in use, and where
it does not, the command reads the same input and metadata. -/
theorem hostAccessToPendingRegionsFaults : Obligations.HostAccessToPendingRegionsFaults := by
  unfold Obligations.HostAccessToPendingRegionsFaults
  refine ⟨fun s w i a bs hp hd hbuf => ?_, fun s a bs hbuf hnone => ?_, fun s a bs hne hbuf => ?_⟩
  · dsimp only
    simp only [← exists_pendingRegion_holds_iff hp hd]
    refine ⟨fun ⟨x, hlo, hhi, r, hr, hx⟩ => ?_, fun hapart => ?_⟩
    · exact hostAccess_fault (hostMemFault_of_shared_byte hbuf hr hlo hhi hx)
    · have hno : ∀ r ∈ s.pendingRegions, ∀ x, a ≤ x → x < a + bs.length → ¬ r.holds x = true :=
        fun r hr x hlo hhi hx => hapart x hlo hhi ⟨r, hr, hx⟩
      have hfault := hostMemFault_of_no_shared_byte hbuf hno
      refine ⟨hostAccess_safe hfault, fun t ht => ?_⟩
      obtain rfl := Host.Outcome.next.inj ((hostOperation_writeMem hfault).symm.trans ht)
      rw [pendingRegions_of_legal hp hd] at hno
      exact ⟨fun hsrc => memRead_of_write_outside rfl (hno s.srcRegion (State.mem_regionsOf.mpr (.inl ⟨hsrc, rfl⟩))),
        fun hmda => memRead_of_write_outside rfl
          (hno s.mdiRegion (State.mem_regionsOf.mpr (.inr (.inr (.inl ⟨hmda, rfl⟩)))))⟩
  · have hregions : s.pendingRegions = [] := by
      obtain hidle | ⟨w, hp, hd⟩ := hnone
      · exact pendingRegions_of_idle hidle
      · exact pendingRegions_of_illegal hp hd
    exact hostAccess_safe (hostMemFault_of_no_shared_byte hbuf (by simp [hregions]))
  · have hlen : bs.length ≠ 0 := fun h => hne (List.eq_nil_of_length_eq_zero h)
    exact hostAccess_fault (hostMemFault_beyond hlen hbuf)

end Sys2Proof.Machine
